-- ==== Sys2Proof/Word.lean ====
section
/-! DEFINITION. The word types of the SF4 model, the index types of its fixed collections, and what HRX brings.

Bit vectors are used only where the manual treats a quantity as bits: bytes on a line, 16-bit and 32-bit
message fields, the wrapping Timebase and the wrapping sequence numbers. Counts and sizes are `Nat`. -/

namespace Sys2Proof

/-- One byte (a character value, a byte of a message). -/
abbrev Byte := BitVec 8

/-- A 16-bit word: a body CRC, a notice mask, a send id, a notice subject. -/
abbrev Half := BitVec 16

/-- A 32-bit word: a Timebase value (R151) or a sequence number (R52), both wrapping. -/
abbrev Word := BitVec 32

/-- A stream port P0 to P3. -/
abbrev PortId := Fin 4

/-- A store S0 to S7. -/
abbrev StoreId := Fin 8

/-- A rule of the pool, id 0 to 127 (R1). -/
abbrev RuleId := Fin 128

/-- A reply template, id 0 to 15 (R27). -/
abbrev TemplateId := Fin 16

/-- A payload descriptor, number 0 to 255 (R32). -/
abbrev DescId := Fin 256

/-- A block of Record Memory, index 0 to 1,023 (R30). -/
abbrev BlockId := Fin 1024

/-- R138. What HRX brings: a byte with the level of its stop bit, or a low period longer than one byte time. -/
inductive HrxItem where
  | byte (value : Byte) (stopHigh : Bool)
  | lowPeriod
  deriving DecidableEq, Repr

end Sys2Proof
end

