-- ==== Sys2Proof/Syntax.lean ====
section
/-! DEFINITION. The commands of the SF4: one constructor for each row of spec/opcode_table.json, in the table's
order. A request row (HELLO to OP_CANCEL, R145) is the Request Executor's taking of the oldest waiting request
of that kind; the request's operands are the body bytes that MESSAGE_ARRIVAL put into the request queue, so
the constructor carries none. An event row carries what the event brings from outside: the port, the store or
the send id it happens to, and the bits that arrive. -/

namespace Sys2Proof

inductive Instr where
  /-- R153. Power is applied with the RATE1 and RATE0 straps at the levels given. -/
  | powerUp (rate1 rate0 : Bool)
  /-- R153. The RESET input is asserted. -/
  | resetAssert
  /-- R153. The RESET input is released. -/
  | resetRelease
  /-- R148. The HOLD input is asserted. -/
  | holdAssert
  /-- R148. The HOLD input is released. -/
  | holdRelease
  /-- R138, R142. HRX brings these items, and the last byte of them completes a well-formed request. -/
  | messageArrival (items : List HrxItem)
  /-- R138, R139. HRX brings these items, and the last byte of them ends a bad header. -/
  | badHeader (items : List HrxItem)
  /-- R138, R141. HRX brings these items, and the last byte of them completes a message of bad CRC. -/
  | badCrc (items : List HrxItem)
  /-- R140. 20 ms have passed inside a message without a byte. -/
  | interByteTimeout
  /-- R145. The Executor takes a request of a kind that is no request kind. -/
  | unknownKind
  | hello
  | ping
  | restart
  | timeGet
  | timeSet
  | portConfig
  | framerConfig
  | portStart
  | portPause
  | portResume
  | portStop
  | portReset
  | portStatus
  | ruleWrite
  | ruleLink
  | ruleUnlink
  | ruleFree
  | ruleEnable
  | ruleRead
  | chainList
  | defaultSet
  | templateWrite
  | storeConfig
  | storeOpen
  | storePause
  | storeClose
  | storeRead
  | storeAck
  | storeRewind
  | storeStatus
  | storePurge
  /-- R69. The purge of a PURGING store removes its head record. -/
  | purgeRemoval (store : StoreId)
  | send
  | sendCancel
  | sendStatus
  | portDrain
  | memoryStatus
  | memoryCheck
  /-- R45. The walk of MEMORY_CHECK examines its next index. -/
  | memoryCheckExamine
  | memoryLowSet
  | noticeCredit
  | noticeMask
  | countersRead
  | countersClear
  | opList
  | opCancel
  /-- R147. The arbiter begins the oldest reply. -/
  | replyBegin
  /-- R144. The last byte of the reply on HTX has been sent. -/
  | replyEnd
  /-- R147. The arbiter begins the oldest eligible completion report. -/
  | completionReportBegin
  /-- R165. The last byte of the completion report on HTX has been sent. -/
  | completionReportEnd
  /-- R159. The arbiter begins the oldest notice. -/
  | noticeSend
  /-- R107. The first stop bit of a character is sampled: its data bits (with 7 data bits, bits 6 to 0), its
  parity bit as received (not looked at with parity NONE) and the level of the stop bit. -/
  | characterReceived (port : PortId) (data : Byte) (parityBit stopHigh : Bool)
  /-- R108. The receive line has been low for one character time. -/
  | breakDetected (port : PortId)
  /-- R108. The receive line returns high after a break. -/
  | breakEnd (port : PortId)
  /-- R74. The framer takes the oldest item of its FIFO. -/
  | framerTakeItem (port : PortId)
  /-- R111. The quiet time reaches the limit of the framer's mode. -/
  | quietTimeExpiry (port : PortId)
  /-- R14. The IDLE Classifier takes the oldest pending frame. -/
  | classificationStart
  /-- R17. The walk visits the next rule of the chain. -/
  | walkVisit
  /-- R23. The classification ends. -/
  | classificationEnd
  /-- R121. The scheduler selects an entry for the port's idle transmitter. -/
  | selection (port : PortId)
  /-- R122. The send gap of the port has passed. -/
  | sendGapExpiry (port : PortId)
  /-- R124. The turnaround wait of the port ends. -/
  | turnaroundEnd (port : PortId)
  /-- R125. The character on the port's transmit line ends. -/
  | characterSent (port : PortId)
  /-- R125. The trailing hold of the port ends. -/
  | trailingHoldExpiry (port : PortId)
  /-- R127. The TTL of the entry with this send id reaches 0. -/
  | ttlExpiry (sendId : Half)
  /-- R133. The deadline of the port's drain is reached. -/
  | drainDeadline (port : PortId)
  /-- R111. The next start bit falls on the port's receive line. -/
  | startBit (port : PortId)
  /-- R107. After a character with a low stop bit the receive line returns high within one character time. -/
  | framingErrorEnd (port : PortId)
  deriving DecidableEq, Repr

end Sys2Proof
end

