-- ==== Sys2Proof/Decode.lean ====
section
/-! DEFINITION. The command that a word of the opcode table spells. No row of spec/opcode_table.json gives any
bits ("fields" is empty in every row), so no word spells a command; the SF4 is a block that takes commands,
and its messages are decoded by the link receiver (Machine/Receiver.lean) and by the field checks of the
Request Executor (Machine/Operands.lean). -/

namespace Sys2Proof

/-- The command spelled by a word of `nbits` bits: none, since no row of the table gives bits. -/
def decodeTableWord (_nbits _w : Nat) : Option Instr := none

end Sys2Proof
end

