-- ==== Sys2Proof/Config.lean ====
section
/-! DEFINITION. The values the manual leaves open. Each is an opaque constant: nothing can be proved of its
value, so a statement that holds of the model holds whatever the value is. -/

namespace Sys2Proof

/-- One disturbance of the storage of Record Memory (R30): a byte of a block is changed, and afterwards the
block's stored check code agrees with its stored bytes or does not. -/
structure Upset where
  block : BlockId
  offset : Fin 48
  byte : Byte
  agrees : Bool
  deriving DecidableEq, Repr

/-- Free value (log entry 3). The disturbances that the storage suffers in the microsecond with this number.
R30 says only that the storage itself can disturb a block's stored bytes or stored code. -/
opaque Config.upsets : Nat → List Upset

/-- Free value (log entry 11). Whether a RULE_WRITE whose length minimum and maximum are wrong together names
the maximum (field 7) and not the minimum (field 6) as the offending field; the arguments are the minimum and
the maximum of the request. -/
opaque Config.lengthRangeNamesMaximum : Nat → Nat → Bool

/-- Free value (log entry 12). Whether a TEMPLATE_WRITE of byte count 0 with an echo present names the
echo-present field (2) and not the byte count (6). -/
opaque Config.emptyEchoNamesPresence : Bool

/-- Free value (log entry 13). Whether a FRAMER_CONFIG whose field width is out of range, and whose field
offset and width together pass the maximum frame length, names the offset (18) and not the width (19). -/
opaque Config.badWidthNamesOffset : Bool

end Sys2Proof
end

