-- ==== Sys2Proof/Machine/Types.lean ====
section
/-! DEFINITION. The records that the blocks of the SF4 hold: the enumerations of the manual's code tables and the
entries of its collections, each in the manual's own names. -/

namespace Sys2Proof.Machine

/-! ### Replies, resets and the kinds of request -/

/-- R153. What a device reset was caused by. -/
inductive ResetCause where
  | powerUp | resetLine | restart
  deriving DecidableEq, Repr

/-- R145, "Code tables". The status of a reply. -/
inductive Status where
  | ok | accepted | badCrc | badLength | unknownKind | badParam | tagInUse | windowFull | wrongState
  | notFound | notDelivered | storeBusy | portDraining | queueFull | noMemory | longOpsFull | tooLate | inUse
  deriving DecidableEq, Repr

/-- "Kind codes". The request kinds. -/
inductive Kind where
  | hello | ping | restart | timeGet | timeSet
  | portConfig | framerConfig | portStart | portPause | portResume | portStop | portReset | portStatus
  | ruleWrite | ruleLink | ruleUnlink | ruleFree | ruleEnable | ruleRead | chainList | defaultSet
  | templateWrite
  | storeConfig | storeOpen | storePause | storeClose | storeRead | storeAck | storeRewind | storeStatus
  | storePurge
  | send | sendCancel | sendStatus | portDrain
  | memoryStatus | memoryCheck | memoryLowSet
  | noticeCredit | noticeMask | countersRead | countersClear | opList | opCancel
  deriving DecidableEq, Repr

/-! ### Stream ports and framers -/

inductive Parity where
  | none | even | odd
  deriving DecidableEq, Repr

inductive Duplex where
  | full | half
  deriving DecidableEq, Repr

/-- R97. The line settings of a port. -/
structure LineSettings where
  /-- 300 to 3,000,000 -/
  baud : Nat
  /-- 7 or 8 -/
  dataBits : Nat
  parity : Parity
  /-- 1 or 2 -/
  stopBits : Nat
  duplex : Duplex
  /-- 1 to 255 character times -/
  turnaround : Nat
  /-- 0 to 255 character times -/
  trailingHold : Nat
  /-- 0 to 255 character times -/
  sendGap : Nat
  deriving DecidableEq, Repr

/-- R100. -/
inductive PortState where
  | off | ready | running | paused
  deriving DecidableEq, Repr

/-- R107, R110. The marks of a received character. -/
structure Marks where
  parity : Bool
  framing : Bool
  overrun : Bool
  deriving DecidableEq, Repr

/-- R107. A received character. -/
structure Char where
  value : Byte
  marks : Marks
  time : Word
  deriving DecidableEq, Repr

/-- R109. An item of the staging FIFO. `expiry` is no item of the 64: it marks the place in the stream of a
quiet-time expiry that came while earlier items still waited (R74). -/
inductive FifoItem where
  | char (c : Char)
  | brk (time : Word)
  | expiry
  deriving DecidableEq, Repr

/-- R107. A character whose stop bit was sampled low, while the receiver watches the line: whether it was
sampled with DIRn asserted (R112) and whether the FIFO then held 64 items (R110). -/
structure LowStopChar where
  value : Byte
  parity : Bool
  time : Word
  echo : Bool
  lost : Bool
  deriving DecidableEq, Repr

/-- What the line monitor sees on the receive line (R111). -/
inductive LineState where
  /-- the line rests high -/
  | high
  /-- a character is on the line; `missed`: the receiver was off at its start bit or has been switched off since, and
  does not take it (R100) -/
  | character (missed : Bool)
  /-- a stop bit was sampled low and the line has not yet returned high; with the character the receiver
  holds, if it was on -/
  | lowStop (held : Option LowStopChar)
  /-- a break is on the line -/
  | brk
  deriving DecidableEq, Repr

/-- R111. The measure of the quiet time: whether a quiet period is running, the microseconds since it began,
and whether its expiry has been given. -/
structure Quiet where
  running : Bool
  micros : Nat
  given : Bool
  deriving DecidableEq, Repr

/-- R76. -/
inductive FramerMode where
  | delimited | length | gap
  deriving DecidableEq, Repr

/-- R76. The too-long policy. -/
inductive TooLongPolicy where
  | truncate | discard
  deriving DecidableEq, Repr

/-- R76. The incomplete policy and the char-error policy. -/
inductive KeepPolicy where
  | keep | discard
  deriving DecidableEq, Repr

inductive ByteOrder where
  | lowFirst | highFirst
  deriving DecidableEq, Repr

/-- R76. The framer settings of a port, those of all three modes. -/
structure FramerSettings where
  mode : FramerMode
  maxLength : Nat
  tooLong : TooLongPolicy
  incomplete : KeepPolicy
  charError : KeepPolicy
  idleLimit : Nat
  startPattern : List Byte
  endPattern : List Byte
  keepDelimiters : Bool
  escape : Option Byte
  keepEscape : Bool
  sync : Option Byte
  fieldOffset : Nat
  fieldWidth : Nat
  byteOrder : ByteOrder
  adjust : Int
  gapThreshold : Nat
  deriving DecidableEq, Repr

/-- R73. -/
inductive FramerState where
  | hunt | header | body | skip
  deriving DecidableEq, Repr

/-- The frame flags (R12, R20, R51). DAMAGED is no frame flag: it is the descriptor's. -/
structure FrameFlags where
  truncated : Bool
  charError : Bool
  gapClosed : Bool
  brk : Bool
  capped : Bool
  deriving DecidableEq, Repr

/-- R73. The frame being built. -/
structure Assembly where
  desc : DescId
  arrival : Word
  flags : FrameFlags
  /-- arrival time of the last character taken as part of the frame -/
  last : Word
  deriving DecidableEq, Repr

/-- R73. The framer context of a port. -/
structure Framer where
  settings : FramerSettings
  state : FramerState
  startProgress : Nat
  endProgress : Nat
  held : List Char
  escapeOpen : Bool
  frame : Option Assembly
  taken : Nat
  total : Option Int
  lengthField : List Byte
  deriving DecidableEq, Repr

/-- R114. The port counter group, in the order of the table. -/
structure PortCounters where
  received : Nat
  parityErrors : Nat
  framingErrors : Nat
  breaks : Nat
  overruns : Nat
  echo : Nat
  completed : Nat
  truncated : Nat
  discardedTooLong : Nat
  discardedCharError : Nat
  discardedIncomplete : Nat
  discardedNoMemory : Nat
  discardedBadLength : Nat
  lost : Nat
  aborted : Nat
  sent : Nat
  empty : Nat
  deriving DecidableEq, Repr

/-! ### Send entries -/

/-- R116. -/
inductive SendOrigin where
  | host | forward | reply
  deriving DecidableEq, Repr

/-- R116. -/
inductive SendState where
  | queued | sending
  deriving DecidableEq, Repr

/-- R128. -/
inductive SendStatus where
  | sent | expired | cancelled | aborted | dataCheck
  deriving DecidableEq, Repr

/-- R116. A live send entry. It lies in the send queue of its port. -/
structure SendEntry where
  id : Half
  origin : SendOrigin
  cls : Fin 4
  desc : DescId
  /-- TTL remaining in microseconds of elapsed time (R127), or none -/
  ttl : Option Nat
  enqueued : Word
  report : Bool
  tag : Option Byte
  state : SendState
  charsSent : Nat
  deriving DecidableEq, Repr

/-- What the transmitter of a port is doing for its SENDING entry (R123 to R126). -/
inductive TxPhase where
  | idle
  /-- the turnaround wait of a half-duplex port -/
  | turnaround
  /-- a character is on TXn: its value, the line settings it began with (R99), and the bytes that the read of its
  block delivered (R37, R126), of which the characters of that block are made -/
  | sending (value : Byte) (format : LineSettings) (block : List Byte)
  /-- the trailing hold of a half-duplex port, the microseconds it has run, and how the entry then ends -/
  | holding (status : SendStatus) (micros : Nat)
  deriving DecidableEq, Repr

/-- A stream port with its framer, its send queue and its transmitter. -/
structure Port where
  state : PortState
  settings : LineSettings
  framer : Framer
  fifo : List FifoItem
  overrunPending : Bool
  line : LineState
  quiet : Quiet
  /-- DIRn is asserted (R112) -/
  dir : Bool
  counters : PortCounters
  /-- the send queue in admission order (R117) -/
  queue : List SendEntry
  tx : TxPhase
  /-- the SENDING entry ends ABORTED when its character ends (R104) -/
  stopping : Bool
  /-- the microseconds of the send gap counted so far, or none when the gap has passed (R122) -/
  gap : Option Nat
  /-- the port is draining (R131) -/
  draining : Bool
  deriving DecidableEq, Repr

/-! ### Record Memory -/

/-- R32. A payload descriptor. -/
structure Descriptor where
  live : Bool
  chain : List BlockId
  length : Nat
  refs : Nat
  damaged : Bool
  deriving DecidableEq, Repr

/-- R39. The counters of the memory counter group. -/
structure MemoryCounters where
  taken : Nat
  noDescriptor : Nat
  noBlock : Nat
  checkFailures : Nat
  deriving DecidableEq, Repr

/-- R30 to R43. Record Memory. -/
structure RecordMemory where
  /-- the payload bytes of the blocks: byte k of block i at address 48 i + k, in the canonical form of
  `Memory.wf` (Machine/Memory.lean) -/
  cells : List Host.Cell
  /-- the indices, rising, of the blocks whose stored check code disagrees with their stored bytes (R30) -/
  bad : List Nat
  /-- the free list, head first (R31) -/
  free : List BlockId
  descs : Vector Descriptor 256
  lowWater : Nat
  threshold : Nat
  armed : Bool
  counters : MemoryCounters
  deriving DecidableEq, Repr

/-! ### Classifier -/

/-- R1. -/
inductive RuleState where
  | free | defined | linked
  deriving DecidableEq, Repr

/-- R15. -/
inductive FlagFilter where
  | any | clean | flagged
  deriving DecidableEq, Repr

/-- R1. The action of a rule; the TTL in milliseconds, 0 for none. -/
inductive Action where
  | drop
  | file (store : StoreId)
  | forward (port : PortId) (cls : Fin 4) (ttl : Nat)
  | reply (template : TemplateId) (cls : Fin 4) (ttl : Nat)
  | count
  deriving DecidableEq, Repr

/-- R1. The defining fields of a rule. -/
structure RuleDef where
  enabled : Bool
  oneShot : Bool
  goOn : Bool
  keyOffset : Nat
  key : List Byte
  mask : List Byte
  minLength : Nat
  maxLength : Nat
  filter : FlagFilter
  action : Action
  deriving DecidableEq, Repr

/-- R1. An entry of the rule pool. -/
structure Rule where
  state : RuleState
  chainPort : Option PortId
  fields : RuleDef
  hits : Nat
  lastHit : Option Word
  refused : Nat
  deriving DecidableEq, Repr

/-- R10. -/
inductive DefaultAction where
  | drop
  | file (store : StoreId)
  deriving DecidableEq, Repr

/-- R27. -/
structure Echo where
  insertAt : Nat
  offset : Nat
  length : Nat
  deriving DecidableEq, Repr

/-- R27. A template; it is empty when it holds no bytes. -/
structure Template where
  bytes : List Byte
  echo : Option Echo
  deriving DecidableEq, Repr

/-- R12. A pending frame, and the frame under classification. -/
structure Frame where
  port : PortId
  desc : DescId
  length : Nat
  flags : FrameFlags
  arrival : Word
  close : Word
  deriving DecidableEq, Repr

/-- R14 to R22. A classification in progress. -/
structure Classification where
  frame : Frame
  /-- the rules of the chain, as it stood at the start, that the walk has not visited -/
  remaining : List RuleId
  /-- the port's default action as it stood at the start -/
  dflt : DefaultAction
  /-- FILE, FORWARD and REPLY actions performed (R20) -/
  performed : Nat
  /-- a FILE, FORWARD, REPLY or DROP rule has matched (R22) -/
  decided : Bool
  /-- the walk has ended before the tail (R17) -/
  ended : Bool
  /-- the records filed so far, by store and sequence number (R20, R59) -/
  filed : List (StoreId × Word)
  deriving DecidableEq, Repr

/-- R4. Where RULE_LINK inserts. -/
inductive LinkPosition where
  | head
  | after (rule : RuleId)
  deriving DecidableEq, Repr

/-- R11. An edit request that has passed the Executor's checks. -/
inductive Edit where
  | ruleWrite (rule : RuleId) (fields : RuleDef)
  | ruleLink (rule : RuleId) (port : PortId) (position : LinkPosition)
  | ruleUnlink (rule : RuleId)
  | ruleFree (rule : RuleId)
  | ruleEnable (rule : RuleId) (enabled : Bool)
  | defaultSet (port : PortId) (action : DefaultAction)
  | templateWrite (template : TemplateId) (value : Template)
  deriving DecidableEq, Repr

/-- R1 to R29. The Classifier. -/
structure Classifier where
  rules : Vector Rule 128
  chains : Vector (List RuleId) 4
  defaults : Vector DefaultAction 4
  templates : Vector Template 16
  queue : List Frame
  current : Option Classification
  held : Option Edit
  deriving DecidableEq, Repr

/-! ### Stores -/

/-- R51. A record. Its delivered mark is its place before the store's delivered count (R52). The rule id is
255 for a default filing. -/
structure Record where
  seq : Word
  port : PortId
  rule : Byte
  flags : FrameFlags
  arrival : Word
  close : Word
  length : Nat
  desc : DescId
  deriving DecidableEq, Repr

inductive FullPolicy where
  | refuse | evictOldest
  deriving DecidableEq, Repr

inductive StoreState where
  | closed | opened | paused | purging
  deriving DecidableEq, Repr

/-- R48. The settings of a store. -/
structure StoreSettings where
  capacity : Nat
  quota : Nat
  policy : FullPolicy
  highMark : Nat
  lowMark : Nat
  deriving DecidableEq, Repr

/-- R71. The store counter group, in the order of the table. -/
structure StoreCounters where
  filed : Nat
  refused : Nat
  evicted : Nat
  evictedDelivered : Nat
  delivered : Nat
  acknowledged : Nat
  taken : Nat
  purged : Nat
  deriving DecidableEq, Repr

/-- R48. A store. -/
structure Store where
  settings : StoreSettings
  state : StoreState
  prior : Option StoreState
  records : List Record
  delivered : Nat
  blocksUsed : Nat
  nextSeq : Word
  highArmed : Bool
  refusingArmed : Bool
  counters : StoreCounters
  deriving DecidableEq, Repr

/-! ### Host link -/

/-- A message body with its kind and tag (R136). -/
structure Message where
  kind : Byte
  tag : Byte
  body : List Byte
  deriving DecidableEq, Repr

/-- What the end of a reply does (R144, R146, R152). -/
inductive ReplyRole where
  /-- an arrival refusal: its tag is not the set's business -/
  | refusal
  | ordinary
  | accepted
  | restart
  deriving DecidableEq, Repr

structure Reply where
  message : Message
  role : ReplyRole
  deriving DecidableEq, Repr

/-- R147. The message on HTX. -/
inductive Outgoing where
  | reply (r : Reply)
  | report (m : Message)
  /-- with the microseconds since its first byte began -/
  | notice (m : Message) (micros : Nat)
  deriving DecidableEq, Repr

/-- R138. -/
inductive RxState where
  | hunt | header | body | crc
  deriving DecidableEq, Repr

/-- R138, R140. The link receiver's working state: the header and body bytes collected, the CRC register over
the body bytes, the CRC bytes collected, and the microseconds of silence since the last byte taken. -/
structure Receiver where
  state : RxState
  header : List Byte
  body : List Byte
  crc : Half
  crcBytes : List Byte
  silence : Nat
  deriving DecidableEq, Repr

/-- R144, R145, R152. -/
inductive Executor where
  | idle
  /-- waiting on the Classifier with a held edit: the tag and the kind of the request -/
  | executing (tag : Byte) (kind : Kind)
  | stopped
  deriving DecidableEq, Repr

/-- R153. The host link rate. -/
inductive LinkRate where
  | r115200 | r460800 | r1000000 | r3000000
  deriving DecidableEq, Repr

/-- R154. -/
structure LinkCounters where
  taken : Nat
  badHeader : Nat
  badCrc : Nat
  timeouts : Nat
  dropped : Nat
  deriving DecidableEq, Repr

/-- R136 to R154. The Host Link. -/
structure Link where
  receiver : Receiver
  requests : List Message
  outstanding : List Byte
  executor : Executor
  /-- reserved places of the reply queue (R143) -/
  reserved : Nat
  replies : List Reply
  htx : Option Outgoing
  rate : LinkRate
  resetCause : ResetCause
  counters : LinkCounters
  deriving DecidableEq, Repr

/-! ### Notices -/

/-- R156. -/
inductive NoticeKind where
  | started | frameLost | storeHigh | storeRefusing | ruleSpent | forwardDropped | sendDone | memoryLow
  | dataCheck | noticeOverflow
  deriving DecidableEq, Repr

/-- R25, R26. The action that failed. -/
inductive DroppedAction where
  | forward | reply
  deriving DecidableEq, Repr

/-- R156. The detail of a notice. -/
inductive Detail where
  | none
  | cause (c : ResetCause)
  | dropped (action : DroppedAction) (cause : Status)
  | sendDone (status : SendStatus) (tag : Byte)
  | freeBlocks (n : Nat)
  | lost (n : Nat)
  deriving DecidableEq, Repr

/-- R155. -/
structure Notice where
  kind : NoticeKind
  subject : Nat
  count : Nat
  first : Word
  last : Word
  detail : Detail
  deriving DecidableEq, Repr

/-- R155, R160, R161. The Notice Queue. -/
structure NoticeQueue where
  entries : List Notice
  credit : Nat
  mask : Half
  deriving DecidableEq, Repr

/-! ### Long operations -/

/-- R165. -/
inductive OpStatus where
  | done | cancelled | timedOut | aborted
  deriving DecidableEq, Repr

/-- R163, R165, R167. The kind and target of a long operation with its working counts, which are its result
once it is COMPLETE. -/
inductive OpWork where
  | purge (store : StoreId) (removed : Nat)
  /-- `left`: microseconds of elapsed time to the deadline -/
  | drain (port : PortId) (deadline left sent remaining : Nat)
  | check (next checked failing : Nat)
  deriving DecidableEq, Repr

/-- R163. An entry of the long-operation table; it is RUNNING while it has no status. -/
structure OpEntry where
  tag : Byte
  work : OpWork
  status : Option OpStatus
  start : Word
  acceptedSent : Bool
  replyPending : Bool
  deriving DecidableEq, Repr

/-- R163, R164. The table in acceptance order, and the tags of its COMPLETE entries in completion order. -/
structure OpTable where
  entries : List OpEntry
  completed : List Byte
  deriving DecidableEq, Repr

/-- The input pins whose level the part reads: RESET and HOLD as asserted or not, RATE1 and RATE0 as high or
not. -/
structure Pins where
  reset : Bool
  hold : Bool
  rate1 : Bool
  rate0 : Bool
  deriving DecidableEq, Repr

end Sys2Proof.Machine
end

