-- ==== Sys2Proof/Machine/Bytes.lean ====
section
/-! DEFINITION. Byte order, the body CRC and the form of a message on the line (R136, R137, R172). -/

namespace Sys2Proof.Machine

/-- R172. One byte of a number. -/
def byte1 (n : Nat) : Byte := BitVec.ofNat 8 n

/-- R172. A two-byte number, least significant byte first. -/
def le2 (n : Nat) : List Byte := [byte1 n, byte1 (n / 256)]

/-- R172. A four-byte number, least significant byte first. -/
def le4 (n : Nat) : List Byte := [byte1 n, byte1 (n / 256), byte1 (n / 65536), byte1 (n / 16777216)]

/-- R172. A yes/no field. -/
def yesNo (b : Bool) : Byte := if b then 1 else 0

/-- The byte at an offset of a body. -/
def byteAt (body : List Byte) (i : Nat) : Byte := body.getD i 0

/-- R172. The one-byte number at an offset of a body. -/
def num1 (body : List Byte) (i : Nat) : Nat := (byteAt body i).toNat

/-- R172. The two-byte number at an offset of a body. -/
def num2 (body : List Byte) (i : Nat) : Nat := num1 body i + 256 * num1 body (i + 1)

/-- R172. The four-byte number at an offset of a body. -/
def num4 (body : List Byte) (i : Nat) : Nat := num2 body i + 65536 * num2 body (i + 2)

/-- R172. The signed byte at an offset of a body (the adjust of FRAMER_CONFIG alone). -/
def signed1 (body : List Byte) (i : Nat) : Int := (byteAt body i).toInt

/-- A fixed-width field of `n` bytes that holds `bs` and zeros after it (R173: bytes not used are 0). -/
def padTo (n : Nat) (bs : List Byte) : List Byte := (bs ++ List.replicate n 0).take n

/-- R173. A wider value that may be absent: a presence byte, then the value's four bytes. -/
def optional4 (v : Option Word) : List Byte :=
  match v with
  | some w => 1 :: le4 w.toNat
  | none => 0 :: le4 0

/-- R137. One bit of the CRC register's shift. -/
def crcBit (r : Half) : Half := if r.msb then (r <<< 1) ^^^ 0x1021 else r <<< 1

/-- R137. One byte entered into the CRC register, most significant bit first. -/
def crcByte (r : Half) (b : Byte) : Half :=
  let r := r ^^^ (b.setWidth 16 <<< 8)
  crcBit (crcBit (crcBit (crcBit (crcBit (crcBit (crcBit (crcBit r)))))))

/-- R137. The body CRC; the register starts at 0xFFFF. -/
def crc16 (body : List Byte) : Half := body.foldl crcByte 0xFFFF

/-- R136. The header check of the four bytes between the start byte and it. -/
def headerCheck (four : List Byte) : Byte := ~~~ four.foldl (· + ·) 0

/-- R136. The bytes of a message on the line, in the order they travel. -/
def Message.bytes (m : Message) : List Byte :=
  let four := le2 m.body.length ++ [m.tag, m.kind]
  0xC3 :: four ++ [headerCheck four] ++ m.body ++ le2 (crc16 m.body).toNat

end Sys2Proof.Machine
end

