-- ==== Sys2Proof/Machine/Codes.lean ====
section
/-! DEFINITION. The code tables of Message Formats. -/

namespace Sys2Proof.Machine

/-- "Kind codes". -/
def Kind.code : Kind → Byte
  | .hello => 0x01
  | .ping => 0x02
  | .restart => 0x03
  | .timeGet => 0x04
  | .timeSet => 0x05
  | .portConfig => 0x10
  | .framerConfig => 0x11
  | .portStart => 0x12
  | .portPause => 0x13
  | .portResume => 0x14
  | .portStop => 0x15
  | .portReset => 0x16
  | .portStatus => 0x17
  | .ruleWrite => 0x20
  | .ruleLink => 0x21
  | .ruleUnlink => 0x22
  | .ruleFree => 0x23
  | .ruleEnable => 0x24
  | .ruleRead => 0x25
  | .chainList => 0x26
  | .defaultSet => 0x27
  | .templateWrite => 0x28
  | .storeConfig => 0x30
  | .storeOpen => 0x31
  | .storePause => 0x32
  | .storeClose => 0x33
  | .storeRead => 0x34
  | .storeAck => 0x35
  | .storeRewind => 0x36
  | .storeStatus => 0x37
  | .storePurge => 0x38
  | .send => 0x40
  | .sendCancel => 0x41
  | .sendStatus => 0x42
  | .portDrain => 0x43
  | .memoryStatus => 0x50
  | .memoryCheck => 0x51
  | .memoryLowSet => 0x52
  | .noticeCredit => 0x60
  | .noticeMask => 0x61
  | .countersRead => 0x62
  | .countersClear => 0x63
  | .opList => 0x64
  | .opCancel => 0x65

/-- Every request kind. -/
def Kind.all : List Kind :=
  [.hello, .ping, .restart, .timeGet, .timeSet, .portConfig, .framerConfig, .portStart, .portPause,
   .portResume, .portStop, .portReset, .portStatus, .ruleWrite, .ruleLink, .ruleUnlink, .ruleFree,
   .ruleEnable, .ruleRead, .chainList, .defaultSet, .templateWrite, .storeConfig, .storeOpen, .storePause,
   .storeClose, .storeRead, .storeAck, .storeRewind, .storeStatus, .storePurge, .send, .sendCancel,
   .sendStatus, .portDrain, .memoryStatus, .memoryCheck, .memoryLowSet, .noticeCredit, .noticeMask,
   .countersRead, .countersClear, .opList, .opCancel]

/-- R145. Whether a message's kind is one of the request kinds. -/
def isRequestKind (code : Byte) : Bool := Kind.all.any fun k => k.code == code

/-- R145. The kind of the reply to a message of this kind: plus 0x80 for a request kind, else 0xFF. -/
def replyKind (code : Byte) : Byte := if isRequestKind code then code + 0x80 else 0xFF

/-- The kind of a notice (R147). -/
def noticeMessageKind : Byte := 0xF0

/-- The kind of a completion report (R146). -/
def reportMessageKind : Byte := 0xF1

def Status.code : Status → Byte
  | .ok => 0
  | .accepted => 1
  | .badCrc => 2
  | .badLength => 3
  | .unknownKind => 4
  | .badParam => 5
  | .tagInUse => 6
  | .windowFull => 7
  | .wrongState => 8
  | .notFound => 9
  | .notDelivered => 10
  | .storeBusy => 11
  | .portDraining => 12
  | .queueFull => 13
  | .noMemory => 14
  | .longOpsFull => 15
  | .tooLate => 16
  | .inUse => 17

def PortState.code : PortState → Byte
  | .off => 0
  | .ready => 1
  | .running => 2
  | .paused => 3

def FramerState.code : FramerState → Byte
  | .hunt => 0
  | .header => 1
  | .body => 2
  | .skip => 3

def RuleState.code : RuleState → Byte
  | .free => 0
  | .defined => 1
  | .linked => 2

def FlagFilter.code : FlagFilter → Byte
  | .any => 0
  | .clean => 1
  | .flagged => 2

/-- The action kind code. -/
def Action.code : Action → Byte
  | .drop => 0
  | .file _ => 1
  | .forward _ _ _ => 2
  | .reply _ _ _ => 3
  | .count => 4

def DroppedAction.code : DroppedAction → Byte
  | .forward => 2
  | .reply => 3

def DefaultAction.code : DefaultAction → Byte
  | .drop => 0
  | .file _ => 1

def StoreState.code : StoreState → Byte
  | .closed => 0
  | .opened => 1
  | .paused => 2
  | .purging => 3

def FullPolicy.code : FullPolicy → Byte
  | .refuse => 0
  | .evictOldest => 1

def SendOrigin.code : SendOrigin → Byte
  | .host => 0
  | .forward => 1
  | .reply => 2

def SendState.code : SendState → Byte
  | .queued => 0
  | .sending => 1

def SendStatus.code : SendStatus → Byte
  | .sent => 0
  | .expired => 1
  | .cancelled => 2
  | .aborted => 3
  | .dataCheck => 4

def OpStatus.code : OpStatus → Byte
  | .done => 0
  | .cancelled => 1
  | .timedOut => 2
  | .aborted => 3

/-- The operation kind: its request kind. -/
def OpWork.code : OpWork → Byte
  | .purge _ _ => 0x38
  | .drain _ _ _ _ _ => 0x43
  | .check _ _ _ => 0x51

/-- The target of an operation; 0xFF for MEMORY_CHECK (R173). -/
def OpWork.target : OpWork → Byte
  | .purge store _ => byte1 store.val
  | .drain port _ _ _ _ => byte1 port.val
  | .check _ _ _ => 0xFF

def ResetCause.code : ResetCause → Byte
  | .powerUp => 0
  | .resetLine => 1
  | .restart => 2

def LinkRate.code : LinkRate → Byte
  | .r115200 => 0
  | .r460800 => 1
  | .r1000000 => 2
  | .r3000000 => 3

/-- R156, "Notice and completion bodies". The notice kind codes, 1 to 10. -/
def NoticeKind.code : NoticeKind → Nat
  | .started => 1
  | .frameLost => 2
  | .storeHigh => 3
  | .storeRefusing => 4
  | .ruleSpent => 5
  | .forwardDropped => 6
  | .sendDone => 7
  | .memoryLow => 8
  | .dataCheck => 9
  | .noticeOverflow => 10

end Sys2Proof.Machine
end

