-- ==== Sys2Proof/Machine/Flags.lean ====
section
/-! DEFINITION. The flags and marks: what gives a character its marks (R98, R107, R110), a frame its flags (R15,
R92) and a record header its flags byte ("The record header"). -/

namespace Sys2Proof.Machine

/-- R98. Whether the number of high bits of a byte is odd. -/
def oddOnes (b : Byte) : Bool := (List.range 8).foldl (fun acc i => acc != b.getLsbD i) false

/-- R107. The value of a character: its data bits; with 7 data bits bit 7 is 0. -/
def LineSettings.value (ls : LineSettings) (data : Byte) : Byte :=
  if ls.dataBits = 7 then data &&& 0x7F else data

/-- R98. The parity bit that agrees with the data bits. -/
def LineSettings.parityBit (ls : LineSettings) (value : Byte) : Bool :=
  match ls.parity with
  | .none => false
  | .even => oddOnes value
  | .odd => !oddOnes value

/-- R98. The bits of a character on the line in the order in which they are sent, true for high: the low start bit,
the data bits from the least significant on, the parity bit if one is used, and the high stop bits. -/
def LineSettings.characterBits (ls : LineSettings) (value : Byte) : List Bool :=
  false :: (List.range ls.dataBits).map value.getLsbD
    ++ (if ls.parity = .none then [] else [ls.parityBit (ls.value value)])
    ++ List.replicate ls.stopBits true

/-- R107. Whether the received parity bit disagrees with the data bits. -/
def LineSettings.parityWrong (ls : LineSettings) (value : Byte) (bit : Bool) : Bool :=
  match ls.parity with
  | .none => false
  | _ => bit != ls.parityBit value

/-- R92. The character carries a mark. -/
def Marks.any (m : Marks) : Bool := m.parity || m.framing || m.overrun

/-- R15, test 3. The frame has none of the four flags that the filter looks at. -/
def FrameFlags.isClean (f : FrameFlags) : Bool := !(f.truncated || f.charError || f.gapClosed || f.brk)

/-- R15, test 3. -/
def FlagFilter.passes (filter : FlagFilter) (f : FrameFlags) : Bool :=
  match filter with
  | .any => true
  | .clean => f.isClean
  | .flagged => !f.isClean

/-- "The record header". The flags byte of a record, with DAMAGED. -/
def FrameFlags.byte (f : FrameFlags) (damaged : Bool) : Byte :=
  (if f.truncated then 0x01 else 0) ||| (if f.charError then 0x02 else 0)
    ||| (if f.gapClosed then 0x04 else 0) ||| (if f.brk then 0x08 else 0)
    ||| (if f.capped then 0x10 else 0) ||| (if damaged then 0x20 else 0)

end Sys2Proof.Machine
end

