-- ==== Sys2Proof/Machine/Reset.lean ====
section
/-! DEFINITION. The values that a device reset gives each block (R29, R47, R72, R115, R135, R153, R162, R166). -/

namespace Sys2Proof.Machine

/-- R97. -/
def LineSettings.dflt : LineSettings where
  baud := 9600
  dataBits := 8
  parity := .none
  stopBits := 1
  duplex := .full
  turnaround := 2
  trailingHold := 1
  sendGap := 0

/-- R77. -/
def FramerSettings.dflt : FramerSettings where
  mode := .gap
  maxLength := 256
  tooLong := .truncate
  incomplete := .keep
  charError := .keep
  idleLimit := 0
  startPattern := []
  endPattern := [0x0D, 0x0A]
  keepDelimiters := false
  escape := none
  keepEscape := false
  sync := none
  fieldOffset := 0
  fieldWidth := 1
  byteOrder := .lowFirst
  adjust := 0
  gapThreshold := 4

/-- R73. The working state after a reset, with the settings given. -/
def Framer.fresh (settings : FramerSettings) : Framer where
  settings := settings
  state := .hunt
  startProgress := 0
  endProgress := 0
  held := []
  escapeOpen := false
  frame := none
  taken := 0
  total := none
  lengthField := []

/-- No frame flag (R12). -/
def FrameFlags.clear : FrameFlags := ⟨false, false, false, false, false⟩

/-- R114. -/
def PortCounters.zero : PortCounters := ⟨0, 0, 0, 0, 0, 0, 0, 0, 0, 0, 0, 0, 0, 0, 0, 0, 0⟩

/-- R111. No quiet time is measured. -/
def Quiet.off : Quiet := ⟨false, 0, false⟩

/-- R115, R135. -/
def Port.reset : Port where
  state := .off
  settings := .dflt
  framer := .fresh .dflt
  fifo := []
  overrunPending := false
  line := .high
  quiet := .off
  dir := false
  counters := .zero
  queue := []
  tx := .idle
  stopping := false
  gap := none
  draining := false

/-- R32. The FREE values. -/
def Descriptor.unused : Descriptor := ⟨false, [], 0, 0, false⟩

/-- R47. That the stored bytes read 0 and that every stored check code agrees with them is the model's choice (log
entries 4 and 34). -/
def RecordMemory.reset : RecordMemory where
  cells := []
  bad := []
  free := List.finRange 1024
  descs := Vector.replicate 256 .unused
  lowWater := 1024
  threshold := 64
  armed := true
  counters := ⟨0, 0, 0, 0⟩

/-- R1. The free values of the defining fields. -/
def RuleDef.free : RuleDef where
  enabled := false
  oneShot := false
  goOn := false
  keyOffset := 0
  key := []
  mask := []
  minLength := 1
  maxLength := 1024
  filter := .any
  action := .drop

/-- R1. A FREE rule. -/
def Rule.unused : Rule := ⟨.free, none, .free, 0, none, 0⟩

/-- R29. -/
def Classifier.reset : Classifier where
  rules := Vector.replicate 128 .unused
  chains := Vector.replicate 4 []
  defaults := Vector.replicate 4 .drop
  templates := Vector.replicate 16 ⟨[], none⟩
  queue := []
  current := none
  held := none

/-- R71. -/
def StoreCounters.zero : StoreCounters := ⟨0, 0, 0, 0, 0, 0, 0, 0⟩

/-- R48, R72. -/
def Store.reset : Store where
  settings := ⟨32, 0, .refuse, 24, 8⟩
  state := .closed
  prior := none
  records := []
  delivered := 0
  blocksUsed := 0
  nextSeq := 0
  highArmed := true
  refusingArmed := true
  counters := .zero

/-- R138. The receiver in HUNT with nothing collected. -/
def Receiver.idle : Receiver := ⟨.hunt, [], [], 0xFFFF, [], 0⟩

/-- "Signals". The host link rate that RATE1 and RATE0 select. -/
def linkRateOf (rate1 rate0 : Bool) : LinkRate :=
  match rate1, rate0 with
  | false, false => .r115200
  | false, true => .r460800
  | true, false => .r1000000
  | true, true => .r3000000

/-- R153. -/
def Link.afterReset (cause : ResetCause) (pins : Pins) : Link where
  receiver := .idle
  requests := []
  outstanding := []
  executor := .idle
  reserved := 0
  replies := []
  htx := none
  rate := linkRateOf pins.rate1 pins.rate0
  resetCause := cause
  counters := ⟨0, 0, 0, 0, 0⟩

/-- R162. The reset empties the queue and the mask and leaves one credit, and at its end the STARTED notice is
the only entry. The Timebase then holds 0 (R151). -/
def NoticeQueue.afterReset (cause : ResetCause) : NoticeQueue where
  entries := [⟨.started, 0, 1, 0, 0, .cause cause⟩]
  credit := 1
  mask := 0

end Sys2Proof.Machine
end

