-- ==== Sys2Proof/Machine/State.lean ====
section
/-! DEFINITION. The state of the SF4 and its value right after reset. -/

namespace Sys2Proof.Machine

/-- Why the machine stops with a fault. The manual gives the SF4 no way to stop: every error is a reply status,
a notice, a mark or a counter. So there is no constructor, and no command faults. -/
inductive Fault where
  deriving DecidableEq, Repr

/-- Why a command is refused. -/
inductive Refusal where
  /-- the command has no meaning in this model yet (raised by `exec` only; safe: a run stops there) -/
  | notModelled (mnemonic : String)
  deriving DecidableEq, Repr

/-- Everything the manual says the SF4 holds, the queue of waiting commands, and one counter of the model's own. -/
structure State where
  /-- the commands that wait, first in, first out -/
  pending : List Instr
  /-- the levels of the input pins -/
  pins : Pins
  /-- R151 -/
  timebase : Word
  link : Link
  notices : NoticeQueue
  ops : OpTable
  memory : RecordMemory
  classifier : Classifier
  stores : Vector Store 8
  ports : Vector Port 4
  /-- R118: the next value of the send-id counter -/
  nextSendId : Half
  /-- the model's own: the microseconds counted by `tick`, which number the free values of Config.upsets -/
  ticks : Nat
  deriving DecidableEq, Repr

/-- R153. The state that a device reset leaves. The input pins keep their levels; the queue of commands and the
model's own counter are not the part's and are kept. -/
def State.afterReset (cause : ResetCause) (s : State) : State where
  pending := s.pending
  pins := s.pins
  timebase := 0
  link := .afterReset cause s.pins
  notices := .afterReset cause
  ops := ⟨[], []⟩
  memory := .reset
  classifier := .reset
  stores := Vector.replicate 8 .reset
  ports := Vector.replicate 4 .reset
  nextSendId := 1
  ticks := s.ticks

/-- The machine right after the device reset of a power-up, with RESET and HOLD released and both rate straps
low (log entry 1). -/
def State.reset : State where
  pending := []
  pins := ⟨false, false, false, false⟩
  timebase := 0
  link := .afterReset .powerUp ⟨false, false, false, false⟩
  notices := .afterReset .powerUp
  ops := ⟨[], []⟩
  memory := .reset
  classifier := .reset
  stores := Vector.replicate 8 .reset
  ports := Vector.replicate 4 .reset
  nextSendId := 1
  ticks := 0

end Sys2Proof.Machine
end

