-- ==== Sys2Proof/Machine/Ops.lean ====
section
/-! DEFINITION. The operations that every block shares: reading and replacing a part of the state, saturating
counts, raising a notice (R157, R158), completing a long operation (R164) and queueing a reply (R143, R145). -/

namespace Sys2Proof.Machine

/-- "Conventions". A 32-bit counter stays at 4,294,967,295 once there. -/
def sat32 (n : Nat) : Nat := min n 4294967295

/-- R155. An occurrence count stays at 65,535 once there. -/
def sat16 (n : Nat) : Nat := min n 65535

/-- R32, R53. The blocks that a payload of `length` bytes fills. -/
def blocksFor (length : Nat) : Nat := (length + 47) / 48

/-! ### Parts of the state -/

def State.port (s : State) (p : PortId) : Port := s.ports.get p

def State.modPort (s : State) (p : PortId) (f : Port → Port) : State :=
  { s with ports := s.ports.set p.val (f (s.port p)) p.isLt }

def State.store (s : State) (i : StoreId) : Store := s.stores.get i

def State.modStore (s : State) (i : StoreId) (f : Store → Store) : State :=
  { s with stores := s.stores.set i.val (f (s.store i)) i.isLt }

def State.modLink (s : State) (f : Link → Link) : State := { s with link := f s.link }

def State.modNotices (s : State) (f : NoticeQueue → NoticeQueue) : State := { s with notices := f s.notices }

def State.modOps (s : State) (f : OpTable → OpTable) : State := { s with ops := f s.ops }

def State.modMemory (s : State) (f : RecordMemory → RecordMemory) : State := { s with memory := f s.memory }

def State.modClassifier (s : State) (f : Classifier → Classifier) : State :=
  { s with classifier := f s.classifier }

def RecordMemory.desc (m : RecordMemory) (d : DescId) : Descriptor := m.descs.get d

def RecordMemory.modDesc (m : RecordMemory) (d : DescId) (f : Descriptor → Descriptor) : RecordMemory :=
  { m with descs := m.descs.set d.val (f (m.desc d)) d.isLt }

def Classifier.rule (c : Classifier) (r : RuleId) : Rule := c.rules.get r

def Classifier.modRule (c : Classifier) (r : RuleId) (f : Rule → Rule) : Classifier :=
  { c with rules := c.rules.set r.val (f (c.rule r)) r.isLt }

def Classifier.chain (c : Classifier) (p : PortId) : List RuleId := c.chains.get p

def Classifier.setChain (c : Classifier) (p : PortId) (l : List RuleId) : Classifier :=
  { c with chains := c.chains.set p.val l p.isLt }

/-- A port's counters with `f` applied. -/
def State.count (s : State) (p : PortId) (f : PortCounters → PortCounters) : State :=
  s.modPort p fun q => { q with counters := f q.counters }

/-- A port's framer with `f` applied. -/
def State.modFramer (s : State) (p : PortId) (f : Framer → Framer) : State :=
  s.modPort p fun q => { q with framer := f q.framer }

/-- R153. While RESET is asserted the part is held in reset and no command reaches it. -/
def State.unlessReset (s : State) (t : State) : Host.Outcome State Fault Refusal :=
  .next (if s.pins.reset then s else t)

/-! ### Notices -/

/-- R157, test 1. -/
def NoticeQueue.masked (q : NoticeQueue) (k : NoticeKind) : Bool := q.mask.getLsbD (k.code - 1)

/-- R155. The number of ordinary entries. -/
def NoticeQueue.ordinary (q : NoticeQueue) : Nat :=
  (q.entries.filter fun n => n.kind != .noticeOverflow).length

/-- R157, test 2. The notice is about the same kind and subject as the entry. -/
def Notice.same (n : Notice) (k : NoticeKind) (subject : Nat) : Bool := n.kind == k && n.subject == subject

/-- R158. An ordinary notice is lost. -/
def NoticeQueue.lose (q : NoticeQueue) (now : Word) : NoticeQueue :=
  if q.entries.any fun n => n.kind == .noticeOverflow then
    { q with entries := q.entries.map fun n =>
        if n.kind == .noticeOverflow then
          { n with count := sat16 (n.count + 1), last := now, detail := .lost (sat16 (n.count + 1)) }
        else n }
  else { q with entries := q.entries ++ [⟨.noticeOverflow, 0, 1, now, now, .lost 1⟩] }

/-- R157. A notice raised: masked, gathered, appended or lost. -/
def NoticeQueue.raise (q : NoticeQueue) (k : NoticeKind) (subject : Nat) (detail : Detail) (now : Word) :
    NoticeQueue :=
  if q.masked k then q
  else if q.entries.any fun n => n.same k subject then
    { q with entries := q.entries.map fun n =>
        if n.same k subject then { n with count := sat16 (n.count + 1), last := now, detail := detail } else n }
  else if q.ordinary < 15 then { q with entries := q.entries ++ [⟨k, subject, 1, now, now, detail⟩] }
  else q.lose now

/-- R156. A block raises a notice. -/
def State.raise (s : State) (k : NoticeKind) (subject : Nat) (detail : Detail) : State :=
  s.modNotices fun q => q.raise k subject detail s.timebase

/-- R162. The ATTN output. -/
def State.attn (s : State) : Bool := !s.notices.entries.isEmpty

/-! ### The long-operation table -/

def OpWork.isPurgeOf (w : OpWork) (i : StoreId) : Bool :=
  match w with
  | .purge store _ => store == i
  | _ => false

def OpWork.isDrainOf (w : OpWork) (p : PortId) : Bool :=
  match w with
  | .drain port _ _ _ _ => port == p
  | _ => false

def OpWork.isCheck (w : OpWork) : Bool :=
  match w with
  | .check _ _ _ => true
  | _ => false

/-- R163. The entry is RUNNING. -/
def OpEntry.running (e : OpEntry) : Bool := e.status.isNone

/-- R164. The RUNNING operations that `sel` picks become COMPLETE with `status`, their counts as they stand;
reply pending is set when a request's execution does it. -/
def OpTable.complete (t : OpTable) (sel : OpWork → Bool) (status : OpStatus) (byRequest : Bool) : OpTable where
  entries := t.entries.map fun e =>
    if e.running && sel e.work then { e with status := some status, replyPending := byRequest } else e
  completed := t.completed ++ ((t.entries.filter fun e => e.running && sel e.work).map (·.tag))

/-- The working counts of the RUNNING operations that `sel` picks, changed by `f`. -/
def OpTable.progress (t : OpTable) (sel : OpWork → Bool) (f : OpWork → OpWork) : OpTable :=
  { t with entries := t.entries.map fun e =>
      if e.running && sel e.work then { e with work := f e.work } else e }

/-- R163. A new entry, RUNNING, in acceptance order. -/
def OpTable.accept (t : OpTable) (tag : Byte) (work : OpWork) (now : Word) : OpTable :=
  { t with entries := t.entries ++ [⟨tag, work, none, now, false, false⟩] }

/-- R163. Whether the table holds an entry, RUNNING or COMPLETE, that `sel` picks. -/
def OpTable.holds (t : OpTable) (sel : OpWork → Bool) : Bool := t.entries.any fun e => sel e.work

/-- R163. The table holds 4 entries. -/
def OpTable.full (t : OpTable) : Bool := decide (4 ≤ t.entries.length)

/-- R164. The completion report of the entry may be sent. -/
def OpEntry.eligible (e : OpEntry) : Bool := !e.running && e.acceptedSent && !e.replyPending

/-- R164. The eligible entry earliest in completion order. -/
def OpTable.nextReport (t : OpTable) : Option OpEntry :=
  (t.completed.filterMap fun tag => t.entries.find? fun e => e.tag == tag && e.eligible).head?

/-- R165. The entry with this tag leaves the table. -/
def OpTable.remove (t : OpTable) (tag : Byte) : OpTable where
  entries := t.entries.filter fun e => e.tag != tag
  completed := t.completed.filter fun u => u != tag

/-! ### Replies -/

/-- R143. A place of the reply queue is free: of its 12, none occupied or reserved. -/
def Link.placeFree (l : Link) : Bool := decide (l.replies.length + l.reserved < 12)

/-- What a request's execution ends in: a reply with its fields after the status, RESTART's reply, or the
request held by the Classifier (R11). -/
inductive Response where
  | reply (status : Status) (fields : List Byte)
  | restart
  | held
  deriving DecidableEq, Repr

/-- R145. The reply body: the status byte, then the fields. -/
def replyBody (status : Status) (fields : List Byte) : List Byte := status.code :: fields

/-- R144, R146. What the end of an executed request's reply does. -/
def roleOf (status : Status) : ReplyRole :=
  match status with
  | .accepted => .accepted
  | _ => .ordinary

/-- R145. The executed request's reply joins the reply queue in its reserved place, the Executor becomes
`after`, and reply pending marks set by the execution are cleared (R164). -/
def State.answer (s : State) (tag kind : Byte) (status : Status) (fields : List Byte) (role : ReplyRole)
    (after : Executor) : State :=
  { s with
    link := { s.link with
      replies := s.link.replies ++ [⟨⟨replyKind kind, tag, replyBody status fields⟩, role⟩]
      reserved := s.link.reserved - 1
      executor := after }
    ops := { s.ops with entries := s.ops.entries.map fun e => { e with replyPending := false } } }

/-- R143. An arrival refusal joins the reply queue if a place is free; else the message is dropped. -/
def State.refuseArrival (s : State) (tag kind : Byte) (status : Status) (fields : List Byte) : State :=
  if s.link.placeFree then
    s.modLink fun l => { l with
      replies := l.replies ++ [⟨⟨replyKind kind, tag, replyBody status fields⟩, .refusal⟩] }
  else s.modLink fun l => { l with counters := { l.counters with dropped := sat32 (l.counters.dropped + 1) } }

end Sys2Proof.Machine
end

