-- ==== Sys2Proof/Machine/Arbiter.lean ====
section
/-! DEFINITION. What the transmit arbiter puts on HTX (R146, R147, R159, R165): the bodies of notices and completion
reports, and when a message may begin. -/

namespace Sys2Proof.Machine

/-- "Notice and completion bodies". The four detail bytes of a notice. -/
def Detail.bytes : Detail → List Byte
  | .none => [0, 0, 0, 0]
  | .cause c => [c.code, 0, 0, 0]
  | .dropped action why => [action.code, why.code, 0, 0]
  | .sendDone status tag => [status.code, tag, 0, 0]
  | .freeBlocks n => le2 n ++ [0, 0]
  | .lost n => le2 n ++ [0, 0]

/-- R159. The message of a notice. -/
def Notice.message (n : Notice) : Message where
  kind := noticeMessageKind
  tag := 0
  body := byte1 n.kind.code :: le2 n.subject ++ le2 n.count ++ le4 n.first.toNat ++ le4 n.last.toNat
    ++ n.detail.bytes

/-- The three result fields that an OP_LIST entry and a completion report share. -/
def OpWork.result : OpWork → List Byte
  | .purge _ removed => le4 removed ++ le2 0 ++ le2 0
  | .drain _ _ _ sent remaining => le4 sent ++ le2 remaining ++ le2 0
  | .check next checked failing => le4 checked ++ le2 failing ++ le2 next

/-- R165, R173. The completion status byte; 0xFF while RUNNING. -/
def OpEntry.statusByte (e : OpEntry) : Byte :=
  match e.status with
  | some st => st.code
  | none => 0xFF

/-- R165. The completion report of an entry. -/
def OpEntry.report (e : OpEntry) : Message where
  kind := reportMessageKind
  tag := e.tag
  body := [e.statusByte, e.work.code, e.work.target] ++ e.work.result

/-- R147, R148. A message may begin: HOLD is not asserted and HTX is between messages. -/
def State.mayBegin (s : State) : Bool := !s.pins.hold && s.link.htx.isNone

/-- R147. The arbiter begins the oldest reply. -/
def State.beginReply (s : State) : State :=
  match s.link.replies with
  | r :: rest => if s.mayBegin then s.modLink fun l => { l with replies := rest, htx := some (.reply r) } else s
  | [] => s

/-- R147. The arbiter begins the oldest eligible completion report. -/
def State.beginReport (s : State) : State :=
  match s.link.replies, s.ops.nextReport with
  | [], some e => if s.mayBegin then s.modLink fun l => { l with htx := some (.report e.report) } else s
  | _, _ => s

/-- R147, R159. The arbiter begins the oldest notice. -/
def State.beginNotice (s : State) : State :=
  match s.link.replies, s.ops.nextReport, s.notices.entries with
  | [], none, n :: rest =>
    if s.mayBegin && decide (1 ≤ s.notices.credit) then
      (s.modLink fun l => { l with htx := some (.notice n.message 0) }).modNotices fun q =>
        { q with entries := rest, credit := q.credit - 1 }
    else s
  | _, _, _ => s

/-- R144, R146, R152. The last byte of the reply on HTX has been sent. -/
def State.endReply (s : State) : State :=
  match s.link.htx with
  | some (.reply r) =>
    let s := s.modLink fun l => { l with htx := none }
    match r.role with
    | .refusal => s
    | .ordinary => s.modLink fun l => { l with outstanding := l.outstanding.filter fun t => t != r.message.tag }
    | .accepted => s.modOps fun t => { t with entries := t.entries.map fun e =>
        if e.tag = r.message.tag then { e with acceptedSent := true } else e }
    | .restart => s.afterReset .restart
  | _ => s

/-- R165. The last byte of the completion report on HTX has been sent. -/
def State.endReport (s : State) : State :=
  match s.link.htx with
  | some (.report m) =>
    (s.modLink fun l => { l with
      htx := none
      outstanding := l.outstanding.filter fun t => t != m.tag }).modOps fun t => t.remove m.tag
  | _ => s

/-- R153, "Signals". The baud rate of the host link. -/
def LinkRate.baud : LinkRate → Nat
  | .r115200 => 115200
  | .r460800 => 460800
  | .r1000000 => 1000000
  | .r3000000 => 3000000

/-- R136. The bits of a message on HTX: 8 bytes and the body, each of a start bit, 8 data bits and a stop bit, with no
pause between them. -/
def Message.lineBits (m : Message) : Nat := 10 * (8 + m.body.length)

/-- R136, R147. One microsecond passes for the message on HTX. The table has no row for the end of a notice: it ends
when its bits have been sent at the link's rate (log entry 6). -/
def Outgoing.tick (rate : LinkRate) : Outgoing → Option Outgoing
  | .notice m micros =>
    if 1000000 * m.lineBits ≤ rate.baud * (micros + 1) then none else some (.notice m (micros + 1))
  | o => some o

end Sys2Proof.Machine
end

