-- ==== Sys2Proof/Machine/Receiver.lean ====
section
/-! DEFINITION. The link receiver: how bytes on HRX move it through its states (R138 to R141), and how a message
is judged at arrival (R142, R143). -/

namespace Sys2Proof.Machine

/-- What the taking of one byte brings about. -/
inductive RxEvent where
  | none
  | badHeader
  /-- a message is complete; whether its body CRC matches -/
  | complete (m : Message) (good : Bool)
  deriving DecidableEq, Repr

/-- R136. The body length that a header gives. -/
def Receiver.bodyLength (r : Receiver) : Nat := num2 r.header 0

/-- R139. The header with its five bytes is bad. -/
def badHeaderBytes (header : List Byte) : Bool :=
  byteAt header 4 != headerCheck (header.take 4) || decide (1100 < num2 header 0)

/-- R139. The bytes after a discarded start byte, examined again in HUNT. There are at most five, so a header
begun among them is not complete. -/
def Receiver.rehunt (bytes : List Byte) : Receiver :=
  match bytes.dropWhile fun b => b != 0xC3 with
  | [] => .idle
  | _ :: rest => { Receiver.idle with state := .header, header := rest }

/-- R138, R139. One byte is taken on HRX. -/
def Receiver.byte (r : Receiver) (b : Byte) : Receiver × RxEvent :=
  match r.state with
  | .hunt => if b = 0xC3 then ({ Receiver.idle with state := .header }, .none) else (r, .none)
  | .header =>
    let header := r.header ++ [b]
    if header.length < 5 then ({ r with header := header, silence := 0 }, .none)
    else if badHeaderBytes header then (.rehunt header, .badHeader)
    else
      ({ r with state := if num2 header 0 = 0 then .crc else .body, header := header, silence := 0 }, .none)
  | .body =>
    let body := r.body ++ [b]
    ({ r with
        state := if body.length < r.bodyLength then .body else .crc
        body := body
        crc := crcByte r.crc b
        silence := 0 }, .none)
  | .crc =>
    let bytes := r.crcBytes ++ [b]
    if bytes.length < 2 then ({ r with crcBytes := bytes, silence := 0 }, .none)
    else
      (.idle, .complete ⟨byteAt r.header 3, byteAt r.header 2, r.body⟩ (num2 bytes 0 == r.crc.toNat))

/-- R138. The bytes that the items of HRX give: a byte whose stop bit is low is taken at its value, and a low period
gives none. -/
def hrxBytes : List HrxItem → List Byte
  | [] => []
  | .byte value _ :: rest => value :: hrxBytes rest
  | .lowPeriod :: rest => hrxBytes rest

/-- Several bytes are taken on HRX. The answer is none when something comes about before the last of them. -/
def Receiver.feed (r : Receiver) : List Byte → Option (Receiver × RxEvent)
  | [] => some (r, .none)
  | b :: rest =>
    match r.byte b with
    | (r, .none) => r.feed rest
    | (r, e) => if rest.isEmpty then some (r, e) else none

def State.setReceiver (s : State) (r : Receiver) : State := s.modLink fun l => { l with receiver := r }

def State.countLink (s : State) (f : LinkCounters → LinkCounters) : State :=
  s.modLink fun l => { l with counters := f l.counters }

/-- R142. A well-formed request is judged at arrival. -/
def State.arrive (s : State) (m : Message) : State :=
  if m.tag = 0 then s.refuseArrival m.tag m.kind .badParam [0]
  else if s.link.outstanding.contains m.tag then s.refuseArrival m.tag m.kind .tagInUse []
  else if 8 ≤ s.link.requests.length then s.refuseArrival m.tag m.kind .windowFull []
  else
    s.modLink fun l => { l with
      requests := l.requests ++ [m]
      outstanding := l.outstanding ++ [m.tag]
      counters := { l.counters with taken := sat32 (l.counters.taken + 1) } }

/-- R140. The message is abandoned. -/
def State.abandonMessage (s : State) : State :=
  (s.setReceiver .idle).countLink fun c => { c with timeouts := sat32 (c.timeouts + 1) }

/-- R140. 20 ms have passed since the last byte taken inside a message. -/
def Receiver.timedOut (r : Receiver) : Bool := r.state != .hunt && decide (20000 ≤ r.silence)

end Sys2Proof.Machine
end

