-- ==== Sys2Proof/Machine/Operands.lean ====
section
/-! DEFINITION. The forms of the request bodies: the body-length check (R174) and the field check (R145, R172,
R173) of every request kind. A field check answers the values of the fields, or the index of the first field
out of range. -/

namespace Sys2Proof.Machine

/-- R174, "Request and reply bodies". The body length is allowed for the kind. -/
def lengthAllowed (k : Kind) (n : Nat) : Bool :=
  match k with
  | .hello | .restart | .timeGet | .memoryStatus | .memoryCheck | .opList => n == 0
  | .ping => decide (n ≤ 32)
  | .timeSet => n == 4
  | .portConfig => n == 12
  | .framerConfig => n == 29
  | .portStart | .portPause | .portResume | .portStop | .portReset | .portStatus => n == 1
  | .ruleWrite => decide (17 ≤ n) && decide (n ≤ 33) && n % 2 == 1
  | .ruleLink => n == 3
  | .ruleUnlink | .ruleFree | .ruleRead | .chainList => n == 1
  | .ruleEnable => n == 2
  | .defaultSet => n == 3
  | .templateWrite => decide (7 ≤ n) && decide (n ≤ 71)
  | .storeConfig => n == 7
  | .storeOpen | .storePause | .storeClose | .storeRewind | .storeStatus | .storePurge => n == 1
  | .storeRead | .storeAck => n == 5
  | .send => decide (6 ≤ n) && decide (n ≤ 1029)
  | .sendCancel | .sendStatus => n == 2
  | .portDrain => n == 3
  | .memoryLowSet => n == 2
  | .noticeCredit => n == 1
  | .noticeMask => n == 2
  | .countersRead => n == 3
  | .countersClear => n == 2
  | .opCancel => n == 1

/-! ### Single fields -/

/-- Field `i` must satisfy a test. -/
def need (i : Nat) (ok : Bool) : Except Nat Unit := if ok then .ok () else .error i

/-- Field `i` is a number below `n`. -/
def fieldBelow (n i v : Nat) : Except Nat (Fin n) := if h : v < n then .ok ⟨v, h⟩ else .error i

/-- R172. Field `i` is a yes/no byte. -/
def fieldYesNo (i : Nat) (v : Byte) : Except Nat Bool :=
  if v = 0 then .ok false else if v = 1 then .ok true else .error i

/-- R172. Field `i` is the code of one of the values listed, counted from 0. -/
def fieldCode {α : Type} (values : List α) (i v : Nat) : Except Nat α :=
  match values[v]? with
  | some a => .ok a
  | none => .error i

/-- R76. The bytes of a pattern field that are used. -/
def patternBytes (body : List Byte) (at_ length : Nat) : List Byte := (body.drop at_).take length

/-! ### Ports -/

/-- A body that is one port number. -/
def parsePort (b : List Byte) : Except Nat PortId := fieldBelow 4 1 (num1 b 0)

/-- R99. -/
def parsePortConfig (b : List Byte) : Except Nat (PortId × LineSettings) := do
  let p ← fieldBelow 4 1 (num1 b 0)
  need 2 (decide (300 ≤ num4 b 1) && decide (num4 b 1 ≤ 3000000))
  need 3 (num1 b 5 == 7 || num1 b 5 == 8)
  let parity ← fieldCode [Parity.none, .even, .odd] 4 (num1 b 6)
  need 5 (num1 b 7 == 1 || num1 b 7 == 2)
  let duplex ← fieldCode [Duplex.full, .half] 6 (num1 b 8)
  need 7 (decide (1 ≤ num1 b 9))
  .ok (p, ⟨num4 b 1, num1 b 5, parity, num1 b 7, duplex, num1 b 9, num1 b 10, num1 b 11⟩)

/-- R76. Which field a field offset and width out of range name: none when both are right. The cross-check of
the two with the maximum frame length names the offset (18), and is made at the offset's place among the fields, before
the checks of the fields after it (log entry 37). -/
def offsetWidthField (maxLength offset width : Nat) : Option Nat :=
  if 15 < offset then some 18
  else if width = 1 ∨ width = 2 then (if maxLength < offset + width then some 18 else none)
  else if maxLength < offset + width ∧ Config.badWidthNamesOffset then some 18
  else some 19

/-- R76. The settings are also checked against one another, and R76 does not say when: the model makes each cross-check
at the place of the field that it names, 14 or 18, so that one that fails is named before a later field that is out of
range (log entry 37). -/
def parseFramerConfig (b : List Byte) : Except Nat (PortId × FramerSettings) := do
  let p ← fieldBelow 4 1 (num1 b 0)
  let mode ← fieldCode [FramerMode.delimited, .length, .gap] 2 (num1 b 1)
  need 3 (decide (16 ≤ num2 b 2) && decide (num2 b 2 ≤ 1024))
  let tooLong ← fieldCode [TooLongPolicy.truncate, .discard] 4 (num1 b 4)
  let incomplete ← fieldCode [KeepPolicy.keep, .discard] 5 (num1 b 5)
  let charError ← fieldCode [KeepPolicy.keep, .discard] 6 (num1 b 6)
  need 7 (num1 b 7 != 1)
  need 8 (decide (num1 b 8 ≤ 4))
  need 10 (decide (1 ≤ num1 b 13) && decide (num1 b 13 ≤ 4))
  let endPattern := patternBytes b 14 (num1 b 13)
  let keepDelimiters ← fieldYesNo 12 (byteAt b 18)
  let escapePresent ← fieldYesNo 13 (byteAt b 19)
  need 14 (!(escapePresent && endPattern.contains (byteAt b 20)))
  let keepEscape ← fieldYesNo 15 (byteAt b 21)
  let syncPresent ← fieldYesNo 16 (byteAt b 22)
  match offsetWidthField (num2 b 2) (num1 b 24) (num1 b 25) with
  | some i => .error i
  | none => do
    let order ← fieldCode [ByteOrder.lowFirst, .highFirst] 20 (num1 b 26)
    need 21 (decide (-64 ≤ signed1 b 27) && decide (signed1 b 27 ≤ 64))
    need 22 (decide (2 ≤ num1 b 28))
    .ok (p, {
      mode := mode, maxLength := num2 b 2, tooLong := tooLong, incomplete := incomplete,
      charError := charError, idleLimit := num1 b 7,
      startPattern := patternBytes b 9 (num1 b 8), endPattern := endPattern,
      keepDelimiters := keepDelimiters,
      escape := if escapePresent then some (byteAt b 20) else none, keepEscape := keepEscape,
      sync := if syncPresent then some (byteAt b 23) else none,
      fieldOffset := num1 b 24, fieldWidth := num1 b 25, byteOrder := order,
      adjust := signed1 b 27, gapThreshold := num1 b 28 })

/-! ### Rules and templates -/

/-- A body that is one rule id. -/
def parseRule (b : List Byte) : Except Nat RuleId := fieldBelow 128 1 (num1 b 0)

/-- R3. Which field a length minimum and maximum out of range name: none when 1 ≤ minimum ≤ maximum ≤ 1,024. The
manual gives no index when the two are wrong together (log entry 11). -/
def lengthRangeField (lo hi : Nat) : Option Nat :=
  if lo = 0 then some 6
  else if lo ≤ 1024 ∧ 1024 < hi then some 7
  else if lo ≤ hi ∧ hi ≤ 1024 then none
  else some (if Config.lengthRangeNamesMaximum lo hi then 7 else 6)

/-- R1, R173. The action of a rule: fields 9 (kind), 10 (target), 11 (class) and 12 (TTL). Fields that the kind
does not use are not checked. -/
def parseAction (kind target cls ttl : Nat) : Except Nat Action := do
  match kind with
  | 0 => .ok .drop
  | 1 => do
    let i ← fieldBelow 8 10 target
    .ok (.file i)
  | 2 => do
    let p ← fieldBelow 4 10 target
    let c ← fieldBelow 4 11 cls
    .ok (.forward p c ttl)
  | 3 => do
    let t ← fieldBelow 16 10 target
    let c ← fieldBelow 4 11 cls
    .ok (.reply t c ttl)
  | 4 => .ok .count
  | _ => .error 9

/-- R3. The conditions that join two fields are judged at the place of the field that they name (log entry 37). -/
def parseRuleWrite (b : List Byte) : Except Nat (RuleId × RuleDef) := do
  let r ← fieldBelow 128 1 (num1 b 0)
  let enabled ← fieldYesNo 2 (byteAt b 1)
  let oneShot ← fieldYesNo 3 (byteAt b 2)
  let goOn ← fieldYesNo 4 (byteAt b 3)
  need 5 (decide (num2 b 4 ≤ 1023))
  match lengthRangeField (num2 b 6) (num2 b 8) with
  | some i => .error i
  | none => do
    let filter ← fieldCode [FlagFilter.any, .clean, .flagged] 8 (num1 b 10)
    let action ← parseAction (num1 b 11) (num1 b 12) (num1 b 13) (num2 b 14)
    let n := (b.length - 17) / 2
    need 13 (num1 b 16 == n)
    .ok (r, {
      enabled := enabled, oneShot := oneShot, goOn := goOn, keyOffset := num2 b 4,
      key := (b.drop 17).take n, mask := (b.drop (17 + n)).take n,
      minLength := num2 b 6, maxLength := num2 b 8, filter := filter, action := action })

/-- R4, R173. -/
def parseRuleLink (b : List Byte) : Except Nat (RuleId × PortId × LinkPosition) := do
  let r ← fieldBelow 128 1 (num1 b 0)
  let p ← fieldBelow 4 2 (num1 b 1)
  if num1 b 2 = 255 then .ok (r, p, .head)
  else do
    let a ← fieldBelow 128 3 (num1 b 2)
    .ok (r, p, .after a)

/-- R7. -/
def parseRuleEnable (b : List Byte) : Except Nat (RuleId × Bool) := do
  let r ← fieldBelow 128 1 (num1 b 0)
  let enabled ← fieldYesNo 2 (byteAt b 1)
  .ok (r, enabled)

/-- R10. -/
def parseDefaultSet (b : List Byte) : Except Nat (PortId × DefaultAction) := do
  let p ← fieldBelow 4 1 (num1 b 0)
  match num1 b 1 with
  | 0 => .ok (p, .drop)
  | 1 => do
    let i ← fieldBelow 8 3 (num1 b 2)
    .ok (p, .file i)
  | _ => .error 2

/-- R27. The manual gives no index for a byte count of 0 with an echo present (log entry 12). The conditions that join
two fields are judged at the place of the field that they name (log entry 37). -/
def parseTemplateWrite (b : List Byte) : Except Nat (TemplateId × Template) := do
  let t ← fieldBelow 16 1 (num1 b 0)
  let echo ← fieldYesNo 2 (byteAt b 1)
  need 2 (!(echo && num1 b 6 == 0 && Config.emptyEchoNamesPresence))
  need 3 (!echo || decide (num1 b 2 ≤ num1 b 6))
  need 4 (!echo || decide (num2 b 3 ≤ 1023))
  need 5 (!echo || (decide (1 ≤ num1 b 5) && decide (num1 b 5 ≤ 8)))
  need 6 (num1 b 6 == b.length - 7 && !(echo && num1 b 6 == 0))
  .ok (t, ⟨b.drop 7, if echo then some ⟨num1 b 2, num2 b 3, num1 b 5⟩ else none⟩)

/-! ### Stores -/

/-- A body that is one store number. -/
def parseStore (b : List Byte) : Except Nat StoreId := fieldBelow 8 1 (num1 b 0)

/-- R50. -/
def parseStoreConfig (b : List Byte) : Except Nat (StoreId × StoreSettings) := do
  let i ← fieldBelow 8 1 (num1 b 0)
  need 2 (decide (1 ≤ num1 b 1))
  need 3 (decide (num2 b 2 ≤ 1024))
  let policy ← fieldCode [FullPolicy.refuse, .evictOldest] 4 (num1 b 4)
  need 5 (decide (1 ≤ num1 b 5) && decide (num1 b 5 ≤ num1 b 1))
  need 6 (decide (num1 b 6 < num1 b 5))
  .ok (i, ⟨num1 b 1, num2 b 2, policy, num1 b 5, num1 b 6⟩)

/-- R60. Store, TAKE or not, record limit, byte limit. -/
def parseStoreRead (b : List Byte) : Except Nat (StoreId × Bool × Nat × Nat) := do
  let i ← fieldBelow 8 1 (num1 b 0)
  let take ← fieldCode [false, true] 2 (num1 b 1)
  need 3 (decide (1 ≤ num1 b 2) && decide (num1 b 2 ≤ 16))
  need 4 (decide (64 ≤ num2 b 3) && decide (num2 b 3 ≤ 1100))
  .ok (i, take, num1 b 2, num2 b 3)

/-- R65. -/
def parseStoreAck (b : List Byte) : Except Nat (StoreId × Word) := do
  let i ← fieldBelow 8 1 (num1 b 0)
  .ok (i, BitVec.ofNat 32 (num4 b 1))

/-! ### Send -/

/-- R120. Port, class, TTL, report flag and data. -/
def parseSend (b : List Byte) : Except Nat (PortId × Fin 4 × Nat × Bool × List Byte) := do
  let p ← fieldBelow 4 1 (num1 b 0)
  let c ← fieldBelow 4 2 (num1 b 1)
  let report ← fieldYesNo 4 (byteAt b 4)
  .ok (p, c, num2 b 2, report, b.drop 5)

/-- R129, R130. A send id. -/
def parseSendId (b : List Byte) : Except Nat Half := do
  need 1 (num2 b 0 != 0)
  .ok (BitVec.ofNat 16 (num2 b 0))

/-- R131. -/
def parsePortDrain (b : List Byte) : Except Nat (PortId × Nat) := do
  let p ← fieldBelow 4 1 (num1 b 0)
  need 2 (num2 b 1 != 0)
  .ok (p, num2 b 1)

/-! ### Memory, notices, counters and operations -/

/-- An empty body, or a body whose bytes are not checked. -/
def parseNothing (_ : List Byte) : Except Nat Unit := .ok ()

/-- R150. -/
def parsePing (b : List Byte) : Except Nat (List Byte) := .ok b

/-- R151. -/
def parseTimeSet (b : List Byte) : Except Nat Word := .ok (BitVec.ofNat 32 (num4 b 0))

/-- R42. -/
def parseMemoryLowSet (b : List Byte) : Except Nat Nat := do
  need 1 (decide (num2 b 0 ≤ 1023))
  .ok (num2 b 0)

/-- R160. -/
def parseNoticeCredit (b : List Byte) : Except Nat Nat := do
  need 1 (decide (num1 b 0 ≤ 64))
  .ok (num1 b 0)

/-- R161. Bit 9 stands for NOTICE_OVERFLOW and bits 10 to 15 for no kind. -/
def parseNoticeMask (b : List Byte) : Except Nat Half := do
  need 1 (decide (num2 b 0 < 512))
  .ok (BitVec.ofNat 16 (num2 b 0))

/-- R169. A counter group. -/
inductive CounterGroup where
  | port (p : PortId)
  | store (i : StoreId)
  | rule (r : RuleId)
  | link
  | memory
  deriving DecidableEq, Repr

/-- R169, R170. A group code and an index. -/
def parseGroup (group index : Nat) : Except Nat CounterGroup :=
  match group with
  | 0 => do
    let p ← fieldBelow 4 2 index
    .ok (.port p)
  | 1 => do
    let i ← fieldBelow 8 2 index
    .ok (.store i)
  | 2 => do
    let r ← fieldBelow 128 2 index
    .ok (.rule r)
  | 3 => do
    need 2 (index == 0)
    .ok .link
  | 4 => do
    need 2 (index == 0)
    .ok .memory
  | _ => .error 1

/-- R170. -/
def parseCountersRead (b : List Byte) : Except Nat (CounterGroup × Bool) := do
  let g ← parseGroup (num1 b 0) (num1 b 1)
  let clear ← fieldYesNo 3 (byteAt b 2)
  .ok (g, clear)

/-- R171. -/
def parseCountersClear (b : List Byte) : Except Nat CounterGroup := parseGroup (num1 b 0) (num1 b 1)

/-- R168. -/
def parseOpCancel (b : List Byte) : Except Nat Byte := do
  need 1 (byteAt b 0 != 0)
  .ok (byteAt b 0)

end Sys2Proof.Machine
end

