-- ==== Sys2Proof/Machine/Requests.lean ====
section
/-! DEFINITION. The Request Executor (R145): a request is taken when the Executor is IDLE and a place in the reply
queue is free, its checks are made in order, its owning block carries it out, and its reply is queued. -/

namespace Sys2Proof.Machine

/-- R145. The oldest request leaves the queue, a place is reserved and the Executor is EXECUTING. -/
def Link.takeRequest (l : Link) (r : Message) (k : Kind) (rest : List Message) : Link :=
  { l with requests := rest, reserved := l.reserved + 1, executor := .executing r.tag k }

/-- R145. The Executor takes the oldest request, if it is of kind `k`, and executes it by `run`, which is given
its tag and its body. The queue, the reserved place and the Executor's state, which the taking changes, are read
by no execution. -/
def State.request (s : State) (k : Kind) (run : Byte → List Byte → State → State × Response) : State :=
  match s.link.executor, s.link.requests with
  | .idle, r :: rest =>
    if r.kind == k.code && s.link.placeFree then
      let out := run r.tag r.body s
      let taken := out.1.modLink fun l => l.takeRequest r k rest
      match out.2 with
      | .reply status fields => taken.answer r.tag r.kind status fields (roleOf status) .idle
      | .restart => taken.answer r.tag r.kind .ok [] .restart .stopped
      | .held => taken
    else s
  | _, _ => s

/-- R145, checks 2 to 4. The body length, the fields, then the owning block. -/
def checked {α : Type} (k : Kind) (parse : List Byte → Except Nat α)
    (act : Byte → α → State → State × Response) (tag : Byte) (body : List Byte) (s : State) :
    State × Response :=
  if lengthAllowed k body.length then
    match parse body with
    | .error i => (s, .reply .badParam [byte1 i])
    | .ok a => act tag a s
  else (s, .reply .badLength [])

/-- The meaning of a request row: the Executor takes and executes a request of the kind. -/
def State.execRequest {α : Type} (s : State) (k : Kind) (parse : List Byte → Except Nat α)
    (act : Byte → α → State → State × Response) : Host.Outcome State Fault Refusal :=
  s.unlessReset (s.request k (checked k parse act))

/-- A request refused with a status, with no other effect. -/
def State.deny (s : State) (status : Status) : State × Response := (s, .reply status [])

/-- A request answered OK with fields. -/
def State.grant (s : State) (fields : List Byte) : State × Response := (s, .reply .ok fields)

/-- R145. The Executor takes a request whose kind is no request kind. -/
def State.unknownRequest (s : State) : State :=
  match s.link.executor, s.link.requests with
  | .idle, r :: rest =>
    if !isRequestKind r.kind && s.link.placeFree then
      (s.modLink fun l => { l with requests := rest, reserved := l.reserved + 1 }).answer r.tag r.kind
        .unknownKind [] .ordinary .idle
    else s
  | _, _ => s

end Sys2Proof.Machine
end

