-- ==== Sys2Proof/Machine/LinkCommands.lean ====
section
/-! DEFINITION. The meanings of the pin rows, the link receiver rows, the link requests and the arbiter rows. -/

namespace Sys2Proof.Machine

/-! ### Pins -/

/-- R153. A power-up: the straps are sampled and the part takes a device reset with cause POWER_UP. While RESET
is asserted the part is held afterwards (log entry 7). -/
def execPowerUp (rate1 rate0 : Bool) (s : State) : Host.Outcome State Fault Refusal :=
  .next ({ s with pins := { s.pins with rate1 := rate1, rate0 := rate0 } }.afterReset .powerUp)

/-- R153. -/
def execResetAssert (s : State) : Host.Outcome State Fault Refusal :=
  .next { s with pins := { s.pins with reset := true } }

/-- R153. The reset is taken when the line is released. -/
def execResetRelease (s : State) : Host.Outcome State Fault Refusal :=
  .next (if s.pins.reset then { s with pins := { s.pins with reset := false } }.afterReset .resetLine else s)

/-- R148. -/
def execHoldAssert (s : State) : Host.Outcome State Fault Refusal :=
  .next { s with pins := { s.pins with hold := true } }

/-- R148. The arbiter then chooses afresh, by REPLY_BEGIN, COMPLETION_REPORT_BEGIN or NOTICE_SEND. -/
def execHoldRelease (s : State) : Host.Outcome State Fault Refusal :=
  .next { s with pins := { s.pins with hold := false } }

/-! ### The receiver -/

/-- R138, R142. The bytes are taken; a well-formed request that the last byte completes is judged at arrival.
Bytes that complete nothing are kept by the receiver (log entry 8); low periods alone leave the silence to go on. -/
def execMessageArrival (items : List HrxItem) (s : State) : Host.Outcome State Fault Refusal :=
  s.unlessReset <|
    match s.link.receiver.feed (hrxBytes items) with
    | some (r, .none) => s.setReceiver r
    | some (r, .complete m true) => (s.setReceiver r).arrive m
    | _ => s

/-- R139. -/
def execBadHeader (items : List HrxItem) (s : State) : Host.Outcome State Fault Refusal :=
  s.unlessReset <|
    match s.link.receiver.feed (hrxBytes items) with
    | some (r, .badHeader) =>
      (s.setReceiver r).countLink fun c => { c with badHeader := sat32 (c.badHeader + 1) }
    | _ => s

/-- R141. -/
def execBadCrc (items : List HrxItem) (s : State) : Host.Outcome State Fault Refusal :=
  s.unlessReset <|
    match s.link.receiver.feed (hrxBytes items) with
    | some (r, .complete m false) =>
      ((s.setReceiver r).countLink fun c => { c with badCrc := sat32 (c.badCrc + 1) }).refuseArrival
        m.tag m.kind .badCrc []
    | _ => s

/-- R140. -/
def execInterByteTimeout (s : State) : Host.Outcome State Fault Refusal :=
  s.unlessReset (if s.link.receiver.timedOut then s.abandonMessage else s)

/-! ### Requests -/

/-- R145. -/
def execUnknownKind (s : State) : Host.Outcome State Fault Refusal := s.unlessReset s.unknownRequest

/-- R149. The fields of the HELLO reply. -/
def helloFields (s : State) : List Byte :=
  [0x42] ++ le2 0x5346 ++ [1, s.link.rate.code, s.link.resetCause.code, 4, 128, 16] ++ le2 1024 ++ le2 256
    ++ [8, 48, 16, 8, 8, 12, 16, 4]

/-- R149. -/
def execHello (s : State) : Host.Outcome State Fault Refusal :=
  s.execRequest .hello parseNothing fun _ _ s => s.grant (helloFields s)

/-- R150. -/
def execPing (s : State) : Host.Outcome State Fault Refusal :=
  s.execRequest .ping parsePing fun _ bytes s => s.grant bytes

/-- R152. -/
def execRestart (s : State) : Host.Outcome State Fault Refusal :=
  s.execRequest .restart parseNothing fun _ _ s => (s, .restart)

/-- R151. -/
def execTimeGet (s : State) : Host.Outcome State Fault Refusal :=
  s.execRequest .timeGet parseNothing fun _ _ s => s.grant (le4 s.timebase.toNat)

/-- R151. -/
def execTimeSet (s : State) : Host.Outcome State Fault Refusal :=
  s.execRequest .timeSet parseTimeSet fun _ value s => ({ s with timebase := value }).grant []

/-! ### The arbiter -/

/-- R147. -/
def execReplyBegin (s : State) : Host.Outcome State Fault Refusal := s.unlessReset s.beginReply

/-- R144, R152. -/
def execReplyEnd (s : State) : Host.Outcome State Fault Refusal := s.unlessReset s.endReply

/-- R147. -/
def execCompletionReportBegin (s : State) : Host.Outcome State Fault Refusal := s.unlessReset s.beginReport

/-- R165. -/
def execCompletionReportEnd (s : State) : Host.Outcome State Fault Refusal := s.unlessReset s.endReport

/-- R159. -/
def execNoticeSend (s : State) : Host.Outcome State Fault Refusal := s.unlessReset s.beginNotice

end Sys2Proof.Machine
end

