-- ==== Sys2Proof/Machine/Memory.lean ====
section
/-! DEFINITION. Record Memory: the payload bytes of its blocks, the free list, descriptors and their references,
the reads that check a block, and the memory-low warning (R30 to R43). -/

namespace Sys2Proof.Machine

/-! ### The payload bytes

Byte k of block i lies at address 48 i + k. An address that the list does not hold reads 0: the value to which
a block's bytes are set when it is taken (R30; before that no reader can see them, R47, log entry 4). -/

/-- The byte at an address. -/
def Memory.read : List Host.Cell → Nat → Byte
  | [], _ => 0
  | (k, v) :: rest, a => if k = a then v else Memory.read rest a

/-- The cells with the byte at an address replaced; a 0 leaves no entry. -/
def Memory.write : List Host.Cell → Nat → Byte → List Host.Cell
  | [], a, v => if v = 0 then [] else [(a, v)]
  | (k, w) :: rest, a, v =>
    if a < k then (if v = 0 then (k, w) :: rest else (a, v) :: (k, w) :: rest)
    else if a = k then (if v = 0 then rest else (a, v) :: rest)
    else (k, w) :: Memory.write rest a v

/-- The cells with the `n` bytes from address `lo` set to 0. -/
def Memory.clear (cells : List Host.Cell) (lo n : Nat) : List Host.Cell :=
  cells.filter fun c => decide (c.1 < lo) || decide (lo + n ≤ c.1)

/-- The canonical form: addresses strictly rising, within the 1,024 x 48 bytes, and no entry equal to 0. -/
def Memory.wf : List Host.Cell → Bool
  | [] => true
  | [c] => c.2 != 0 && decide (c.1 < 49152)
  | c :: d :: rest => c.2 != 0 && decide (c.1 < d.1) && Memory.wf (d :: rest)

/-- The address of byte `k` of a block. -/
def blockAddress (b : BlockId) (k : Nat) : Nat := 48 * b.val + k

/-! ### Blocks -/

/-- R31. The number of entries of the free list. -/
def RecordMemory.freeCount (m : RecordMemory) : Nat := m.free.length

/-- R32. The number of FREE descriptors. -/
def RecordMemory.freeDescriptors (m : RecordMemory) : Nat := (m.descs.toList.filter fun d => !d.live).length

/-- R30, R31, R41. `n` blocks are taken from the head of the free list and become the last blocks of the
descriptor's chain, their bytes 0 and their check codes in agreement. -/
def RecordMemory.takeBlocks (m : RecordMemory) (d : DescId) (n : Nat) : RecordMemory :=
  let taken := m.free.take n
  { m.modDesc d fun x => { x with chain := x.chain ++ taken } with
    free := m.free.drop n
    cells := taken.foldl (fun cells b => Memory.clear cells (blockAddress b 0) 48) m.cells
    bad := m.bad.filter fun i => !taken.any fun b => b.val == i
    lowWater := min m.lowWater (m.free.drop n).length }

/-- R30. A byte is written at the next unwritten position of the descriptor's blocks, and the block's check code
is brought up to date. -/
def RecordMemory.appendByte (m : RecordMemory) (d : DescId) (v : Byte) : RecordMemory :=
  let k := (m.desc d).length
  match (m.desc d).chain[k / 48]? with
  | some b =>
    { m.modDesc d fun x => { x with length := x.length + 1 } with
      cells := Memory.write m.cells (blockAddress b (k % 48)) v
      bad := m.bad.filter fun i => i != b.val }
  | none => m

/-- R43. The free block count has fallen from `before` by a taking of blocks. -/
def State.judgeLow (s : State) (before : Nat) : State :=
  if s.memory.armed && decide (s.memory.threshold < before)
      && decide (s.memory.freeCount ≤ s.memory.threshold) then
    (s.modMemory fun m => { m with armed := false }).raise .memoryLow 0 (.freeBlocks s.memory.freeCount)
  else s

/-- R31, R41, R43. One taking of `n` blocks for a descriptor. -/
def State.takeBlocks (s : State) (d : DescId) (n : Nat) : State :=
  (s.modMemory fun m => m.takeBlocks d n).judgeLow s.memory.freeCount

/-! ### Descriptors and references -/

/-- R32. The lowest-numbered FREE descriptor. -/
def RecordMemory.lowestFree (m : RecordMemory) : Option DescId :=
  (List.finRange 256).find? fun d => !(m.desc d).live

/-- R32. The FREE descriptor `d` becomes LIVE with an empty chain and one reference. -/
def RecordMemory.takeDescriptor (m : RecordMemory) (d : DescId) : RecordMemory :=
  { m.modDesc d fun _ => ⟨true, [], 0, 1, false⟩ with
    counters := { m.counters with taken := sat32 (m.counters.taken + 1) } }

/-- R39. A request for a descriptor found none FREE. -/
def RecordMemory.countNoDescriptor (m : RecordMemory) : RecordMemory :=
  { m with counters := { m.counters with noDescriptor := sat32 (m.counters.noDescriptor + 1) } }

/-- R39. A block was needed and too few were free. -/
def RecordMemory.countNoBlock (m : RecordMemory) : RecordMemory :=
  { m with counters := { m.counters with noBlock := sat32 (m.counters.noBlock + 1) } }

/-- R33. One reference more. -/
def State.acquire (s : State) (d : DescId) : State :=
  s.modMemory fun m => m.modDesc d fun x => { x with refs := x.refs + 1 }

/-- R43. Blocks have been released while the free count was `before`. -/
def RecordMemory.rearm (m : RecordMemory) (before : Nat) : RecordMemory :=
  if !m.armed && decide (before < m.freeCount)
      && (decide (m.threshold + 16 < m.freeCount)
        || (decide (1024 ≤ m.threshold + 16) && decide (m.freeCount = 1024))) then
    { m with armed := true }
  else m

/-- R33, R34. One reference is released; the last one frees the descriptor, its chain going to the tail of the
free list. -/
def RecordMemory.release (m : RecordMemory) (d : DescId) : RecordMemory :=
  let x := m.desc d
  if !x.live then m
  else if 1 < x.refs then m.modDesc d fun x => { x with refs := x.refs - 1 }
  else
    ({ m.modDesc d fun _ => .unused with free := m.free ++ x.chain }).rearm m.freeCount

def State.release (s : State) (d : DescId) : State := s.modMemory fun m => m.release d

/-- The references of several descriptors are released in order. -/
def State.releaseAll (s : State) (ds : List DescId) : State := ds.foldl State.release s

/-! ### Taking memory -/

/-- R35. A framer stores one byte; false when a block is needed and none is free. -/
def State.storeByte (s : State) (d : DescId) (v : Byte) : Bool × State :=
  let x := s.memory.desc d
  if x.length < 48 * x.chain.length then (true, s.modMemory fun m => m.appendByte d v)
  else if s.memory.free.isEmpty then (false, s.modMemory RecordMemory.countNoBlock)
  else (true, (s.takeBlocks d 1).modMemory fun m => m.appendByte d v)

/-- R36. The up-front fill of a REPLY or a SEND: a descriptor and all its blocks, filled, or nothing. -/
def State.fill (s : State) (bytes : List Byte) : Option DescId × State :=
  match s.memory.lowestFree with
  | none => (none, s.modMemory RecordMemory.countNoDescriptor)
  | some d =>
    if s.memory.freeCount < blocksFor bytes.length then (none, s.modMemory RecordMemory.countNoBlock)
    else
      (some d, ((s.modMemory fun m => m.takeDescriptor d).takeBlocks d (blocksFor bytes.length)).modMemory
        fun m => bytes.foldl (fun m v => m.appendByte d v) m)

/-! ### Reading and checking -/

/-- R37. A read of block `b`, which lies in the chain of descriptor `d`: when the check code disagrees, the
descriptor is damaged, DATA_CHECK is raised and the failure counted. -/
def State.checkBlock (s : State) (d : DescId) (b : BlockId) : State :=
  if s.memory.bad.contains b.val then
    (s.modMemory fun m => { m.modDesc d fun x => { x with damaged := true } with
      counters := { m.counters with checkFailures := sat32 (m.counters.checkFailures + 1) } }).raise
      .dataCheck b.val .none
  else s

/-- R37. Reads of several blocks of a descriptor, in order. -/
def State.checkBlocks (s : State) (d : DescId) (bs : List BlockId) : State :=
  bs.foldl (fun s b => s.checkBlock d b) s

/-- The blocks of a descriptor's chain that hold the `n` bytes from `offset`. -/
def RecordMemory.span (m : RecordMemory) (d : DescId) (offset n : Nat) : List BlockId :=
  if n = 0 then []
  else ((m.desc d).chain.drop (offset / 48)).take ((offset + n - 1) / 48 - offset / 48 + 1)

/-- The payload byte at an offset, as the storage holds it. -/
def RecordMemory.payloadByte (m : RecordMemory) (d : DescId) (i : Nat) : Byte :=
  match (m.desc d).chain[i / 48]? with
  | some b => Memory.read m.cells (blockAddress b (i % 48))
  | none => 0

/-- R37. The 48 bytes of a block, as a read delivers them. -/
def RecordMemory.blockBytes (m : RecordMemory) (b : BlockId) : List Byte :=
  (List.range 48).map fun k => Memory.read m.cells (blockAddress b k)

/-- The `n` payload bytes from `offset`, as the storage holds them. -/
def RecordMemory.payload (m : RecordMemory) (d : DescId) (offset n : Nat) : List Byte :=
  (List.range n).map fun i => m.payloadByte d (offset + i)

/-- R45. The LIVE descriptor whose chain holds a block. -/
def RecordMemory.owner (m : RecordMemory) (b : BlockId) : Option DescId :=
  (List.finRange 256).find? fun d => (m.desc d).live && (m.desc d).chain.contains b

/-! ### Disturbances -/

/-- The block indices, rising, with one more in them. -/
def insertRising : List Nat → Nat → List Nat
  | [], a => [a]
  | k :: rest, a => if a < k then a :: k :: rest else if a = k then k :: rest else k :: insertRising rest a

/-- R30. The storage is disturbed: a stored byte changes, and the stored check code then agrees or not. -/
def RecordMemory.disturb (m : RecordMemory) (u : Upset) : RecordMemory :=
  { m with
    cells := Memory.write m.cells (blockAddress u.block u.offset.val) u.byte
    bad := if u.agrees then m.bad.filter fun i => i != u.block.val else insertRising m.bad u.block.val }

end Sys2Proof.Machine
end

