-- ==== Sys2Proof/Machine/MemoryCommands.lean ====
section
/-! DEFINITION. The meanings of the memory requests and of the walk of MEMORY_CHECK. -/

namespace Sys2Proof.Machine

/-- R40. The fields of the MEMORY_STATUS reply. -/
def memoryFields (s : State) : List Byte :=
  le2 s.memory.freeCount ++ le2 s.memory.freeDescriptors ++ le2 s.memory.lowWater ++ le2 s.memory.threshold
    ++ [yesNo s.memory.armed, yesNo (s.ops.holds (·.isCheck))]

/-- R40. -/
def execMemoryStatus (s : State) : Host.Outcome State Fault Refusal :=
  s.execRequest .memoryStatus parseNothing fun _ _ s => s.grant (memoryFields s)

/-- R44. -/
def execMemoryCheck (s : State) : Host.Outcome State Fault Refusal :=
  s.execRequest .memoryCheck parseNothing fun tag _ s =>
    if s.ops.holds (·.isCheck) then s.deny .inUse
    else if s.ops.full then s.deny .longOpsFull
    else (s.modOps fun t => t.accept tag (.check 0 0 0) s.timebase, .reply .accepted [])

/-- R45. The next index that a RUNNING walk examines. -/
def OpTable.walkIndex (t : OpTable) : Option Nat :=
  t.entries.findSome? fun e =>
    match e.running, e.work with
    | true, .check next _ _ => some next
    | _, _ => none

/-- R45. The walk moves to the next index with its counts raised. -/
def OpWork.advanceWalk (w : OpWork) (inUse failed : Bool) : OpWork :=
  match w with
  | .check next checked failing =>
    .check (next + 1) (if inUse then checked + 1 else checked) (if failed then failing + 1 else failing)
  | w => w

/-- R45, R46. The examination of one index. -/
def State.examine (s : State) (b : BlockId) : State :=
  let owner := s.memory.owner b
  let failed := owner.isSome && s.memory.bad.contains b.val
  let s := match owner with
    | some d => s.checkBlock d b
    | none => s
  let s := s.modOps fun t => t.progress (·.isCheck) fun w => w.advanceWalk owner.isSome failed
  if b.val + 1 = 1024 then s.modOps fun t => t.complete (·.isCheck) .done false else s

/-- R45. -/
def execMemoryCheckExamine (s : State) : Host.Outcome State Fault Refusal :=
  s.unlessReset <|
    match s.ops.walkIndex with
    | some i => if h : i < 1024 then s.examine ⟨i, h⟩ else s
    | none => s

/-- R42. -/
def execMemoryLowSet (s : State) : Host.Outcome State Fault Refusal :=
  s.execRequest .memoryLowSet parseMemoryLowSet fun _ n s =>
    (s.modMemory fun m => { m with threshold := n, armed := decide (n < m.freeCount) }).grant []

end Sys2Proof.Machine
end

