-- ==== Sys2Proof/Machine/Counters.lean ====
section
/-! DEFINITION. The counter groups as they travel and as they are cleared (R169 to R171). -/

namespace Sys2Proof.Machine

/-- R114. The seventeen counters in the order of the table. -/
def PortCounters.values (c : PortCounters) : List Nat :=
  [c.received, c.parityErrors, c.framingErrors, c.breaks, c.overruns, c.echo, c.completed, c.truncated,
   c.discardedTooLong, c.discardedCharError, c.discardedIncomplete, c.discardedNoMemory, c.discardedBadLength,
   c.lost, c.aborted, c.sent, c.empty]

/-- R71. The eight counters in the order of the table. -/
def StoreCounters.values (c : StoreCounters) : List Nat :=
  [c.filed, c.refused, c.evicted, c.evictedDelivered, c.delivered, c.acknowledged, c.taken, c.purged]

/-- R154. The five counters in the order of the table. -/
def LinkCounters.values (c : LinkCounters) : List Nat := [c.taken, c.badHeader, c.badCrc, c.timeouts, c.dropped]

/-- R39. The four counters in the order of the table. -/
def MemoryCounters.values (c : MemoryCounters) : List Nat := [c.taken, c.noDescriptor, c.noBlock, c.checkFailures]

/-- Counters of four bytes each. -/
def counterBytes (values : List Nat) : List Byte := values.flatMap le4

def CounterGroup.code : CounterGroup → Byte
  | .port _ => 0
  | .store _ => 1
  | .rule _ => 2
  | .link => 3
  | .memory => 4

def CounterGroup.index : CounterGroup → Byte
  | .port p => byte1 p.val
  | .store i => byte1 i.val
  | .rule r => byte1 r.val
  | .link => 0
  | .memory => 0

/-- R170. The values of a group. -/
def State.groupBytes (s : State) (g : CounterGroup) : List Byte :=
  match g with
  | .port p => counterBytes (s.port p).counters.values
  | .store i => counterBytes (s.store i).counters.values
  | .rule r =>
    counterBytes [(s.classifier.rule r).hits, (s.classifier.rule r).refused] ++ optional4 (s.classifier.rule r).lastHit
  | .link => counterBytes s.link.counters.values
  | .memory => counterBytes s.memory.counters.values ++ le2 s.memory.lowWater

/-- R171. A group is cleared. -/
def State.clearGroup (s : State) (g : CounterGroup) : State :=
  match g with
  | .port p => s.count p fun _ => .zero
  | .store i => s.modStore i fun st => { st with counters := .zero }
  | .rule r => s.modClassifier fun c => c.modRule r fun x => { x with hits := 0, refused := 0, lastHit := none }
  | .link => s.modLink fun l => { l with counters := ⟨0, 0, 0, 0, 0⟩ }
  | .memory => s.modMemory fun m => { m with counters := ⟨0, 0, 0, 0⟩, lowWater := m.freeCount }

end Sys2Proof.Machine
end

