-- ==== Sys2Proof/Machine/Scheduler.lean ====
section
/-! DEFINITION. The Transmit Scheduler's operations: send entries and their ids, admission, the start and the end
of an entry, the characters it sends, and drains (R116 to R134). Beside them the measure of line time (R98). -/

namespace Sys2Proof.Machine

/-! ### Line time -/

/-- R98. The number of bits in one character. -/
def LineSettings.charBits (ls : LineSettings) : Nat :=
  1 + ls.dataBits + (if ls.parity = .none then 0 else 1) + ls.stopBits

/-- R98. Whether `micros` microseconds are at least `n` character times: n x bits x 1,000,000 / baud. -/
def LineSettings.reached (ls : LineSettings) (micros n : Nat) : Bool :=
  decide (n * ls.charBits * 1000000 ≤ micros * ls.baud)

/-- R111. Whether the quiet time of the port is at least `n` character times, n at least 1. -/
def Port.quietFor (q : Port) (n : Nat) : Bool := q.quiet.running && q.settings.reached q.quiet.micros n

/-! ### Queues and ids -/

/-- R119. The port is RUNNING or PAUSED. -/
def Port.canSend (q : Port) : Bool := q.state == .running || q.state == .paused

/-- R116. The live entries of the pool. -/
def State.entries (s : State) : List SendEntry := s.ports.toList.flatMap (·.queue)

/-- R121. The SENDING entry of a port. -/
def Port.current (q : Port) : Option SendEntry := q.queue.find? fun e => e.state == .sending

/-- R117. The first QUEUED entry in selection order. -/
def Port.firstQueued (q : Port) : Option SendEntry :=
  (List.finRange 4).findSome? fun c => q.queue.find? fun e => e.state == .queued && e.cls == c

/-- R117. The queue position of an entry: 0 when SENDING. -/
def Port.position (q : Port) (e : SendEntry) : Nat :=
  if e.state = .sending then 0
  else
    (q.queue.filter fun x => x.state == .queued && decide (x.cls < e.cls)).length
      + ((q.queue.takeWhile fun x => x.id != e.id).filter fun x => x.state == .queued && x.cls == e.cls).length
      + 1

/-- R118. The value after a send id. -/
def nextId (v : Half) : Half := if v = 65535 then 1 else v + 1

/-- R118. The first value, from `v` on, that no live entry holds; at most `fuel` values are skipped. -/
def freshId (live : List Half) : Nat → Half → Half
  | 0, v => v
  | fuel + 1, v => if live.contains v then freshId live fuel (nextId v) else v

/-- R116. A live entry by its send id, with its port. -/
def State.findEntry (s : State) (id : Half) : Option (PortId × SendEntry) :=
  (List.finRange 4).findSome? fun p =>
    match (s.port p).queue.find? fun e => e.id == id with
    | some e => some (p, e)
    | none => none

/-- The entries of a port's queue with this id, changed by `f`. -/
def State.modEntry (s : State) (p : PortId) (id : Half) (f : SendEntry → SendEntry) : State :=
  s.modPort p fun q => { q with queue := q.queue.map fun e => if e.id = id then f e else e }

/-! ### Admission -/

/-- R119. The first check that an admission to the port fails. -/
def State.admissionCause (s : State) (p : PortId) : Option Status :=
  if !(s.port p).canSend then some .wrongState
  else if (s.port p).draining then some .portDraining
  else if decide ((s.port p).queue.length < 16) && decide (s.entries.length < 48) then none
  else some .queueFull

/-- R118, R119. The entry is made in a free pool entry and joins the tail of the port's queue. A TTL of 0 gives
none. -/
def State.makeEntry (s : State) (p : PortId) (origin : SendOrigin) (cls : Fin 4) (ttl : Nat) (desc : DescId)
    (report : Bool) (tag : Option Byte) : Half × State :=
  let id := freshId (s.entries.map (·.id)) 48 s.nextSendId
  let e : SendEntry := ⟨id, origin, cls, desc, if ttl = 0 then none else some (1000 * ttl), s.timebase, report,
    tag, .queued, 0⟩
  (id, { s.modPort p fun q => { q with queue := q.queue ++ [e] } with nextSendId := nextId id })

/-! ### Drains -/

/-- R133. A drain of the port in flight completes; the draining mark is cleared. -/
def State.completeDrain (s : State) (p : PortId) (status : OpStatus) (remaining : Nat) (byRequest : Bool) :
    State :=
  let set := fun w => match w with
    | .drain port deadline left sent _ => OpWork.drain port deadline left sent remaining
    | w => w
  (s.modOps fun t => (t.progress (·.isDrainOf p) set).complete (·.isDrainOf p) status byRequest).modPort p
    fun q => { q with draining := false }

/-- R131. An entry of the port has ended SENT while the drain runs. -/
def State.countDrained (s : State) (p : PortId) : State :=
  s.modOps fun t => t.progress (·.isDrainOf p) fun w => match w with
    | .drain port deadline left sent remaining => .drain port deadline left (sent + 1) remaining
    | w => w

/-! ### The end of an entry -/

/-- R122, R128. What the end of a SENDING entry does to its transmitter: it is idle, and the send gap is counted
from now when the entry has put a character on the line. -/
def Port.entryEnded (q : Port) (e : SendEntry) : Port :=
  if e.state = .sending then
    { q with tx := .idle, stopping := false, gap := if e.charsSent = 0 then q.gap else some 0 }
  else q

/-- R128. The entry of the port with this id ends. `byRequest`: a request's execution ends it (R164).
`judges`: a drain in flight is judged (not when a stop or reset ends the entry). -/
def State.endEntry (s : State) (p : PortId) (e : SendEntry) (status : SendStatus) (byRequest judges : Bool) :
    State :=
  let s := s.modPort p fun q => { q.entryEnded e with queue := q.queue.eraseP fun x => x.id == e.id }
  let s := s.release e.desc
  let s :=
    if status = .sent then
      (s.count p fun c => { c with sent := sat32 (c.sent + 1) }).countDrained p
    else s
  let s :=
    if e.origin = .host ∧ e.report then
      s.raise .sendDone e.id.toNat (.sendDone status (e.tag.getD 0))
    else s
  if judges && (s.port p).draining && (s.port p).queue.isEmpty then s.completeDrain p .done 0 byRequest else s

/-! ### Sending -/

/-- R112. DIRn is released. -/
def State.releaseDir (s : State) (p : PortId) : State := s.modPort p fun q => { q with dir := false }

/-- R125, R126. The entry's characters are over: on a half-duplex port the trailing hold follows (0 is over at
once), then the entry ends. -/
def State.holdOrEnd (s : State) (p : PortId) (e : SendEntry) (status : SendStatus) : State :=
  match (s.port p).settings.duplex with
  | .full => s.endEntry p e status false true
  | .half =>
    if (s.port p).settings.trailingHold = 0 then (s.releaseDir p).endEntry p e status false true
    else s.modPort p fun q => { q with tx := .holding status 0 }

/-- R126. The bytes of the block that the transmitter last read. -/
def TxPhase.block (t : TxPhase) : List Byte :=
  match t with
  | .sending _ _ block => block
  | _ => []

/-- R99, R113. Character `k` of the entry begins at the settings in force; its byte is one of the block as read. -/
def Port.putCharacter (q : Port) (block : List Byte) (k : Nat) : Port :=
  { q with tx := .sending (q.settings.value (block.getD (k % 48) 0)) q.settings block }

/-- R98, R113. The bits of the character on TXn, in the order in which they are sent; with no character on it TXn
rests high. -/
def Port.txBits (q : Port) : List Bool :=
  match q.tx with
  | .sending value format _ => format.characterBits value
  | _ => []

/-- R113, R126. Character `k` of the entry begins. Its block is read just before the block's first byte, and the
characters that follow are made of the bytes that this read delivered. A block that fails ends the entry DATA_CHECK,
at once when no character has been sent. -/
def State.beginCharacter (s : State) (p : PortId) (e : SendEntry) (k : Nat) : State :=
  if k % 48 = 0 then
    match (s.memory.desc e.desc).chain[k / 48]? with
    | none => s.modPort p fun q => q.putCharacter [] k
    | some b =>
      if s.memory.bad.contains b.val then
        let s := s.checkBlock e.desc b
        if k = 0 then (s.releaseDir p).endEntry p e .dataCheck false true else s.holdOrEnd p e .dataCheck
      else s.modPort p fun q => q.putCharacter (s.memory.blockBytes b) k
  else s.modPort p fun q => q.putCharacter q.tx.block k

/-- R123. The entry's first character would begin: its damaged flag is judged, and on a half-duplex port DIRn is
asserted. -/
def State.startEntry (s : State) (p : PortId) (e : SendEntry) : State :=
  if (s.memory.desc e.desc).damaged then s.endEntry p e .dataCheck false true
  else
    (s.modPort p fun q => { q with dir := q.settings.duplex == .half }).beginCharacter p e 0

/-- R104, R105. A stop reaches one entry of the port: a QUEUED entry, and a SENDING entry in its turnaround wait
or its trailing hold, ends ABORTED; an entry with a character on the line goes on to finish it. -/
def State.stopEntry (p : PortId) (s : State) (e : SendEntry) : State :=
  if e.state = .queued then s.endEntry p e .aborted true false
  else match (s.port p).tx with
    | .sending _ _ _ => s.modPort p fun q => { q with stopping := true }
    | _ => (s.releaseDir p).endEntry p e .aborted true false

end Sys2Proof.Machine
end

