-- ==== Sys2Proof/Machine/StoreUnit.lean ====
section
/-! DEFINITION. The Store Unit's operations: filing, refusal and eviction, reading, acknowledging and purging
(R48 to R70). -/

namespace Sys2Proof.Machine

/-- R53. A record's block count. -/
def Record.blocks (r : Record) : Nat := blocksFor r.length

/-- R53. The block counts of several records together. -/
def blocksOf (rs : List Record) : Nat := (rs.map Record.blocks).sum

/-- R58, R62, R65, R69. High-mark armed becomes yes when the record count is at or below the low mark. -/
def Store.rearm (st : Store) : Store :=
  if st.records.length ≤ st.settings.lowMark then { st with highArmed := true } else st

/-! ### Filing -/

/-- R54. A filing of a record of `n` blocks is refused. -/
def Store.refuses (st : Store) (n : Nat) : Bool :=
  st.state != .opened
  || (st.settings.quota != 0 && decide (st.settings.quota < n))
  || (st.settings.policy == .refuse && decide (st.settings.capacity ≤ st.records.length))
  || (st.settings.policy == .refuse && st.settings.quota != 0
      && decide (st.settings.quota < st.blocksUsed + n))

/-- R57. A store that holds `count` records of `used` blocks has room for one more of `n` blocks. -/
def StoreSettings.room (ss : StoreSettings) (count used n : Nat) : Bool :=
  decide (count < ss.capacity) && (ss.quota == 0 || decide (used + n ≤ ss.quota))

/-- R57. How many records are evicted from the head, oldest first, until there is room. -/
def evictions (ss : StoreSettings) (n : Nat) : Nat → List Record → Nat
  | _, [] => 0
  | used, r :: rest =>
    if ss.room (rest.length + 1) used n then 0 else evictions ss n (used - r.blocks) rest + 1

/-- `k` records leave the head of the list (R52): the delivered marks go with them. -/
def Store.dropHead (st : Store) (k : Nat) : Store :=
  { st with
    records := st.records.drop k
    delivered := st.delivered - k
    blocksUsed := st.blocksUsed - blocksOf (st.records.take k) }

/-- R57. `k` records are evicted. -/
def Store.evict (st : Store) (k : Nat) : Store :=
  { st.dropHead k with
    counters := { st.counters with
      evicted := sat32 (st.counters.evicted + k)
      evictedDelivered := sat32 (st.counters.evictedDelivered + min k st.delivered) } }

/-- R56. The frame becomes a record at the tail. -/
def Store.append (st : Store) (frame : Frame) (rule : Byte) : Store :=
  { st with
    records := st.records ++
      [⟨st.nextSeq, frame.port, rule, frame.flags, frame.arrival, frame.close, frame.length, frame.desc⟩]
    blocksUsed := st.blocksUsed + blocksFor frame.length
    nextSeq := st.nextSeq + 1
    refusingArmed := true
    counters := { st.counters with filed := sat32 (st.counters.filed + 1) } }

/-- R58. The water marks after a filing: the store, and whether STORE_HIGH is raised. `before` is the record
count before the filing step. -/
def Store.judgeMarks (st : Store) (before : Nat) : Bool × Store :=
  let st := st.rearm
  if st.highArmed && decide (before < st.settings.highMark)
      && decide (st.settings.highMark ≤ st.records.length) then
    (true, { st with highArmed := false })
  else (false, st)

/-- R55. A refused filing: the store, and whether STORE_REFUSING is raised. -/
def Store.refuse (st : Store) : Bool × Store :=
  (st.refusingArmed, { st with
    refusingArmed := false
    counters := { st.counters with refused := sat32 (st.counters.refused + 1) } })

/-- R24, R54 to R58. A frame is offered to a store: the sequence number of the record made, or none when the
filing is refused. -/
def State.file (s : State) (i : StoreId) (frame : Frame) (rule : Byte) : Option Word × State :=
  let st := s.store i
  if st.refuses (blocksFor frame.length) then
    let r := st.refuse
    let s := s.modStore i fun _ => r.2
    (none, if r.1 then s.raise .storeRefusing i.val .none else s)
  else
    let k := if st.settings.policy = .evictOldest then
      evictions st.settings (blocksFor frame.length) st.blocksUsed st.records else 0
    let r := ((st.evict k).append frame rule).judgeMarks st.records.length
    let s := ((s.modStore i fun _ => r.2).releaseAll ((st.records.take k).map (·.desc))).acquire frame.desc
    (some st.nextSeq, if r.1 then s.raise .storeHigh i.val .none else s)

/-- R20, R59. ACTIONS_CAPPED is added to a record still in its store. -/
def State.capRecord (s : State) (filed : StoreId × Word) : State :=
  s.modStore filed.1 fun st => { st with records := st.records.map fun r =>
    if r.seq = filed.2 then { r with flags := { r.flags with capped := true } } else r }

/-! ### Reading -/

/-- R60. The records that a read returns of the candidates: consecutive ones, the first always, then while the
record limit and the byte limit hold. `size` is the reply body so far, `n` the records so far. -/
def chosen (recordLimit byteLimit : Nat) : Nat → Nat → List Record → List Record
  | _, _, [] => []
  | size, n, r :: rest =>
    if n = 0 ∨ (n < recordLimit ∧ size + 18 + r.length ≤ byteLimit) then
      r :: chosen recordLimit byteLimit (size + 18 + r.length) (n + 1) rest
    else []

/-- "The record header", then the record's bytes. -/
def recordBytes (r : Record) (damaged : Bool) (payload : List Byte) : List Byte :=
  le4 r.seq.toNat ++ le2 r.length ++ [byte1 r.port.val, r.rule, r.flags.byte damaged, byte1 r.blocks]
    ++ le4 r.arrival.toNat ++ le4 r.close.toNat ++ payload

/-- R63. One record is read: its blocks are checked, then its header is made with DAMAGED as the descriptor's
flag then stands, and its bytes follow as they were read. -/
def State.readRecord (s : State) (r : Record) : List Byte × State :=
  let s := s.checkBlocks r.desc (s.memory.span r.desc 0 r.length)
  (recordBytes r (s.memory.desc r.desc).damaged (s.memory.payload r.desc 0 r.length), s)

/-- R63. Several records are read in order. -/
def State.readRecords (s : State) : List Record → List Byte × State
  | [] => ([], s)
  | r :: rest =>
    let one := s.readRecord r
    let more := one.2.readRecords rest
    (one.1 ++ more.1, more.2)

/-- R61. PEEK marks `k` records delivered. -/
def Store.peek (st : Store) (k : Nat) : Store :=
  { st with
    delivered := st.delivered + k
    counters := { st.counters with delivered := sat32 (st.counters.delivered + k) } }

/-- R62. TAKE removes `k` records. -/
def Store.take (st : Store) (k : Nat) : Store :=
  ({ st.dropHead k with
    counters := { st.counters with taken := sat32 (st.counters.taken + k) } }).rearm

/-- R65. An acknowledgement removes `k` records. -/
def Store.ack (st : Store) (k : Nat) : Store :=
  ({ st.dropHead k with
    counters := { st.counters with acknowledged := sat32 (st.counters.acknowledged + k) } }).rearm

/-- R69. A purge removes the head record. -/
def Store.purgeHead (st : Store) : Store :=
  ({ st.dropHead 1 with
    counters := { st.counters with purged := sat32 (st.counters.purged + 1) } }).rearm

/-- R65. How many records an acknowledgement of this sequence number removes; none when it names no delivered
record. -/
def Store.ackCount (st : Store) (seq : Word) : Option Nat :=
  match st.records with
  | [] => none
  | head :: _ =>
    if (seq - head.seq).toNat < st.delivered then some ((seq - head.seq).toNat + 1) else none

/-! ### Purging -/

/-- R69, R70. The purge of the store ends and the store returns to its prior state. -/
def State.endPurge (s : State) (i : StoreId) (status : OpStatus) (byRequest : Bool) : State :=
  (s.modStore i fun st => { st with state := st.prior.getD st.state, prior := none }).modOps fun t =>
    t.complete (·.isPurgeOf i) status byRequest

/-- R69. The purge ends DONE when the store is empty. -/
def State.judgePurge (s : State) (i : StoreId) (byRequest : Bool) : State :=
  if (s.store i).records.isEmpty then s.endPurge i .done byRequest else s

/-- R69. One removal. -/
def State.purgeOne (s : State) (i : StoreId) : State :=
  match (s.store i).records with
  | [] => s
  | r :: _ =>
    ((((s.modStore i Store.purgeHead).release r.desc).modOps fun t =>
      t.progress (·.isPurgeOf i) fun w => match w with
        | .purge store removed => .purge store (removed + 1)
        | w => w).judgePurge i false)

end Sys2Proof.Machine
end

