-- ==== Sys2Proof/Machine/NoticeCommands.lean ====
section
/-! DEFINITION. The meanings of the notice, counter and long-operation requests. -/

namespace Sys2Proof.Machine

/-- R160. -/
def execNoticeCredit (s : State) : Host.Outcome State Fault Refusal :=
  s.execRequest .noticeCredit parseNoticeCredit fun _ n s =>
    (s.modNotices fun q => { q with credit := min (q.credit + n) 64 }).grant [byte1 (min (s.notices.credit + n) 64)]

/-- R161. -/
def execNoticeMask (s : State) : Host.Outcome State Fault Refusal :=
  s.execRequest .noticeMask parseNoticeMask fun _ mask s =>
    (s.modNotices fun q => { q with mask := mask }).grant (le2 mask.toNat)

/-- R170. -/
def execCountersRead (s : State) : Host.Outcome State Fault Refusal :=
  s.execRequest .countersRead parseCountersRead fun _ a s =>
    (if a.2 then s.clearGroup a.1 else s).grant ([a.1.code, a.1.index] ++ s.groupBytes a.1)

/-- R171. -/
def execCountersClear (s : State) : Host.Outcome State Fault Refusal :=
  s.execRequest .countersClear parseCountersClear fun _ g s => (s.clearGroup g).grant []

/-- R167. The milliseconds left to a drain's deadline; 0 for the others and for a COMPLETE drain. -/
def OpEntry.millisLeft (e : OpEntry) : Nat :=
  match e.running, e.work with
  | true, .drain _ _ left _ _ => (left + 999) / 1000
  | _, _ => 0

/-- R167. An OP_LIST entry. -/
def OpEntry.listing (e : OpEntry) : List Byte :=
  [e.tag, e.work.code, e.work.target, if e.running then 0 else 1, e.statusByte] ++ le4 e.start.toNat
    ++ le2 e.millisLeft ++ e.work.result

/-- R167. -/
def execOpList (s : State) : Host.Outcome State Fault Refusal :=
  s.execRequest .opList parseNothing fun _ _ s =>
    s.grant (byte1 s.ops.entries.length :: s.ops.entries.flatMap OpEntry.listing)

/-- R168. The owning block ends the RUNNING operation CANCELLED (R46, R70, R134). -/
def State.cancelOp (s : State) (w : OpWork) : State :=
  match w with
  | .purge i _ => s.endPurge i .cancelled true
  | .drain p _ _ _ _ => s.completeDrain p .cancelled (s.port p).queue.length true
  | .check _ _ _ => s.modOps fun t => t.complete (·.isCheck) .cancelled true

/-- R168. -/
def execOpCancel (s : State) : Host.Outcome State Fault Refusal :=
  s.execRequest .opCancel parseOpCancel fun _ tag s =>
    match s.ops.entries.find? fun e => e.tag == tag with
    | none => s.deny .notFound
    | some e => if e.running then (s.cancelOp e.work).grant [] else s.deny .tooLate

end Sys2Proof.Machine
end

