-- ==== Sys2Proof/Machine/Framing.lean ====
section
/-! DEFINITION. The framer: pattern progress, the storage of a frame's bytes, the close order and the three
framing modes (R73 to R96). Each operation is about one port's framer context. -/

namespace Sys2Proof.Machine

def State.framer (s : State) (p : PortId) : Framer := (s.port p).framer

/-- R73, R82, R86. The working state in HUNT with everything cleared and the settings kept. -/
def Framer.toHunt (f : Framer) : Framer := .fresh f.settings

def Framer.toSkip (f : Framer) : Framer := { f with state := .skip }

/-! ### Pattern progress -/

/-- R78. The progress after character `c` is fed at progress `k`; the last `k` characters fed are the first `k`
bytes of the pattern. It is the pattern's length when the pattern is complete. -/
def advance (pattern : List Byte) (k : Nat) (c : Byte) : Nat :=
  if pattern[k]? = some c then k + 1
  else
    let recent := pattern.take k ++ [c]
    ((List.range (k + 1)).reverse.find? fun j => recent.drop (k + 1 - j) == pattern.take j).getD 0

/-! ### The frame in assembly -/

/-- R95. The causes of a discard. -/
inductive DiscardCause where
  | tooLong | charError | incomplete | noMemory | badLength
  deriving DecidableEq, Repr

/-- R95, R114. The port's counter of frames discarded for a cause rises. -/
def PortCounters.discard (c : PortCounters) (cause : DiscardCause) : PortCounters :=
  match cause with
  | .tooLong => { c with discardedTooLong := sat32 (c.discardedTooLong + 1) }
  | .charError => { c with discardedCharError := sat32 (c.discardedCharError + 1) }
  | .incomplete => { c with discardedIncomplete := sat32 (c.discardedIncomplete + 1) }
  | .noMemory => { c with discardedNoMemory := sat32 (c.discardedNoMemory + 1) }
  | .badLength => { c with discardedBadLength := sat32 (c.discardedBadLength + 1) }

/-- The framer's reference on the frame in assembly is released and the frame is gone (R33). -/
def State.dropFrame (s : State) (p : PortId) : State :=
  match (s.framer p).frame with
  | some a => (s.modFramer p fun f => { f with frame := none }).release a.desc
  | none => s

/-- R95. The frame is discarded. -/
def State.discardFrame (s : State) (p : PortId) (cause : DiscardCause) : State :=
  (s.dropFrame p).count p fun c => c.discard cause

/-- R88. A frame begins and the framer takes a descriptor; when none is FREE the frame is discarded with cause
no memory and the answer is false. `marked`: a character taken so far carries a mark (R92). -/
def State.beginFrame (s : State) (p : PortId) (arrival last : Word) (marked : Bool) : Bool × State :=
  match s.memory.lowestFree with
  | none =>
    (false, (s.modMemory RecordMemory.countNoDescriptor).discardFrame p .noMemory)
  | some d =>
    (true, (s.modMemory fun m => m.takeDescriptor d).modFramer p fun f =>
      { f with frame := some ⟨d, arrival, { FrameFlags.clear with charError := marked }, last⟩ })

/-- R92. A character is taken as part of the frame. -/
def State.notePart (s : State) (p : PortId) (c : Char) : State :=
  s.modFramer p fun f => { f with frame := f.frame.map fun a =>
    { a with flags := { a.flags with charError := a.flags.charError || c.marks.any }, last := c.time } }

/-- What became of a byte offered to the frame (R88, R89). -/
inductive Stored where
  | stored | tooLong | noBlock
  deriving DecidableEq, Repr

/-- R88, R89. One byte is stored in the frame, after the length check. -/
def State.storeInFrame (s : State) (p : PortId) (v : Byte) : Stored × State :=
  match (s.framer p).frame with
  | none => (.stored, s)
  | some a =>
    if (s.framer p).settings.maxLength ≤ (s.memory.desc a.desc).length then (.tooLong, s)
    else
      match s.storeByte a.desc v with
      | (true, s) => (.stored, s)
      | (false, s) => (.noBlock, s)

/-- R80. Several bytes are stored in order; the first failure ends it. -/
def State.storeSeq (s : State) (p : PortId) : List Byte → Stored × State
  | [] => (.stored, s)
  | v :: rest =>
    match s.storeInFrame p v with
    | (.stored, s) => s.storeSeq p rest
    | r => r

/-! ### Closing a frame -/

/-- R93. How a frame closes. `brk`: a BREAK item closes it; an incomplete frame that no break closes is closed
by the idle limit. -/
inductive CloseKind where
  | ended (brk : Bool)
  | truncated
  | incomplete (brk : Bool)
  deriving DecidableEq, Repr

/-- The flags of the frame in assembly, changed by `f`. -/
def State.flagFrame (s : State) (p : PortId) (f : FrameFlags → FrameFlags) : State :=
  s.modFramer p fun x => { x with frame := x.frame.map fun a => { a with flags := f a.flags } }

/-- R94. A completed frame is offered to the classification queue: it joins, or it is lost. -/
def State.completeFrame (s : State) (p : PortId) (a : Assembly) (close : Word) : State :=
  let s := (s.modFramer p fun f => { f with frame := none }).count p fun c =>
    { c with completed := sat32 (c.completed + 1) }
  if s.classifier.queue.length < 8 then
    s.modClassifier fun c => { c with
      queue := c.queue ++ [⟨p, a.desc, (s.memory.desc a.desc).length, a.flags, a.arrival, close⟩] }
  else
    ((s.release a.desc).count p fun c => { c with lost := sat32 (c.lost + 1) }).raise .frameLost p.val .none

/-- R93, steps 3 to 5. -/
def State.finishClose (s : State) (p : PortId) (close : Word) : State :=
  match (s.framer p).frame with
  | none => s
  | some a =>
    if a.flags.charError ∧ (s.framer p).settings.charError = .discard then s.discardFrame p .charError
    else if (s.memory.desc a.desc).length = 0 then
      (s.dropFrame p).count p fun c => { c with empty := sat32 (c.empty + 1) }
    else s.completeFrame p a close

/-- R89. The frame gains TRUNCATED and the frames-truncated counter rises; any held characters are dropped. -/
def State.truncateFrame (s : State) (p : PortId) : State :=
  (((s.flagFrame p fun f => { f with truncated := true }).modFramer p fun f => { f with held := [] }).count p
    fun c => { c with truncated := sat32 (c.truncated + 1) })

/-- R93, the flag of step 2. -/
def State.flagIncomplete (s : State) (p : PortId) (brk : Bool) : State :=
  s.flagFrame p fun f => if brk then { f with brk := true } else { f with gapClosed := true }

/-- R93. The close of the frame in assembly, in its order. The framer's state is set by what calls this. -/
def State.closeFrame (s : State) (p : PortId) (kind : CloseKind) (close : Word) : State :=
  match kind with
  | .truncated => s.finishClose p close
  | .ended brk =>
    (if brk then s.flagFrame p fun f => { f with brk := true } else s).finishClose p close
  | .incomplete brk =>
    match (s.framer p).settings.incomplete with
    | .discard => s.discardFrame p .incomplete
    | .keep =>
      match s.storeSeq p ((s.framer p).held.map (·.value)) with
      | (.stored, s) => (s.flagIncomplete p brk).finishClose p close
      | (.noBlock, s) => s.discardFrame p .noMemory
      | (.tooLong, s) =>
        match (s.framer p).settings.tooLong with
        | .truncate => ((s.truncateFrame p).flagIncomplete p brk).finishClose p close
        | .discard => s.discardFrame p .tooLong

/-- R88, R89. A byte of the frame could not be stored while character time `time` was taken: the too-long
policy applies, or the frame is discarded with cause no memory. The framer enters SKIP; when the frame was
found too long by the character that completes the end pattern (`boundary`), it returns to HUNT. A truncated frame has
the close time `time`, also when the byte that could not be stored is that of a held character (log entry 20). -/
def State.storeFailed (s : State) (p : PortId) (r : Stored) (boundary : Bool) (time : Word) : State :=
  match r with
  | .stored => s
  | .noBlock => (s.discardFrame p .noMemory).modFramer p Framer.toSkip
  | .tooLong =>
    (match (s.framer p).settings.tooLong with
      | .truncate => (s.truncateFrame p).closeFrame p .truncated time
      | .discard => s.discardFrame p .tooLong).modFramer p
        (if boundary then Framer.toHunt else Framer.toSkip)

/-- The frame ends at its boundary and the framer returns to HUNT (R80, R85, R87). -/
def State.endFrame (s : State) (p : PortId) (brk : Bool) (close : Word) : State :=
  (s.closeFrame p (.ended brk) close).modFramer p Framer.toHunt

/-- The time of the last character taken as part of the frame. -/
def Framer.lastTime (f : Framer) : Word :=
  match f.frame with
  | some a => a.last
  | none => 0

/-! ### DELIMITED mode -/

/-- R80, R81. A character taken in BODY. R89 does not say which character found a frame too long when the byte offered
is that of a held character, which drops out of the held set (R80) or is stored at an escape (R81): the model takes it
to be the character just taken, `c`, and not the held one (log entry 20). -/
def State.delimitedBody (s : State) (p : PortId) (c : Char) : State :=
  let s := s.notePart p c
  let f := s.framer p
  if f.escapeOpen then
    let r := (s.modFramer p fun f => { f with escapeOpen := false }).storeInFrame p c.value
    r.2.storeFailed p r.1 false c.time
  else if f.settings.escape = some c.value then
    let out := f.held ++ (if f.settings.keepEscape then [c] else [])
    let r := (s.modFramer p fun f => { f with held := [], endProgress := 0, escapeOpen := true }).storeSeq p
      (out.map (·.value))
    r.2.storeFailed p r.1 false c.time
  else
    let k := advance f.settings.endPattern f.endProgress c.value
    let complete := k == f.settings.endPattern.length
    if f.settings.keepDelimiters then
      let r := (s.modFramer p fun f => { f with endProgress := if complete then 0 else k }).storeInFrame p c.value
      match r.1 with
      | .stored => if complete then r.2.endFrame p false c.time else r.2
      | e => r.2.storeFailed p e complete c.time
    else if complete then
      (s.modFramer p fun f => { f with held := [], endProgress := 0 }).endFrame p false c.time
    else
      let seen := f.held ++ [c]
      let out := seen.take (seen.length - k)
      let r := (s.modFramer p fun f => { f with held := seen.drop (seen.length - k), endProgress := k }).storeSeq p
        (out.map (·.value))
      r.2.storeFailed p r.1 false c.time

/-- R79. A character taken in HUNT. -/
def State.delimitedHunt (s : State) (p : PortId) (c : Char) : State :=
  let f := s.framer p
  if f.settings.startPattern.isEmpty then
    let r := s.beginFrame p c.time c.time false
    if r.1 then
      (r.2.modFramer p fun f => { f with state := .body, endProgress := 0, escapeOpen := false }).delimitedBody p c
    else r.2.modFramer p fun f => { f with state := .skip, endProgress := 0 }
  else
    let k := advance f.settings.startPattern f.startProgress c.value
    let seen := f.held ++ [c]
    if k = f.settings.startPattern.length then
      let r := s.beginFrame p ((seen.map (·.time)).headD c.time) c.time (seen.any (·.marks.any))
      if r.1 then
        let s := r.2.modFramer p fun f =>
          { f with state := .body, startProgress := 0, endProgress := 0, held := [], escapeOpen := false }
        if f.settings.keepDelimiters then
          let r := s.storeSeq p (seen.map (·.value))
          r.2.storeFailed p r.1 false c.time
        else s
      else r.2.modFramer p fun f => { f with state := .skip, startProgress := 0, endProgress := 0, held := [] }
    else s.modFramer p fun f => { f with startProgress := k, held := seen.drop (seen.length - k) }

/-- R82. A character taken in SKIP. -/
def State.delimitedSkip (s : State) (p : PortId) (c : Char) : State :=
  let f := s.framer p
  if f.escapeOpen then s.modFramer p fun f => { f with escapeOpen := false }
  else if f.settings.escape = some c.value then
    s.modFramer p fun f => { f with escapeOpen := true, endProgress := 0 }
  else
    let k := advance f.settings.endPattern f.endProgress c.value
    if k = f.settings.endPattern.length then s.modFramer p Framer.toHunt
    else s.modFramer p fun f => { f with endProgress := k }

/-! ### LENGTH mode -/

/-- R84, R86. A byte of the frame is taken, stored or not: the taken count rises and a byte at the field's place
is kept as part of the length field. -/
def Framer.collect (f : Framer) (v : Byte) : Framer :=
  { f with
    taken := f.taken + 1
    lengthField :=
      if f.settings.fieldOffset ≤ f.taken ∧ f.taken < f.settings.fieldOffset + f.settings.fieldWidth then
        f.lengthField ++ [v]
      else f.lengthField }

/-- R84. The value of the complete length field. -/
def Framer.fieldValue (f : Framer) : Nat :=
  match f.settings.byteOrder with
  | .lowFirst => f.lengthField.foldr (fun b acc => b.toNat + 256 * acc) 0
  | .highFirst => f.lengthField.foldl (fun acc b => 256 * acc + b.toNat) 0

/-- R84. The total length. -/
def Framer.totalLength (f : Framer) : Int := (f.fieldValue : Int) + f.settings.adjust

/-- R84. The number of bytes from byte 0 through the length field. -/
def FramerSettings.fieldEnd (fs : FramerSettings) : Nat := fs.fieldOffset + fs.fieldWidth

/-- R84. The total length is out of range. -/
def Framer.badTotal (f : Framer) : Bool :=
  decide (f.totalLength < f.settings.fieldEnd) || decide ((f.settings.maxLength : Int) < f.totalLength)

/-- R84. In HEADER, after a byte has been stored and taken. -/
def State.judgeHeader (s : State) (p : PortId) (time : Word) : State :=
  let f := s.framer p
  if f.taken = f.settings.fieldEnd then
    if f.badTotal then (s.discardFrame p .badLength).modFramer p Framer.toHunt
    else if f.totalLength = f.taken then s.endFrame p false time
    else s.modFramer p fun f => { f with state := .body, total := some f.totalLength }
  else s

/-- R86. In SKIP, after a byte has been taken. -/
def State.judgeSkip (s : State) (p : PortId) : State :=
  let f := s.framer p
  let total := if f.taken = f.settings.fieldEnd then some f.totalLength else f.total
  if f.taken = f.settings.fieldEnd ∧ f.badTotal then s.modFramer p Framer.toHunt
  else
    match total with
    | some t =>
      if t ≤ (f.taken : Int) then s.modFramer p Framer.toHunt
      else s.modFramer p fun f => { f with total := some t }
    | none => s

/-- A byte of a LENGTH frame that could not be stored is taken all the same (R83, R86). -/
def State.lengthUnstored (s : State) (p : PortId) (c : Char) : State :=
  (s.modFramer p fun f => f.toSkip.collect c.value).judgeSkip p

/-- R83 to R86. A character taken in LENGTH mode. -/
def State.lengthChar (s : State) (p : PortId) (c : Char) : State :=
  match (s.framer p).state with
  | .hunt =>
    match (s.framer p).settings.sync with
    | some sync => if c.value = sync then start s else s
    | none => start s
  | .header =>
    let r := (s.notePart p c).storeInFrame p c.value
    match r.1 with
    | .stored => (r.2.modFramer p fun f => f.collect c.value).judgeHeader p c.time
    | e => (r.2.storeFailed p e false c.time).lengthUnstored p c
  | .body =>
    let r := (s.notePart p c).storeInFrame p c.value
    match r.1 with
    | .stored =>
      let s := r.2.modFramer p fun f => f.collect c.value
      if (s.framer p).total = some ((s.framer p).taken : Int) then s.endFrame p false c.time else s
    | e => (r.2.storeFailed p e false c.time).lengthUnstored p c
  | .skip => s.lengthUnstored p c
where
  /-- R83. The character begins a frame as its byte 0. -/
  start (s : State) : State :=
    let r := s.beginFrame p c.time c.time c.marks.any
    if r.1 then
      let r := (r.2.modFramer p fun f => { f with state := .header }).storeInFrame p c.value
      match r.1 with
      | .stored => (r.2.modFramer p fun f => f.collect c.value).judgeHeader p c.time
      | e => (r.2.storeFailed p e false c.time).lengthUnstored p c
    else r.2.lengthUnstored p c

/-! ### GAP mode -/

/-- R87. A character taken in GAP mode. -/
def State.gapChar (s : State) (p : PortId) (c : Char) : State :=
  match (s.framer p).state with
  | .hunt =>
    let r := s.beginFrame p c.time c.time c.marks.any
    if r.1 then store (r.2.modFramer p fun f => { f with state := .body })
    else r.2.modFramer p Framer.toSkip
  | .skip => s
  | _ => store (s.notePart p c)
where
  store (s : State) : State :=
    let r := s.storeInFrame p c.value
    r.2.storeFailed p r.1 false c.time

/-! ### The four events of R74 -/

/-- R74. A character taken from the FIFO. -/
def State.framerChar (s : State) (p : PortId) (c : Char) : State :=
  match (s.framer p).settings.mode with
  | .delimited =>
    match (s.framer p).state with
    | .hunt => s.delimitedHunt p c
    | .skip => s.delimitedSkip p c
    | _ => s.delimitedBody p c
  | .length => s.lengthChar p c
  | .gap => s.gapChar p c

/-- R90, R91. In HUNT the start progress and the held characters are cleared. -/
def Framer.clearStart (f : Framer) : Framer := { f with startProgress := 0, held := [] }

/-- R90, R91. The open frame closes as incomplete and the framer returns to HUNT. -/
def State.closeIncomplete (s : State) (p : PortId) (brk : Bool) : State :=
  (s.closeFrame p (.incomplete brk) (s.framer p).lastTime).modFramer p Framer.toHunt

/-- R87, R90, R91. A quiet-time expiry (`brk` false) or a BREAK item (`brk` true) reaches the framer. -/
def State.framerBoundary (s : State) (p : PortId) (brk : Bool) : State :=
  match (s.framer p).settings.mode with
  | .gap =>
    match (s.framer p).state with
    | .hunt => s
    | .skip => s.modFramer p Framer.toHunt
    | _ => s.endFrame p brk (s.framer p).lastTime
  | _ =>
    match (s.framer p).state with
    | .hunt => s.modFramer p Framer.clearStart
    | .skip => s.modFramer p Framer.toHunt
    | _ => s.closeIncomplete p brk

/-- R96. The port's receiving is aborted. -/
def State.abortFraming (s : State) (p : PortId) : State :=
  (match (s.framer p).frame with
    | some _ => (s.dropFrame p).count p fun c => { c with aborted := sat32 (c.aborted + 1) }
    | none => s).modFramer p Framer.toHunt

/-- R75. The framer at the switch-on of the receiver: HUNT, or SKIP in GAP mode. -/
def Framer.switchOn (f : Framer) : Framer :=
  match f.settings.mode with
  | .gap => f.toHunt.toSkip
  | _ => f.toHunt

/-- R74. The quiet-time expiries that lie at the head of the stream are taken. -/
def State.takeExpiries (s : State) (p : PortId) : Nat → State
  | 0 => s
  | n + 1 => (s.framerBoundary p false).takeExpiries p n

/-- R74. The oldest item of the FIFO is taken, and with it any quiet-time expiry whose place is right after it. R74 puts
such an expiry after the items that waited when it came and does not say that it is one step with the last of them; that
it is, so that no abort (R96) or other event comes between, is the model's choice (log entry 38). -/
def State.takeItem (s : State) (p : PortId) : State :=
  match (s.port p).fifo with
  | [] => s
  | item :: rest =>
    let isExpiry := fun i => i == FifoItem.expiry
    let s := s.modPort p fun q => { q with fifo := rest.dropWhile isExpiry }
    let s :=
      match item with
      | .char c => s.framerChar p c
      | .brk _ => s.framerBoundary p true
      | .expiry => s.framerBoundary p false
    s.takeExpiries p (rest.takeWhile isExpiry).length

end Sys2Proof.Machine
end

