-- ==== Sys2Proof/Machine/PortUnit.lean ====
section
/-! DEFINITION. The Stream Port's operations: switching the receiver on and off, the reception of characters and
breaks, and the line monitor (R97 to R115). -/

namespace Sys2Proof.Machine

/-- R111. The quiet time set to 0 and rising from now. -/
def Quiet.fromNow : Quiet := ⟨true, 0, false⟩

/-- R109. The FIFO fill: the number of items it holds. -/
def Port.fill (q : Port) : Nat := (q.fifo.filter fun i => i != .expiry).length

/-- R100. The line monitor is on. -/
def Port.monitored (q : Port) : Bool := q.canSend

/-- R107. A stop bit may be sampled: a character is on the line, or the line rests and the event brings the whole
character. -/
def LineState.awaitsStop : LineState → Bool
  | .high => true
  | .character _ => true
  | _ => false

/-- R100. The receiver takes the character whose stop bit is sampled: it is on, and has been since the start bit. -/
def Port.hears (q : Port) : Bool := q.state == .running && q.line != .character true

/-! ### Receiving -/

/-- R109, R110, R112. A judged character reaches the FIFO: discarded as echo, lost, or entered. An echoed character with
a low stop bit comes here, and is counted, at the line's return high, and not at its sampling (log entry 21). -/
def Port.receive (q : Port) (c : LowStopChar) (framing : Bool) : Port :=
  if c.echo then { q with counters := { q.counters with echo := sat32 (q.counters.echo + 1) } }
  else
    let q := { q with counters := { q.counters with
      received := sat32 (q.counters.received + 1)
      parityErrors := if c.parity then sat32 (q.counters.parityErrors + 1) else q.counters.parityErrors
      framingErrors := if framing then sat32 (q.counters.framingErrors + 1) else q.counters.framingErrors } }
    if c.lost then
      { q with
        counters := { q.counters with overruns := sat32 (q.counters.overruns + 1) }
        overrunPending := true }
    else
      { q with
        fifo := q.fifo ++ [.char ⟨c.value, ⟨c.parity, framing, q.overrunPending⟩, c.time⟩]
        overrunPending := false }

/-- R107. The first stop bit of a character is sampled at time `now`. -/
def Port.sampled (q : Port) (now : Word) (data : Byte) (parityBit : Bool) : LowStopChar where
  value := q.settings.value data
  parity := q.settings.parityWrong (q.settings.value data) parityBit
  time := now
  echo := q.dir
  lost := decide (64 ≤ q.fill)

/-- R100, R107, R111. -/
def Port.characterReceived (q : Port) (now : Word) (data : Byte) (parityBit stopHigh : Bool) : Port :=
  if !q.monitored || !q.line.awaitsStop then q
  else
    let c := q.sampled now data parityBit
    if stopHigh then
      { (if q.hears then q.receive c false else q) with line := .high, quiet := .fromNow }
    else
      { q with line := .lowStop (if q.hears then some c else none), quiet := .off }

/-- R107. The character that the receiver holds, if any, is complete with the FRAMING mark. -/
def Port.enterHeld (q : Port) (held : Option LowStopChar) : Port :=
  match held with
  | some c => if q.state = PortState.running then q.receive c true else q
  | none => q

/-- R107, R111. The line returns high in time after a low stop bit. A held character that was judged echo at its
sampling is discarded and counted now (R112); after a pause, or when a break came instead, it is never counted. R112
could be read as counting it at its sampling; this is the model's reading (log entry 21). -/
def Port.framingErrorEnd (q : Port) : Port :=
  match q.line with
  | .lowStop held =>
    if q.monitored then
      { q.enterHeld held with line := .high, quiet := .fromNow }
    else q
  | _ => q

/-- R108, R110, R112. A break is detected at time `now`. -/
def Port.breakDetected (q : Port) (now : Word) : Port :=
  if !q.monitored || q.line == .brk then q
  else
    let q := { q with line := .brk, quiet := .off }
    if q.state ≠ .running then q
    else if q.dir then { q with counters := { q.counters with echo := sat32 (q.counters.echo + 1) } }
    else
      let q := { q with counters := { q.counters with breaks := sat32 (q.counters.breaks + 1) } }
      if 64 ≤ q.fill then
        { q with
          counters := { q.counters with overruns := sat32 (q.counters.overruns + 1) }
          overrunPending := true }
      else { q with fifo := q.fifo ++ [.brk now] }

/-- R108, R111. The line returns high after a break. -/
def Port.breakEnd (q : Port) : Port :=
  if q.monitored && q.line == .brk then { q with line := .high, quiet := .fromNow } else q

/-- R107, R111. The next start bit falls. While a character that the receiver does not take is on the line, what it
takes for a start bit comes so as well (R101, log entry 35). -/
def Port.startBit (q : Port) : Port :=
  if q.monitored && (q.line == .high || q.line == .character true) then
    { q with line := .character (q.state != .running), quiet := .off }
  else q

/-- R111. The limit in character times that the framer's mode uses; 0 for none. -/
def FramerSettings.quietLimit (fs : FramerSettings) : Nat :=
  match fs.mode with
  | .gap => fs.gapThreshold
  | _ => fs.idleLimit

/-- R111. The quiet time has reached the limit and the expiry has not been given in this quiet period. -/
def Port.quietDue (q : Port) : Bool :=
  q.state == .running && !q.quiet.given && q.framer.settings.quietLimit != 0
    && q.quietFor q.framer.settings.quietLimit

/-- R74, R111. The expiry is given: the framer takes it after the items that wait in the FIFO. -/
def State.quietExpiry (s : State) (p : PortId) : State :=
  if (s.port p).quietDue then
    let s := s.modPort p fun q => { q with quiet := { q.quiet with given := true } }
    if (s.port p).fifo.isEmpty then s.framerBoundary p false
    else s.modPort p fun q => { q with fifo := q.fifo ++ [.expiry] }
  else s

/-! ### Port states -/

/-- R100. A character partly received when the receiver is switched off is abandoned. -/
def LineState.abandon (l : LineState) : LineState :=
  match l with
  | .character _ => .character true
  | .lowStop _ => .lowStop none
  | l => l

/-- R96, R102, R109. The framer's receiving is aborted, the FIFO is emptied and overrun-pending is cleared. -/
def State.abortReceiving (s : State) (p : PortId) : State :=
  (s.abortFraming p).modPort p fun q =>
    { q with fifo := [], overrunPending := false, line := q.line.abandon }

/-- R101. PORT_START of a READY port. -/
def Port.start (q : Port) : Port :=
  { q with state := .running, framer := q.framer.switchOn, line := .high, quiet := .fromNow, gap := none }

/-- R103. PORT_RESUME of a PAUSED port. What the line monitor saw while the port was paused stays: the receiver takes
no character that was then on the line, and finds none in a break until the break ends (log entry 35). -/
def Port.resume (q : Port) : Port :=
  { q with state := .running, framer := q.framer.switchOn, quiet := .fromNow }

/-- R104. PORT_STOP of a RUNNING or PAUSED port. -/
def State.stopPort (s : State) (p : PortId) : State :=
  let before := (s.port p).queue
  let s := before.foldl (State.stopEntry p) (s.abortReceiving p)
  let s := if (s.port p).draining then s.completeDrain p .aborted before.length true else s
  s.modPort p fun q => { q with state := .ready, line := .high, quiet := .off }

/-- R13. The pending frames of a port are removed from the classification queue; their references are released in
queue order, the oldest first (log entry 33). -/
def State.removePending (s : State) (p : PortId) : State :=
  (s.modClassifier fun c => { c with queue := c.queue.filter fun f => f.port != p }).releaseAll
    ((s.classifier.queue.filter fun f => f.port == p).map (·.desc))

/-- R105. PORT_RESET. -/
def State.resetPort (s : State) (p : PortId) : State :=
  ((if (s.port p).canSend then s.stopPort p else s).removePending p).modPort p fun q =>
    { q with state := .off, settings := .dflt, framer := .fresh .dflt, counters := .zero }

end Sys2Proof.Machine
end

