-- ==== Sys2Proof/Machine/PortCommands.lean ====
section
/-! DEFINITION. The meanings of the port requests and of the rows for the receive line and the framer. -/

namespace Sys2Proof.Machine

/-! ### Requests -/

/-- R100. The port is OFF or READY, so its settings may be replaced. -/
def Port.configurable (q : Port) : Bool := q.state == .off || q.state == .ready

/-- R99. -/
def execPortConfig (s : State) : Host.Outcome State Fault Refusal :=
  s.execRequest .portConfig parsePortConfig fun _ a s =>
    if (s.port a.1).configurable then
      (s.modPort a.1 fun q => { q with settings := a.2, state := .ready }).grant []
    else s.deny .wrongState

/-- R76. -/
def execFramerConfig (s : State) : Host.Outcome State Fault Refusal :=
  s.execRequest .framerConfig parseFramerConfig fun _ a s =>
    if (s.port a.1).configurable then
      (s.modFramer a.1 fun f => { f with settings := a.2 }).grant []
    else s.deny .wrongState

/-- R101. -/
def execPortStart (s : State) : Host.Outcome State Fault Refusal :=
  s.execRequest .portStart parsePort fun _ p s =>
    if (s.port p).state = .ready then (s.modPort p Port.start).grant [] else s.deny .wrongState

/-- R102. -/
def execPortPause (s : State) : Host.Outcome State Fault Refusal :=
  s.execRequest .portPause parsePort fun _ p s =>
    if (s.port p).state = .running then
      ((s.abortReceiving p).modPort p fun q => { q with state := .paused }).grant []
    else s.deny .wrongState

/-- R103. -/
def execPortResume (s : State) : Host.Outcome State Fault Refusal :=
  s.execRequest .portResume parsePort fun _ p s =>
    if (s.port p).state = .paused then (s.modPort p Port.resume).grant [] else s.deny .wrongState

/-- R104. -/
def execPortStop (s : State) : Host.Outcome State Fault Refusal :=
  s.execRequest .portStop parsePort fun _ p s =>
    if (s.port p).canSend then (s.stopPort p).grant [] else s.deny .wrongState

/-- R105. -/
def execPortReset (s : State) : Host.Outcome State Fault Refusal :=
  s.execRequest .portReset parsePort fun _ p s => (s.resetPort p).grant []

/-- R106. The fields of the PORT_STATUS reply. -/
def Port.statusFields (q : Port) : List Byte :=
  [q.state.code, byte1 q.fill, q.framer.state.code, byte1 q.queue.length, yesNo q.draining, yesNo q.dir]

/-- R106. -/
def execPortStatus (s : State) : Host.Outcome State Fault Refusal :=
  s.execRequest .portStatus parsePort fun _ p s => s.grant (s.port p).statusFields

/-! ### The receive line -/

/-- R107. -/
def execCharacterReceived (port : PortId) (data : Byte) (parityBit stopHigh : Bool) (s : State) :
    Host.Outcome State Fault Refusal :=
  s.unlessReset (s.modPort port fun q => q.characterReceived s.timebase data parityBit stopHigh)

/-- R108. -/
def execBreakDetected (port : PortId) (s : State) : Host.Outcome State Fault Refusal :=
  s.unlessReset (s.modPort port fun q => q.breakDetected s.timebase)

/-- R108. -/
def execBreakEnd (port : PortId) (s : State) : Host.Outcome State Fault Refusal :=
  s.unlessReset (s.modPort port Port.breakEnd)

/-- R111. -/
def execStartBit (port : PortId) (s : State) : Host.Outcome State Fault Refusal :=
  s.unlessReset (s.modPort port Port.startBit)

/-- R107. -/
def execFramingErrorEnd (port : PortId) (s : State) : Host.Outcome State Fault Refusal :=
  s.unlessReset (s.modPort port Port.framingErrorEnd)

/-! ### The framer -/

/-- R74. The framer takes items while the port is RUNNING (R100). -/
def execFramerTakeItem (port : PortId) (s : State) : Host.Outcome State Fault Refusal :=
  s.unlessReset (if (s.port port).state = .running then s.takeItem port else s)

/-- R111. -/
def execQuietTimeExpiry (port : PortId) (s : State) : Host.Outcome State Fault Refusal :=
  s.unlessReset (s.quietExpiry port)

end Sys2Proof.Machine
end

