-- ==== Sys2Proof/Machine/Classify.lean ====
section
/-! DEFINITION. The Classifier's operations: the edits of rules, chains, defaults and templates (R3 to R11, R27),
the match of a rule (R15, R16), the visit of one rule (R17 to R21) and the end of a classification (R22, R23). -/

namespace Sys2Proof.Machine

/-! ### Edits -/

/-- R3. -/
def Classifier.writeRule (c : Classifier) (r : RuleId) (fields : RuleDef) : Classifier :=
  c.modRule r fun x => { x with
    state := if x.state = .free then .defined else x.state
    fields := fields
    hits := 0
    lastHit := none
    refused := 0 }

/-- R4. The chain with a rule inserted; none when the named rule is not in it. -/
def insertRule (chain : List RuleId) (r : RuleId) (position : LinkPosition) : Option (List RuleId) :=
  match position with
  | .head => some (r :: chain)
  | .after a =>
    if chain.contains a then
      some (chain.takeWhile (fun x => x != a) ++ a :: r :: (chain.dropWhile fun x => x != a).drop 1)
    else none

/-- R4. -/
def Classifier.linkRule (c : Classifier) (r : RuleId) (p : PortId) (position : LinkPosition) :
    Status × Classifier :=
  if (c.rule r).state ≠ .defined then (.wrongState, c)
  else
    match insertRule (c.chain p) r position with
    | none => (.notFound, c)
    | some chain => (.ok, (c.setChain p chain).modRule r fun x => { x with state := .linked, chainPort := some p })

/-- R2, R5. -/
def Classifier.unlinkRule (c : Classifier) (r : RuleId) : Status × Classifier :=
  match (c.rule r).state, (c.rule r).chainPort with
  | .linked, some p =>
    (.ok, (c.setChain p ((c.chain p).filter fun x => x != r)).modRule r fun x =>
      { x with state := .defined, chainPort := none })
  | _, _ => (.wrongState, c)

/-- R6. -/
def Classifier.freeRule (c : Classifier) (r : RuleId) : Status × Classifier :=
  if (c.rule r).state = .defined then (.ok, c.modRule r fun _ => .unused) else (.wrongState, c)

/-- R7. -/
def Classifier.enableRule (c : Classifier) (r : RuleId) (enabled : Bool) : Status × Classifier :=
  if (c.rule r).state = .free then (.wrongState, c)
  else (.ok, c.modRule r fun x => { x with fields := { x.fields with enabled := enabled } })

/-- R11. An edit is carried out: its status and the Classifier after it. -/
def Classifier.applyEdit (c : Classifier) (e : Edit) : Status × Classifier :=
  match e with
  | .ruleWrite r fields => (.ok, c.writeRule r fields)
  | .ruleLink r p position => c.linkRule r p position
  | .ruleUnlink r => c.unlinkRule r
  | .ruleFree r => c.freeRule r
  | .ruleEnable r enabled => c.enableRule r enabled
  | .defaultSet p action => (.ok, { c with defaults := c.defaults.set p.val action p.isLt })
  | .templateWrite t value => (.ok, { c with templates := c.templates.set t.val value t.isLt })

/-- R11. An edit handed to the Classifier: carried out at once when it is IDLE, held while it is CLASSIFYING. -/
def State.edit (s : State) (e : Edit) : State × Response :=
  match s.classifier.current with
  | none =>
    let r := s.classifier.applyEdit e
    ({ s with classifier := r.2 }, .reply r.1 [])
  | some _ => (s.modClassifier fun c => { c with held := some e }, .held)

/-! ### Matching -/

/-- R15, tests 1 to 4. -/
def RuleDef.applies (d : RuleDef) (f : Frame) : Bool :=
  d.enabled && decide (d.minLength ≤ f.length) && decide (f.length ≤ d.maxLength) && d.filter.passes f.flags
    && decide (d.keyOffset + d.key.length ≤ f.length)

/-- R15, test 5. The bytes read agree with the key under the mask. -/
def keyMatches : List Byte → List Byte → List Byte → Bool
  | k :: ks, m :: ms, b :: bs => (b &&& m) == (k &&& m) && keyMatches ks ms bs
  | [], _, _ => true
  | _ :: _, _, _ => false

/-- R15, R16. Whether the rule matches the frame. Test 5 is made only when the others have passed, and reads and
checks the blocks that hold the key bytes. -/
def State.ruleMatches (s : State) (d : RuleDef) (f : Frame) : Bool × State :=
  if d.applies f then
    (keyMatches d.key d.mask (s.memory.payload f.desc d.keyOffset d.key.length),
      s.checkBlocks f.desc (s.memory.span f.desc d.keyOffset d.key.length))
  else (false, s)

/-! ### Actions -/

def State.modRule (s : State) (r : RuleId) (f : Rule → Rule) : State := s.modClassifier fun c => c.modRule r f

def State.modCurrent (s : State) (f : Classification → Classification) : State :=
  s.modClassifier fun c => { c with current := c.current.map f }

/-- R24, R25, R26. The rule's refused count rises. -/
def State.countRefused (s : State) (r : RuleId) : State :=
  s.modRule r fun x => { x with refused := sat32 (x.refused + 1) }

/-- R25, R26. A failed FORWARD or REPLY. -/
def State.dropForward (s : State) (r : RuleId) (action : DroppedAction) (cause : Status) : State :=
  (s.countRefused r).raise .forwardDropped r.val (.dropped action cause)

/-- R24. A FILE action of a rule. -/
def State.fileAction (s : State) (r : RuleId) (f : Frame) (i : StoreId) : State :=
  match s.file i f (byte1 r.val) with
  | (some seq, s) => s.modCurrent fun k => { k with filed := k.filed ++ [(i, seq)] }
  | (none, s) => s.countRefused r

/-- R25. A FORWARD action. -/
def State.forwardAction (s : State) (r : RuleId) (f : Frame) (p : PortId) (cls : Fin 4) (ttl : Nat) : State :=
  match s.admissionCause p with
  | some cause => s.dropForward r .forward cause
  | none => (s.makeEntry p .forward cls ttl f.desc false none).2.acquire f.desc

/-- R28. The number of echo bytes for a frame of `length` bytes. -/
def Echo.count (e : Echo) (length : Nat) : Nat := min e.length (length - e.offset)

/-- R28. The reply: the template's bytes with the echo bytes inserted. -/
def Template.build (t : Template) (echoed : List Byte) : List Byte :=
  match t.echo with
  | none => t.bytes
  | some e => t.bytes.take e.insertAt ++ echoed ++ t.bytes.drop e.insertAt

/-- R28. The reply that a template makes for a frame, with the blocks that hold its echo bytes read and
checked. -/
def State.buildReply (s : State) (t : Template) (f : Frame) : List Byte × State :=
  match t.echo with
  | none => (t.build [], s)
  | some e =>
    (t.build (s.memory.payload f.desc e.offset (e.count f.length)),
      s.checkBlocks f.desc (s.memory.span f.desc e.offset (e.count f.length)))

/-- R28. The length of the reply, which is known before the echo bytes are read. -/
def Template.replyLength (t : Template) (length : Nat) : Nat :=
  t.bytes.length + match t.echo with
    | none => 0
    | some e => e.count length

/-- R26. A REPLY action. Its echo bytes are read, and a block that fails its check is reported, only when all
checks have passed, and before the reply's own blocks are taken (log entries 18 and 32). -/
def State.replyAction (s : State) (r : RuleId) (f : Frame) (t : TemplateId) (cls : Fin 4) (ttl : Nat) : State :=
  let template := s.classifier.templates.get t
  match s.admissionCause f.port with
  | some cause => s.dropForward r .reply cause
  | none =>
    if template.bytes.isEmpty then s.dropForward r .reply .notFound
    else if s.memory.lowestFree.isNone then
      (s.modMemory RecordMemory.countNoDescriptor).dropForward r .reply .noMemory
    else if s.memory.freeCount < blocksFor (template.replyLength f.length) then
      (s.modMemory RecordMemory.countNoBlock).dropForward r .reply .noMemory
    else
      let built := s.buildReply template f
      match built.2.fill built.1 with
      | (some d, s) => (s.makeEntry f.port .reply cls ttl d false none).2
      | (none, s) => s.dropForward r .reply .noMemory

/-- R21. A one-shot rule that has acted is disabled. -/
def State.spend (s : State) (r : RuleId) : State :=
  if (s.classifier.rule r).fields.oneShot then
    (s.modRule r fun x => { x with fields := { x.fields with enabled := false } }).raise .ruleSpent r.val .none
  else s

/-- R17. The hit of a matching rule. -/
def State.hit (s : State) (r : RuleId) : State :=
  s.modRule r fun x => { x with hits := sat32 (x.hits + 1), lastHit := some s.timebase }

/-- R18. A performed action is counted, and the walk ends after it unless continue is on. -/
def State.performed (s : State) (goOn : Bool) : State :=
  s.modCurrent fun k => { k with performed := k.performed + 1, decided := true, ended := !goOn }

/-- R20. The fifth acting rule: the walk ends and the records filed gain ACTIONS_CAPPED. -/
def State.capActions (s : State) (k : Classification) : State :=
  (k.filed.foldl State.capRecord s).modCurrent fun k => { k with
    decided := true
    ended := true
    frame := { k.frame with flags := { k.frame.flags with capped := true } } }

/-- R17 to R21. A matching rule acts by its action kind. -/
def State.act (s : State) (k : Classification) (r : RuleId) (d : RuleDef) : State :=
  match d.action with
  | .drop => ((s.hit r).modCurrent fun k => { k with decided := true, ended := true }).spend r
  | .count => (s.hit r).spend r
  | .file i =>
    if 4 ≤ k.performed then s.capActions k
    else (((s.hit r).fileAction r k.frame i).performed d.goOn).spend r
  | .forward p cls ttl =>
    if 4 ≤ k.performed then s.capActions k
    else (((s.hit r).forwardAction r k.frame p cls ttl).performed d.goOn).spend r
  | .reply t cls ttl =>
    if 4 ≤ k.performed then s.capActions k
    else (((s.hit r).replyAction r k.frame t cls ttl).performed d.goOn).spend r

/-- R17. The walk visits the next rule of the chain. -/
def State.visit (s : State) (k : Classification) (r : RuleId) (rest : List RuleId) : State :=
  let d := (s.classifier.rule r).fields
  let m := (s.modCurrent fun k => { k with remaining := rest }).ruleMatches d k.frame
  if m.1 then m.2.act k r d else m.2

/-! ### The start and the end of a classification -/

/-- R14. -/
def Classifier.begin (c : Classifier) (f : Frame) (rest : List Frame) : Classifier :=
  { c with
    queue := rest
    current := some ⟨f, c.chain f.port, c.defaults.get f.port, 0, false, false, []⟩ }

/-- R17. The walk has ended. -/
def Classification.walked (k : Classification) : Bool := k.ended || k.remaining.isEmpty

/-- R22. The default action, when it applies. -/
def State.defaultAction (s : State) (k : Classification) : State :=
  if k.decided then s
  else
    match k.dflt with
    | .drop => s
    | .file i => (s.file i k.frame 255).2

/-- R23, step 3. A held edit is carried out and its reply queued. -/
def State.carryOutHeld (s : State) : State :=
  match s.classifier.held, s.link.executor with
  | some e, .executing tag kind =>
    let r := s.classifier.applyEdit e
    ({ s with classifier := { r.2 with held := none } }).answer tag kind.code r.1 [] (roleOf r.1) .idle
  | _, _ => s

/-- R22, R23. -/
def State.endClassification (s : State) (k : Classification) : State :=
  (((s.defaultAction k).release k.frame.desc).modClassifier fun c => { c with current := none }).carryOutHeld

end Sys2Proof.Machine
end

