-- ==== Sys2Proof/Machine/RuleCommands.lean ====
section
/-! DEFINITION. The meanings of the rule and template requests and of the classification rows. -/

namespace Sys2Proof.Machine

/-! ### Requests -/

/-- R3. -/
def execRuleWrite (s : State) : Host.Outcome State Fault Refusal :=
  s.execRequest .ruleWrite parseRuleWrite fun _ a s => s.edit (.ruleWrite a.1 a.2)

/-- R4. -/
def execRuleLink (s : State) : Host.Outcome State Fault Refusal :=
  s.execRequest .ruleLink parseRuleLink fun _ a s => s.edit (.ruleLink a.1 a.2.1 a.2.2)

/-- R5. -/
def execRuleUnlink (s : State) : Host.Outcome State Fault Refusal :=
  s.execRequest .ruleUnlink parseRule fun _ r s => s.edit (.ruleUnlink r)

/-- R6. -/
def execRuleFree (s : State) : Host.Outcome State Fault Refusal :=
  s.execRequest .ruleFree parseRule fun _ r s => s.edit (.ruleFree r)

/-- R7. -/
def execRuleEnable (s : State) : Host.Outcome State Fault Refusal :=
  s.execRequest .ruleEnable parseRuleEnable fun _ a s => s.edit (.ruleEnable a.1 a.2)

/-- The action target, class and TTL as they travel; a field that is not used is 0 (R173). -/
def Action.fields : Action → List Byte
  | .drop => [0, 0, 0, 0]
  | .file i => [byte1 i.val, 0, 0, 0]
  | .forward p c ttl => [byte1 p.val, byte1 c.val] ++ le2 ttl
  | .reply t c ttl => [byte1 t.val, byte1 c.val] ++ le2 ttl
  | .count => [0, 0, 0, 0]

/-- R8. The fields of the RULE_READ reply. -/
def ruleFields (r : RuleId) (x : Rule) : List Byte :=
  [byte1 r.val, x.state.code, match x.chainPort with | some p => byte1 p.val | none => 0xFF,
   yesNo x.fields.enabled, yesNo x.fields.oneShot, yesNo x.fields.goOn]
    ++ le2 x.fields.keyOffset ++ le2 x.fields.minLength ++ le2 x.fields.maxLength
    ++ [x.fields.filter.code, x.fields.action.code] ++ x.fields.action.fields
    ++ [byte1 x.fields.key.length] ++ padTo 8 x.fields.key ++ padTo 8 x.fields.mask
    ++ le4 x.hits ++ le4 x.refused ++ optional4 x.lastHit

/-- R8. -/
def execRuleRead (s : State) : Host.Outcome State Fault Refusal :=
  s.execRequest .ruleRead parseRule fun _ r s => s.grant (ruleFields r (s.classifier.rule r))

/-- R9. The fields of the CHAIN_LIST reply. -/
def chainFields (p : PortId) (c : Classifier) : List Byte :=
  [byte1 p.val, (c.defaults.get p).code, match c.defaults.get p with | .file i => byte1 i.val | .drop => 0,
   byte1 (c.chain p).length] ++ (c.chain p).map fun r => byte1 r.val

/-- R9. -/
def execChainList (s : State) : Host.Outcome State Fault Refusal :=
  s.execRequest .chainList parsePort fun _ p s => s.grant (chainFields p s.classifier)

/-- R10. -/
def execDefaultSet (s : State) : Host.Outcome State Fault Refusal :=
  s.execRequest .defaultSet parseDefaultSet fun _ a s => s.edit (.defaultSet a.1 a.2)

/-- R27. -/
def execTemplateWrite (s : State) : Host.Outcome State Fault Refusal :=
  s.execRequest .templateWrite parseTemplateWrite fun _ a s => s.edit (.templateWrite a.1 a.2)

/-! ### Classification -/

/-- R14. -/
def execClassificationStart (s : State) : Host.Outcome State Fault Refusal :=
  s.unlessReset <|
    match s.classifier.current, s.classifier.queue with
    | none, f :: rest => s.modClassifier fun c => c.begin f rest
    | _, _ => s

/-- R17. -/
def execWalkVisit (s : State) : Host.Outcome State Fault Refusal :=
  s.unlessReset <|
    match s.classifier.current with
    | some k =>
      match k.ended, k.remaining with
      | false, r :: rest => s.visit k r rest
      | _, _ => s
    | none => s

/-- R23. -/
def execClassificationEnd (s : State) : Host.Outcome State Fault Refusal :=
  s.unlessReset <|
    match s.classifier.current with
    | some k => if k.walked then s.endClassification k else s
    | none => s

end Sys2Proof.Machine
end

