-- ==== Sys2Proof/Machine/SendCommands.lean ====
section
/-! DEFINITION. The meanings of the send requests and of the transmission rows. -/

namespace Sys2Proof.Machine

/-! ### Requests -/

/-- R120. A SEND that has passed its field checks. -/
def State.admitSend (s : State) (tag : Byte) (p : PortId) (cls : Fin 4) (ttl : Nat) (report : Bool)
    (data : List Byte) : State × Response :=
  match s.admissionCause p with
  | some cause => s.deny cause
  | none =>
    match s.fill data with
    | (none, s) => s.deny .noMemory
    | (some d, s) =>
      let made := s.makeEntry p .host cls ttl d report (some tag)
      made.2.grant (le2 made.1.toNat)

/-- R120. -/
def execSend (s : State) : Host.Outcome State Fault Refusal :=
  s.execRequest .send parseSend fun tag a s => s.admitSend tag a.1 a.2.1 a.2.2.1 a.2.2.2.1 a.2.2.2.2

/-- R129. -/
def execSendCancel (s : State) : Host.Outcome State Fault Refusal :=
  s.execRequest .sendCancel parseSendId fun _ id s =>
    match s.findEntry id with
    | none => s.deny .notFound
    | some (p, e) =>
      if e.state = .queued then (s.endEntry p e .cancelled true true).grant [] else s.deny .tooLate

/-- R127, R173. TTL remaining as it travels, in milliseconds begun; none travels as 0. An entry whose expiry has
not been taken has not reached 0. -/
def SendEntry.ttlMillis (e : SendEntry) : Nat :=
  match e.ttl with
  | none => 0
  | some micros => max 1 ((micros + 999) / 1000)

/-- R130. The fields of the SEND_STATUS reply. -/
def sendFields (s : State) (p : PortId) (e : SendEntry) : List Byte :=
  le2 e.id.toNat ++ [e.state.code, byte1 p.val, e.origin.code, byte1 e.cls.val, byte1 ((s.port p).position e)]
    ++ le2 e.ttlMillis ++ le2 e.charsSent ++ le2 (s.memory.desc e.desc).length ++ le4 e.enqueued.toNat

/-- R130. -/
def execSendStatus (s : State) : Host.Outcome State Fault Refusal :=
  s.execRequest .sendStatus parseSendId fun _ id s =>
    match s.findEntry id with
    | none => s.deny .notFound
    | some (p, e) => s.grant (sendFields s p e)

/-- R131. -/
def execPortDrain (s : State) : Host.Outcome State Fault Refusal :=
  s.execRequest .portDrain parsePortDrain fun tag a s =>
    if s.ops.holds (·.isDrainOf a.1) then s.deny .inUse
    else if !(s.port a.1).canSend then s.deny .wrongState
    else if s.ops.full then s.deny .longOpsFull
    else
      let s := (s.modOps fun t => t.accept tag (.drain a.1 a.2 (1000 * a.2) 0 0) s.timebase).modPort a.1
        fun q => { q with draining := true }
      (if (s.port a.1).queue.isEmpty then s.completeDrain a.1 .done 0 true else s, .reply .accepted [])

/-! ### Transmission -/

/-- R121, R122. The send gap has passed. -/
def Port.gapPassed (q : Port) : Bool := q.settings.sendGap == 0 || q.gap.isNone

/-- R121. The entry that a selection would pick, when all its conditions hold. -/
def Port.selectable (q : Port) : Option SendEntry :=
  if q.canSend && q.current.isNone && q.gapPassed then q.firstQueued else none

/-- R121. The entry becomes SENDING and its TTL stops applying. -/
def SendEntry.selected (e : SendEntry) : SendEntry := { e with state := .sending, ttl := none }

/-- R121, R123, R124. How soon a selection comes once its conditions hold is the row's matter (log entry 36). -/
def execSelection (port : PortId) (s : State) : Host.Outcome State Fault Refusal :=
  s.unlessReset <|
    match (s.port port).selectable with
    | none => s
    | some e =>
      let s := s.modEntry port e.id fun _ => e.selected
      match (s.port port).settings.duplex with
      | .full => s.startEntry port e.selected
      | .half => s.modPort port fun q => { q with tx := .turnaround }

/-- R122. The counted gap has reached the send gap. -/
def Port.gapDue (q : Port) : Bool :=
  match q.gap with
  | some micros => q.settings.reached micros q.settings.sendGap
  | none => false

/-- R122. -/
def execSendGapExpiry (port : PortId) (s : State) : Host.Outcome State Fault Refusal :=
  s.unlessReset (if (s.port port).gapDue then s.modPort port fun q => { q with gap := none } else s)

/-- R124. The entry whose turnaround wait ends now. -/
def Port.turnaroundDue (q : Port) : Option SendEntry :=
  match q.tx with
  | .turnaround =>
    if q.canSend && q.quietFor q.settings.turnaround && q.framer.state != .header && q.framer.state != .body then
      q.current
    else none
  | _ => none

/-- R123, R124. -/
def execTurnaroundEnd (port : PortId) (s : State) : Host.Outcome State Fault Refusal :=
  s.unlessReset <|
    match (s.port port).turnaroundDue with
    | none => s
    | some e => s.startEntry port e

/-- R104, R125, R126. -/
def execCharacterSent (port : PortId) (s : State) : Host.Outcome State Fault Refusal :=
  s.unlessReset <|
    match (s.port port).tx, (s.port port).current with
    | .sending _ _ _, some e =>
      let e := { e with charsSent := e.charsSent + 1 }
      let s := s.modEntry port e.id fun _ => e
      if (s.port port).stopping then (s.releaseDir port).endEntry port e .aborted false true
      else if (s.memory.desc e.desc).length ≤ e.charsSent then s.holdOrEnd port e .sent
      else s.beginCharacter port e e.charsSent
    | _, _ => s

/-- R125. The trailing hold has run. -/
def Port.holdDue (q : Port) : Option (SendStatus × SendEntry) :=
  match q.tx, q.current with
  | .holding status micros, some e =>
    if q.settings.reached micros q.settings.trailingHold then some (status, e) else none
  | _, _ => none

/-- R125, R126. -/
def execTrailingHoldExpiry (port : PortId) (s : State) : Host.Outcome State Fault Refusal :=
  s.unlessReset <|
    match (s.port port).holdDue with
    | none => s
    | some (status, e) => (s.releaseDir port).endEntry port e status false true

/-- R127. The entry's TTL has run out while it is QUEUED. -/
def SendEntry.expired (e : SendEntry) : Bool := e.state == .queued && e.ttl == some 0

/-- R127. -/
def execTtlExpiry (sendId : Half) (s : State) : Host.Outcome State Fault Refusal :=
  s.unlessReset <|
    match s.findEntry sendId with
    | none => s
    | some (p, e) => if e.expired then s.endEntry p e .expired false true else s

/-- R133. A RUNNING drain of the port whose deadline is reached. -/
def OpEntry.deadlineReached (e : OpEntry) (p : PortId) : Bool :=
  e.running && match e.work with
    | .drain port _ left _ _ => port == p && left == 0
    | _ => false

/-- R133. -/
def State.deadlineDue (s : State) (p : PortId) : Bool :=
  !(s.port p).queue.isEmpty && s.ops.entries.any fun e => e.deadlineReached p

/-- R133. -/
def execDrainDeadline (port : PortId) (s : State) : Host.Outcome State Fault Refusal :=
  s.unlessReset (if s.deadlineDue port then s.completeDrain port .timedOut (s.port port).queue.length false else s)

end Sys2Proof.Machine
end

