-- ==== Sys2Proof/Machine/StoreCommands.lean ====
section
/-! DEFINITION. The meanings of the store requests and of the purge's removals. -/

namespace Sys2Proof.Machine

/-- R50. -/
def execStoreConfig (s : State) : Host.Outcome State Fault Refusal :=
  s.execRequest .storeConfig parseStoreConfig fun _ a s =>
    match (s.store a.1).state with
    | .closed => (s.modStore a.1 fun st => { st with settings := a.2, highArmed := true }).grant []
    | .purging => s.deny .storeBusy
    | _ => s.deny .wrongState

/-- R49. -/
def execStoreOpen (s : State) : Host.Outcome State Fault Refusal :=
  s.execRequest .storeOpen parseStore fun _ i s =>
    match (s.store i).state with
    | .closed | .paused => (s.modStore i fun st => { st with state := .opened }).grant []
    | .opened => s.deny .wrongState
    | .purging => s.deny .storeBusy

/-- R49. -/
def execStorePause (s : State) : Host.Outcome State Fault Refusal :=
  s.execRequest .storePause parseStore fun _ i s =>
    match (s.store i).state with
    | .opened => (s.modStore i fun st => { st with state := .paused }).grant []
    | .closed | .paused => s.deny .wrongState
    | .purging => s.deny .storeBusy

/-- R49. -/
def execStoreClose (s : State) : Host.Outcome State Fault Refusal :=
  s.execRequest .storeClose parseStore fun _ i s =>
    match (s.store i).state with
    | .opened | .paused =>
      if (s.store i).records.isEmpty then (s.modStore i fun st => { st with state := .closed }).grant []
      else s.deny .wrongState
    | .closed => s.deny .wrongState
    | .purging => s.deny .storeBusy

/-- R60 to R64. A read that is served: the records chosen, their bytes, and what the mode does to them. -/
def State.serveRead (s : State) (i : StoreId) (take : Bool) (recordLimit byteLimit : Nat) : State × Response :=
  let st := s.store i
  let rs := chosen recordLimit byteLimit 4 0 (st.records.drop st.delivered)
  let read := s.readRecords rs
  let s := if take then
      (read.2.modStore i fun st => st.take rs.length).releaseAll (rs.map (·.desc))
    else read.2.modStore i fun st => st.peek rs.length
  let more := (s.store i).delivered < (s.store i).records.length
  s.grant ([byte1 i.val, byte1 rs.length, yesNo more] ++ read.1)

/-- R60. -/
def execStoreRead (s : State) : Host.Outcome State Fault Refusal :=
  s.execRequest .storeRead parseStoreRead fun _ a s =>
    if (s.store a.1).state = .purging then s.deny .storeBusy
    else if a.2.1 ∧ (s.store a.1).delivered ≠ 0 then s.deny .wrongState
    else s.serveRead a.1 a.2.1 a.2.2.1 a.2.2.2

/-- R65. -/
def execStoreAck (s : State) : Host.Outcome State Fault Refusal :=
  s.execRequest .storeAck parseStoreAck fun _ a s =>
    if (s.store a.1).state = .purging then s.deny .storeBusy
    else
      match (s.store a.1).ackCount a.2 with
      | none => s.deny .notDelivered
      | some k =>
        ((s.modStore a.1 fun st => st.ack k).releaseAll (((s.store a.1).records.take k).map (·.desc))).grant
          [byte1 k]

/-- R66. -/
def execStoreRewind (s : State) : Host.Outcome State Fault Refusal :=
  s.execRequest .storeRewind parseStore fun _ i s =>
    if (s.store i).state = .purging then s.deny .storeBusy
    else (s.modStore i fun st => { st with delivered := 0 }).grant [byte1 (s.store i).delivered]

/-- R67. The fields of the STORE_STATUS reply. -/
def storeFields (i : StoreId) (st : Store) : List Byte :=
  [byte1 i.val, st.state.code, match st.prior with | some x => x.code | none => 0xFF,
   byte1 st.records.length] ++ le2 st.blocksUsed ++ [byte1 st.delivered] ++ le4 st.nextSeq.toNat
    ++ optional4 (st.records.head?.map (·.seq)) ++ [byte1 st.settings.capacity] ++ le2 st.settings.quota
    ++ [st.settings.policy.code, byte1 st.settings.highMark, byte1 st.settings.lowMark, yesNo st.highArmed,
      yesNo st.refusingArmed]

/-- R67. -/
def execStoreStatus (s : State) : Host.Outcome State Fault Refusal :=
  s.execRequest .storeStatus parseStore fun _ i s => s.grant (storeFields i (s.store i))

/-- R68, R69. -/
def execStorePurge (s : State) : Host.Outcome State Fault Refusal :=
  s.execRequest .storePurge parseStore fun tag i s =>
    if s.ops.holds (·.isPurgeOf i) then s.deny .inUse
    else if (s.store i).state = .closed then s.deny .wrongState
    else if s.ops.full then s.deny .longOpsFull
    else
      (((s.modOps fun t => t.accept tag (.purge i 0) s.timebase).modStore i fun st =>
        { st with prior := some st.state, state := .purging }).judgePurge i true, .reply .accepted [])

/-- R69. -/
def execPurgeRemoval (store : StoreId) (s : State) : Host.Outcome State Fault Refusal :=
  s.unlessReset (if (s.store store).state = .purging then s.purgeOne store else s)

end Sys2Proof.Machine
end

