-- ==== Sys2Proof/Machine/Dispatch.lean ====
section
/-! DEFINITION. The dispatch: one arm for each row of the opcode table, in the table's order. -/

namespace Sys2Proof.Machine

-- the effect of a command on everything but the queue of commands
def exec (i : Instr) (s : State) : Host.Outcome State Fault Refusal :=
  match i with
  | .powerUp rate1 rate0 => Sys2Proof.Machine.execPowerUp rate1 rate0 s
  | .resetAssert => Sys2Proof.Machine.execResetAssert s
  | .resetRelease => Sys2Proof.Machine.execResetRelease s
  | .holdAssert => Sys2Proof.Machine.execHoldAssert s
  | .holdRelease => Sys2Proof.Machine.execHoldRelease s
  | .messageArrival items => Sys2Proof.Machine.execMessageArrival items s
  | .badHeader items => Sys2Proof.Machine.execBadHeader items s
  | .badCrc items => Sys2Proof.Machine.execBadCrc items s
  | .interByteTimeout => Sys2Proof.Machine.execInterByteTimeout s
  | .unknownKind => Sys2Proof.Machine.execUnknownKind s
  | .hello => Sys2Proof.Machine.execHello s
  | .ping => Sys2Proof.Machine.execPing s
  | .restart => Sys2Proof.Machine.execRestart s
  | .timeGet => Sys2Proof.Machine.execTimeGet s
  | .timeSet => Sys2Proof.Machine.execTimeSet s
  | .portConfig => Sys2Proof.Machine.execPortConfig s
  | .framerConfig => Sys2Proof.Machine.execFramerConfig s
  | .portStart => Sys2Proof.Machine.execPortStart s
  | .portPause => Sys2Proof.Machine.execPortPause s
  | .portResume => Sys2Proof.Machine.execPortResume s
  | .portStop => Sys2Proof.Machine.execPortStop s
  | .portReset => Sys2Proof.Machine.execPortReset s
  | .portStatus => Sys2Proof.Machine.execPortStatus s
  | .ruleWrite => Sys2Proof.Machine.execRuleWrite s
  | .ruleLink => Sys2Proof.Machine.execRuleLink s
  | .ruleUnlink => Sys2Proof.Machine.execRuleUnlink s
  | .ruleFree => Sys2Proof.Machine.execRuleFree s
  | .ruleEnable => Sys2Proof.Machine.execRuleEnable s
  | .ruleRead => Sys2Proof.Machine.execRuleRead s
  | .chainList => Sys2Proof.Machine.execChainList s
  | .defaultSet => Sys2Proof.Machine.execDefaultSet s
  | .templateWrite => Sys2Proof.Machine.execTemplateWrite s
  | .storeConfig => Sys2Proof.Machine.execStoreConfig s
  | .storeOpen => Sys2Proof.Machine.execStoreOpen s
  | .storePause => Sys2Proof.Machine.execStorePause s
  | .storeClose => Sys2Proof.Machine.execStoreClose s
  | .storeRead => Sys2Proof.Machine.execStoreRead s
  | .storeAck => Sys2Proof.Machine.execStoreAck s
  | .storeRewind => Sys2Proof.Machine.execStoreRewind s
  | .storeStatus => Sys2Proof.Machine.execStoreStatus s
  | .storePurge => Sys2Proof.Machine.execStorePurge s
  | .purgeRemoval store => Sys2Proof.Machine.execPurgeRemoval store s
  | .send => Sys2Proof.Machine.execSend s
  | .sendCancel => Sys2Proof.Machine.execSendCancel s
  | .sendStatus => Sys2Proof.Machine.execSendStatus s
  | .portDrain => Sys2Proof.Machine.execPortDrain s
  | .memoryStatus => Sys2Proof.Machine.execMemoryStatus s
  | .memoryCheck => Sys2Proof.Machine.execMemoryCheck s
  | .memoryCheckExamine => Sys2Proof.Machine.execMemoryCheckExamine s
  | .memoryLowSet => Sys2Proof.Machine.execMemoryLowSet s
  | .noticeCredit => Sys2Proof.Machine.execNoticeCredit s
  | .noticeMask => Sys2Proof.Machine.execNoticeMask s
  | .countersRead => Sys2Proof.Machine.execCountersRead s
  | .countersClear => Sys2Proof.Machine.execCountersClear s
  | .opList => Sys2Proof.Machine.execOpList s
  | .opCancel => Sys2Proof.Machine.execOpCancel s
  | .replyBegin => Sys2Proof.Machine.execReplyBegin s
  | .replyEnd => Sys2Proof.Machine.execReplyEnd s
  | .completionReportBegin => Sys2Proof.Machine.execCompletionReportBegin s
  | .completionReportEnd => Sys2Proof.Machine.execCompletionReportEnd s
  | .noticeSend => Sys2Proof.Machine.execNoticeSend s
  | .characterReceived port data parityBit stopHigh => Sys2Proof.Machine.execCharacterReceived port data parityBit stopHigh s
  | .breakDetected port => Sys2Proof.Machine.execBreakDetected port s
  | .breakEnd port => Sys2Proof.Machine.execBreakEnd port s
  | .framerTakeItem port => Sys2Proof.Machine.execFramerTakeItem port s
  | .quietTimeExpiry port => Sys2Proof.Machine.execQuietTimeExpiry port s
  | .classificationStart => Sys2Proof.Machine.execClassificationStart s
  | .walkVisit => Sys2Proof.Machine.execWalkVisit s
  | .classificationEnd => Sys2Proof.Machine.execClassificationEnd s
  | .selection port => Sys2Proof.Machine.execSelection port s
  | .sendGapExpiry port => Sys2Proof.Machine.execSendGapExpiry port s
  | .turnaroundEnd port => Sys2Proof.Machine.execTurnaroundEnd port s
  | .characterSent port => Sys2Proof.Machine.execCharacterSent port s
  | .trailingHoldExpiry port => Sys2Proof.Machine.execTrailingHoldExpiry port s
  | .ttlExpiry sendId => Sys2Proof.Machine.execTtlExpiry sendId s
  | .drainDeadline port => Sys2Proof.Machine.execDrainDeadline port s
  | .startBit port => Sys2Proof.Machine.execStartBit port s
  | .framingErrorEnd port => Sys2Proof.Machine.execFramingErrorEnd port s

end Sys2Proof.Machine
end

