-- ==== Sys2Proof/Machine/Timers.lean ====
section
/-! DEFINITION. The passing of time (R98, R111, R122, R125, R127, R133, R136, R140, R151): what one microsecond does to
everything that counts time, and which timed event is due. The opcode table has no row for a tick; a tick is
what the block does when no command waits and no timed event is due (log entry 2). -/

namespace Sys2Proof.Machine

/-! ### One microsecond -/

/-- R111. A running quiet period grows. -/
def Quiet.tick (t : Quiet) : Quiet := if t.running then { t with micros := t.micros + 1 } else t

/-- R127. The TTL of a QUEUED entry is counted down, to 0 at the least. -/
def SendEntry.tick (e : SendEntry) : SendEntry :=
  if e.state = .queued then { e with ttl := e.ttl.map fun micros => micros - 1 } else e

/-- R125. A trailing hold runs. -/
def TxPhase.tick (t : TxPhase) : TxPhase :=
  match t with
  | .holding status micros => .holding status (micros + 1)
  | t => t

/-- R111, R122, R125, R127. Time passes for a port. -/
def Port.tick (q : Port) : Port :=
  { q with
    quiet := q.quiet.tick
    gap := q.gap.map fun micros => micros + 1
    tx := q.tx.tick
    queue := q.queue.map SendEntry.tick }

/-- R131, R133. The deadline of a RUNNING drain is counted down, to 0 at the least. -/
def OpEntry.tick (e : OpEntry) : OpEntry :=
  match e.running, e.work with
  | true, .drain port deadline left sent remaining =>
    { e with work := .drain port deadline (left - 1) sent remaining }
  | _, _ => e

/-- R140. The silence inside a message grows; in HUNT no time is kept. -/
def Receiver.tick (r : Receiver) : Receiver := if r.state = .hunt then r else { r with silence := r.silence + 1 }

/-- R30. The disturbances that the storage suffers in one microsecond (free, log entry 3). -/
def RecordMemory.tick (m : RecordMemory) (now : Nat) : RecordMemory :=
  (Config.upsets now).foldl RecordMemory.disturb m

/-- R151. One microsecond passes. While RESET is asserted the part is held and nothing counts (R153). -/
def State.tick (s : State) : State :=
  if s.pins.reset then s
  else
    { s with
      timebase := s.timebase + 1
      link := { s.link with
        receiver := s.link.receiver.tick
        htx := s.link.htx.bind (Outgoing.tick s.link.rate) }
      ops := { s.ops with entries := s.ops.entries.map OpEntry.tick }
      memory := s.memory.tick s.ticks
      ports := s.ports.map Port.tick
      ticks := s.ticks + 1 }

/-! ### Timed events that are due -/

/-- The first port, in the order of their numbers, for which a test holds. -/
def firstPort (test : PortId → Bool) : Option PortId := (List.finRange 4).find? test

/-- The timed event that is due now, if any: the microsecond counts have reached it and it has not been taken.
The manual leaves the order of events that are due together open (log entry 2). A selection is no timed event: R119 says
that an entry may be selected at once, and R121 does not say how soon, so it is made only when a SELECTION row comes, and
time and TTLs may pass meanwhile; so too the other steps of the part's blocks (log entry 36). -/
def State.due (s : State) : Option Instr :=
  if s.pins.reset then none
  else if s.link.receiver.timedOut then some .interByteTimeout
  else
    match s.entries.find? SendEntry.expired with
    | some e => some (.ttlExpiry e.id)
    | none =>
      (((firstPort fun p => s.deadlineDue p).map .drainDeadline
        <|> (firstPort fun p => (s.port p).quietDue).map .quietTimeExpiry)
        <|> (firstPort fun p => (s.port p).gapDue).map .sendGapExpiry)
        <|> (firstPort fun p => (s.port p).turnaroundDue.isSome).map .turnaroundEnd
        <|> (firstPort fun p => (s.port p).holdDue.isSome).map .trailingHoldExpiry

end Sys2Proof.Machine
end

