-- ==== Sys2Proof/Machine/Step.lean ====
section
/-! DEFINITION. One step of the machine: it takes the command at the front of the queue of waiting commands, and
while none waits it lets time pass. -/

namespace Sys2Proof.Machine

/-- One step. With a command waiting, the step is that command's effect, the queue's rest being kept. With none
waiting, the timed event that is due is taken, else one microsecond passes (log entry 2). -/
def step (s : State) : Host.Outcome State Fault Refusal :=
  match s.pending with
  | c :: rest => exec c { s with pending := rest }
  | [] =>
    match s.due with
    | some c => exec c s
    | none => .next s.tick

/-- The state with the command that a word of the opcode table spells put at the front of the queue; unchanged
where the word spells none, which is every word (Decode.lean, log entry 5). -/
def State.withFetchWord (s : State) (nbits w : Nat) : State :=
  match decodeTableWord nbits w with
  | some c => { s with pending := c :: s.pending }
  | none => s

end Sys2Proof.Machine
end

