-- ==== Sys2Proof/Safety.lean ====
section
/-! DEFINITION. What the manual says of the SF4 at every moment: the bounds of its collections, the conservation
of blocks (R31) and references (R33), and the agreement of its tags (R144). Each is a property of one state; a
run is safe as long as every one of them holds. -/

namespace Sys2Proof.Machine

/-! ### Record Memory -/

/-- The block chains of all descriptors, joined; a FREE descriptor's is empty (R32). -/
def RecordMemory.chained (m : RecordMemory) : List BlockId := (List.finRange 256).flatMap fun d => (m.desc d).chain

/-- R31. Every block is on the free list or in the chain of exactly one descriptor, once. -/
def RecordMemory.Partitioned (m : RecordMemory) : Prop := (m.free ++ m.chained).Perm (List.finRange 1024)

/-- R32, R33. A descriptor: FREE with the FREE values, or LIVE with a reference and with as many blocks as its
bytes fill. -/
def Descriptor.Tidy (x : Descriptor) : Prop :=
  if x.live then 1 ≤ x.refs ∧ x.chain.length = blocksFor x.length else x = .unused

/-- R30 to R32. Record Memory at every moment. -/
structure RecordMemory.Sound (m : RecordMemory) : Prop where
  cells : Memory.wf m.cells = true
  partitioned : m.Partitioned
  tidy : ∀ d, (m.desc d).Tidy
  threshold : m.threshold ≤ 1023
  lowWater : m.lowWater ≤ m.free.length

/-- How many descriptors of a list are `d`. -/
def naming (d : DescId) (l : List DescId) : Nat := l.count d

/-- R33. The parties that name the descriptor: records, send entries, a frame in assembly, a pending frame and
the frame under classification. -/
def State.holders (s : State) (d : DescId) : Nat :=
  (s.stores.toList.map fun st => naming d (st.records.map (·.desc))).sum
    + (s.ports.toList.map fun q => naming d (q.queue.map (·.desc))).sum
    + (s.ports.toList.map fun q => naming d (q.framer.frame.toList.map (·.desc))).sum
    + naming d (s.classifier.queue.map (·.desc))
    + naming d (s.classifier.current.toList.map fun k => k.frame.desc)

/-- R33. Every reference count equals the number of the parties that name the descriptor. -/
def State.Counted (s : State) : Prop := ∀ d, (s.memory.desc d).refs = s.holders d

/-! ### Stores -/

/-- R52. The sequence numbers are consecutive modulo 2^32, and the newest is the next sequence minus 1. -/
def consecutive (next : Word) : List Record → Prop
  | [] => True
  | r :: rest => r.seq + BitVec.ofNat 32 (rest.length + 1) = next ∧ consecutive next rest

/-- R48 to R53. A store at every moment. -/
structure Store.Sound (st : Store) : Prop where
  delivered : st.delivered ≤ st.records.length
  capacity : st.records.length ≤ st.settings.capacity
  used : st.blocksUsed = blocksOf st.records
  quota : st.settings.quota ≠ 0 → st.blocksUsed ≤ st.settings.quota
  marks : st.settings.lowMark < st.settings.highMark ∧ st.settings.highMark ≤ st.settings.capacity
  limits : st.settings.capacity ≤ 255 ∧ st.settings.quota ≤ 1024
  numbered : consecutive st.nextSeq st.records
  closed : st.state = .closed → st.records = []
  prior : st.prior.isSome = true ↔ st.state = .purging
  priorOpen : st.prior ≠ some .closed ∧ st.prior ≠ some .purging

/-! ### Ports and send entries -/

/-- R73, R96. A frame is open, with a frame in assembly, exactly in HEADER and BODY, and only while the receiver is
on. -/
def Port.FramerSound (q : Port) : Prop :=
  q.framer.frame.isSome = (q.framer.state == .header || q.framer.state == .body) ∧
    (q.state ≠ .running → q.framer.frame = none)

/-- R109, R110. The staging FIFO holds at most 64 items, and it has a place for a character that the receiver
holds and has not judged lost. -/
def Port.FifoBounded (q : Port) : Prop :=
  match q.line with
  | .lowStop (some c) => if c.echo || c.lost then q.fill ≤ 64 else q.fill < 64
  | _ => q.fill ≤ 64

/-- R116, R121. The send queue of a port and what its transmitter does for it. -/
structure Port.SendSound (q : Port) : Prop where
  length : q.queue.length ≤ 16
  /-- at most one entry is SENDING, and the transmitter is idle exactly when none is -/
  one : (q.queue.filter fun e => e.state == .sending).length = if q.tx = .idle then 0 else 1
  /-- outside RUNNING and PAUSED every entry is one that finishes its last character (R104) -/
  off : q.canSend = false → q.queue.length ≤ 1 ∧ (q.queue ≠ [] → q.stopping = true)
  stopping : q.stopping = true → ∃ value format block, q.tx = .sending value format block

/-- R116, R118. The send pool: at most 48 live entries, with different send ids, none 0. -/
structure State.PoolSound (s : State) : Prop where
  size : s.entries.length ≤ 48
  ids : (s.entries.map (·.id)).Nodup
  nonzero : ∀ e ∈ s.entries, e.id ≠ 0
  next : s.nextSendId ≠ 0

/-! ### Classifier -/

/-- R2, R12. The chains and the classification queue. -/
structure Classifier.Sound (c : Classifier) : Prop where
  queue : c.queue.length ≤ 8
  once : ∀ p, (c.chain p).Nodup
  linked : ∀ r p, r ∈ c.chain p ↔ (c.rule r).state = .linked ∧ (c.rule r).chainPort = some p
  unlinked : ∀ r, (c.rule r).state ≠ .linked → (c.rule r).chainPort = none
  linkedSomewhere : ∀ r, (c.rule r).state = .linked → (c.rule r).chainPort ≠ none
  /-- R1. A FREE rule holds the free values. -/
  free : ∀ r, (c.rule r).state = .free → c.rule r = .unused

/-! ### Host link, notices and long operations -/

/-- R142, R143. The request queue holds at most 8 requests and the reply queue at most 12 replies, the reserved
place included; a place is reserved exactly while the Executor is EXECUTING. -/
structure Link.Bounded (l : Link) : Prop where
  requests : l.requests.length ≤ 8
  replies : l.replies.length + l.reserved ≤ 12
  reserved : l.reserved = match l.executor with
    | .executing _ _ => 1
    | _ => 0

/-- The tag that a reply keeps outstanding until its last byte has been sent: none for an arrival refusal, and
none for an ACCEPTED reply, whose operation keeps it (R144). -/
def Reply.holds (r : Reply) : List Byte :=
  match r.role with
  | .ordinary => [r.message.tag]
  | .restart => [r.message.tag]
  | .refusal => []
  | .accepted => []

/-- R144. The tags of the requests that have been taken and are not yet fully answered: those that wait, the one
being executed, those whose replies wait or are on HTX, and those of long operations. -/
def State.unanswered (s : State) : List Byte :=
  s.link.requests.map (·.tag)
    ++ (match s.link.executor with
      | .executing tag _ => [tag]
      | _ => [])
    ++ s.link.replies.flatMap Reply.holds
    ++ (match s.link.htx with
      | some (.reply r) => r.holds
      | _ => [])
    ++ s.ops.entries.map (·.tag)

/-- R142, R144. The outstanding-tag set holds exactly the tags of the requests not yet fully answered, no two of
them the same and none 0. -/
structure State.TagsSound (s : State) : Prop where
  exact : s.link.outstanding.Perm s.unanswered
  different : s.link.outstanding.Nodup
  nonzero : (0 : Byte) ∉ s.link.outstanding
  /-- the report on HTX is that of a COMPLETE entry (R165) -/
  report : ∀ m, s.link.htx = some (.report m) → ∃ e ∈ s.ops.entries, e.tag = m.tag ∧ e.running = false

/-- R155, R160, R161. The Notice Queue at every moment. -/
structure NoticeQueue.Sound (q : NoticeQueue) : Prop where
  ordinary : q.ordinary ≤ 15
  length : q.entries.length ≤ 16
  /-- no two entries have the same kind and subject; so at most one is NOTICE_OVERFLOW -/
  different : (q.entries.map fun n => (n.kind, n.subject)).Nodup
  overflow : ∀ n ∈ q.entries, n.kind = .noticeOverflow → n.subject = 0 ∧ n.detail = .lost n.count
  counts : ∀ n ∈ q.entries, 1 ≤ n.count ∧ n.count ≤ 65535
  credit : q.credit ≤ 64
  mask : q.mask.toNat < 512

/-- R163, R164. The long-operation table at every moment. -/
structure OpTable.Sound (t : OpTable) : Prop where
  length : t.entries.length ≤ 4
  tags : (t.entries.map (·.tag)).Nodup
  /-- at most one STORE_PURGE for each store, one PORT_DRAIN for each port and one MEMORY_CHECK -/
  targets : (t.entries.map fun e => (e.work.code, e.work.target)).Nodup
  completed : t.completed.Perm ((t.entries.filter fun e => !e.running).map (·.tag))

/-- R69, R131, R163. The stores that are PURGING, and the ports that are draining, are those with a RUNNING
operation. -/
structure State.OpsAgree (s : State) : Prop where
  purging : ∀ i, (s.store i).state = .purging ↔
    (s.ops.entries.any fun e => e.running && e.work.isPurgeOf i) = true
  draining : ∀ p, (s.port p).draining = true ↔
    (s.ops.entries.any fun e => e.running && e.work.isDrainOf p) = true

/-- R112. DIRn is asserted only for a SENDING entry past its turnaround wait, on a half-duplex port or for the last
character of a stopped one. -/
def Port.DirSound (q : Port) : Prop :=
  q.dir = true → ∃ e, q.current = some e ∧ q.tx ≠ .turnaround ∧ (q.settings.duplex = .half ∨ q.stopping = true)

end Sys2Proof.Machine
end

