-- ==== Sys2Proof/Vocabulary.lean ====
section
/-! DEFINITION. The words that the statements are written in: the row that executes a kind of request, a request that
waits at the Executor, the state with a reply queued, the bodies of requests as "Request and reply bodies" lays
them out, and what a device reset leaves. -/

namespace Sys2Proof.Machine

/-- The row of the opcode table that executes the requests of a kind. -/
def Kind.instr : Kind → Instr
  | .hello => .hello
  | .ping => .ping
  | .restart => .restart
  | .timeGet => .timeGet
  | .timeSet => .timeSet
  | .portConfig => .portConfig
  | .framerConfig => .framerConfig
  | .portStart => .portStart
  | .portPause => .portPause
  | .portResume => .portResume
  | .portStop => .portStop
  | .portReset => .portReset
  | .portStatus => .portStatus
  | .ruleWrite => .ruleWrite
  | .ruleLink => .ruleLink
  | .ruleUnlink => .ruleUnlink
  | .ruleFree => .ruleFree
  | .ruleEnable => .ruleEnable
  | .ruleRead => .ruleRead
  | .chainList => .chainList
  | .defaultSet => .defaultSet
  | .templateWrite => .templateWrite
  | .storeConfig => .storeConfig
  | .storeOpen => .storeOpen
  | .storePause => .storePause
  | .storeClose => .storeClose
  | .storeRead => .storeRead
  | .storeAck => .storeAck
  | .storeRewind => .storeRewind
  | .storeStatus => .storeStatus
  | .storePurge => .storePurge
  | .send => .send
  | .sendCancel => .sendCancel
  | .sendStatus => .sendStatus
  | .portDrain => .portDrain
  | .memoryStatus => .memoryStatus
  | .memoryCheck => .memoryCheck
  | .memoryLowSet => .memoryLowSet
  | .noticeCredit => .noticeCredit
  | .noticeMask => .noticeMask
  | .countersRead => .countersRead
  | .countersClear => .countersClear
  | .opList => .opList
  | .opCancel => .opCancel

/-- R145. A request of kind `k` is the oldest of the request queue and the Executor can take it: the part is not
held in reset, the Executor is IDLE and the reply queue has a free place. -/
structure State.Waiting (s : State) (k : Kind) (tag : Byte) (body : List Byte) (rest : List Message) : Prop where
  running : s.pins.reset = false
  idle : s.link.executor = .idle
  place : s.link.replies.length + s.link.reserved < 12
  head : s.link.requests = ⟨k.code, tag, body⟩ :: rest

/-- R145, R164. The state `t` with the request at the head of the queue taken and its reply, of this status and
these fields, queued. Everything but the request, the reply, the IDLE Executor and the reply pending marks is
that of `t`. -/
def State.replied (t : State) (k : Kind) (tag : Byte) (rest : List Message) (status : Status) (fields : List Byte) :
    State :=
  { t with
    link := { t.link with
      requests := rest
      replies := t.link.replies ++
        [⟨⟨k.code + 0x80, tag, status.code :: fields⟩, if status = .accepted then .accepted else .ordinary⟩]
      executor := .idle }
    ops := { t.ops with entries := t.ops.entries.map fun e => { e with replyPending := false } } }

/-! ### The receiver -/

/-- R138. The bytes among what HRX brings: each at its received value, whatever its stop bit; a low period gives none. -/
def lineBytes (items : List HrxItem) : List Byte :=
  items.flatMap fun x => match x with
    | .byte value _ => [value]
    | .lowPeriod => []

/-- R136, R138. The receiver has taken these bytes of a message, its start byte first, and not yet its last: none in
HUNT; then in HEADER until the header check has been taken, in BODY until as many body bytes as the header gives, and in
CRC. It holds each part, and the CRC of the body bytes. -/
def Receiver.Holds (r : Receiver) (taken : List Byte) : Prop :=
  match taken with
  | [] => r.state = .hunt
  | _ :: rest =>
    let n := num2 rest 0
    let body := (rest.drop 5).take n
    r.state = (if rest.length < 5 then .header else if rest.length < 5 + n then .body else .crc) ∧
      r.header = rest.take 5 ∧ r.body = body ∧ r.crc = crc16 body ∧ r.crcBytes = rest.drop (5 + n)

/-! ### Timed events -/

/-- R98, log entry 31. `micros` microseconds are at least `n` character times. -/
def LineSettings.Reached (ls : LineSettings) (micros n : Nat) : Prop :=
  n * (1 + ls.dataBits + (if ls.parity = .none then 0 else 1) + ls.stopBits) * 1000000 ≤ micros * ls.baud

/-- The timed events that are due: the elapsed time of each has reached its limit, and the event has not been taken. -/
inductive State.DueNow (s : State) : Instr → Prop
  /-- R140. 20 ms of silence inside a message. -/
  | interByteTimeout : s.link.receiver.state ≠ .hunt → 20000 ≤ s.link.receiver.silence → DueNow s .interByteTimeout
  /-- R127. The TTL of a QUEUED entry has run out. -/
  | ttlExpiry (p : PortId) (e : SendEntry) : e ∈ (s.port p).queue → e.state = .queued → e.ttl = some 0 →
      DueNow s (.ttlExpiry e.id)
  /-- R133. The deadline of a RUNNING drain is reached while the port's queue is not empty. -/
  | drainDeadline (p : PortId) (e : OpEntry) (deadline sent remaining : Nat) : (s.port p).queue ≠ [] →
      e ∈ s.ops.entries → e.status = none → e.work = .drain p deadline 0 sent remaining → DueNow s (.drainDeadline p)
  /-- R111. The quiet time of a RUNNING port reaches, for the first time in its quiet period, the limit of the framer's
  mode. -/
  | quietTimeExpiry (p : PortId) (limit : Nat) : (s.port p).state = .running → (s.port p).quiet.running = true →
      (s.port p).quiet.given = false → limit = (if (s.port p).framer.settings.mode = .gap then
        (s.port p).framer.settings.gapThreshold else (s.port p).framer.settings.idleLimit) → limit ≠ 0 →
      (s.port p).settings.Reached (s.port p).quiet.micros limit → DueNow s (.quietTimeExpiry p)
  /-- R122. The counted gap has reached the send gap. -/
  | sendGapExpiry (p : PortId) (micros : Nat) : (s.port p).gap = some micros →
      (s.port p).settings.Reached micros (s.port p).settings.sendGap → DueNow s (.sendGapExpiry p)
  /-- R124. The line has been quiet for the turnaround while no frame is open. -/
  | turnaroundEnd (p : PortId) (e : SendEntry) : (s.port p).tx = .turnaround →
      (s.port p).state = .running ∨ (s.port p).state = .paused → (s.port p).quiet.running = true →
      (s.port p).settings.Reached (s.port p).quiet.micros (s.port p).settings.turnaround →
      (s.port p).framer.state ≠ .header → (s.port p).framer.state ≠ .body →
      e ∈ (s.port p).queue → e.state = .sending → DueNow s (.turnaroundEnd p)
  /-- R125. The trailing hold has run. -/
  | trailingHoldExpiry (p : PortId) (e : SendEntry) (status : SendStatus) (micros : Nat) :
      (s.port p).tx = .holding status micros →
      (s.port p).settings.Reached micros (s.port p).settings.trailingHold →
      e ∈ (s.port p).queue → e.state = .sending → DueNow s (.trailingHoldExpiry p)

/-! ### Request bodies -/

def Parity.code : Parity → Byte
  | .none => 0
  | .even => 1
  | .odd => 2

def Duplex.code : Duplex → Byte
  | .full => 0
  | .half => 1

def FramerMode.code : FramerMode → Byte
  | .delimited => 0
  | .length => 1
  | .gap => 2

def TooLongPolicy.code : TooLongPolicy → Byte
  | .truncate => 0
  | .discard => 1

def KeepPolicy.code : KeepPolicy → Byte
  | .keep => 0
  | .discard => 1

def ByteOrder.code : ByteOrder → Byte
  | .lowFirst => 0
  | .highFirst => 1

/-- The byte of a port, store, rule or template number. -/
def idByte {n : Nat} (i : Fin n) : Byte := byte1 i.val

/-- R97, R99. The line settings in their ranges. -/
structure LineSettings.Valid (ls : LineSettings) : Prop where
  baud : 300 ≤ ls.baud ∧ ls.baud ≤ 3000000
  dataBits : ls.dataBits = 7 ∨ ls.dataBits = 8
  stopBits : ls.stopBits = 1 ∨ ls.stopBits = 2
  turnaround : 1 ≤ ls.turnaround ∧ ls.turnaround ≤ 255
  trailingHold : ls.trailingHold ≤ 255
  sendGap : ls.sendGap ≤ 255

/-- The PORT_CONFIG body. -/
def LineSettings.body (p : PortId) (ls : LineSettings) : List Byte :=
  [idByte p] ++ le4 ls.baud ++ [byte1 ls.dataBits, ls.parity.code, byte1 ls.stopBits, ls.duplex.code,
    byte1 ls.turnaround, byte1 ls.trailingHold, byte1 ls.sendGap]

/-- R76. The framer settings in their ranges. -/
structure FramerSettings.Valid (fs : FramerSettings) : Prop where
  maxLength : 16 ≤ fs.maxLength ∧ fs.maxLength ≤ 1024
  idleLimit : fs.idleLimit ≠ 1 ∧ fs.idleLimit ≤ 255
  startPattern : fs.startPattern.length ≤ 4
  endPattern : 1 ≤ fs.endPattern.length ∧ fs.endPattern.length ≤ 4
  escape : ∀ b, fs.escape = some b → b ∉ fs.endPattern
  fieldOffset : fs.fieldOffset ≤ 15
  fieldWidth : fs.fieldWidth = 1 ∨ fs.fieldWidth = 2
  fieldEnd : fs.fieldOffset + fs.fieldWidth ≤ fs.maxLength
  adjust : -64 ≤ fs.adjust ∧ fs.adjust ≤ 64
  gapThreshold : 2 ≤ fs.gapThreshold ∧ fs.gapThreshold ≤ 255

/-- The FRAMER_CONFIG body. -/
def FramerSettings.body (p : PortId) (fs : FramerSettings) : List Byte :=
  [idByte p, fs.mode.code] ++ le2 fs.maxLength
    ++ [fs.tooLong.code, fs.incomplete.code, fs.charError.code, byte1 fs.idleLimit, byte1 fs.startPattern.length]
    ++ padTo 4 fs.startPattern ++ [byte1 fs.endPattern.length] ++ padTo 4 fs.endPattern
    ++ [yesNo fs.keepDelimiters, yesNo fs.escape.isSome, fs.escape.getD 0, yesNo fs.keepEscape,
      yesNo fs.sync.isSome, fs.sync.getD 0, byte1 fs.fieldOffset, byte1 fs.fieldWidth, fs.byteOrder.code,
      BitVec.ofInt 8 fs.adjust, byte1 fs.gapThreshold]

/-- R1. The TTL of an action in its range. -/
def Action.Valid : Action → Prop
  | .drop => True
  | .file _ => True
  | .forward _ _ ttl => ttl ≤ 65535
  | .reply _ _ ttl => ttl ≤ 65535
  | .count => True

/-- R1, R3. The defining fields of a rule in their ranges. -/
structure RuleDef.Valid (d : RuleDef) : Prop where
  keyOffset : d.keyOffset ≤ 1023
  key : d.key.length ≤ 8 ∧ d.mask.length = d.key.length
  lengths : 1 ≤ d.minLength ∧ d.minLength ≤ d.maxLength ∧ d.maxLength ≤ 1024
  action : d.action.Valid

/-- R27. A template in its ranges, as TEMPLATE_WRITE may write it. -/
structure Template.Valid (t : Template) : Prop where
  bytes : t.bytes.length ≤ 64
  echo : ∀ e, t.echo = some e →
    t.bytes ≠ [] ∧ e.insertAt ≤ t.bytes.length ∧ e.offset ≤ 1023 ∧ 1 ≤ e.length ∧ e.length ≤ 8

/-- The edit's fields are in their ranges. -/
def Edit.Valid : Edit → Prop
  | .ruleWrite _ d => d.Valid
  | .templateWrite _ t => t.Valid
  | .ruleLink _ _ _ => True
  | .ruleUnlink _ => True
  | .ruleFree _ => True
  | .ruleEnable _ _ => True
  | .defaultSet _ _ => True

/-- The kind of the edit request. -/
def Edit.kind : Edit → Kind
  | .ruleWrite _ _ => .ruleWrite
  | .ruleLink _ _ _ => .ruleLink
  | .ruleUnlink _ => .ruleUnlink
  | .ruleFree _ => .ruleFree
  | .ruleEnable _ _ => .ruleEnable
  | .defaultSet _ _ => .defaultSet
  | .templateWrite _ _ => .templateWrite

/-- The body of the edit request. -/
def Edit.body : Edit → List Byte
  | .ruleWrite r d =>
    [idByte r, yesNo d.enabled, yesNo d.oneShot, yesNo d.goOn] ++ le2 d.keyOffset ++ le2 d.minLength ++ le2 d.maxLength
      ++ [d.filter.code, d.action.code] ++ d.action.fields ++ [byte1 d.key.length] ++ d.key ++ d.mask
  | .ruleLink r p .head => [idByte r, idByte p, 0xFF]
  | .ruleLink r p (.after a) => [idByte r, idByte p, idByte a]
  | .ruleUnlink r => [idByte r]
  | .ruleFree r => [idByte r]
  | .ruleEnable r v => [idByte r, yesNo v]
  | .defaultSet p .drop => [idByte p, 0, 0]
  | .defaultSet p (.file i) => [idByte p, 1, idByte i]
  | .templateWrite t ⟨bytes, none⟩ => [idByte t, 0, 0, 0, 0, 0, byte1 bytes.length] ++ bytes
  | .templateWrite t ⟨bytes, some e⟩ =>
    [idByte t, 1, byte1 e.insertAt] ++ le2 e.offset ++ [byte1 e.length, byte1 bytes.length] ++ bytes

/-- R50. The settings of a store in their ranges. -/
structure StoreSettings.Valid (ss : StoreSettings) : Prop where
  capacity : 1 ≤ ss.capacity ∧ ss.capacity ≤ 255
  quota : ss.quota ≤ 1024
  highMark : 1 ≤ ss.highMark ∧ ss.highMark ≤ ss.capacity
  lowMark : ss.lowMark < ss.highMark

/-- The STORE_CONFIG body. -/
def StoreSettings.body (i : StoreId) (ss : StoreSettings) : List Byte :=
  [idByte i, byte1 ss.capacity] ++ le2 ss.quota ++ [ss.policy.code, byte1 ss.highMark, byte1 ss.lowMark]

/-- The SEND body. -/
def sendBody (p : PortId) (cls : Fin 4) (ttl : Nat) (report : Bool) (data : List Byte) : List Byte :=
  [idByte p, idByte cls] ++ le2 ttl ++ [yesNo report] ++ data

/-- R170. The group code and the index of a counter group. -/
def CounterGroup.body : CounterGroup → List Byte
  | .port p => [0, idByte p]
  | .store i => [1, idByte i]
  | .rule r => [2, idByte r]
  | .link => [3, 0]
  | .memory => [4, 0]

/-- R1, R27, R50, R76, R97. Every setting, rule and template, and a held edit, is in its range. -/
structure State.SettingsValid (s : State) : Prop where
  lines : ∀ p, (s.port p).settings.Valid
  framers : ∀ p, (s.port p).framer.settings.Valid
  rules : ∀ r, (s.classifier.rule r).fields.Valid
  templates : ∀ i : TemplateId, (s.classifier.templates.get i).Valid
  held : ∀ e, s.classifier.held = some e → e.Valid
  stores : ∀ i, (s.store i).settings.Valid

/-! ### Field checks -/

/-- R172. A yes/no byte in its range. -/
def isYesNo (v : Byte) : Bool := v == 0 || v == 1

/-- R145, check 3, "Request and reply bodies". The fields of a request's body that have a range, in the order in which
they are checked: the index of the field and whether it is in range. Where the manual leaves open which of two
fields is named (log entries 11, 12 and 13), both stand. -/
def Kind.fieldTests (k : Kind) (b : List Byte) : List (List Nat × Bool) :=
  match k with
  | .hello | .ping | .restart | .timeGet | .timeSet | .memoryStatus | .memoryCheck | .opList => []
  | .portStart | .portPause | .portResume | .portStop | .portReset | .portStatus | .chainList =>
    [([1], decide (num1 b 0 ≤ 3))]
  | .storeOpen | .storePause | .storeClose | .storeRewind | .storeStatus | .storePurge | .storeAck =>
    [([1], decide (num1 b 0 ≤ 7))]
  | .ruleUnlink | .ruleFree | .ruleRead => [([1], decide (num1 b 0 ≤ 127))]
  | .sendCancel | .sendStatus => [([1], num2 b 0 != 0)]
  | .opCancel => [([1], num1 b 0 != 0)]
  | .memoryLowSet => [([1], decide (num2 b 0 ≤ 1023))]
  | .noticeCredit => [([1], decide (num1 b 0 ≤ 64))]
  | .noticeMask => [([1], decide (num2 b 0 ≤ 511))]
  | .portConfig =>
    [([1], decide (num1 b 0 ≤ 3)), ([2], decide (300 ≤ num4 b 1 ∧ num4 b 1 ≤ 3000000)),
      ([3], num1 b 5 == 7 || num1 b 5 == 8), ([4], decide (num1 b 6 ≤ 2)), ([5], num1 b 7 == 1 || num1 b 7 == 2),
      ([6], decide (num1 b 8 ≤ 1)), ([7], num1 b 9 != 0)]
  | .framerConfig =>
    let width : Bool := num1 b 25 == 1 || num1 b 25 == 2
    let fits : Bool := decide (num1 b 24 + num1 b 25 ≤ num2 b 2)
    [([1], decide (num1 b 0 ≤ 3)), ([2], decide (num1 b 1 ≤ 2)), ([3], decide (16 ≤ num2 b 2 ∧ num2 b 2 ≤ 1024)),
      ([4], decide (num1 b 4 ≤ 1)), ([5], decide (num1 b 5 ≤ 1)), ([6], decide (num1 b 6 ≤ 1)), ([7], num1 b 7 != 1),
      ([8], decide (num1 b 8 ≤ 4)), ([10], decide (1 ≤ num1 b 13 ∧ num1 b 13 ≤ 4)), ([12], isYesNo (byteAt b 18)),
      ([13], isYesNo (byteAt b 19)),
      ([14], byteAt b 19 == 0 || !((b.drop 14).take (num1 b 13)).contains (byteAt b 20)),
      ([15], isYesNo (byteAt b 21)), ([16], isYesNo (byteAt b 22)), ([18], decide (num1 b 24 ≤ 15)),
      ([18], !width || fits), ([19], width || !fits), ([18, 19], width), ([20], decide (num1 b 26 ≤ 1)),
      ([21], decide (-64 ≤ signed1 b 27 ∧ signed1 b 27 ≤ 64)), ([22], decide (2 ≤ num1 b 28))]
  | .ruleWrite =>
    let low := num2 b 6
    let high := num2 b 8
    [([1], decide (num1 b 0 ≤ 127)), ([2], isYesNo (byteAt b 1)), ([3], isYesNo (byteAt b 2)), ([4], isYesNo (byteAt b 3)),
      ([5], decide (num2 b 4 ≤ 1023)), ([6], low != 0), ([7], decide (1024 < low ∨ high ≤ 1024)),
      ([6, 7], decide (low ≤ high ∧ high ≤ 1024)), ([8], decide (num1 b 10 ≤ 2)), ([9], decide (num1 b 11 ≤ 4)),
      ([10], match num1 b 11 with
        | 1 => decide (num1 b 12 ≤ 7)
        | 2 => decide (num1 b 12 ≤ 3)
        | 3 => decide (num1 b 12 ≤ 15)
        | _ => true),
      ([11], match num1 b 11 with
        | 2 => decide (num1 b 13 ≤ 3)
        | 3 => decide (num1 b 13 ≤ 3)
        | _ => true),
      ([13], decide (17 + 2 * num1 b 16 = b.length))]
  | .ruleLink =>
    [([1], decide (num1 b 0 ≤ 127)), ([2], decide (num1 b 1 ≤ 3)), ([3], decide (num1 b 2 ≤ 127) || num1 b 2 == 255)]
  | .ruleEnable => [([1], decide (num1 b 0 ≤ 127)), ([2], isYesNo (byteAt b 1))]
  | .defaultSet =>
    [([1], decide (num1 b 0 ≤ 3)), ([2], decide (num1 b 1 ≤ 1)), ([3], num1 b 1 == 0 || decide (num1 b 2 ≤ 7))]
  | .templateWrite =>
    let echo : Bool := byteAt b 1 == 1
    let hollow : Bool := echo && num1 b 6 == 0
    let inserts : Bool := !echo || decide (num1 b 2 ≤ num1 b 6)
    let offsets : Bool := !echo || decide (num2 b 3 ≤ 1023)
    let lengths : Bool := !echo || decide (1 ≤ num1 b 5 ∧ num1 b 5 ≤ 8)
    [([1], decide (num1 b 0 ≤ 15)), ([2], isYesNo (byteAt b 1)), ([2, 3], !hollow || inserts), ([2, 4], !hollow || offsets),
      ([2, 5], !hollow || lengths), ([2, 6], !hollow), ([3], inserts), ([4], offsets), ([5], lengths),
      ([6], decide (7 + num1 b 6 = b.length))]
  | .storeConfig =>
    [([1], decide (num1 b 0 ≤ 7)), ([2], num1 b 1 != 0), ([3], decide (num2 b 2 ≤ 1024)), ([4], decide (num1 b 4 ≤ 1)),
      ([5], decide (1 ≤ num1 b 5 ∧ num1 b 5 ≤ num1 b 1)), ([6], decide (num1 b 6 < num1 b 5))]
  | .storeRead =>
    [([1], decide (num1 b 0 ≤ 7)), ([2], decide (num1 b 1 ≤ 1)), ([3], decide (1 ≤ num1 b 2 ∧ num1 b 2 ≤ 16)),
      ([4], decide (64 ≤ num2 b 3 ∧ num2 b 3 ≤ 1100))]
  | .send => [([1], decide (num1 b 0 ≤ 3)), ([2], decide (num1 b 1 ≤ 3)), ([4], isYesNo (byteAt b 4))]
  | .portDrain => [([1], decide (num1 b 0 ≤ 3)), ([2], num2 b 1 != 0)]
  | .countersRead => groupTests b ++ [([3], isYesNo (byteAt b 2))]
  | .countersClear => groupTests b
where
  /-- R169, R170. The group code and the index. -/
  groupTests (b : List Byte) : List (List Nat × Bool) :=
    [([1], decide (num1 b 0 ≤ 4)), ([2], match num1 b 0 with
      | 0 => decide (num1 b 1 ≤ 3)
      | 1 => decide (num1 b 1 ≤ 7)
      | 2 => decide (num1 b 1 ≤ 127)
      | _ => num1 b 1 == 0)]

/-! ### Matching -/

/-- R15. The five tests of a rule against a frame of these payload bytes. -/
def RuleDef.Matches (d : RuleDef) (f : Frame) (payload : List Byte) : Prop :=
  d.enabled = true ∧ (d.minLength ≤ f.length ∧ f.length ≤ d.maxLength) ∧
  (match d.filter with
    | .any => True
    | .clean => f.flags.truncated = false ∧ f.flags.charError = false ∧ f.flags.gapClosed = false ∧ f.flags.brk = false
    | .flagged => f.flags.truncated = true ∨ f.flags.charError = true ∨ f.flags.gapClosed = true
        ∨ f.flags.brk = true) ∧
  d.keyOffset + d.key.length ≤ f.length ∧
  ∀ i < d.key.length, byteAt payload (d.keyOffset + i) &&& byteAt d.mask i = byteAt d.key i &&& byteAt d.mask i

/-! ### Device reset -/

/-- R115, R135. A port after a device reset. -/
structure Port.AfterReset (q : Port) : Prop where
  state : q.state = .off
  settings : q.settings = ⟨9600, 8, .none, 1, .full, 2, 1, 0⟩
  framerSettings : q.framer.settings =
    ⟨.gap, 256, .truncate, .keep, .keep, 0, [], [0x0D, 0x0A], false, none, false, none, 0, 1, .lowFirst, 0, 4⟩
  framer : q.framer.state = .hunt ∧ q.framer.startProgress = 0 ∧ q.framer.endProgress = 0 ∧ q.framer.held = []
    ∧ q.framer.escapeOpen = false ∧ q.framer.frame = none ∧ q.framer.taken = 0 ∧ q.framer.total = none
    ∧ q.framer.lengthField = []
  fifo : q.fifo = [] ∧ q.overrunPending = false
  quiet : q.quiet.running = false
  dir : q.dir = false
  counters : q.counters.values = List.replicate 17 0
  sends : q.queue = [] ∧ q.tx = .idle ∧ q.stopping = false ∧ q.gap = none ∧ q.draining = false

/-- R72. A store after a device reset. -/
structure Store.AfterReset (st : Store) : Prop where
  settings : st.settings = ⟨32, 0, .refuse, 24, 8⟩
  state : st.state = .closed ∧ st.prior = none
  records : st.records = [] ∧ st.delivered = 0 ∧ st.blocksUsed = 0 ∧ st.nextSeq = 0
  armed : st.highArmed = true ∧ st.refusingArmed = true
  counters : st.counters.values = List.replicate 8 0

/-- R29, R47, R72, R115, R135, R153, R162, R166. What a device reset with this cause leaves, RATE1 and RATE0 being
at these levels. -/
structure State.AfterDeviceReset (t : State) (cause : ResetCause) (rate1 rate0 : Bool) : Prop where
  timebase : t.timebase = 0
  receiver : t.link.receiver.state = .hunt ∧ t.link.receiver.header = [] ∧ t.link.receiver.body = []
  queues : t.link.requests = [] ∧ t.link.replies = [] ∧ t.link.reserved = 0 ∧ t.link.outstanding = []
  executor : t.link.executor = .idle
  htx : t.link.htx = none
  rate : t.link.rate = if rate1 then (if rate0 then .r3000000 else .r1000000)
    else (if rate0 then .r460800 else .r115200)
  lastCause : t.link.resetCause = cause
  linkCounters : t.link.counters.values = [0, 0, 0, 0, 0]
  notices : t.notices.entries = [⟨.started, 0, 1, 0, 0, .cause cause⟩]
  credit : t.notices.credit = 1
  mask : t.notices.mask = 0
  ops : t.ops.entries = [] ∧ t.ops.completed = []
  free : t.memory.free = List.finRange 1024
  descriptors : ∀ d, t.memory.desc d = ⟨false, [], 0, 0, false⟩
  memoryLow : t.memory.threshold = 64 ∧ t.memory.armed = true ∧ t.memory.lowWater = 1024
  memoryCounters : t.memory.counters.values = [0, 0, 0, 0]
  rules : ∀ r, t.classifier.rule r =
    ⟨.free, none, ⟨false, false, false, 0, [], [], 1, 1024, .any, .drop⟩, 0, none, 0⟩
  chains : ∀ p, t.classifier.chain p = []
  defaults : ∀ p : PortId, t.classifier.defaults.get p = .drop
  templates : ∀ i : TemplateId, t.classifier.templates.get i = ⟨[], none⟩
  classification : t.classifier.queue = [] ∧ t.classifier.current = none ∧ t.classifier.held = none
  stores : ∀ i, (t.store i).AfterReset
  ports : ∀ p, (t.port p).AfterReset
  nextSendId : t.nextSendId = 1

end Sys2Proof.Machine
end

