-- ==== Sys2Proof/Certificates/Slice0/Obligations.lean ====
section
/-! DEFINITION. The statements for the provers. Each says what one or several rows of the opcode table do, or what
every step keeps. Unless it says otherwise a statement gives the whole next state: a record update that names
the fields that change says that every other field keeps its value, Record Memory included. -/

open Sys2Proof Sys2Proof.Machine

/-! ### The machine as a whole -/

/-- A step with a command at the front of the queue is that command's effect on the state with the queue's rest. -/
def Obligations.StepRunsFrontCommand : Prop :=
  ∀ (c : Instr) (rest : List Instr) (s : State),
    step { s with pending := c :: rest } = exec c { s with pending := rest }

/-- Log entries 2 and 31 (the model's choice): with no command waiting, a step takes the timed event that is due, one
of those that `State.DueNow` names. When none is due one microsecond passes: the Timebase rises by 1 (R151); the silence
inside a message, a running quiet time, a counted send gap and a trailing hold grow by 1 (R111, R122, R125, R140); the
TTL of a QUEUED entry and the deadline of a RUNNING drain are lowered by 1, not below 0 (R127, R131, R133); a notice on
HTX goes on until its bytes, of 10 bits each, have been sent at the link's rate (R136, log entry 6); the storage suffers
the disturbances of that microsecond, of which each changes one stored byte and says whether the block's stored
check code then agrees (R30, log entry 3: free values); nothing else changes: no step of the part's blocks, such as a
selection, is taken by itself (log entry 36). While RESET is asserted nothing changes. -/
def Obligations.IdleStepPassesTime : Prop :=
  (∀ s : State, s.pending = [] →
    (∀ c, s.due = some c → s.DueNow c ∧ step s = exec c s) ∧
    (s.pins.reset = true → step s = .next s) ∧
    (s.pins.reset = false → s.due = none → (∀ c, ¬ s.DueNow c) ∧
      step s = .next { s with
        timebase := s.timebase + 1
        ticks := s.ticks + 1
        link := { s.link with
          receiver := { s.link.receiver with silence :=
            if s.link.receiver.state = .hunt then s.link.receiver.silence else s.link.receiver.silence + 1 }
          htx := match s.link.htx with
            | some (.notice m n) => if 1000000 * (10 * (8 + m.body.length)) ≤ (match s.link.rate with
                | .r115200 => 115200 | .r460800 => 460800 | .r1000000 => 1000000 | .r3000000 => 3000000) * (n + 1)
              then none else some (.notice m (n + 1))
            | x => x }
        ops := { s.ops with entries := s.ops.entries.map fun e => { e with
          work := match e.status, e.work with
            | none, .drain port deadline left sent remaining => .drain port deadline (left - 1) sent remaining
            | _, work => work } }
        memory := (Config.upsets s.ticks).foldl RecordMemory.disturb s.memory
        ports := s.ports.map fun q => { q with
          quiet := { q.quiet with micros := if q.quiet.running then q.quiet.micros + 1 else q.quiet.micros }
          gap := q.gap.map fun n => n + 1
          tx := match q.tx with
            | .holding status n => .holding status (n + 1)
            | x => x
          queue := q.queue.map fun e => { e with
            ttl := if e.state = .queued then e.ttl.map fun n => n - 1 else e.ttl } } })) ∧
  (∀ (m : RecordMemory) (u : Upset), Memory.wf m.cells = true →
    let d := m.disturb u
    d = { m with cells := d.cells, bad := d.bad } ∧
    (∀ a, Memory.read d.cells a =
      if a = 48 * u.block.val + u.offset.val then u.byte else Memory.read m.cells a) ∧
    ∀ i, i ∈ d.bad ↔ if i = u.block.val then u.agrees = false else i ∈ m.bad)

/-- Every command answers a next state in every state, and none touches the queue of waiting commands: that the part
has no fault and no refusal is the model's reading of the manual, which stops it nowhere (log entry 14). -/
def Obligations.EveryCommandAnswers : Prop :=
  ∀ (i : Instr) (s : State), ∃ t, exec i s = .next t ∧ t.pending = s.pending

/-- R153 has RESET hold the part. That everything is frozen from RESET_ASSERT on, HOLD excepted, is the model's choice
(log entry 28): while RESET is asserted no command but those of the pins changes anything. -/
def Obligations.ResetHoldsThePart : Prop :=
  ∀ (i : Instr) (s : State), s.pins.reset = true →
    (∀ a b, i ≠ .powerUp a b) → i ≠ .resetAssert → i ≠ .resetRelease → i ≠ .holdAssert → i ≠ .holdRelease →
    exec i s = .next s

/-- R152, R153. The three device resets: a power-up, which samples the rate straps, the release of RESET, and the end of
the RESTART reply; each leaves the values of a device reset with its cause. The model's choices: a power-up while RESET
is asserted is such a reset too, after which the part is held (log entry 7); RESET_ASSERT sets only the pin, the pins
survive a reset, and the straps change only with POWER_UP (log entry 28). -/
def Obligations.DeviceResets : Prop :=
  (∀ (rate1 rate0 : Bool) (s : State), ∃ t, exec (.powerUp rate1 rate0) s = .next t ∧
    t.AfterDeviceReset .powerUp rate1 rate0 ∧ t.pins = { s.pins with rate1 := rate1, rate0 := rate0 }) ∧
  (∀ s : State, exec .resetAssert s = .next { s with pins := { s.pins with reset := true } }) ∧
  (∀ s : State, s.pins.reset = true → ∃ t, exec .resetRelease s = .next t ∧
    t.AfterDeviceReset .resetLine s.pins.rate1 s.pins.rate0 ∧ t.pins = { s.pins with reset := false }) ∧
  (∀ s : State, s.pins.reset = false → exec .resetRelease s = .next s) ∧
  (∀ (s : State) (m : Message), s.pins.reset = false → s.link.htx = some (.reply ⟨m, .restart⟩) →
    ∃ t, exec .replyEnd s = .next t ∧ t.AfterDeviceReset .restart s.pins.rate1 s.pins.rate0 ∧ t.pins = s.pins)

/-- The state right after reset holds the values of a device reset with cause POWER_UP (log entry 1: which cause,
and the levels of the straps, are the model's choice), and meets every invariant that the steps keep. -/
def Obligations.ResetStateValues : Prop :=
  State.reset.AfterDeviceReset .powerUp false false ∧
  State.reset.link.Bounded ∧ State.reset.notices.Sound ∧ (∀ p, (State.reset.port p).FifoBounded) ∧
    State.reset.classifier.Sound ∧ State.reset.memory.Sound ∧ State.reset.Counted ∧ State.reset.PoolSound ∧
    (∀ p, (State.reset.port p).SendSound) ∧ (∀ p, (State.reset.port p).DirSound) ∧
    (∀ p, (State.reset.port p).FramerSound) ∧ State.reset.TagsSound ∧
    State.reset.ops.Sound ∧ State.reset.OpsAgree ∧ (∀ i, (State.reset.store i).Sound) ∧ State.reset.SettingsValid

/-! ### Messages from the host -/

/-- R136, R137, R138, R142. Every message that is well formed is received, laid out on the line byte by byte, in one
command or in pieces: whatever part of it the receiver has taken, a further piece leaves the receiver with that piece
taken too and changes nothing else, and with the rest of its bytes the request joins the queue with its tag, its kind and
its body. A byte with a low stop bit is a byte like any other, and a low period among them gives none; low periods alone
change nothing, so the silence inside a message goes on. In HUNT bytes other than 0xC3 are passed over. The form of a
message on the line, its header check and its body CRC are those of R136 and R137. -/
def Obligations.MessageRoundTrip : Prop :=
  (∀ (s : State) (m : Message) (taken : List Byte), s.pins.reset = false → m.body.length ≤ 1100 →
    s.link.receiver.Holds taken →
    (∀ items, m.bytes = taken ++ lineBytes items → lineBytes items ≠ [] →
      m.tag ≠ 0 → m.tag ∉ s.link.outstanding → s.link.requests.length < 8 →
      exec (.messageArrival items) s = .next { s with link := { s.link with
        receiver := ⟨.hunt, [], [], 0xFFFF, [], 0⟩
        requests := s.link.requests ++ [m]
        outstanding := s.link.outstanding ++ [m.tag]
        counters := { s.link.counters with taken := min (s.link.counters.taken + 1) 4294967295 } } }) ∧
    (∀ items more, m.bytes = taken ++ lineBytes items ++ more → lineBytes items ≠ [] → more ≠ [] → ∃ r : Receiver,
      r.Holds (taken ++ lineBytes items) ∧ r.silence = 0 ∧
      exec (.messageArrival items) s = .next { s with link := { s.link with receiver := r } })) ∧
  (∀ (s : State) (items : List HrxItem), s.pins.reset = false → s.link.receiver.state = .hunt →
    0xC3 ∉ lineBytes items → exec (.messageArrival items) s = .next s) ∧
  (∀ (s : State) (items : List HrxItem), (∀ x ∈ items, x = .lowPeriod) → exec (.messageArrival items) s = .next s) ∧
  (∀ m : Message, m.bytes = [0xC3] ++ le2 m.body.length ++ [m.tag, m.kind,
      headerCheck (le2 m.body.length ++ [m.tag, m.kind])] ++ m.body ++ le2 (crc16 m.body).toNat) ∧
  (∀ a b c d : Byte, headerCheck [a, b, c, d] = ~~~ (a + b + c + d)) ∧
  (∀ body : List Byte, crc16 body = body.foldl (fun (crc : Half) (b : Byte) =>
    (fun crc : Half => if crc.msb then (crc <<< 1) ^^^ 0x1021 else crc <<< 1)^[8] (crc ^^^ (b.setWidth 16 <<< 8))) 0xFFFF)

/-- R141, R142, R143. The arrival refusals, in the order of the tests; the answer BAD_CRC to a message whose body CRC
does not match, with its tag as received, 0 included; and the drop of a message that finds no place. None of them
makes a tag outstanding. Each comes with the message's last bytes, whatever part the receiver has taken before. -/
def Obligations.ArrivalsRefused : Prop :=
  (∀ (s : State) (m : Message) (taken : List Byte) (items : List HrxItem), s.pins.reset = false → m.body.length ≤ 1100 →
    s.link.receiver.Holds taken → m.bytes = taken ++ lineBytes items → lineBytes items ≠ [] →
    let refused (body : List Byte) : State := { s with link := { s.link with
      receiver := ⟨.hunt, [], [], 0xFFFF, [], 0⟩
      replies := s.link.replies ++ [⟨⟨replyKind m.kind, m.tag, body⟩, .refusal⟩] } }
    let dropped : State := { s with link := { s.link with
      receiver := ⟨.hunt, [], [], 0xFFFF, [], 0⟩
      counters := { s.link.counters with dropped := min (s.link.counters.dropped + 1) 4294967295 } } }
    (s.link.replies.length + s.link.reserved < 12 →
      (m.tag = 0 → exec (.messageArrival items) s = .next (refused [5, 0])) ∧
      (m.tag ≠ 0 → m.tag ∈ s.link.outstanding → exec (.messageArrival items) s = .next (refused [6])) ∧
      (m.tag ≠ 0 → m.tag ∉ s.link.outstanding → 8 ≤ s.link.requests.length →
        exec (.messageArrival items) s = .next (refused [7]))) ∧
    (12 ≤ s.link.replies.length + s.link.reserved →
      m.tag = 0 ∨ m.tag ∈ s.link.outstanding ∨ 8 ≤ s.link.requests.length →
      exec (.messageArrival items) s = .next dropped)) ∧
  (∀ (s : State) (m : Message) (w : Half) (taken : List Byte) (items : List HrxItem), s.pins.reset = false → m.body.length ≤ 1100 →
    w ≠ crc16 m.body → s.link.receiver.Holds taken →
    0xC3 :: le2 m.body.length ++ [m.tag, m.kind, headerCheck (le2 m.body.length ++ [m.tag, m.kind])]
      ++ m.body ++ le2 w.toNat = taken ++ lineBytes items → lineBytes items ≠ [] →
    let counted : Link := { s.link with
      receiver := ⟨.hunt, [], [], 0xFFFF, [], 0⟩
      counters := { s.link.counters with badCrc := min (s.link.counters.badCrc + 1) 4294967295 } }
    (s.link.replies.length + s.link.reserved < 12 → exec (.badCrc items) s = .next { s with link := { counted with
      replies := s.link.replies ++ [⟨⟨replyKind m.kind, m.tag, [2]⟩, .refusal⟩] } }) ∧
    (12 ≤ s.link.replies.length + s.link.reserved → exec (.badCrc items) s = .next { s with link := { counted with
      counters := { counted.counters with dropped := min (s.link.counters.dropped + 1) 4294967295 } } }))

/-- R139, R140. A bad header, of which the receiver may have taken a part before, is counted, its start byte is
discarded, and the five bytes after it are examined again: the first 0xC3 among them begins a new header that holds
those after it. 20 ms of silence inside a message abandon it and are counted; before that, and in HUNT, nothing
happens. -/
def Obligations.ReceptionAbandoned : Prop :=
  (∀ (s : State) (a b c d e : Byte) (taken : List Byte) (items : List HrxItem), s.pins.reset = false →
    s.link.receiver.Holds taken → [0xC3, a, b, c, d, e] = taken ++ lineBytes items → lineBytes items ≠ [] →
    (e ≠ ~~~ (a + b + c + d) ∨ 1100 < a.toNat + 256 * b.toNat) →
    let after (r : Receiver) : State := { s with link := { s.link with
      receiver := r
      counters := { s.link.counters with badHeader := min (s.link.counters.badHeader + 1) 4294967295 } } }
    ((∀ x ∈ [a, b, c, d, e], x ≠ 0xC3) →
      exec (.badHeader items) s = .next (after ⟨.hunt, [], [], 0xFFFF, [], 0⟩)) ∧
    (∀ pre post, [a, b, c, d, e] = pre ++ 0xC3 :: post → 0xC3 ∉ pre →
      exec (.badHeader items) s = .next (after ⟨.header, post, [], 0xFFFF, [], 0⟩))) ∧
  (∀ s : State, s.pins.reset = false →
    (s.link.receiver.state ≠ .hunt → 20000 ≤ s.link.receiver.silence →
      exec .interByteTimeout s = .next { s with link := { s.link with
        receiver := ⟨.hunt, [], [], 0xFFFF, [], 0⟩
        counters := { s.link.counters with timeouts := min (s.link.counters.timeouts + 1) 4294967295 } } }) ∧
    (s.link.receiver.state = .hunt ∨ s.link.receiver.silence < 20000 → exec .interByteTimeout s = .next s))

/-! ### Requests -/

/-- R145, R174. The Executor's own checks, in their order. A request whose kind is no request kind is answered
UNKNOWN_KIND with kind 0xFF; one of a body length not allowed for its kind, BAD_LENGTH; and one with a field out of
range, BAD_PARAM with the index of the first such field (where the manual leaves open which of two it is, one of
the two: log entries 11 to 13). That a condition that joins two fields is judged at the place of the field it names is
the model's reading (log entry 37). None has any other effect. -/
def Obligations.ExecutorChecks : Prop :=
  (∀ (s : State) (m : Message) (rest : List Message), s.pins.reset = false → s.link.executor = .idle →
    s.link.replies.length + s.link.reserved < 12 → s.link.requests = m :: rest → (∀ k : Kind, k.code ≠ m.kind) →
    exec .unknownKind s = .next { s with
      link := { s.link with
        requests := rest
        replies := s.link.replies ++ [⟨⟨0xFF, m.tag, [4]⟩, .ordinary⟩] }
      ops := { s.ops with entries := s.ops.entries.map fun e => { e with replyPending := false } } }) ∧
  (∀ (s : State) (k : Kind) (tag : Byte) (body : List Byte) (rest : List Message), s.Waiting k tag body rest →
    lengthAllowed k body.length = false → exec k.instr s = .next (s.replied k tag rest .badLength [])) ∧
  (∀ (s : State) (k : Kind) (tag : Byte) (body : List Byte) (rest : List Message), s.Waiting k tag body rest →
    lengthAllowed k body.length = true → ∀ before is after, k.fieldTests body = before ++ (is, false) :: after →
    (∀ x ∈ before, x.2 = true) → ∃ i ∈ is, exec k.instr s = .next (s.replied k tag rest .badParam [byte1 i]))

/-- R172, R173, R174, "Code tables", "Kind codes", "Request and reply bodies". The forms of the message bodies: numbers
least significant byte first, absent and unused fields, the codes of every kind, status and enumeration, the kind of the
reply to a kind (R145), the kind and target of an operation; and the body lengths of the request kinds. -/
def Obligations.AllowedBodyLengths : Prop :=
  (∀ n, lengthAllowed .ping n = true ↔ n ≤ 32) ∧
  (∀ n, lengthAllowed .send n = true ↔ 6 ≤ n ∧ n ≤ 1029) ∧
  (∀ n, lengthAllowed .ruleWrite n = true ↔ ∃ k, k ≤ 8 ∧ n = 17 + 2 * k) ∧
  (∀ n, lengthAllowed .templateWrite n = true ↔ 7 ≤ n ∧ n ≤ 71) ∧
  (∀ kl ∈ [(Kind.hello, 0), (.restart, 0), (.timeGet, 0), (.timeSet, 4), (.portConfig, 12), (.framerConfig, 29),
      (.portStart, 1), (.portPause, 1), (.portResume, 1), (.portStop, 1), (.portReset, 1), (.portStatus, 1),
      (.ruleLink, 3), (.ruleUnlink, 1), (.ruleFree, 1), (.ruleEnable, 2), (.ruleRead, 1), (.chainList, 1),
      (.defaultSet, 3), (.storeConfig, 7), (.storeOpen, 1), (.storePause, 1), (.storeClose, 1), (.storeRead, 5),
      (.storeAck, 5), (.storeRewind, 1), (.storeStatus, 1), (.storePurge, 1), (.sendCancel, 2), (.sendStatus, 2),
      (.portDrain, 3), (.memoryStatus, 0), (.memoryCheck, 0), (.memoryLowSet, 2), (.noticeCredit, 1),
      (.noticeMask, 2), (.countersRead, 3), (.countersClear, 2), (.opList, 0), (.opCancel, 1)],
    ∀ n, lengthAllowed kl.1 n = true ↔ n = kl.2) ∧
  -- numbers, absent values and unused bytes
  (∀ n, byte1 n = BitVec.ofNat 8 n ∧ le2 n = [byte1 n, byte1 (n / 256)] ∧
    le4 n = [byte1 n, byte1 (n / 256), byte1 (n / 65536), byte1 (n / 16777216)]) ∧
  yesNo false = 0 ∧ yesNo true = 1 ∧
  optional4 none = [0, 0, 0, 0, 0] ∧ (∀ w, optional4 (some w) = 1 :: le4 w.toNat) ∧
  (∀ n bs, bs.length ≤ n → padTo n bs = bs ++ List.replicate (n - bs.length) 0) ∧
  -- kinds and statuses
  [Kind.hello, .ping, .restart, .timeGet, .timeSet].map Kind.code = [0x01, 0x02, 0x03, 0x04, 0x05] ∧
  [Kind.portConfig, .framerConfig, .portStart, .portPause, .portResume, .portStop, .portReset, .portStatus].map Kind.code =
    [0x10, 0x11, 0x12, 0x13, 0x14, 0x15, 0x16, 0x17] ∧
  [Kind.ruleWrite, .ruleLink, .ruleUnlink, .ruleFree, .ruleEnable, .ruleRead, .chainList, .defaultSet,
    .templateWrite].map Kind.code = [0x20, 0x21, 0x22, 0x23, 0x24, 0x25, 0x26, 0x27, 0x28] ∧
  [Kind.storeConfig, .storeOpen, .storePause, .storeClose, .storeRead, .storeAck, .storeRewind, .storeStatus,
    .storePurge].map Kind.code = [0x30, 0x31, 0x32, 0x33, 0x34, 0x35, 0x36, 0x37, 0x38] ∧
  [Kind.send, .sendCancel, .sendStatus, .portDrain].map Kind.code = [0x40, 0x41, 0x42, 0x43] ∧
  [Kind.memoryStatus, .memoryCheck, .memoryLowSet].map Kind.code = [0x50, 0x51, 0x52] ∧
  [Kind.noticeCredit, .noticeMask, .countersRead, .countersClear, .opList, .opCancel].map Kind.code =
    [0x60, 0x61, 0x62, 0x63, 0x64, 0x65] ∧
  (∀ k : Kind, replyKind k.code = k.code + 0x80) ∧ (∀ b, (∀ k : Kind, k.code ≠ b) → replyKind b = 0xFF) ∧
  [Status.ok, .accepted, .badCrc, .badLength, .unknownKind, .badParam, .tagInUse, .windowFull, .wrongState, .notFound,
    .notDelivered, .storeBusy, .portDraining, .queueFull, .noMemory, .longOpsFull, .tooLate, .inUse].map Status.code =
    [0, 1, 2, 3, 4, 5, 6, 7, 8, 9, 10, 11, 12, 13, 14, 15, 16, 17] ∧
  [NoticeKind.started, .frameLost, .storeHigh, .storeRefusing, .ruleSpent, .forwardDropped, .sendDone, .memoryLow,
    .dataCheck, .noticeOverflow].map NoticeKind.code = [1, 2, 3, 4, 5, 6, 7, 8, 9, 10] ∧
  -- enumerations
  [PortState.off, .ready, .running, .paused].map PortState.code = [0, 1, 2, 3] ∧
  [FramerState.hunt, .header, .body, .skip].map FramerState.code = [0, 1, 2, 3] ∧
  [FramerMode.delimited, .length, .gap].map FramerMode.code = [0, 1, 2] ∧
  [TooLongPolicy.truncate, .discard].map TooLongPolicy.code = [0, 1] ∧
  [KeepPolicy.keep, .discard].map KeepPolicy.code = [0, 1] ∧
  [ByteOrder.lowFirst, .highFirst].map ByteOrder.code = [0, 1] ∧
  [Parity.none, .even, .odd].map Parity.code = [0, 1, 2] ∧ [Duplex.full, .half].map Duplex.code = [0, 1] ∧
  [RuleState.free, .defined, .linked].map RuleState.code = [0, 1, 2] ∧
  [FlagFilter.any, .clean, .flagged].map FlagFilter.code = [0, 1, 2] ∧
  (∀ i p c t ttl, [Action.drop, .file i, .forward p c ttl, .reply t c ttl, .count].map Action.code = [0, 1, 2, 3, 4] ∧
    [Action.drop, .file i, .forward p c ttl, .reply t c ttl, .count].map Action.fields =
      [[0, 0, 0, 0], [idByte i, 0, 0, 0], [idByte p, idByte c] ++ le2 ttl, [idByte t, idByte c] ++ le2 ttl, [0, 0, 0, 0]]) ∧
  [DroppedAction.forward, .reply].map DroppedAction.code = [2, 3] ∧
  (∀ i, [DefaultAction.drop, .file i].map DefaultAction.code = [0, 1]) ∧
  [StoreState.closed, .opened, .paused, .purging].map StoreState.code = [0, 1, 2, 3] ∧
  [FullPolicy.refuse, .evictOldest].map FullPolicy.code = [0, 1] ∧
  [SendOrigin.host, .forward, .reply].map SendOrigin.code = [0, 1, 2] ∧
  [SendState.queued, .sending].map SendState.code = [0, 1] ∧
  [SendStatus.sent, .expired, .cancelled, .aborted, .dataCheck].map SendStatus.code = [0, 1, 2, 3, 4] ∧
  [OpStatus.done, .cancelled, .timedOut, .aborted].map OpStatus.code = [0, 1, 2, 3] ∧
  (∀ i p a b c d e, [OpWork.purge i a, .drain p a b c d, .check a b e].map OpWork.code = [0x38, 0x43, 0x51] ∧
    [OpWork.purge i a, .drain p a b c d, .check a b e].map OpWork.target = [idByte i, idByte p, 0xFF] ∧
    [OpWork.purge i a, .drain p a b c d, .check a b e].map OpWork.isCheck = [false, false, true] ∧
    (∀ j, [OpWork.purge i a, .drain p a b c d, .check a b e].map (fun w => w.isPurgeOf j) = [decide (i = j), false, false]) ∧
    ∀ j, [OpWork.purge i a, .drain p a b c d, .check a b e].map (fun w => w.isDrainOf j) = [false, decide (p = j), false]) ∧
  [ResetCause.powerUp, .resetLine, .restart].map ResetCause.code = [0, 1, 2] ∧
  [LinkRate.r115200, .r460800, .r1000000, .r3000000].map LinkRate.code = [0, 1, 2, 3]

/-- R152. RESTART is answered OK, and from then on the Executor is STOPPED and takes no request. -/
def Obligations.RestartStopsTheExecutor : Prop :=
  (∀ (s : State) (tag : Byte) (rest : List Message), s.Waiting .restart tag [] rest →
    exec .restart s = .next { s with
      link := { s.link with
        requests := rest
        replies := s.link.replies ++ [⟨⟨0x83, tag, [0]⟩, .restart⟩]
        executor := .stopped }
      ops := { s.ops with entries := s.ops.entries.map fun e => { e with replyPending := false } } }) ∧
  (∀ (s : State) (k : Kind), s.link.executor = .stopped →
    exec k.instr s = .next s ∧ exec .unknownKind s = .next s)

/-- R150. PING. -/
def Obligations.PingAnswered : Prop :=
  ∀ (s : State) (tag : Byte) (body : List Byte) (rest : List Message), s.Waiting .ping tag body rest →
    (body.length ≤ 32 → exec .ping s = .next (s.replied .ping tag rest .ok body)) ∧
    (32 < body.length → exec .ping s = .next (s.replied .ping tag rest .badLength []))

/-- R8, R9, R40, R67, R106, R149, R151, R167. The requests that report and change nothing: HELLO, TIME_GET,
MEMORY_STATUS, OP_LIST, PORT_STATUS, RULE_READ, CHAIN_LIST and STORE_STATUS are answered OK in every state. That OP_LIST
reports a drain's deadline in milliseconds rounded up is the model's reading (log entry 27). -/
def Obligations.ReportsChangeNothing : Prop :=
  (∀ (s : State) (tag : Byte) (rest : List Message),
    (s.Waiting .hello tag [] rest → exec .hello s = .next (s.replied .hello tag rest .ok
      ([0x42] ++ le2 0x5346 ++ [1, s.link.rate.code, s.link.resetCause.code, 4, 128, 16] ++ le2 1024 ++ le2 256
        ++ [8, 48, 16, 8, 8, 12, 16, 4]))) ∧
    (s.Waiting .timeGet tag [] rest → exec .timeGet s = .next (s.replied .timeGet tag rest .ok
      (le4 s.timebase.toNat))) ∧
    (s.Waiting .memoryStatus tag [] rest → exec .memoryStatus s = .next (s.replied .memoryStatus tag rest .ok
      (le2 s.memory.free.length ++ le2 (s.memory.descs.toList.filter fun d => !d.live).length
        ++ le2 s.memory.lowWater ++ le2 s.memory.threshold
        ++ [yesNo s.memory.armed, yesNo (s.ops.entries.any fun e => e.work.isCheck)]))) ∧
    (s.Waiting .opList tag [] rest → exec .opList s = .next (s.replied .opList tag rest .ok
      (byte1 s.ops.entries.length :: s.ops.entries.flatMap fun e =>
        [e.tag, e.work.code, e.work.target, if e.status = none then 0 else 1,
          match e.status with | some st => st.code | none => 0xFF]
        ++ le4 e.start.toNat
        ++ le2 (match e.status, e.work with | none, .drain _ _ left _ _ => (left + 999) / 1000 | _, _ => 0)
        ++ (match e.work with
          | .purge _ removed => le4 removed ++ [0, 0] ++ [0, 0]
          | .drain _ _ _ sent remaining => le4 sent ++ le2 remaining ++ [0, 0]
          | .check next checked failing => le4 checked ++ le2 failing ++ le2 next))))) ∧
  (∀ (s : State) (tag : Byte) (rest : List Message),
    (∀ p : PortId, s.Waiting .portStatus tag [idByte p] rest →
      let q := s.port p
      exec .portStatus s = .next (s.replied .portStatus tag rest .ok
        [q.state.code, byte1 (q.fifo.filter fun i => i != .expiry).length, q.framer.state.code, byte1 q.queue.length,
          yesNo q.draining, yesNo q.dir])) ∧
    (∀ r : RuleId, s.Waiting .ruleRead tag [idByte r] rest →
      let x := s.classifier.rule r
      exec .ruleRead s = .next (s.replied .ruleRead tag rest .ok
        ([idByte r, x.state.code, match x.chainPort with | some p => idByte p | none => 0xFF,
            yesNo x.fields.enabled, yesNo x.fields.oneShot, yesNo x.fields.goOn]
          ++ le2 x.fields.keyOffset ++ le2 x.fields.minLength ++ le2 x.fields.maxLength
          ++ [x.fields.filter.code, x.fields.action.code] ++ x.fields.action.fields
          ++ [byte1 x.fields.key.length] ++ padTo 8 x.fields.key ++ padTo 8 x.fields.mask
          ++ le4 x.hits ++ le4 x.refused ++ optional4 x.lastHit))) ∧
    (∀ p : PortId, s.Waiting .chainList tag [idByte p] rest →
      exec .chainList s = .next (s.replied .chainList tag rest .ok
        ((match s.classifier.defaults.get p with | .drop => [idByte p, 0, 0] | .file i => [idByte p, 1, idByte i])
          ++ byte1 (s.classifier.chain p).length :: (s.classifier.chain p).map idByte))) ∧
    (∀ i : StoreId, s.Waiting .storeStatus tag [idByte i] rest →
      let st := s.store i
      exec .storeStatus s = .next (s.replied .storeStatus tag rest .ok
        ([idByte i, st.state.code, match st.prior with | some x => x.code | none => 0xFF, byte1 st.records.length]
          ++ le2 st.blocksUsed ++ [byte1 st.delivered] ++ le4 st.nextSeq.toNat
          ++ (match st.records with | [] => [0, 0, 0, 0, 0] | r :: _ => 1 :: le4 r.seq.toNat)
          ++ [byte1 st.settings.capacity] ++ le2 st.settings.quota
          ++ [st.settings.policy.code, byte1 st.settings.highMark, byte1 st.settings.lowMark, yesNo st.highArmed,
            yesNo st.refusingArmed]))))

/-- R42, R151, R160, R161. TIME_SET, MEMORY_LOW_SET, NOTICE_CREDIT and NOTICE_MASK. -/
def Obligations.ValueRequestsSet : Prop :=
  ∀ (s : State) (tag : Byte) (rest : List Message),
    (∀ v : Word, s.Waiting .timeSet tag (le4 v.toNat) rest →
      exec .timeSet s = .next (({ s with timebase := v }).replied .timeSet tag rest .ok [])) ∧
    (∀ n, n ≤ 65535 → s.Waiting .memoryLowSet tag (le2 n) rest →
      (n ≤ 1023 → exec .memoryLowSet s = .next (({ s with memory := { s.memory with
        threshold := n, armed := decide (n < s.memory.free.length) } }).replied .memoryLowSet tag rest .ok [])) ∧
      (1023 < n → exec .memoryLowSet s = .next (s.replied .memoryLowSet tag rest .badParam [1]))) ∧
    (∀ n : Byte, s.Waiting .noticeCredit tag [n] rest →
      (n.toNat ≤ 64 → exec .noticeCredit s = .next (({ s with notices := { s.notices with
        credit := min (s.notices.credit + n.toNat) 64 } }).replied .noticeCredit tag rest .ok
          [byte1 (min (s.notices.credit + n.toNat) 64)])) ∧
      (64 < n.toNat → exec .noticeCredit s = .next (s.replied .noticeCredit tag rest .badParam [1]))) ∧
    (∀ v : Half, s.Waiting .noticeMask tag (le2 v.toNat) rest →
      (v.toNat < 512 → exec .noticeMask s = .next (({ s with notices := { s.notices with mask := v } }).replied
        .noticeMask tag rest .ok (le2 v.toNat))) ∧
      (512 ≤ v.toNat → exec .noticeMask s = .next (s.replied .noticeMask tag rest .badParam [1])))

/-! ### Ports -/

/-- R76, R99, R100. PORT_CONFIG and FRAMER_CONFIG with all their fields in range. -/
def Obligations.PortConfigured : Prop :=
  ∀ (s : State) (tag : Byte) (rest : List Message) (p : PortId),
    (∀ ls : LineSettings, ls.Valid → s.Waiting .portConfig tag (ls.body p) rest →
      ((s.port p).state = .off ∨ (s.port p).state = .ready →
        exec .portConfig s = .next ((s.modPort p fun q => { q with settings := ls, state := .ready }).replied
          .portConfig tag rest .ok [])) ∧
      ((s.port p).state = .running ∨ (s.port p).state = .paused →
        exec .portConfig s = .next (s.replied .portConfig tag rest .wrongState []))) ∧
    (∀ fs : FramerSettings, fs.Valid → s.Waiting .framerConfig tag (fs.body p) rest →
      ((s.port p).state = .off ∨ (s.port p).state = .ready →
        exec .framerConfig s = .next ((s.modPort p fun q => { q with framer := { q.framer with
          settings := fs } }).replied .framerConfig tag rest .ok [])) ∧
      ((s.port p).state = .running ∨ (s.port p).state = .paused →
        exec .framerConfig s = .next (s.replied .framerConfig tag rest .wrongState [])))

/-- R75, R96, R101, R102, R103. PORT_START, PORT_PAUSE and PORT_RESUME, in every state of the port. That PORT_START
finds the line high is the model's choice (log entry 15): R101 has the receiver look for a start bit at once. So is that
PORT_RESUME keeps what the line monitor saw during the pause (log entry 35). A character partly received at PORT_PAUSE is
abandoned (R100). That the quiet time runs from the switch-on
even during a character or a break is the model's reading (log entry 23). -/
def Obligations.PortReceiverSwitched : Prop :=
  ∀ (s : State) (tag : Byte) (rest : List Message) (p : PortId),
    let on (f : Framer) : Framer :=
      ⟨f.settings, if f.settings.mode = .gap then .skip else .hunt, 0, 0, [], false, none, 0, none, []⟩
    (s.Waiting .portStart tag [idByte p] rest →
      ((s.port p).state = .ready →
        exec .portStart s = .next ((s.modPort p fun q => { q with
          state := .running, framer := on q.framer, line := .high, quiet := ⟨true, 0, false⟩, gap := none }).replied
            .portStart tag rest .ok [])) ∧
      ((s.port p).state ≠ .ready → exec .portStart s = .next (s.replied .portStart tag rest .wrongState []))) ∧
    (s.Waiting .portResume tag [idByte p] rest →
      ((s.port p).state = .paused →
        exec .portResume s = .next ((s.modPort p fun q => { q with
          state := .running, framer := on q.framer, quiet := ⟨true, 0, false⟩ }).replied
            .portResume tag rest .ok [])) ∧
      ((s.port p).state ≠ .paused → exec .portResume s = .next (s.replied .portResume tag rest .wrongState []))) ∧
    (s.Waiting .portPause tag [idByte p] rest →
      let paused (q : Port) : Port := { q with
        state := .paused, framer := ⟨q.framer.settings, .hunt, 0, 0, [], false, none, 0, none, []⟩,
        fifo := [], overrunPending := false,
        line := match q.line with | .character _ => .character true | .lowStop _ => .lowStop none | l => l }
      ((s.port p).state = .running → (s.port p).framer.frame = none →
        exec .portPause s = .next ((s.modPort p paused).replied .portPause tag rest .ok [])) ∧
      (∀ a, (s.port p).state = .running → (s.port p).framer.frame = some a →
        exec .portPause s = .next (({ s with memory := s.memory.release a.desc }.modPort p fun q =>
          { paused q with counters := { q.counters with
            aborted := min (q.counters.aborted + 1) 4294967295 } }).replied .portPause tag rest .ok [])) ∧
      ((s.port p).state ≠ .running → exec .portPause s = .next (s.replied .portPause tag rest .wrongState [])))

/-- R13, R96, R104, R105, R128, R133. PORT_STOP of a RUNNING or PAUSED port: its receiving is aborted; the entries
that have no character on the line end ABORTED in admission order, with their SEND_DONE notices; the one that has a
character on the line goes on to finish it; a drain in flight completes ABORTED. Of an OFF or READY port it is refused.
PORT_RESET does from any state what the stop does if the port can send; then the port is OFF with the default settings
and its counters 0, and its pending frames leave the classification queue and release their references. The send gap is
counted from the end of an entry that has sent a character (R122). The model's choices: the stop leaves the line at
rest with no quiet time (log entry 24), and the pending frames release their references oldest first (log entry 33). -/
def Obligations.PortStopped : Prop :=
  (∀ (s : State) (tag : Byte) (rest : List Message) (p : PortId), s.Waiting .portStop tag [idByte p] rest →
    ((s.port p).canSend = false → exec .portStop s = .next (s.replied .portStop tag rest .wrongState [])) ∧
    ((s.port p).canSend = true → s.PoolSound → (s.port p).SendSound →
      let q := s.port p
      let onLine : Bool := match q.tx with | .sending _ _ _ => true | _ => false
      let kept := if onLine then q.queue.filter fun e => e.state == .sending else []
      let ended := if onLine then q.queue.filter fun e => e.state == .queued else q.queue
      ∃ t : State, exec .portStop s = .next (t.replied .portStop tag rest .ok []) ∧
        t = { s with
          memory := (q.framer.frame.toList.map Assembly.desc ++ ended.map SendEntry.desc).foldl RecordMemory.release s.memory
          notices := (ended.filter fun (e : SendEntry) => e.origin == .host && e.report).foldl
            (fun (n : NoticeQueue) e => n.raise .sendDone e.id.toNat (.sendDone .aborted (e.tag.getD 0)) s.timebase) s.notices
          ops := t.ops
          ports := s.ports.set p.val { q with
            state := .ready
            framer := ⟨q.framer.settings, .hunt, 0, 0, [], false, none, 0, none, []⟩
            fifo := [], overrunPending := false, line := .high, quiet := ⟨false, 0, false⟩
            queue := kept, stopping := onLine, tx := if onLine then q.tx else .idle
            dir := onLine && q.dir || q.tx == TxPhase.idle && q.dir
            gap := if onLine then q.gap
              else if q.queue.any fun e => e.state == .sending && e.charsSent != 0 then some 0 else q.gap
            draining := false
            counters := if q.framer.frame.isSome then { q.counters with
              aborted := min (q.counters.aborted + 1) 4294967295 } else q.counters } p.isLt } ∧
        t.ops.completed = s.ops.completed ++ (if q.draining then
          (s.ops.entries.filter fun e => e.status.isNone && e.work.isDrainOf p).map (·.tag) else []) ∧
        t.ops.entries.map (fun (e : OpEntry) => { e with replyPending := false }) = s.ops.entries.map fun (e : OpEntry) =>
          match e.status, e.work with
          | none, .drain port deadline left sent _ =>
            if port = p ∧ q.draining then
              { e with
                work := .drain port deadline left sent q.queue.length
                status := some .aborted
                replyPending := false }
            else { e with replyPending := false }
          | _, _ => { e with replyPending := false })) ∧
  (∀ (s : State) (tag : Byte) (rest : List Message) (p : PortId), s.Waiting .portReset tag [idByte p] rest →
    let u := if (s.port p).canSend then s.stopPort p else s
    exec .portReset s = .next (({ u with
      classifier := { u.classifier with queue := s.classifier.queue.filter fun (f : Frame) => f.port != p }
      memory := ((s.classifier.queue.filter fun (f : Frame) => f.port == p).map Frame.desc).foldl RecordMemory.release u.memory
      ports := u.ports.set p.val { u.port p with
        state := .off
        settings := ⟨9600, 8, .none, 1, .full, 2, 1, 0⟩
        framer := ⟨⟨.gap, 256, .truncate, .keep, .keep, 0, [], [0x0D, 0x0A], false, none, false, none, 0, 1,
          .lowFirst, 0, 4⟩, .hunt, 0, 0, [], false, none, 0, none, []⟩
        counters := ⟨0, 0, 0, 0, 0, 0, 0, 0, 0, 0, 0, 0, 0, 0, 0, 0, 0⟩ } p.isLt }).replied
        .portReset tag rest .ok []))

/-! ### Rules, chains and templates -/

/-- R11, R143, R145. An edit that arrives while the Classifier is CLASSIFYING is held, for each of the seven edits, with
its fields in range. The Executor takes no further request while it is EXECUTING, and none while all 12 places of the
reply queue are occupied or reserved. -/
def Obligations.EditHeldWhileClassifying : Prop :=
  (∀ (s : State) (e : Edit) (tag : Byte) (rest : List Message), e.Valid → s.classifier.current.isSome = true →
    s.Waiting e.kind tag e.body rest →
    exec e.kind.instr s = .next { s with
      link := { s.link with requests := rest, reserved := s.link.reserved + 1, executor := .executing tag e.kind }
      classifier := { s.classifier with held := some e } }) ∧
  (∀ (s : State) (k : Kind),
    (∃ tag kind, s.link.executor = .executing tag kind) ∨ 12 ≤ s.link.replies.length + s.link.reserved →
    exec k.instr s = .next s ∧ exec .unknownKind s = .next s)

/-- R3, R10, R27. RULE_WRITE, DEFAULT_SET and TEMPLATE_WRITE reach the IDLE Classifier. -/
def Obligations.FieldsWritten : Prop :=
  ∀ (s : State) (tag : Byte) (rest : List Message), s.classifier.current = none →
    (∀ (r : RuleId) (d : RuleDef), d.Valid → s.Waiting .ruleWrite tag (Edit.ruleWrite r d).body rest →
      let x := s.classifier.rule r
      exec .ruleWrite s = .next (({ s with classifier := { s.classifier with
        rules := s.classifier.rules.set r.val
          ⟨if x.state = RuleState.free then RuleState.defined else x.state, x.chainPort, d, 0, none, 0⟩ r.isLt } }).replied
          .ruleWrite tag rest .ok [])) ∧
    (∀ (p : PortId) (a : DefaultAction), s.Waiting .defaultSet tag (Edit.defaultSet p a).body rest →
      exec .defaultSet s = .next (({ s with classifier := { s.classifier with
        defaults := s.classifier.defaults.set p.val a p.isLt } }).replied .defaultSet tag rest .ok [])) ∧
    (∀ (i : TemplateId) (v : Template), v.Valid → s.Waiting .templateWrite tag (Edit.templateWrite i v).body rest →
      exec .templateWrite s = .next (({ s with classifier := { s.classifier with
        templates := s.classifier.templates.set i.val v i.isLt } }).replied .templateWrite tag rest .ok []))

/-- R4. RULE_LINK reaches the IDLE Classifier. -/
def Obligations.RuleLinked : Prop :=
  ∀ (s : State) (tag : Byte) (rest : List Message) (r : RuleId) (p : PortId) (position : LinkPosition),
    s.classifier.current = none → s.Waiting .ruleLink tag (Edit.ruleLink r p position).body rest →
    let x := s.classifier.rule r
    let linked (chain : List RuleId) : Host.Outcome State Fault Refusal :=
      .next (({ s with classifier := { s.classifier with
        chains := s.classifier.chains.set p.val chain p.isLt
        rules := s.classifier.rules.set r.val { x with state := .linked, chainPort := some p } r.isLt } }).replied
          .ruleLink tag rest .ok [])
    (x.state ≠ .defined → exec .ruleLink s = .next (s.replied .ruleLink tag rest .wrongState [])) ∧
    (x.state = .defined → position = .head → exec .ruleLink s = linked (r :: s.classifier.chain p)) ∧
    (∀ a, x.state = .defined → position = .after a →
      (a ∉ s.classifier.chain p → exec .ruleLink s = .next (s.replied .ruleLink tag rest .notFound [])) ∧
      (s.classifier.Sound → (s.classifier.rule a).state ≠ .linked ∨ (s.classifier.rule a).chainPort ≠ some p →
        exec .ruleLink s = .next (s.replied .ruleLink tag rest .notFound [])) ∧
      (∀ before behind, s.classifier.chain p = before ++ a :: behind → a ∉ before →
        exec .ruleLink s = linked (before ++ a :: r :: behind)))

/-- R5, R6, R7. RULE_UNLINK, RULE_FREE and RULE_ENABLE reach the IDLE Classifier. -/
def Obligations.RuleStateEdited : Prop :=
  ∀ (s : State) (tag : Byte) (rest : List Message) (r : RuleId), s.classifier.current = none →
    let x := s.classifier.rule r
    (s.Waiting .ruleUnlink tag [idByte r] rest →
      (∀ p, x.state = .linked → x.chainPort = some p →
        exec .ruleUnlink s = .next (({ s with classifier := { s.classifier with
          chains := s.classifier.chains.set p.val ((s.classifier.chain p).filter fun y => y != r) p.isLt
          rules := s.classifier.rules.set r.val { x with state := .defined, chainPort := none } r.isLt } }).replied
            .ruleUnlink tag rest .ok [])) ∧
      (x.state ≠ .linked → exec .ruleUnlink s = .next (s.replied .ruleUnlink tag rest .wrongState []))) ∧
    (s.Waiting .ruleFree tag [idByte r] rest →
      (x.state = .defined →
        exec .ruleFree s = .next (({ s with classifier := { s.classifier with
          rules := s.classifier.rules.set r.val
            ⟨.free, none, ⟨false, false, false, 0, [], [], 1, 1024, .any, .drop⟩, 0, none, 0⟩ r.isLt } }).replied
            .ruleFree tag rest .ok [])) ∧
      (x.state ≠ .defined → exec .ruleFree s = .next (s.replied .ruleFree tag rest .wrongState []))) ∧
    (∀ v : Bool, s.Waiting .ruleEnable tag [idByte r, yesNo v] rest →
      (x.state ≠ .free →
        exec .ruleEnable s = .next (({ s with classifier := { s.classifier with
          rules := s.classifier.rules.set r.val
            { x with fields := { x.fields with enabled := v } } r.isLt } }).replied .ruleEnable tag rest .ok [])) ∧
      (x.state = .free → exec .ruleEnable s = .next (s.replied .ruleEnable tag rest .wrongState [])))

/-! ### Classification -/

/-- R14. The IDLE Classifier takes the oldest pending frame, with the chain and the default action of its port as
they stand; while it is CLASSIFYING, or with no pending frame, nothing happens. -/
def Obligations.ClassificationStarts : Prop :=
  ∀ s : State, s.pins.reset = false →
    (∀ f rest, s.classifier.current = none → s.classifier.queue = f :: rest →
      exec .classificationStart s = .next { s with classifier := { s.classifier with
        queue := rest
        current := some ⟨f, s.classifier.chain f.port, s.classifier.defaults.get f.port, 0, false, false, []⟩ } }) ∧
    (s.classifier.current ≠ none ∨ s.classifier.queue = [] → exec .classificationStart s = .next s)

/-- R15. A rule matches a frame exactly when all five tests pass; unless the first four pass no block is read. -/
def Obligations.RuleMatchesByFiveTests : Prop :=
  ∀ (s : State) (d : RuleDef) (f : Frame), d.Valid →
    ((s.ruleMatches d f).1 = true ↔ d.Matches f (s.memory.payload f.desc 0 f.length)) ∧
    (d.applies f = true ↔ d.enabled = true ∧ (d.minLength ≤ f.length ∧ f.length ≤ d.maxLength) ∧
      (match d.filter, f.flags.truncated || f.flags.charError || f.flags.gapClosed || f.flags.brk with
        | .clean, flagged => flagged = false
        | .flagged, flagged => flagged = true
        | .any, _ => True) ∧ d.keyOffset + d.key.length ≤ f.length) ∧
    (d.applies f = false → (s.ruleMatches d f).2 = s)

/-- R16, R17, R18, R19, R20, R21. The visit of the next rule `r` of the walk. A rule that does not match is passed
over. One that matches is hit and acts: DROP ends the walk, COUNT only counts, FILE, FORWARD and REPLY perform
their action and end the walk unless continue is on; the fifth of these does not act and ends the walk. A one-shot
rule that has acted is disabled, with a RULE_SPENT notice. That the key test reads and checks
every block that holds a key byte is the model's reading (log entry 19). -/
def Obligations.WalkVisitsTheNextRule : Prop :=
  ∀ (s : State) (k : Classification) (r : RuleId) (rest : List RuleId), s.pins.reset = false →
    s.classifier.current = some k → k.ended = false → k.remaining = r :: rest →
    let d := (s.classifier.rule r).fields
    let went : State := { s with classifier := { s.classifier with current := some { k with remaining := rest } } }
    let read : State := if d.applies k.frame then
      went.checkBlocks k.frame.desc (s.memory.span k.frame.desc d.keyOffset d.key.length) else went
    let hit : State := { read with classifier := { read.classifier with
      rules := read.classifier.rules.set r.val { read.classifier.rule r with
        hits := min ((s.classifier.rule r).hits + 1) 4294967295
        lastHit := some s.timebase } r.isLt } }
    let spent (t : State) : State := if d.oneShot then ({ t with classifier := { t.classifier with
      rules := t.classifier.rules.set r.val { t.classifier.rule r with fields := { d with enabled := false } } r.isLt }
      }).raise .ruleSpent r.val .none else t
    let acted (t : State) (performed : Nat) (ended : Bool) : State := { t with classifier := { t.classifier with
      current := t.classifier.current.map fun k => { k with performed := performed, decided := true, ended := ended } } }
    ((s.ruleMatches d k.frame).1 = false → exec .walkVisit s = .next read) ∧
    ((s.ruleMatches d k.frame).1 = true →
      (d.action = .drop → exec .walkVisit s = .next (spent (acted hit k.performed true))) ∧
      (d.action = .count → exec .walkVisit s = .next (spent hit)) ∧
      (4 ≤ k.performed → d.action ≠ .drop → d.action ≠ .count →
        exec .walkVisit s = .next { read with
          stores := Vector.ofFn fun i => { s.store i with records := (s.store i).records.map fun x =>
            if (i, x.seq) ∈ k.filed then { x with flags := { x.flags with capped := true } } else x }
          classifier := { read.classifier with current := some { k with
            remaining := rest, decided := true, ended := true
            frame := { k.frame with flags := { k.frame.flags with capped := true } } } } }) ∧
      (k.performed < 4 →
        (∀ i, d.action = .file i →
          exec .walkVisit s = .next (spent (acted (hit.fileAction r k.frame i) (k.performed + 1) (!d.goOn)))) ∧
        (∀ p c ttl, d.action = .forward p c ttl →
          exec .walkVisit s = .next (spent (acted (hit.forwardAction r k.frame p c ttl) (k.performed + 1) (!d.goOn)))) ∧
        (∀ i c ttl, d.action = .reply i c ttl →
          exec .walkVisit s = .next (spent (acted (hit.replyAction r k.frame i c ttl) (k.performed + 1) (!d.goOn))))))

/-- R24, R25, R26, R28. What the FILE, FORWARD and REPLY actions of a rule do. A refused or failed action raises the
rule's refused count, and a failed FORWARD or REPLY raises FORWARD_DROPPED with its cause, the first of the checks
that fails; the entry that each makes otherwise has the fields of R116 and R25 and the first send id from the counter on
that no live entry holds (R118). That a REPLY reads its echo bytes only when all checks have passed is the model's
reading (log entry 18); that it reads them before it takes its own blocks is the model's choice (log entry 32). -/
def Obligations.ActionsPerformed : Prop :=
  ∀ (s : State) (r : RuleId) (f : Frame),
    let refused (t : State) : State := { t with classifier := { t.classifier with
      rules := t.classifier.rules.set r.val
        { t.classifier.rule r with refused := min ((t.classifier.rule r).refused + 1) 4294967295 } r.isLt } }
    let failed (t : State) (action : DroppedAction) (cause : Status) : State :=
      (refused t).raise .forwardDropped r.val (.dropped action cause)
    let admission (p : PortId) : Option Status :=
      if (s.port p).state ≠ .running ∧ (s.port p).state ≠ .paused then some .wrongState
      else if (s.port p).draining then some .portDraining
      else if 16 ≤ (s.port p).queue.length ∨ 48 ≤ s.entries.length then some .queueFull else none
    let next (id : Half) : Half := if id = 65535 then 1 else id + 1
    let joins (u t : State) (p : PortId) (origin : SendOrigin) (cls : Fin 4) (ttl : Nat) (d : DescId) : Prop :=
      ∃ n ≤ 47, (∀ m < n, next^[m] s.nextSendId ∈ s.entries.map (·.id)) ∧
        next^[n] s.nextSendId ∉ s.entries.map (·.id) ∧
        let id := next^[n] s.nextSendId
        t = { u.modPort p fun q => { q with queue := q.queue ++
          [(⟨id, origin, cls, d, if ttl = 0 then none else some (1000 * ttl), s.timebase, false, none, .queued,
            0⟩ : SendEntry)] } with nextSendId := next id }
    (∀ i t seq, s.file i f (idByte r) = (some seq, t) → s.fileAction r f i = { t with classifier := { t.classifier with
      current := t.classifier.current.map fun k => { k with filed := k.filed ++ [(i, seq)] } } }) ∧
    (∀ i t, s.file i f (idByte r) = (none, t) → s.fileAction r f i = refused t) ∧
    (∀ p cls ttl, (∀ cause, admission p = some cause → s.forwardAction r f p cls ttl = failed s .forward cause) ∧
      (admission p = none → joins { s with memory := s.memory.modDesc f.desc fun x => { x with refs := x.refs + 1 } }
        (s.forwardAction r f p cls ttl) p .forward cls ttl f.desc)) ∧
    (∀ i cls ttl,
      let v := s.classifier.templates.get i
      let n := match v.echo with | none => 0 | some e => min e.length (f.length - e.offset)
      let bytes := match v.echo with
        | none => v.bytes
        | some e => v.bytes.take e.insertAt ++ s.memory.payload f.desc e.offset n ++ v.bytes.drop e.insertAt
      let read := match v.echo with
        | none => s
        | some e => s.checkBlocks f.desc (s.memory.span f.desc e.offset n)
      (∀ cause, admission f.port = some cause → s.replyAction r f i cls ttl = failed s .reply cause) ∧
      (admission f.port = none →
        (v.bytes = [] → s.replyAction r f i cls ttl = failed s .reply .notFound) ∧
        (v.bytes ≠ [] → (∀ d, (s.memory.desc d).live = true) →
          s.replyAction r f i cls ttl = failed { s with memory := s.memory.countNoDescriptor } .reply .noMemory) ∧
        (v.bytes ≠ [] → (∃ d, (s.memory.desc d).live = false) → s.memory.free.length < (v.bytes.length + n + 47) / 48 →
          s.replyAction r f i cls ttl = failed { s with memory := s.memory.countNoBlock } .reply .noMemory) ∧
        (v.bytes ≠ [] → (∃ d, (s.memory.desc d).live = false) → (v.bytes.length + n + 47) / 48 ≤ s.memory.free.length →
          ∃ d t, read.fill bytes = (some d, t) ∧ joins t (s.replyAction r f i cls ttl) f.port .reply cls ttl d)))

/-- R11, R22, R23. The walk having ended, the default action is carried out if no FILE, FORWARD, REPLY or DROP rule
matched; then the Classifier releases the frame's descriptor and is IDLE, and a held edit is carried out and
answered. A walk that has not ended goes on. A held edit is carried out as the same edit is that finds the Classifier
IDLE. -/
def Obligations.ClassificationEnds : Prop :=
  (∀ (s : State) (e : Edit) (tag : Byte) (rest : List Message), e.Valid → s.classifier.current = none →
    s.Waiting e.kind tag e.body rest →
    let r := s.classifier.applyEdit e
    exec e.kind.instr s = .next ({ s with classifier := r.2 }.replied e.kind tag rest r.1 [])) ∧
  ∀ (s : State) (k : Classification), s.pins.reset = false → s.classifier.current = some k →
    (k.ended = false → k.remaining ≠ [] → exec .classificationEnd s = .next s) ∧
    (k.ended = true ∨ k.remaining = [] →
      let filed := match k.decided, k.dflt with
        | false, .file i => (s.file i k.frame 255).2
        | _, _ => s
      let done : State := { filed with
        memory := filed.memory.release k.frame.desc
        classifier := { s.classifier with current := none } }
      (s.classifier.held = none → exec .classificationEnd s = .next done) ∧
      (∀ e tag kind, s.classifier.held = some e → s.link.executor = .executing tag kind →
        let r := done.classifier.applyEdit e
        exec .classificationEnd s = .next { done with
          classifier := { r.2 with held := none }
          link := { s.link with
            replies := s.link.replies ++ [⟨⟨kind.code + 0x80, tag, [r.1.code]⟩, .ordinary⟩]
            reserved := s.link.reserved - 1
            executor := .idle }
          ops := { s.ops with entries := s.ops.entries.map fun e => { e with replyPending := false } } }))

/-! ### Stores -/

/-- R49, R50. STORE_CONFIG, STORE_OPEN, STORE_PAUSE and STORE_CLOSE, in every state of the store. -/
def Obligations.StoreStatesChange : Prop :=
  ∀ (s : State) (tag : Byte) (rest : List Message) (i : StoreId),
    let st := s.store i
    let becomes (k : Kind) (x : StoreState) : State := (s.modStore i fun st => { st with state := x }).replied k tag rest .ok []
    let refused (k : Kind) (status : Status) : State := s.replied k tag rest status []
    (∀ ss : StoreSettings, ss.Valid → s.Waiting .storeConfig tag (ss.body i) rest →
      exec .storeConfig s = .next (match st.state with
        | .closed =>
          (s.modStore i fun st => { st with settings := ss, highArmed := true }).replied .storeConfig tag rest .ok []
        | .opened => refused .storeConfig .wrongState
        | .paused => refused .storeConfig .wrongState
        | .purging => refused .storeConfig .storeBusy)) ∧
    (s.Waiting .storeOpen tag [idByte i] rest →
      exec .storeOpen s = .next (match st.state with
        | .closed => becomes .storeOpen .opened
        | .opened => refused .storeOpen .wrongState
        | .paused => becomes .storeOpen .opened
        | .purging => refused .storeOpen .storeBusy)) ∧
    (s.Waiting .storePause tag [idByte i] rest →
      exec .storePause s = .next (match st.state with
        | .closed => refused .storePause .wrongState
        | .opened => becomes .storePause .paused
        | .paused => refused .storePause .wrongState
        | .purging => refused .storePause .storeBusy)) ∧
    (s.Waiting .storeClose tag [idByte i] rest →
      exec .storeClose s = .next (match st.state with
        | .closed => refused .storeClose .wrongState
        | .purging => refused .storeClose .storeBusy
        | _ => if st.records = [] then becomes .storeClose .closed else refused .storeClose .wrongState))

/-- R54 to R58. A frame offered to a store. It is refused when the store is not OPEN, when its blocks alone pass the
quota, and under REFUSE when it would pass a limit; the first refusal after a filing raises STORE_REFUSING. Else
the fewest records that make room are evicted (none under REFUSE), oldest first, and the frame becomes the record
at the tail with a reference of its own; STORE_HIGH is raised when the count rises to the high mark while armed. -/
def Obligations.FilingJudged : Prop :=
  ∀ (s : State) (i : StoreId) (f : Frame) (rule : Byte),
    let st := s.store i
    let ss := st.settings
    let n := (f.length + 47) / 48
    let blocksOf (rs : List Record) : Nat := (rs.map fun r => (r.length + 47) / 48).sum
    let full (rs : List Record) : Prop := ss.capacity ≤ rs.length ∨ (ss.quota ≠ 0 ∧ ss.quota < blocksOf rs + n)
    let refused : Prop := st.state ≠ .opened ∨ (ss.quota ≠ 0 ∧ ss.quota < n) ∨ (ss.policy = .refuse ∧ full st.records)
    st.blocksUsed = blocksOf st.records →
    (refused →
      let u : State := s.modStore i fun st => { st with
        refusingArmed := false
        counters := { st.counters with refused := min (st.counters.refused + 1) 4294967295 } }
      s.file i f rule = (none, if st.refusingArmed then u.raise .storeRefusing i.val .none else u)) ∧
    (¬ refused → ∀ gone kept, st.records = gone ++ kept → ¬ full kept →
      (∀ before after, gone = before ++ after → after ≠ [] → full (after ++ kept)) →
      let records := kept ++ [⟨st.nextSeq, f.port, rule, f.flags, f.arrival, f.close, f.length, f.desc⟩]
      let armed : Bool := st.highArmed || decide (records.length ≤ ss.lowMark)
      let raises : Bool := armed && decide (st.records.length < ss.highMark) && decide (ss.highMark ≤ records.length)
      let u : State := { s.modStore i fun st => { st with
          records := records
          delivered := st.delivered - gone.length
          blocksUsed := blocksOf records
          nextSeq := st.nextSeq + 1
          refusingArmed := true
          highArmed := armed && !raises
          counters := { st.counters with
            filed := min (st.counters.filed + 1) 4294967295
            evicted := min (st.counters.evicted + gone.length) 4294967295
            evictedDelivered := min (st.counters.evictedDelivered + min gone.length st.delivered) 4294967295 } } with
        memory := ((gone.map Record.desc).foldl RecordMemory.release s.memory).modDesc f.desc fun x =>
          { x with refs := x.refs + 1 } }
      s.file i f rule = (some st.nextSeq, if raises then u.raise .storeHigh i.val .none else u))

/-- R60 to R64. STORE_READ with its fields in range. `rs` are the records that the limits allow: consecutive ones
from the oldest undelivered, the first always, and as many as both limits hold for. PEEK marks them delivered;
TAKE, allowed only with no delivered record, removes them and releases their references. -/
def Obligations.StoreReadServed : Prop :=
  ∀ (s : State) (tag : Byte) (rest : List Message) (i : StoreId) (take : Bool) (recordLimit byteLimit : Nat),
    1 ≤ recordLimit → recordLimit ≤ 16 → 64 ≤ byteLimit → byteLimit ≤ 1100 →
    s.Waiting .storeRead tag ([idByte i, yesNo take, byte1 recordLimit] ++ le2 byteLimit) rest →
    let st := s.store i
    let size (rs : List Record) : Nat := 4 + (rs.map fun r => 18 + r.length).sum
    (st.state = .purging → exec .storeRead s = .next (s.replied .storeRead tag rest .storeBusy [])) ∧
    (st.state ≠ .purging → take = true → st.delivered ≠ 0 →
      exec .storeRead s = .next (s.replied .storeRead tag rest .wrongState [])) ∧
    (st.state ≠ .purging → (take = false ∨ st.delivered = 0) → st.delivered ≤ st.records.length →
      ∀ rs more, st.records.drop st.delivered = rs ++ more → rs.length ≤ recordLimit →
        (size rs ≤ byteLimit ∨ rs.length = 1) → (rs = [] → more = []) →
        (∀ r left, more = r :: left → rs.length = recordLimit ∨ byteLimit < size (rs ++ [r])) →
        let read := s.readRecords rs
        let fields := [idByte i, byte1 rs.length, yesNo (!more.isEmpty)] ++ read.1
        (take = false → exec .storeRead s = .next ((read.2.modStore i fun st => { st with
          delivered := st.delivered + rs.length
          counters := { st.counters with delivered := min (st.counters.delivered + rs.length) 4294967295 } }).replied
            .storeRead tag rest .ok fields)) ∧
        (take = true → exec .storeRead s = .next (({ read.2.modStore i fun st => { st with
            records := more
            blocksUsed := st.blocksUsed - (rs.map fun r : Record => (r.length + 47) / 48).sum
            highArmed := st.highArmed || decide (more.length ≤ st.settings.lowMark)
            counters := { st.counters with taken := min (st.counters.taken + rs.length) 4294967295 } } with
          memory := (rs.map Record.desc).foldl RecordMemory.release read.2.memory }).replied
            .storeRead tag rest .ok fields)))

/-- R16, R37, R63. The bytes of records read one after another: each record's header, with the descriptor's damaged flag
in its flags byte ("The record header") as it stands after the record's blocks were read, and its payload. The blocks
that a read of `n` bytes from an offset reads and checks are all those of the chain, in its order, that hold one of the
bytes: block k of the chain holds the bytes 48 k to 48 k + 47. A block whose check code disagrees marks its descriptor
damaged, raises DATA_CHECK and is counted; nothing else changes, and sound blocks change nothing. -/
def Obligations.RecordsReadAndChecked : Prop :=
  (∀ (s : State) (r : Record) (rs : List Record),
    let one := s.checkBlocks r.desc (s.memory.span r.desc 0 r.length)
    let flags (f : FrameFlags) (damaged : Bool) : Byte := BitVec.ofNat 8 (
      (if f.truncated then 1 else 0) + (if f.charError then 2 else 0) + (if f.gapClosed then 4 else 0)
        + (if f.brk then 8 else 0) + (if f.capped then 16 else 0) + (if damaged then 32 else 0))
    s.readRecords [] = ([], s) ∧
    s.readRecords (r :: rs) =
      (le4 r.seq.toNat ++ le2 r.length ++ [idByte r.port, r.rule, flags r.flags (one.memory.desc r.desc).damaged,
          byte1 ((r.length + 47) / 48)] ++ le4 r.arrival.toNat ++ le4 r.close.toNat
        ++ (List.range r.length).map (s.memory.payloadByte r.desc) ++ (one.readRecords rs).1, (one.readRecords rs).2)) ∧
  (∀ (m : RecordMemory) (d : DescId) (offset n : Nat),
    m.span d offset n =
      ((List.range (m.desc d).chain.length).filter fun k => (List.range n).any fun i => (offset + i) / 48 == k).filterMap
        fun k => (m.desc d).chain[k]?) ∧
  (∀ (m : RecordMemory) (d : DescId) (i : Nat) (b : BlockId), (m.desc d).chain[i / 48]? = some b →
    m.payloadByte d i = Memory.read m.cells (48 * b.val + i % 48)) ∧
  (∀ (s : State) (d : DescId) (b : BlockId) (bs : List BlockId),
    s.checkBlocks d (b :: bs) = (s.checkBlock d b).checkBlocks d bs ∧
    s.checkBlock d b =
      if b.val ∈ s.memory.bad then ({ s with memory := { s.memory.modDesc d fun x => { x with damaged := true } with
          counters := { s.memory.counters with
            checkFailures := min (s.memory.counters.checkFailures + 1) 4294967295 } } }).raise .dataCheck b.val .none
      else s) ∧
  (∀ (s : State) (d : DescId) (bs : List BlockId), (∀ b ∈ bs, b.val ∉ s.memory.bad) → s.checkBlocks d bs = s)

/-- R65. STORE_ACK. -/
def Obligations.StoreAckRemoves : Prop :=
  ∀ (s : State) (tag : Byte) (rest : List Message) (i : StoreId) (seq : Word),
    s.Waiting .storeAck tag (idByte i :: le4 seq.toNat) rest →
    let st := s.store i
    (st.state = .purging → exec .storeAck s = .next (s.replied .storeAck tag rest .storeBusy [])) ∧
    (st.state ≠ .purging → (∀ r ∈ st.records.head?, st.delivered ≤ (seq - r.seq).toNat) →
      exec .storeAck s = .next (s.replied .storeAck tag rest .notDelivered [])) ∧
    (∀ r left, st.state ≠ .purging → st.records = r :: left → (seq - r.seq).toNat < st.delivered →
      let k := (seq - r.seq).toNat + 1
      exec .storeAck s = .next (({ s.modStore i fun st => { st with
          records := st.records.drop k
          delivered := st.delivered - k
          blocksUsed := st.blocksUsed - ((st.records.take k).map fun r : Record => (r.length + 47) / 48).sum
          highArmed := st.highArmed || decide (st.records.length - k ≤ st.settings.lowMark)
          counters := { st.counters with acknowledged := min (st.counters.acknowledged + k) 4294967295 } } with
        memory := ((st.records.take k).map Record.desc).foldl RecordMemory.release s.memory }).replied
          .storeAck tag rest .ok [byte1 k]))

/-- R66. STORE_REWIND. -/
def Obligations.StoreRewindClearsTheMarks : Prop :=
  ∀ (s : State) (tag : Byte) (rest : List Message) (n : Byte), s.Waiting .storeRewind tag [n] rest →
    (7 < n.toNat → exec .storeRewind s = .next (s.replied .storeRewind tag rest .badParam [1])) ∧
    (∀ i : StoreId, n = idByte i →
      ((s.store i).state = .purging → exec .storeRewind s = .next (s.replied .storeRewind tag rest .storeBusy [])) ∧
      ((s.store i).state ≠ .purging →
        exec .storeRewind s = .next ((s.modStore i fun st => { st with delivered := 0 }).replied
          .storeRewind tag rest .ok [byte1 (s.store i).delivered])) ∧
      ((s.store i).state ≠ .purging → (s.store i).Sound → (s.store i).records = [] → exec .storeRewind s = .next (s.replied
        .storeRewind tag rest .ok [0])))

/-- R68, R69. STORE_PURGE: the checks in their order, and the acceptance. The purge of an empty store completes at
once; any other puts the store into PURGING, with a RUNNING operation. Each PURGE_REMOVAL takes the head record, and
with the last one the purge ends DONE and the store returns to its prior state; of a store that is not PURGING nothing
is removed. -/
def Obligations.StorePurged : Prop :=
  (∀ (s : State) (tag : Byte) (rest : List Message) (i : StoreId), s.Waiting .storePurge tag [idByte i] rest →
    let st := s.store i
    let inUse : Prop := ∃ e ∈ s.ops.entries, e.work.isPurgeOf i = true
    (inUse → exec .storePurge s = .next (s.replied .storePurge tag rest .inUse [])) ∧
    (¬ inUse → st.state = .closed → exec .storePurge s = .next (s.replied .storePurge tag rest .wrongState [])) ∧
    (¬ inUse → st.state ≠ .closed → 4 ≤ s.ops.entries.length →
      exec .storePurge s = .next (s.replied .storePurge tag rest .longOpsFull [])) ∧
    (¬ inUse → st.state ≠ .closed → s.ops.entries.length < 4 →
      (st.records ≠ [] → exec .storePurge s = .next (({ s.modStore i fun st => { st with
          state := .purging, prior := some st.state } with
        ops := { s.ops with entries := s.ops.entries ++ [(⟨tag, .purge i 0, none, s.timebase, false, false⟩ : OpEntry)] } }).replied
          .storePurge tag rest .accepted [])) ∧
      (st.records = [] → exec .storePurge s = .next (({ s.modStore i fun st => { st with prior := none } with
        ops := ⟨s.ops.entries ++ [(⟨tag, .purge i 0, some .done, s.timebase, false, false⟩ : OpEntry)], s.ops.completed ++ [tag]⟩
        }).replied .storePurge tag rest .accepted [])))) ∧
  (∀ (s : State) (i : StoreId), s.pins.reset = false →
    let st := s.store i
    (st.state ≠ .purging → exec (.purgeRemoval i) s = .next s) ∧
    (∀ r left, st.state = .purging → st.records = r :: left →
      let purge (e : OpEntry) : Bool := e.status.isNone && e.work.isPurgeOf i
      exec (.purgeRemoval i) s = .next { s.modStore i fun st => { st with
          records := left
          delivered := st.delivered - 1
          blocksUsed := st.blocksUsed - (r.length + 47) / 48
          highArmed := st.highArmed || decide (left.length ≤ st.settings.lowMark)
          counters := { st.counters with purged := min (st.counters.purged + 1) 4294967295 }
          state := if left = [] then st.prior.getD .purging else .purging
          prior := if left = [] then none else st.prior } with
        memory := s.memory.release r.desc
        ops := {
          entries := s.ops.entries.map fun e => match purge e, e.work with
            | true, .purge store removed => { e with
              work := .purge store (removed + 1)
              status := if left = [] then some .done else none
              replyPending := if left = [] then false else e.replyPending }
            | _, _ => e
          completed := s.ops.completed ++ if left = [] then (s.ops.entries.filter purge).map (·.tag) else [] } }))

/-! ### Record Memory -/

/-- R31, R36, R41, R43. The up-front fill of a descriptor, when one is FREE and the free list is long enough: the
lowest-numbered FREE descriptor becomes LIVE with one reference, takes its blocks from the head of the free list,
and holds exactly the bytes given; no byte of any other block changes. MEMORY_LOW is raised when the free count
falls to the threshold while armed. The blocks taken are cleared first, so what follows the payload in its last block is
0 (R30). With no FREE descriptor, or with too few free blocks, only the refusal is counted (R39). -/
def Obligations.PayloadFilled : Prop :=
  (∀ (s : State) (bytes : List Byte),
    ((∀ d, (s.memory.desc d).live = true) → s.fill bytes = (none, { s with memory := { s.memory with
      counters := { s.memory.counters with noDescriptor := min (s.memory.counters.noDescriptor + 1) 4294967295 } } })) ∧
    ((∃ d, (s.memory.desc d).live = false) → s.memory.free.length < (bytes.length + 47) / 48 →
      s.fill bytes = (none, { s with memory := { s.memory with
        counters := { s.memory.counters with noBlock := min (s.memory.counters.noBlock + 1) 4294967295 } } }))) ∧
  ∀ (s : State) (bytes : List Byte) (d : DescId), s.memory.Sound → (s.memory.desc d).live = false →
    (∀ e < d, (s.memory.desc e).live = true) → (bytes.length + 47) / 48 ≤ s.memory.free.length →
    let n := (bytes.length + 47) / 48
    let low : Bool := s.memory.armed && decide (s.memory.threshold < s.memory.free.length)
      && decide (s.memory.free.length - n ≤ s.memory.threshold)
    ∃ t, s.fill bytes = (some d, t) ∧
      t.memory.desc d = ⟨true, s.memory.free.take n, bytes.length, 1, false⟩ ∧
      t.memory.payload d 0 bytes.length = bytes ∧
      (∀ i, bytes.length ≤ i → i < 48 * n → t.memory.payloadByte d i = 0) ∧
      (∀ b ∉ s.memory.free.take n, ∀ k < 48,
        Memory.read t.memory.cells (48 * b.val + k) = Memory.read s.memory.cells (48 * b.val + k)) ∧
      (∀ e ≠ d, t.memory.desc e = s.memory.desc e ∧
        ∀ i < (s.memory.desc e).length, t.memory.payloadByte e i = s.memory.payloadByte e i) ∧
      t.memory.free = s.memory.free.drop n ∧
      t.memory.lowWater = min s.memory.lowWater (s.memory.free.length - n) ∧
      t.memory.armed = (s.memory.armed && !low) ∧ t.memory.threshold = s.memory.threshold ∧
      (∀ b : BlockId, b.val ∈ t.memory.bad ↔ b.val ∈ s.memory.bad ∧ b ∉ s.memory.free.take n) ∧
      t.memory.counters = { s.memory.counters with taken := min (s.memory.counters.taken + 1) 4294967295 } ∧
      { t with memory := s.memory } =
        (if low then s.raise .memoryLow 0 (.freeBlocks (s.memory.free.length - n)) else s)

/-- R35, R41, R43, R88, R89. A byte offered to the frame in assembly: too long when the frame holds the maximum, no
block when one is needed and none is free; else it becomes the payload's last byte, in the chain's last block or in
the block at the head of the free list, cleared before, and no byte of another block changes. The check code of the block
written agrees with its bytes afterwards, and those of the other blocks stay as they were (R30). A refusal for want of a
descriptor or of a block raises its counter by 1 and changes nothing else (R39). -/
def Obligations.ByteStored : Prop :=
  (∀ m : RecordMemory,
    m.countNoDescriptor = { m with counters := { m.counters with
      noDescriptor := min (m.counters.noDescriptor + 1) 4294967295 } } ∧
    m.countNoBlock = { m with counters := { m.counters with noBlock := min (m.counters.noBlock + 1) 4294967295 } }) ∧
  ∀ (s : State) (p : PortId) (a : Assembly) (v : Byte), (s.port p).framer.frame = some a →
    let x := s.memory.desc a.desc
    let top := (s.port p).framer.settings.maxLength
    let fits : Prop := x.length < 48 * x.chain.length
    (top ≤ x.length → s.storeInFrame p v = (.tooLong, s)) ∧
    (x.length < top → ¬ fits → s.memory.free = [] →
      s.storeInFrame p v = (.noBlock, { s with memory := s.memory.countNoBlock })) ∧
    (s.memory.Sound → x.live = true → x.length < top → (fits ∨ s.memory.free ≠ []) →
      let n := if fits then 0 else 1
      let low : Bool := decide (¬ fits) && s.memory.armed && decide (s.memory.threshold < s.memory.free.length)
        && decide (s.memory.free.length - 1 ≤ s.memory.threshold)
      ∃ t, s.storeInFrame p v = (.stored, t) ∧
        t.memory.desc a.desc = { x with length := x.length + 1, chain := x.chain ++ s.memory.free.take n } ∧
        t.memory.payload a.desc 0 (x.length + 1) = s.memory.payload a.desc 0 x.length ++ [v] ∧
        (∀ e ≠ a.desc, t.memory.desc e = s.memory.desc e ∧
          ∀ i < (s.memory.desc e).length, t.memory.payloadByte e i = s.memory.payloadByte e i) ∧
        t.memory.free = s.memory.free.drop n ∧ t.memory.armed = (s.memory.armed && !low) ∧
        t.memory.threshold = s.memory.threshold ∧ t.memory.counters = s.memory.counters ∧
        t.memory.lowWater = min s.memory.lowWater (s.memory.free.length - n) ∧
        (∀ i, x.length < i → i < 48 * (x.chain.length + n) →
          t.memory.payloadByte a.desc i = if fits then s.memory.payloadByte a.desc i else 0) ∧
        (∀ b, (x.chain ++ s.memory.free.take n).getLast? = some b → b.val ∉ t.memory.bad) ∧
        (∀ b : BlockId, (x.chain ++ s.memory.free.take n).getLast? ≠ some b →
          (b.val ∈ t.memory.bad ↔ b.val ∈ s.memory.bad) ∧
          ∀ k < 48, Memory.read t.memory.cells (48 * b.val + k) = Memory.read s.memory.cells (48 * b.val + k)) ∧
        { t with memory := s.memory } =
          (if low then s.raise .memoryLow 0 (.freeBlocks (s.memory.free.length - 1)) else s))

/-- R33, R34, R43. The release of a reference of a LIVE descriptor: with others left the count falls; the last one
frees the descriptor, its chain going to the tail of the free list, and MEMORY_LOW is armed again when the free
count has risen past the threshold by more than 16, or to 1,024. -/
def Obligations.ReferenceReleased : Prop :=
  ∀ (m : RecordMemory) (d : DescId), (m.desc d).live = true →
    let x := m.desc d
    (1 < x.refs → m.release d = { m with descs := m.descs.set d.val { x with refs := x.refs - 1 } d.isLt }) ∧
    (x.refs ≤ 1 →
      let free := m.free ++ x.chain
      let rises : Bool := decide (m.free.length < free.length) && (decide (m.threshold + 16 < free.length)
        || (decide (1024 ≤ m.threshold + 16) && decide (free.length = 1024)))
      m.release d = { m with
        descs := m.descs.set d.val ⟨false, [], 0, 0, false⟩ d.isLt
        free := free
        armed := m.armed || rises })

/-- R37, R44, R45, R46. MEMORY_CHECK and its walk: each examination checks one block if it is in use, and the one of
index 1,023 completes the operation DONE. -/
def Obligations.MemoryCheckWalks : Prop :=
  ∀ s : State,
    (∀ (tag : Byte) (rest : List Message), s.Waiting .memoryCheck tag [] rest →
      let inUse : Prop := ∃ e ∈ s.ops.entries, e.work.isCheck = true
      (inUse → exec .memoryCheck s = .next (s.replied .memoryCheck tag rest .inUse [])) ∧
      (¬ inUse → 4 ≤ s.ops.entries.length →
        exec .memoryCheck s = .next (s.replied .memoryCheck tag rest .longOpsFull [])) ∧
      (¬ inUse → s.ops.entries.length < 4 →
        exec .memoryCheck s = .next (({ s with ops := { s.ops with entries := s.ops.entries ++
          [(⟨tag, .check 0 0 0, none, s.timebase, false, false⟩ : OpEntry)] } }).replied
          .memoryCheck tag rest .accepted []))) ∧
    (s.pins.reset = false → (∀ e ∈ s.ops.entries, e.status = none → e.work.isCheck = false) →
      exec .memoryCheckExamine s = .next s) ∧
    (∀ before after e next checked failing, s.pins.reset = false → s.ops.entries = before ++ e :: after →
      (∀ x ∈ before ++ after, x.work.isCheck = false) → e.status = none → e.work = .check next checked failing →
      ∀ b : BlockId, b.val = next →
      let last : Bool := decide (next = 1023)
      let walked (inUse failed : Bool) : OpTable := {
        entries := before ++ { e with
          work := .check (next + 1) (if inUse then checked + 1 else checked) (if failed then failing + 1 else failing)
          status := if last then some .done else none
          replyPending := if last then false else e.replyPending } :: after
        completed := s.ops.completed ++ if last then [e.tag] else [] }
      ((∀ d, b ∉ (s.memory.desc d).chain) →
        exec .memoryCheckExamine s = .next { s with ops := walked false false }) ∧
      (∀ d, s.memory.Sound → b ∈ (s.memory.desc d).chain →
        exec .memoryCheckExamine s = .next { s.checkBlock d b with
          ops := walked true (decide (b.val ∈ s.memory.bad)) }))

/-! ### Sending -/

/-- R36, R118, R119, R120. SEND with its fields in range: the admission checks in their order, then the memory
checks, each answered with its cause; else the data is put into a descriptor, and the entry joins the tail of the
port's queue with the first send id from the counter on that no live entry holds. -/
def Obligations.SendAdmitted : Prop :=
  ∀ (s : State) (tag : Byte) (rest : List Message) (p : PortId) (cls : Fin 4) (ttl : Nat) (report : Bool)
    (data : List Byte), 1 ≤ data.length → data.length ≤ 1024 → ttl ≤ 65535 →
    s.Waiting .send tag (sendBody p cls ttl report data) rest →
    let q := s.port p
    let refused (t : State) (status : Status) : Host.Outcome State Fault Refusal :=
      .next (t.replied .send tag rest status [])
    let canSend : Prop := q.state = .running ∨ q.state = .paused
    let room : Prop := q.queue.length < 16 ∧ s.entries.length < 48
    let next (id : Half) : Half := if id = 65535 then 1 else id + 1
    (¬ canSend → exec .send s = refused s .wrongState) ∧
    (canSend → q.draining = true → exec .send s = refused s .portDraining) ∧
    (canSend → q.draining = false → ¬ room → exec .send s = refused s .queueFull) ∧
    (canSend → q.draining = false → room → (∀ d, (s.memory.desc d).live = true) →
      exec .send s = refused { s with memory := s.memory.countNoDescriptor } .noMemory) ∧
    (canSend → q.draining = false → room → (∃ d, (s.memory.desc d).live = false) →
      s.memory.free.length < (data.length + 47) / 48 →
      exec .send s = refused { s with memory := s.memory.countNoBlock } .noMemory) ∧
    (canSend → q.draining = false → room → (∃ d, (s.memory.desc d).live = false) →
      (data.length + 47) / 48 ≤ s.memory.free.length →
      ∃ d t n, s.fill data = (some d, t) ∧ n ≤ 47 ∧
        (∀ m < n, next^[m] s.nextSendId ∈ s.entries.map (·.id)) ∧
        next^[n] s.nextSendId ∉ s.entries.map (·.id) ∧
        let id := next^[n] s.nextSendId
        exec .send s = .next (({ t.modPort p fun q => { q with queue := q.queue ++
            [(⟨id, .host, cls, d, if ttl = 0 then none else some (1000 * ttl), s.timebase, report, some tag, .queued,
              0⟩ : SendEntry)] } with nextSendId := next id }).replied .send tag rest .ok (le2 id.toNat)))

/-- R117, R129, R130. SEND_STATUS reports a live entry, and SEND_CANCEL ends it CANCELLED while it is QUEUED. The queue
position is 0 of the SENDING entry, and of a QUEUED one 1 plus the port's QUEUED entries that come before it in selection
order: those of a lower class, and those of its class admitted before it. That the TTL is reported in milliseconds rounded up and at least 1 is the model's reading (log entry 27). -/
def Obligations.SendIdRequests : Prop :=
  (∀ (s : State) (tag : Byte) (id : Half) (rest : List Message), s.PoolSound →
    s.Waiting .sendStatus tag (le2 id.toNat) rest →
    (id = 0 → exec .sendStatus s = .next (s.replied .sendStatus tag rest .badParam [1])) ∧
    (id ≠ 0 → (∀ p, ∀ e ∈ (s.port p).queue, e.id ≠ id) →
      exec .sendStatus s = .next (s.replied .sendStatus tag rest .notFound [])) ∧
    (∀ p before e after, (s.port p).queue = before ++ e :: after → e.id = id →
      let position : Nat := match e.state with
        | .sending => 0
        | .queued => 1 + ((s.port p).queue.filter fun x => x.state == .queued && decide (x.cls < e.cls)).length
            + (before.filter fun x => x.state == .queued && x.cls == e.cls).length
      exec .sendStatus s = .next (s.replied .sendStatus tag rest .ok
        (le2 e.id.toNat ++ [e.state.code, idByte p, e.origin.code, idByte e.cls, byte1 position]
          ++ le2 (match e.ttl with | none => 0 | some micros => max 1 ((micros + 999) / 1000))
          ++ le2 e.charsSent ++ le2 (s.memory.desc e.desc).length ++ le4 e.enqueued.toNat)))) ∧
  (∀ (s : State) (tag : Byte) (id : Half) (rest : List Message), s.PoolSound →
    s.Waiting .sendCancel tag (le2 id.toNat) rest →
    (id = 0 → exec .sendCancel s = .next (s.replied .sendCancel tag rest .badParam [1])) ∧
    (id ≠ 0 → (∀ p, ∀ e ∈ (s.port p).queue, e.id ≠ id) →
      exec .sendCancel s = .next (s.replied .sendCancel tag rest .notFound [])) ∧
    (∀ p, ∀ e ∈ (s.port p).queue, e.id = id →
      (e.state = .queued →
        exec .sendCancel s = .next ((s.endEntry p e .cancelled true true).replied .sendCancel tag rest .ok [])) ∧
      (e.state = .sending → exec .sendCancel s = .next (s.replied .sendCancel tag rest .tooLate []))))

/-- R131. PORT_DRAIN: the checks in their order, and the acceptance. A drain of an empty queue completes at once. -/
def Obligations.PortDrainAccepted : Prop :=
  ∀ (s : State) (tag : Byte) (rest : List Message) (p : PortId) (deadline : Nat), deadline ≤ 65535 →
    s.Waiting .portDrain tag (idByte p :: le2 deadline) rest →
    let q := s.port p
    let inUse : Prop := ∃ e ∈ s.ops.entries, e.work.isDrainOf p = true
    let canSend : Prop := q.state = .running ∨ q.state = .paused
    (deadline = 0 → exec .portDrain s = .next (s.replied .portDrain tag rest .badParam [2])) ∧
    (deadline ≠ 0 → inUse → exec .portDrain s = .next (s.replied .portDrain tag rest .inUse [])) ∧
    (deadline ≠ 0 → ¬ inUse → ¬ canSend → exec .portDrain s = .next (s.replied .portDrain tag rest .wrongState [])) ∧
    (deadline ≠ 0 → ¬ inUse → canSend → 4 ≤ s.ops.entries.length →
      exec .portDrain s = .next (s.replied .portDrain tag rest .longOpsFull [])) ∧
    (deadline ≠ 0 → ¬ inUse → canSend → s.ops.entries.length < 4 →
      (q.queue ≠ [] → exec .portDrain s = .next (({ s.modPort p fun q => { q with draining := true } with
        ops := { s.ops with entries := s.ops.entries ++
          [(⟨tag, .drain p deadline (1000 * deadline) 0 0, none, s.timebase, false, false⟩ : OpEntry)] } }).replied
          .portDrain tag rest .accepted [])) ∧
      (q.queue = [] → exec .portDrain s = .next (({ s.modPort p fun q => { q with draining := false } with
        ops := ⟨s.ops.entries ++
          [(⟨tag, .drain p deadline (1000 * deadline) 0 0, some .done, s.timebase, false, false⟩ : OpEntry)],
          s.ops.completed ++ [tag]⟩ }).replied .portDrain tag rest .accepted [])))

/-- R128, R131, R133. The end of an entry: it leaves its port's queue and releases its reference; SENT is counted,
by the port and by a drain that runs; a reported HOST entry raises SEND_DONE; and a drain of the port completes
DONE when the queue is then empty. -/
def Obligations.EntryEnds : Prop :=
  ∀ (s : State) (p : PortId) (e : SendEntry) (status : SendStatus) (byRequest : Bool),
    let q := s.port p
    let left := q.queue.eraseP fun x => x.id == e.id
    let done : Bool := q.draining && left.isEmpty
    let drain (x : OpEntry) : Bool := x.status.isNone && x.work.isDrainOf p
    let sent : Nat := if status = .sent then 1 else 0
    let notices := if e.origin = .host ∧ e.report = true then
        s.notices.raise .sendDone e.id.toNat (.sendDone status (e.tag.getD 0)) s.timebase else s.notices
    let freed (q : Port) : Port := if e.state = .sending then { q with
        tx := .idle, stopping := false, gap := if e.charsSent = 0 then q.gap else some 0 } else q
    s.endEntry p e status byRequest true = { s with
      memory := s.memory.release e.desc
      notices := notices
      ports := s.ports.set p.val { freed q with
        queue := left
        counters := { q.counters with sent := if status = .sent then min (q.counters.sent + 1) 4294967295
          else q.counters.sent }
        draining := q.draining && !done } p.isLt
      ops := {
        entries := s.ops.entries.map fun x => match drain x, x.work with
          | true, .drain port deadline micros n remaining => { x with
            work := .drain port deadline micros (n + sent) (if done then 0 else remaining)
            status := if done then some .done else none
            replyPending := if done then byRequest else x.replyPending }
          | _, _ => x
        completed := s.ops.completed ++ if done then (s.ops.entries.filter drain).map (·.tag) else [] } }

/-- R37, R113, R117, R121 to R124, R126. SELECTION picks the first QUEUED entry in selection order (the lowest class,
the oldest of that class) for an idle transmitter whose send gap has passed: on a full-duplex port the entry starts,
on a half-duplex port its turnaround wait begins. SEND_GAP_EXPIRY lets the gap pass, and TURNAROUND_END starts the
entry that has waited for a quiet line with no frame open. The start of an entry whose descriptor is damaged ends it
DATA_CHECK with no character sent; else DIRn is asserted on a half-duplex port and, the first block being sound when it
is read, the first byte's character begins. A first block that fails ends the entry DATA_CHECK at once. -/
def Obligations.TransmissionBegins : Prop :=
  (∀ (s : State) (p : PortId), s.pins.reset = false →
    let q := s.port p
    let bits : Nat := 1 + q.settings.dataBits + (if q.settings.parity = .none then 0 else 1) + q.settings.stopBits
    let reached (micros n : Nat) : Prop := n * bits * 1000000 ≤ micros * q.settings.baud
    let canSend : Prop := q.state = .running ∨ q.state = .paused
    let ready : Prop := canSend ∧ (∀ x ∈ q.queue, x.state ≠ .sending) ∧ (q.settings.sendGap = 0 ∨ q.gap = none)
    let waited : Prop := canSend ∧ q.tx = .turnaround ∧ q.quiet.running = true ∧
      reached q.quiet.micros q.settings.turnaround ∧ q.framer.state ≠ .header ∧ q.framer.state ≠ .body
    (∀ before e after, ready → q.queue = before ++ e :: after → e.state = .queued →
      (∀ x ∈ before, x.state = .queued → e.cls < x.cls) → (∀ x ∈ after, x.state = .queued → e.cls ≤ x.cls) →
      (∀ x ∈ before ++ after, x.id ≠ e.id) →
      let chosen : SendEntry := { e with state := .sending, ttl := none }
      let u := s.modPort p fun q => { q with queue := before ++ chosen :: after }
      (q.settings.duplex = .half →
        exec (.selection p) s = .next (u.modPort p fun q => { q with tx := .turnaround })) ∧
      (q.settings.duplex = .full → exec (.selection p) s = .next (u.startEntry p chosen))) ∧
    (¬ ready ∨ (∀ x ∈ q.queue, x.state ≠ .queued) → exec (.selection p) s = .next s) ∧
    (∀ micros, q.gap = some micros → reached micros q.settings.sendGap →
      exec (.sendGapExpiry p) s = .next (s.modPort p fun q => { q with gap := none })) ∧
    ((∀ micros, q.gap = some micros → ¬ reached micros q.settings.sendGap) → exec (.sendGapExpiry p) s = .next s) ∧
    (∀ before e after, waited → q.queue = before ++ e :: after → e.state = .sending →
      (∀ x ∈ before, x.state ≠ .sending) → exec (.turnaroundEnd p) s = .next (s.startEntry p e)) ∧
    (¬ waited → exec (.turnaroundEnd p) s = .next s)) ∧
  (∀ (s : State) (p : PortId) (e : SendEntry),
    let x := s.memory.desc e.desc
    let byte (b : BlockId) (k : Nat) : Byte := Memory.read s.memory.cells (48 * b.val + k)
    let dir (q : Port) : Port := { q with dir := decide (q.settings.duplex = .half) }
    (x.damaged = true → s.startEntry p e = s.endEntry p e .dataCheck false true) ∧
    (∀ b, x.damaged = false → x.chain.head? = some b →
      (b.val ∉ s.memory.bad → s.startEntry p e =
        s.modPort p fun q => { dir q with
          tx := .sending (if q.settings.dataBits = 7 then byte b 0 &&& 0x7F else byte b 0) q.settings
            ((List.range 48).map (byte b)) }) ∧
      (b.val ∈ s.memory.bad → s.startEntry p e =
        (((s.modPort p dir).checkBlock e.desc b).modPort p fun q => { q with dir := false }).endEntry
          p e .dataCheck false true)))

/-- R37, R98, R104, R113, R125, R126. A character ends. The entry of a stopped port ends ABORTED. After the last byte a
full-duplex entry ends SENT and a half-duplex one begins its trailing hold (0 is over at once). Else the next byte's
character begins. A byte that is the first of its block comes from a read of that block, unless the block fails its
check: then the entry ends DATA_CHECK, after the hold; the bytes after it are those that this read delivered.
TRAILING_HOLD_EXPIRY releases DIRn and ends the entry. The bits of a character on TXn: a low start bit, the data bits
from the least significant on, the parity bit, and high stop bits. That a drain is judged by the end of an entry left
over from a stop too is the model's reading (log entry 22). -/
def Obligations.CharactersSent : Prop :=
  (∀ (s : State) (p : PortId), s.pins.reset = false →
    let q := s.port p
    let bits : Nat := 1 + q.settings.dataBits + (if q.settings.parity = .none then 0 else 1) + q.settings.stopBits
    let off (u : State) : State := u.modPort p fun q => { q with dir := false }
    (∀ before e after, q.queue = before ++ e :: after → e.state = .sending → (∀ x ∈ before, x.state ≠ .sending) →
      (∀ x ∈ before ++ after, x.id ≠ e.id) →
      let k := e.charsSent + 1
      let sent : SendEntry := { e with charsSent := k }
      let x := s.memory.desc e.desc
      let u := s.modPort p fun q => { q with queue := before ++ sent :: after }
      let ended (u : State) (status : SendStatus) : State :=
        if q.settings.duplex = .full then u.endEntry p sent status false true
        else if q.settings.trailingHold = 0 then (off u).endEntry p sent status false true
        else u.modPort p fun q => { q with tx := .holding status 0 }
      let begins (byte : Byte) (block : List Byte) : State := u.modPort p fun q => { q with
        tx := .sending (if q.settings.dataBits = 7 then byte &&& 0x7F else byte) q.settings block }
      let read (b : BlockId) (i : Nat) : Byte := Memory.read s.memory.cells (48 * b.val + i)
      (∀ value format block, q.tx = .sending value format block →
        (q.stopping = true → exec (.characterSent p) s = .next ((off u).endEntry p sent .aborted false true)) ∧
        (q.stopping = false → x.length ≤ k → exec (.characterSent p) s = .next (ended u .sent)) ∧
        (q.stopping = false → k < x.length → k % 48 ≠ 0 →
          exec (.characterSent p) s = .next (begins (block.getD (k % 48) 0) block)) ∧
        (∀ b, q.stopping = false → k < x.length → k % 48 = 0 → x.chain[k / 48]? = some b →
          (b.val ∉ s.memory.bad →
            exec (.characterSent p) s = .next (begins (read b 0) ((List.range 48).map (read b)))) ∧
          (b.val ∈ s.memory.bad → exec (.characterSent p) s = .next (ended (u.checkBlock e.desc b) .dataCheck)))) ∧
      (∀ status micros, q.tx = .holding status micros →
        (q.settings.trailingHold * bits * 1000000 ≤ micros * q.settings.baud →
          exec (.trailingHoldExpiry p) s = .next ((off s).endEntry p e status false true)) ∧
        (micros * q.settings.baud < q.settings.trailingHold * bits * 1000000 →
          exec (.trailingHoldExpiry p) s = .next s))) ∧
    ((∀ value format block, q.tx ≠ .sending value format block) → exec (.characterSent p) s = .next s) ∧
    ((∀ status micros, q.tx ≠ .holding status micros) → exec (.trailingHoldExpiry p) s = .next s)) ∧
  (∀ (q : Port) (value : Byte) (ls : LineSettings) (block : List Byte), q.tx = .sending value ls block →
    (ls.dataBits = 7 ∨ ls.dataBits = 8) →
    let parity : Nat := if ls.parity = .none then 0 else 1
    let data : List Bool := (List.range ls.dataBits).map value.getLsbD
    ∃ middle : List Bool, middle.length = parity ∧
      q.txBits = [false] ++ data ++ middle ++ List.replicate ls.stopBits true ∧
      (ls.parity = .even → (data ++ middle).count true % 2 = 0) ∧
      (ls.parity = .odd → (data ++ middle).count true % 2 = 1)) ∧
  (∀ q : Port, (∀ value format block, q.tx ≠ .sending value format block) → q.txBits = [])

/-- R127, R133. TTL_EXPIRY ends a QUEUED entry whose TTL has run out EXPIRED, and touches no other. DRAIN_DEADLINE
completes a drain TIMED_OUT when its deadline is reached while the queue is not empty. -/
def Obligations.TimesRunOut : Prop :=
  ∀ s : State, s.pins.reset = false → s.PoolSound →
    (∀ p, ∀ e ∈ (s.port p).queue,
      (e.state = .queued → e.ttl = some 0 → exec (.ttlExpiry e.id) s = .next (s.endEntry p e .expired false true)) ∧
      (e.state = .sending ∨ e.ttl ≠ some 0 → exec (.ttlExpiry e.id) s = .next s)) ∧
    (∀ id, (∀ p, ∀ e ∈ (s.port p).queue, e.id ≠ id) → exec (.ttlExpiry id) s = .next s) ∧
    (∀ p, let reached (e : OpEntry) : Prop := e.status = none ∧ ∃ d n r, e.work = .drain p d 0 n r
      (((s.port p).queue = [] ∨ ∀ e ∈ s.ops.entries, ¬ reached e) → exec (.drainDeadline p) s = .next s) ∧
      (∀ before e after, s.ops.entries = before ++ e :: after → reached e →
        (∀ x ∈ before ++ after, ¬ (x.work.isDrainOf p = true)) → (s.port p).queue ≠ [] →
        exec (.drainDeadline p) s = .next { s.modPort p fun q => { q with draining := false } with
          ops := {
            entries := before ++ { e with
              work := match e.work with
                | .drain port d left n _ => .drain port d left n (s.port p).queue.length
                | w => w
              status := some .timedOut
              replyPending := false } :: after
            completed := s.ops.completed ++ [e.tag] } }))

/-! ### Counters, long operations and notices -/

/-- R169, R170, R171. COUNTERS_READ and COUNTERS_CLEAR of the five groups, the counters of each in the order of its table
(R114, R71, R154, R39 and the low-water mark). -/
def Obligations.CountersReadAndCleared : Prop :=
  ∀ (s : State) (tag : Byte) (rest : List Message) (g : CounterGroup),
    let values : List Byte := match g with
      | .port p =>
        let c := (s.port p).counters
        [c.received, c.parityErrors, c.framingErrors, c.breaks, c.overruns, c.echo, c.completed, c.truncated,
          c.discardedTooLong, c.discardedCharError, c.discardedIncomplete, c.discardedNoMemory, c.discardedBadLength,
          c.lost, c.aborted, c.sent, c.empty].flatMap le4
      | .store i =>
        let c := (s.store i).counters
        [c.filed, c.refused, c.evicted, c.evictedDelivered, c.delivered, c.acknowledged, c.taken, c.purged].flatMap le4
      | .rule r => le4 (s.classifier.rule r).hits ++ le4 (s.classifier.rule r).refused
        ++ optional4 (s.classifier.rule r).lastHit
      | .link =>
        let c := s.link.counters
        [c.taken, c.badHeader, c.badCrc, c.timeouts, c.dropped].flatMap le4
      | .memory =>
        let c := s.memory.counters
        [c.taken, c.noDescriptor, c.noBlock, c.checkFailures].flatMap le4 ++ le2 s.memory.lowWater
    let cleared : State := match g with
      | .port p => s.modPort p fun q => { q with counters := ⟨0, 0, 0, 0, 0, 0, 0, 0, 0, 0, 0, 0, 0, 0, 0, 0, 0⟩ }
      | .store i => s.modStore i fun st => { st with counters := ⟨0, 0, 0, 0, 0, 0, 0, 0⟩ }
      | .rule r => { s with classifier := { s.classifier with
          rules := s.classifier.rules.set r.val
            { s.classifier.rule r with hits := 0, lastHit := none, refused := 0 } r.isLt } }
      | .link => { s with link := { s.link with counters := ⟨0, 0, 0, 0, 0⟩ } }
      | .memory => { s with memory := { s.memory with counters := ⟨0, 0, 0, 0⟩, lowWater := s.memory.free.length } }
    (s.Waiting .countersRead tag (g.body ++ [0]) rest →
      exec .countersRead s = .next (s.replied .countersRead tag rest .ok (g.body ++ values))) ∧
    (s.Waiting .countersRead tag (g.body ++ [1]) rest →
      exec .countersRead s = .next (cleared.replied .countersRead tag rest .ok (g.body ++ values))) ∧
    (s.Waiting .countersClear tag g.body rest →
      exec .countersClear s = .next (cleared.replied .countersClear tag rest .ok []))

/-- R46, R70, R134, R168. OP_CANCEL: of a RUNNING purge, drain or walk, of a COMPLETE operation, and of a tag that no
operation holds. -/
def Obligations.OperationCancelled : Prop :=
  ∀ (s : State) (tag t : Byte) (rest : List Message), s.ops.Sound → t ≠ 0 → s.Waiting .opCancel tag [t] rest →
    (t ∉ s.ops.entries.map (·.tag) → exec .opCancel s = .next (s.replied .opCancel tag rest .notFound [])) ∧
    (∀ e ∈ s.ops.entries, e.tag = t → e.status ≠ none →
      exec .opCancel s = .next (s.replied .opCancel tag rest .tooLate [])) ∧
    (∀ e ∈ s.ops.entries, e.tag = t → e.status = none →
      let ended (work : OpWork) : OpTable := {
        entries := s.ops.entries.map fun x => if x.tag = t then
          { x with work := work, status := some .cancelled, replyPending := false } else x
        completed := s.ops.completed ++ [t] }
      (∀ i n, e.work = .purge i n → exec .opCancel s = .next (({ s.modStore i fun st => { st with
          state := st.prior.getD st.state, prior := none } with ops := ended e.work }).replied
            .opCancel tag rest .ok [])) ∧
      (∀ p deadline micros n remaining, e.work = .drain p deadline micros n remaining →
        exec .opCancel s = .next (({ s.modPort p fun q => { q with draining := false } with
          ops := ended (.drain p deadline micros n (s.port p).queue.length) }).replied .opCancel tag rest .ok [])) ∧
      (∀ next checked failing, e.work = .check next checked failing →
        exec .opCancel s = .next (({ s with ops := ended e.work }).replied .opCancel tag rest .ok [])))

/-- R157. A notice raised: nothing when its kind is masked; else it is gathered into the entry of its kind and
subject; else it is appended while fewer than 15 ordinary entries are queued; else it is lost, and the NOTICE_OVERFLOW
entry counts it (R158). -/
def Obligations.NoticeRaised : Prop :=
  ∀ (s : State) (k : NoticeKind) (subject : Nat) (detail : Detail), k ≠ .noticeOverflow →
    let q := s.notices
    let queued (entries : List Notice) : State := { s with notices := { q with entries := entries } }
    let ordinary : Nat := (q.entries.filter fun n => n.kind != .noticeOverflow).length
    let masked : Prop := q.mask.getLsbD (k.code - 1) = true
    let gather (n : Notice) (detail : Detail) : Notice :=
      { n with count := min (n.count + 1) 65535, last := s.timebase, detail := detail }
    s.raise k subject detail = { s with notices := q.raise k subject detail s.timebase } ∧
    (masked → s.raise k subject detail = s) ∧
    (¬ masked → ∀ before n after, q.entries = before ++ n :: after → n.kind = k → n.subject = subject →
      (∀ x ∈ before ++ after, ¬ (x.kind = k ∧ x.subject = subject)) →
      s.raise k subject detail = queued (before ++ gather n detail :: after)) ∧
    (¬ masked → (∀ x ∈ q.entries, ¬ (x.kind = k ∧ x.subject = subject)) →
      (ordinary < 15 → s.raise k subject detail =
        queued (q.entries ++ [⟨k, subject, 1, s.timebase, s.timebase, detail⟩])) ∧
      (15 ≤ ordinary → (∀ x ∈ q.entries, x.kind ≠ .noticeOverflow) → s.raise k subject detail =
        queued (q.entries ++ [⟨.noticeOverflow, 0, 1, s.timebase, s.timebase, .lost 1⟩])) ∧
      (∀ before n after, 15 ≤ ordinary → q.entries = before ++ n :: after → n.kind = .noticeOverflow →
        (∀ x ∈ before ++ after, x.kind ≠ .noticeOverflow) → s.raise k subject detail =
        queued (before ++ gather n (.lost (min (n.count + 1) 65535)) :: after)))

/-! ### What the link sends -/

/-- R147, R148, R159, R165. HOLD follows its pin, and while it is asserted no reply, completion report or notice
begins. When it is released and HTX is between messages the arbiter begins the oldest reply; with no reply, the eligible
completion report earliest in completion order; with neither, the oldest notice if the credit is at least 1. While a
message is on HTX, a reply, a completion report or a notice, none begins. R162. ATTN is asserted exactly while the Notice
Queue holds an entry. -/
def Obligations.ArbiterBegins : Prop :=
  (∀ s : State, exec .holdAssert s = .next { s with pins := { s.pins with hold := true } }) ∧
  (∀ s : State, exec .holdRelease s = .next { s with pins := { s.pins with hold := false } }) ∧
  (∀ (s : State) (i : Instr), s.pins.hold = true →
    i = .replyBegin ∨ i = .completionReportBegin ∨ i = .noticeSend → exec i s = .next s) ∧
  (∀ s : State, s.pins.reset = false → s.pins.hold = false →
      let result (w : OpWork) : List Byte := match w with
        | .purge _ removed => le4 removed ++ [0, 0] ++ [0, 0]
        | .drain _ _ _ sent remaining => le4 sent ++ le2 remaining ++ [0, 0]
        | .check next checked failing => le4 checked ++ le2 failing ++ le2 next
      let detail (d : Detail) : List Byte := match d with
        | .none => [0, 0, 0, 0]
        | .cause c => [c.code, 0, 0, 0]
        | .dropped action cause => [action.code, cause.code, 0, 0]
        | .sendDone status tag => [status.code, tag, 0, 0]
        | .freeBlocks n => le2 n ++ [0, 0]
        | .lost n => le2 n ++ [0, 0]
      (∀ i, i = .replyBegin ∨ i = .completionReportBegin ∨ i = .noticeSend →
        ∀ o, s.link.htx = some o → exec i s = .next s) ∧
      (s.link.htx = none →
        (∀ r rest, s.link.replies = r :: rest →
          exec .replyBegin s = .next { s with link := { s.link with replies := rest, htx := some (.reply r) } } ∧
          exec .completionReportBegin s = .next s ∧ exec .noticeSend s = .next s) ∧
        (∀ e before after, s.link.replies = [] → e ∈ s.ops.entries → s.ops.Sound →
          e.status ≠ none → e.acceptedSent = true → e.replyPending = false →
          s.ops.completed = before ++ e.tag :: after →
          (∀ x ∈ s.ops.entries, x.tag ∈ before → x.acceptedSent = false ∨ x.replyPending = true) →
          exec .completionReportBegin s = .next { s with link := { s.link with htx := some (.report ⟨0xF1, e.tag,
            [match e.status with | some st => st.code | none => 0xFF, e.work.code, e.work.target] ++ result e.work⟩) } } ∧
          exec .replyBegin s = .next s ∧ exec .noticeSend s = .next s) ∧
        (s.link.replies = [] →
          (∀ e ∈ s.ops.entries, e.status = none ∨ e.acceptedSent = false ∨ e.replyPending = true) →
          exec .replyBegin s = .next s ∧ exec .completionReportBegin s = .next s ∧
          (∀ n rest, s.notices.entries = n :: rest → 1 ≤ s.notices.credit →
            exec .noticeSend s = .next { s with
              link := { s.link with htx := some (.notice ⟨0xF0, 0, [byte1 n.kind.code] ++ le2 n.subject ++ le2 n.count
                ++ le4 n.first.toNat ++ le4 n.last.toNat ++ detail n.detail⟩ 0) }
              notices := { s.notices with entries := rest, credit := s.notices.credit - 1 } }) ∧
          (s.notices.entries = [] ∨ s.notices.credit = 0 → exec .noticeSend s = .next s)))) ∧
  (∀ s : State, s.attn = true ↔ s.notices.entries ≠ [])

/-- R144, R146, R165. The end of a message on HTX: an ordinary reply's tag leaves the outstanding set, an arrival
refusal's does not, an ACCEPTED reply is noted in its operation's entry, and a completion report takes its entry and
its tag with it. With no reply, or no report, on HTX nothing happens. -/
def Obligations.MessagesEnd : Prop :=
  ∀ s : State, s.pins.reset = false →
    (∀ m, s.link.htx = some (.reply ⟨m, .ordinary⟩) → exec .replyEnd s = .next { s with link := { s.link with
      htx := none, outstanding := s.link.outstanding.filter fun t => t != m.tag } }) ∧
    (∀ m, s.link.htx = some (.reply ⟨m, .refusal⟩) → exec .replyEnd s = .next { s with link := { s.link with
      htx := none } }) ∧
    (∀ m, s.link.htx = some (.reply ⟨m, .accepted⟩) → exec .replyEnd s = .next { s with
      link := { s.link with htx := none }
      ops := { s.ops with entries := s.ops.entries.map fun e =>
        if e.tag = m.tag then { e with acceptedSent := true } else e } }) ∧
    (∀ m, s.link.htx = some (.report m) →
      exec .completionReportEnd s = .next { s with
        link := { s.link with htx := none, outstanding := s.link.outstanding.filter fun t => t != m.tag }
        ops := ⟨s.ops.entries.filter fun e => e.tag != m.tag, s.ops.completed.filter fun t => t != m.tag⟩ } ∧
      exec .replyEnd s = .next s) ∧
    ((∀ r, s.link.htx ≠ some (.reply r)) → exec .replyEnd s = .next s) ∧
    ((∀ m, s.link.htx ≠ some (.report m)) → exec .completionReportEnd s = .next s)

/-! ### The receive line and the framer -/

/-- R107 to R112. The receive line of a RUNNING or PAUSED port: a character's start, its sampling with a high or a low
stop bit and the end of a framing error, a break and its end; what the receiver enters, counts and discards, and the
quiet time. The line is its events (log entry 30, the model's choice). Loss and echo of a character with a low stop bit
are judged at its sampling and counted at the line's return high, and not if a break or a pause comes instead (log entry
21, the model's reading); the line of a PAUSED port is watched and enters nothing, and that of an OFF or READY port is not
watched (log entry 24, the model's choice). A character that was partly received when the receiver was switched off is
abandoned: neither entered nor counted when it ends, before or after a PORT_RESUME (R100). So is one that began while the
receiver was off, and what the receiver takes for a start bit on such a line comes as START_BIT (log entry 35, the model's
choice). -/
def Obligations.LineReceived : Prop :=
  (∀ (s : State) (p : PortId) (data : Byte) (parityBit : Bool), s.pins.reset = false →
    let q := s.port p
    let value : Byte := if q.settings.dataBits = 7 then data &&& 0x7F else data
    let odd : Bool := ((List.range 8).filter fun i => value.getLsbD i).length % 2 == 1
    let parity : Bool := match q.settings.parity with
      | .none => false
      | .even => (parityBit != odd)
      | .odd => (parityBit == odd)
    let n := (q.fifo.filter fun i => i != .expiry).length
    let received (q : Port) (value : Byte) (parity framing : Bool) (time : Word) : Port := { q with
      fifo := q.fifo ++ [.char ⟨value, ⟨parity, framing, q.overrunPending⟩, time⟩]
      overrunPending := false
      counters := { q.counters with
        received := min (q.counters.received + 1) 4294967295
        parityErrors := if parity then min (q.counters.parityErrors + 1) 4294967295 else q.counters.parityErrors
        framingErrors := if framing then min (q.counters.framingErrors + 1) 4294967295 else q.counters.framingErrors } }
    let lost (q : Port) (parity framing : Bool) : Port := { q with
      overrunPending := true
      counters := { q.counters with
        received := min (q.counters.received + 1) 4294967295
        parityErrors := if parity then min (q.counters.parityErrors + 1) 4294967295 else q.counters.parityErrors
        framingErrors := if framing then min (q.counters.framingErrors + 1) 4294967295 else q.counters.framingErrors
        overruns := min (q.counters.overruns + 1) 4294967295 } }
    let echoed (q : Port) : Port := { q with counters := { q.counters with
      echo := min (q.counters.echo + 1) 4294967295 } }
    let high (q : Port) : Port := { q with line := .high, quiet := ⟨true, 0, false⟩ }
    let becomes (i : Instr) (f : Port → Port) : Prop := exec i s = .next (s.modPort p f)
    (q.line = .high ∨ q.line = .character false → q.state = .running →
        (q.dir = true → becomes (.characterReceived p data parityBit true) fun q => high (echoed q)) ∧
        (q.dir = false → n < 64 →
          becomes (.characterReceived p data parityBit true) fun q => high (received q value parity false s.timebase)) ∧
        (q.dir = false → 64 ≤ n →
          becomes (.characterReceived p data parityBit true) fun q => high (lost q parity false)) ∧
        becomes (.characterReceived p data parityBit false) fun q => { q with
          line := .lowStop (some ⟨value, parity, s.timebase, q.dir, decide (64 ≤ n)⟩), quiet := ⟨false, 0, false⟩ }) ∧
    ((q.line = .high ∨ q.line = .character false) ∧ q.state = .paused ∨ q.line = .character true ∧ q.canSend = true →
      becomes (.characterReceived p data parityBit true) high ∧
      becomes (.characterReceived p data parityBit false) fun q => { q with
        line := .lowStop none, quiet := ⟨false, 0, false⟩ }) ∧
    (q.line = .high ∨ q.line = .character true → q.canSend = true →
      becomes (.startBit p) fun q => { q with
        line := .character (decide (q.state = .paused)), quiet := ⟨false, 0, false⟩ }) ∧
    (∀ c, q.line = .lowStop (some c) → q.state = .running →
      (c.echo = true → becomes (.framingErrorEnd p) fun q => high (echoed q)) ∧
      (c.echo = false → c.lost = false →
        becomes (.framingErrorEnd p) fun q => high (received q c.value c.parity true c.time)) ∧
      (c.echo = false → c.lost = true → becomes (.framingErrorEnd p) fun q => high (lost q c.parity true))) ∧
    (q.line = .lowStop none → q.canSend = true → becomes (.framingErrorEnd p) high) ∧
    (q.canSend = false → ∀ b, becomes (.characterReceived p data parityBit b) id ∧ becomes (.startBit p) id ∧
      becomes (.framingErrorEnd p) id)) ∧
  (∀ (s : State) (p : PortId), s.pins.reset = false →
    let q := s.port p
    let n := (q.fifo.filter fun i => i != .expiry).length
    let low (q : Port) : Port := { q with line := .brk, quiet := ⟨false, 0, false⟩ }
    let becomes (i : Instr) (f : Port → Port) : Prop := exec i s = .next (s.modPort p f)
    (q.line ≠ .brk → q.state = .running →
      (q.dir = true → becomes (.breakDetected p) fun q => { low q with counters := { q.counters with
        echo := min (q.counters.echo + 1) 4294967295 } }) ∧
      (q.dir = false → n < 64 → becomes (.breakDetected p) fun q => { low q with
        fifo := q.fifo ++ [.brk s.timebase]
        counters := { q.counters with breaks := min (q.counters.breaks + 1) 4294967295 } }) ∧
      (q.dir = false → 64 ≤ n → becomes (.breakDetected p) fun q => { low q with
        overrunPending := true
        counters := { q.counters with
          breaks := min (q.counters.breaks + 1) 4294967295
          overruns := min (q.counters.overruns + 1) 4294967295 } })) ∧
    (q.line ≠ .brk → q.state = .paused → becomes (.breakDetected p) low) ∧
    (q.line = .brk → q.canSend = true →
      becomes (.breakDetected p) id ∧
      becomes (.breakEnd p) fun q => { q with line := .high, quiet := ⟨true, 0, false⟩ }) ∧
    (q.canSend = false → becomes (.breakDetected p) id ∧ becomes (.breakEnd p) id))

/-- R74, R100, R111. FRAMER_TAKE_ITEM takes the oldest item of a RUNNING port's FIFO, and with it the quiet-time
expiries whose place is right behind it. QUIET_TIME_EXPIRY, when the quiet time has reached the limit of the
framer's mode for the first time in its quiet period, is taken at once, or after the items that wait. That it is then one
step with the last of them is the model's choice (log entry 38). -/
def Obligations.FramerTakesItems : Prop :=
  ∀ (s : State) (p : PortId), s.pins.reset = false →
    let q := s.port p
    let limit : Nat := if q.framer.settings.mode = .gap then q.framer.settings.gapThreshold else q.framer.settings.idleLimit
    let bits : Nat := 1 + q.settings.dataBits + (if q.settings.parity = .none then 0 else 1) + q.settings.stopBits
    let due : Prop := q.state = .running ∧ q.quiet.running = true ∧ q.quiet.given = false ∧ limit ≠ 0 ∧
      limit * bits * 1000000 ≤ q.quiet.micros * q.settings.baud
    let given (fifo : List FifoItem) : State := s.modPort p fun q => { q with
      quiet := { q.quiet with given := true }, fifo := fifo }
    (∀ item k rest, q.state = .running → q.fifo = item :: (List.replicate k FifoItem.expiry ++ rest) →
      rest.head? ≠ some .expiry →
      let u := s.modPort p fun q => { q with fifo := rest }
      let t := match item with
        | .char c => u.framerChar p c
        | .brk _ => u.framerBoundary p true
        | .expiry => u.framerBoundary p false
      exec (.framerTakeItem p) s = .next ((fun t => t.framerBoundary p false)^[k] t)) ∧
    (q.state ≠ .running ∨ q.fifo = [] → exec (.framerTakeItem p) s = .next s) ∧
    (due → q.fifo = [] → exec (.quietTimeExpiry p) s = .next ((given []).framerBoundary p false)) ∧
    (due → q.fifo ≠ [] → exec (.quietTimeExpiry p) s = .next (given (q.fifo ++ [.expiry]))) ∧
    (¬ due → exec (.quietTimeExpiry p) s = .next s)

/-- R33, R80, R89, R93, R94, R95. The close of the frame in assembly, in its order, and the discard. An incomplete frame
that is kept first stores the held characters; one of them may find it too long, or find no block. A frame that
completes joins the classification queue, or is lost when 8 frames are pending. That an incomplete frame whose held
character finds it too long under TRUNCATE (step 2 of R93) keeps the close time of R90 and R91, in place of that of R89,
is the model's reading (log entry 20). -/
def Obligations.FrameCloses : Prop :=
  ∀ (s : State) (p : PortId) (a : Assembly), (s.port p).framer.frame = some a →
    let q := s.port p
    let fs := q.framer.settings
    let with' (frame : Option Assembly) (c : PortCounters) : State := s.modPort p fun q => { q with
      framer := { q.framer with frame := frame }, counters := c }
    let gone (c : PortCounters) : State := { with' none c with memory := s.memory.release a.desc }
    let flagged (f : FrameFlags) : State := with' (some { a with flags := f }) q.counters
    let n := (s.memory.desc a.desc).length
    let completed := min (q.counters.completed + 1) 4294967295
    let rejected : Prop := a.flags.charError = true ∧ fs.charError = .discard
    s.discardFrame p .tooLong =
      gone { q.counters with discardedTooLong := min (q.counters.discardedTooLong + 1) 4294967295 } ∧
    s.discardFrame p .noMemory =
      gone { q.counters with discardedNoMemory := min (q.counters.discardedNoMemory + 1) 4294967295 } ∧
    s.discardFrame p .badLength =
      gone { q.counters with discardedBadLength := min (q.counters.discardedBadLength + 1) 4294967295 } ∧
    ∀ close,
      (rejected → s.closeFrame p .truncated close =
        gone { q.counters with discardedCharError := min (q.counters.discardedCharError + 1) 4294967295 }) ∧
      (¬ rejected → n = 0 → s.closeFrame p .truncated close =
        gone { q.counters with empty := min (q.counters.empty + 1) 4294967295 }) ∧
      (¬ rejected → n ≠ 0 → s.classifier.queue.length < 8 → s.closeFrame p .truncated close =
        { with' none { q.counters with completed := completed } with
          classifier := { s.classifier with
            queue := s.classifier.queue ++ [⟨p, a.desc, n, a.flags, a.arrival, close⟩] } }) ∧
      (¬ rejected → n ≠ 0 → 8 ≤ s.classifier.queue.length → s.closeFrame p .truncated close =
        (gone { q.counters with
          completed := completed, lost := min (q.counters.lost + 1) 4294967295 }).raise .frameLost p.val .none) ∧
      s.closeFrame p (.ended false) close = s.closeFrame p .truncated close ∧
      s.closeFrame p (.ended true) close = (flagged { a.flags with brk := true }).closeFrame p .truncated close ∧
      (∀ b, fs.incomplete = .discard → s.closeFrame p (.incomplete b) close =
        gone { q.counters with discardedIncomplete := min (q.counters.discardedIncomplete + 1) 4294967295 }) ∧
      (∀ b, fs.incomplete = .keep →
        let r := s.storeSeq p (q.framer.held.map (·.value))
        let caused (u : State) : State := u.modFramer p fun f => { f with frame := f.frame.map fun a => { a with
          flags := if b then { a.flags with brk := true } else { a.flags with gapClosed := true } } }
        (r.1 = .stored → s.closeFrame p (.incomplete b) close = (caused r.2).closeFrame p .truncated close) ∧
        (r.1 = .noBlock → s.closeFrame p (.incomplete b) close = r.2.discardFrame p .noMemory) ∧
        (r.1 = .tooLong → fs.tooLong = .discard →
          s.closeFrame p (.incomplete b) close = r.2.discardFrame p .tooLong) ∧
        (r.1 = .tooLong → fs.tooLong = .truncate → s.closeFrame p (.incomplete b) close =
          (caused (r.2.modPort p fun q => { q with
            framer := { q.framer with
              held := []
              frame := q.framer.frame.map fun a => { a with flags := { a.flags with truncated := true } } }
            counters := { q.counters with truncated := min (q.counters.truncated + 1) 4294967295 } })).closeFrame
              p .truncated close))

/-- R73, R87, R88, R89, R92. GAP mode: the first character of a burst begins a frame and is stored in it, as are
those that follow; the gap or a break ends the frame. Without a FREE descriptor, and after a frame that could not
be stored, characters are passed over up to the next gap or break. -/
def Obligations.GapFrames : Prop :=
  ∀ (s : State) (p : PortId) (c : Machine.Char),
    let q := s.port p
    let f := q.framer
    let fresh : Framer := ⟨f.settings, .hunt, 0, 0, [], false, none, 0, none, []⟩
    let mark : Bool := c.marks.parity || c.marks.framing || c.marks.overrun
    let becomes (f : Framer) : State := s.modPort p fun q => { q with framer := f }
    let stored (u : State) : State := (u.storeInFrame p c.value).2.storeFailed p (u.storeInFrame p c.value).1 false c.time
    f.settings.mode = .gap → f.frame.isSome = (f.state == .header || f.state == .body) →
    (f.state = .hunt → (∀ d, (s.memory.desc d).live = true) → s.framerChar p c = { s with
      memory := s.memory.countNoDescriptor
      ports := s.ports.set p.val { q with
        framer := { f with state := .skip }
        counters := { q.counters with
          discardedNoMemory := min (q.counters.discardedNoMemory + 1) 4294967295 } } p.isLt }) ∧
    (∀ d, f.state = .hunt → (s.memory.desc d).live = false → (∀ e < d, (s.memory.desc e).live = true) →
      s.framerChar p c = stored { becomes { f with
          state := .body, frame := some ⟨d, c.time, ⟨false, mark, false, false, false⟩, c.time⟩ } with
        memory := { s.memory with
          descs := s.memory.descs.set d.val ⟨true, [], 0, 1, false⟩ d.isLt
          counters := { s.memory.counters with taken := min (s.memory.counters.taken + 1) 4294967295 } } }) ∧
    (∀ a, f.state = .body → f.frame = some a →
      s.framerChar p c = stored (becomes { f with
        frame := some { a with flags := { a.flags with charError := a.flags.charError || mark }, last := c.time } }) ∧
      ∀ b, s.framerBoundary p b = (s.closeFrame p (.ended b) a.last).modFramer p fun _ => fresh) ∧
    (f.state = .skip → s.framerChar p c = s ∧ ∀ b, s.framerBoundary p b = becomes fresh) ∧
    (f.state = .hunt → ∀ b, s.framerBoundary p b = s) ∧
    (∀ u v w, s.storeFailed p .stored u v = s ∧
      s.storeFailed p .noBlock u w = (s.discardFrame p .noMemory).modFramer p fun f => { f with state := .skip }) ∧
    (f.settings.tooLong = .discard → ∀ w, s.storeFailed p .tooLong false w =
      (s.discardFrame p .tooLong).modFramer p fun f => { f with state := .skip }) ∧
    (f.settings.tooLong = .truncate → ∀ w, s.storeFailed p .tooLong false w = ((s.modPort p fun q => { q with
        framer := { q.framer with
          held := []
          frame := q.framer.frame.map fun a => { a with flags := { a.flags with truncated := true } } }
        counters := { q.counters with truncated := min (q.counters.truncated + 1) 4294967295 } }).closeFrame
          p .truncated w).modFramer p fun f => { f with state := .skip })

/-- R78 to R82, R88 to R91. A progress value that a character is fed to rises when the character is the pattern's next byte; else
it becomes the largest j such that the last j characters fed are the first j bytes of the pattern. DELIMITED mode: the
start pattern in HUNT, a character in BODY (escape, end pattern, held characters), and a character in SKIP; the idle
limit or a break; bytes stored in order up to the first that fails, and what follows such a failure, at a boundary or
not. That the held set is kept after a failed store, and that the want of a block at the last delimiter leads to SKIP,
is the model's reading (log entry 26); so is that the character just taken is the one that found the frame too long, also
when the byte offered is a held one (log entry 20). -/
def Obligations.DelimitedFrames : Prop :=
  (∀ (pattern : List Byte) (k : Nat) (c : Byte), k < pattern.length →
    let fed := pattern.take k ++ [c]
    let agrees (j : Nat) : Prop := fed.drop (k + 1 - j) = pattern.take j
    (pattern[k]? = some c → advance pattern k c = k + 1) ∧
    (pattern[k]? ≠ some c → advance pattern k c ≤ k ∧ agrees (advance pattern k c) ∧
      ∀ j, agrees j → j ≤ k → j ≤ advance pattern k c)) ∧
  (∀ (s : State) (p : PortId) (c : Machine.Char),
    let f := (s.port p).framer
    let fs := f.settings
    let taken (d : DescId) : RecordMemory := { s.memory with
      descs := s.memory.descs.set d.val ⟨true, [], 0, 1, false⟩ d.isLt
      counters := { s.memory.counters with taken := min (s.memory.counters.taken + 1) 4294967295 } }
    let mark : Bool := c.marks.parity || c.marks.framing || c.marks.overrun
    let fresh : Framer := ⟨fs, .hunt, 0, 0, [], false, none, 0, none, []⟩
    let becomes (s : State) (f : Framer) : State := s.modPort p fun q => { q with framer := f }
    let stored (s : State) (cs : List Machine.Char) : State :=
      let r := s.storeSeq p (cs.map (·.value))
      r.2.storeFailed p r.1 false c.time
    let i := advance fs.startPattern f.startProgress c.value
    let k := advance fs.endPattern f.endProgress c.value
    let complete : Prop := k = fs.endPattern.length
    fs.mode = .delimited →
    (f.state = .hunt → fs.startPattern ≠ [] → i ≠ fs.startPattern.length → s.framerChar p c =
      becomes s { f with startProgress := i, held := (f.held ++ [c]).drop (f.held.length + 1 - i) }) ∧
    (∀ d, f.state = .hunt → fs.startPattern ≠ [] → i = fs.startPattern.length → (s.memory.desc d).live = false →
      (∀ e < d, (s.memory.desc e).live = true) →
      let body : State := { becomes s { f with
          state := .body, startProgress := 0, endProgress := 0, held := [], escapeOpen := false
          frame := some ⟨d, ((f.held ++ [c]).map (·.time)).headD c.time,
            ⟨false, (f.held ++ [c]).any fun c => c.marks.parity || c.marks.framing || c.marks.overrun, false, false,
              false⟩, c.time⟩ } with
        memory := taken d }
      s.framerChar p c = if fs.keepDelimiters then stored body (f.held ++ [c]) else body) ∧
    (∀ d, f.state = .hunt → fs.startPattern = [] → (s.memory.desc d).live = false →
      (∀ e < d, (s.memory.desc e).live = true) →
      s.framerChar p c = ({ becomes s { f with
          state := .body, endProgress := 0, escapeOpen := false
          frame := some ⟨d, c.time, ⟨false, false, false, false, false⟩, c.time⟩ } with
        memory := taken d } : State).framerChar p c) ∧
    (f.state = .hunt → f.frame = none → (fs.startPattern = [] ∨ i = fs.startPattern.length) →
      (∀ d, (s.memory.desc d).live = true) → s.framerChar p c =
        { s.modPort p fun q => { q with
            framer := { f with
              state := .skip
              endProgress := 0
              startProgress := if fs.startPattern = [] then f.startProgress else 0
              held := if fs.startPattern = [] then f.held else [] }
            counters := { q.counters with
              discardedNoMemory := min (q.counters.discardedNoMemory + 1) 4294967295 } } with
          memory := s.memory.countNoDescriptor }) ∧
    (∀ a, f.state = .body → f.frame = some a →
      let g : Framer := { f with
        frame := some { a with flags := { a.flags with charError := a.flags.charError || mark }, last := c.time } }
      (f.escapeOpen = true → s.framerChar p c = stored (becomes s { g with escapeOpen := false }) [c]) ∧
      (f.escapeOpen = false → fs.escape = some c.value → s.framerChar p c =
        stored (becomes s { g with held := [], endProgress := 0, escapeOpen := true })
          (f.held ++ if fs.keepEscape then [c] else [])) ∧
      (f.escapeOpen = false → fs.escape ≠ some c.value → fs.keepDelimiters = false →
        (complete → s.framerChar p c =
          (((becomes s { g with held := [], endProgress := 0 }).closeFrame p (.ended false) c.time).modFramer p
            fun _ => fresh)) ∧
        (¬ complete → s.framerChar p c =
          stored (becomes s { g with held := (f.held ++ [c]).drop (f.held.length + 1 - k), endProgress := k })
            ((f.held ++ [c]).take (f.held.length + 1 - k)))) ∧
      (f.escapeOpen = false → fs.escape ≠ some c.value → fs.keepDelimiters = true →
        let r := (becomes s { g with endProgress := if k = fs.endPattern.length then 0 else k }).storeInFrame p c.value
        (complete → r.1 = .stored →
          s.framerChar p c = (r.2.closeFrame p (.ended false) c.time).modFramer p fun _ => fresh) ∧
        (complete → r.1 ≠ .stored → s.framerChar p c = r.2.storeFailed p r.1 true c.time) ∧
        (¬ complete → s.framerChar p c = r.2.storeFailed p r.1 false c.time))) ∧
    (f.state = .skip →
      (f.escapeOpen = true → s.framerChar p c = becomes s { f with escapeOpen := false }) ∧
      (f.escapeOpen = false → fs.escape = some c.value →
        s.framerChar p c = becomes s { f with escapeOpen := true, endProgress := 0 }) ∧
      (f.escapeOpen = false → fs.escape ≠ some c.value →
        (complete → s.framerChar p c = becomes s fresh) ∧
        (¬ complete → s.framerChar p c = becomes s { f with endProgress := k }))) ∧
    (∀ b,
      (f.state = .hunt → s.framerBoundary p b = becomes s { f with startProgress := 0, held := [] }) ∧
      (f.state = .skip → s.framerBoundary p b = becomes s fresh) ∧
      (∀ a, f.state = .header ∨ f.state = .body → f.frame = some a →
        s.framerBoundary p b = (s.closeFrame p (.incomplete b) a.last).modFramer p fun _ => fresh))) ∧
  (∀ (s : State) (p : PortId) (boundary : Bool) (time : Word),
    let tooLong := (s.port p).framer.settings.tooLong
    let goes (hunt : Bool) (u : State) : State := u.modFramer p fun f =>
      if hunt then ⟨f.settings, .hunt, 0, 0, [], false, none, 0, none, []⟩ else { f with state := .skip }
    s.storeFailed p .stored boundary time = s ∧
    s.storeFailed p .noBlock boundary time = goes false (s.discardFrame p .noMemory) ∧
    (tooLong = .discard → s.storeFailed p .tooLong boundary time = goes boundary (s.discardFrame p .tooLong)) ∧
    (tooLong = .truncate → s.storeFailed p .tooLong boundary time = goes boundary ((s.modPort p fun q => { q with
      framer := { q.framer with
        held := []
        frame := q.framer.frame.map fun a => { a with flags := { a.flags with truncated := true } } }
      counters := { q.counters with truncated := min (q.counters.truncated + 1) 4294967295 } }).closeFrame
        p .truncated time)) ∧
    s.storeSeq p [] = (.stored, s) ∧
    ∀ v rest,
      let r := s.storeInFrame p v
      (r.1 = .stored → s.storeSeq p (v :: rest) = r.2.storeSeq p rest) ∧
      (r.1 ≠ .stored → s.storeSeq p (v :: rest) = r))

/-- R83 to R86, R88, R90, R91. LENGTH mode: what is passed over in HUNT, the length field and its judgement in HEADER, the
counted bytes of BODY, and SKIP, in which bytes are counted but not stored; a frame start that finds no descriptor and a
byte that finds no block, which is counted too; the idle limit or a break. That the first character is byte 0, stored,
taken and judged as such, is the model's reading (log entry 25). -/
def Obligations.LengthFrames : Prop :=
  ∀ (s : State) (p : PortId) (c : Machine.Char),
    let f := (s.port p).framer
    let fs := f.settings
    let taken (d : DescId) : RecordMemory := { s.memory with
      descs := s.memory.descs.set d.val ⟨true, [], 0, 1, false⟩ d.isLt
      counters := { s.memory.counters with taken := min (s.memory.counters.taken + 1) 4294967295 } }
    let mark : Bool := c.marks.parity || c.marks.framing || c.marks.overrun
    let fresh : Framer := ⟨fs, .hunt, 0, 0, [], false, none, 0, none, []⟩
    let becomes (s : State) (f : Framer) : State := s.modPort p fun q => { q with framer := f }
    let fieldEnd : Nat := fs.fieldOffset + fs.fieldWidth
    let field : List Byte := if fs.fieldOffset ≤ f.taken ∧ f.taken < fieldEnd then f.lengthField ++ [c.value]
      else f.lengthField
    let value : Nat := match fs.byteOrder, field with
      | _, [b] => b.toNat
      | .lowFirst, [b, d] => b.toNat + 256 * d.toNat
      | .highFirst, [b, d] => 256 * b.toNat + d.toNat
      | _, _ => 0
    let total : Int := value + fs.adjust
    let bad : Bool := decide (total < fieldEnd) || decide ((fs.maxLength : Int) < total)
    let known : Bool := decide (f.taken + 1 = fieldEnd)
    let judged (u : State) : State :=
      if known then
        if bad then (u.discardFrame p .badLength).modFramer p fun _ => fresh
        else if total = fieldEnd then (u.closeFrame p (.ended false) c.time).modFramer p fun _ => fresh
        else u.modFramer p fun g => { g with state := .body, total := some total }
      else u
    let skipped (v : State) : State :=
      let u (n : Option Int) : State := v.modFramer p fun g => { g with
        state := .skip, taken := f.taken + 1, lengthField := field, total := n }
      let counted (n : Option Int) : State := match n with
        | some n => if n ≤ f.taken + 1 then v.modFramer p fun _ => fresh else u (some n)
        | none => u none
      if known then (if bad then v.modFramer p fun _ => fresh else counted (some total)) else counted f.total
    let noBlock (t : State) : State := skipped (t.discardFrame p .noMemory)
    fs.mode = .length → (fs.fieldWidth = 1 ∨ fs.fieldWidth = 2) →
    (f.taken < fieldEnd → f.lengthField.length = f.taken - fs.fieldOffset) →
    (f.state = .hunt → (∃ b, fs.sync = some b ∧ b ≠ c.value) → s.framerChar p c = s) ∧
    (∀ d, f.state = .hunt → (∀ b, fs.sync = some b → b = c.value) → f.frame = none → f.taken = 0 →
      (s.memory.desc d).live = false → (∀ e < d, (s.memory.desc e).live = true) →
      let r := ({ becomes s { f with state := .header, frame := some ⟨d, c.time, ⟨false, mark, false, false, false⟩,
        c.time⟩ } with memory := taken d } : State).storeInFrame p c.value
      (r.1 = .stored →
        s.framerChar p c = judged (r.2.modFramer p fun g => { g with taken := 1, lengthField := field })) ∧
      (r.1 = .noBlock → s.framerChar p c = noBlock r.2)) ∧
    (f.state = .hunt → (∀ b, fs.sync = some b → b = c.value) → f.frame = none → f.taken = 0 →
      (∀ d, (s.memory.desc d).live = true) → s.framerChar p c =
        skipped { s.modPort p fun q => { q with counters := { q.counters with
            discardedNoMemory := min (q.counters.discardedNoMemory + 1) 4294967295 } } with
          memory := s.memory.countNoDescriptor }) ∧
    (∀ a, f.state = .header ∨ f.state = .body → f.frame = some a →
      let r := (becomes s { f with frame := some { a with
        flags := { a.flags with charError := a.flags.charError || mark }, last := c.time } }).storeInFrame p c.value
      let u := r.2.modFramer p fun g => { g with taken := f.taken + 1, lengthField := field }
      (r.1 = .noBlock → s.framerChar p c = noBlock r.2) ∧
      (r.1 = .stored →
        (f.state = .header → s.framerChar p c = judged u) ∧
        (∀ n, f.state = .body → f.total = some n →
          (n ≠ f.taken + 1 → s.framerChar p c = u) ∧
          (n = f.taken + 1 → s.framerChar p c = (u.closeFrame p (.ended false) c.time).modFramer p fun _ => fresh)))) ∧
    (f.state = .skip → s.framerChar p c = skipped s) ∧
    (∀ b,
      (f.state = .hunt → s.framerBoundary p b = becomes s { f with startProgress := 0, held := [] }) ∧
      (f.state = .skip → s.framerBoundary p b = becomes s fresh) ∧
      (∀ a, f.state = .header ∨ f.state = .body → f.frame = some a →
        s.framerBoundary p b = (s.closeFrame p (.incomplete b) a.last).modFramer p fun _ => fresh))

/-! ### What every step keeps -/

/-- R2, R12, R109, R110, R112, R142, R143, R155, R158, R160, R161. Every step keeps the bounds and the shape of the
link's queues, of the Notice Queue, of each staging FIFO, and of the chains and the classification queue; and DIRn stays
asserted only for a SENDING entry of a half-duplex or stopped port, past its turnaround wait. -/
def Obligations.CollectionsStayBounded : Prop :=
  ∀ s t : State, step s = .next t →
    (s.link.Bounded → t.link.Bounded) ∧
    (s.notices.Sound → t.notices.Sound) ∧
    ((∀ p, (s.port p).FifoBounded) → ∀ p, (t.port p).FifoBounded) ∧
    (s.classifier.Sound → t.classifier.Sound) ∧
    (s.PoolSound → (∀ p, (s.port p).SendSound) → (∀ p, (s.port p).DirSound) → ∀ p, (t.port p).DirSound)

/-- R30 to R36, R41, R73, R96, R116, R118, R121, R128. Every step conserves Record Memory: each block stays on the free
list or in the chain of exactly one descriptor, and each reference count stays the number of the parties that name
the descriptor, the send pool and the framers keeping their own shape. -/
def Obligations.MemoryConserved : Prop :=
  ∀ s t : State, step s = .next t →
    s.memory.Sound → s.Counted → s.PoolSound → (∀ p, (s.port p).SendSound) → (∀ p, (s.port p).FramerSound) →
    t.memory.Sound ∧ t.Counted ∧ t.PoolSound ∧ (∀ p, (t.port p).SendSound) ∧ (∀ p, (t.port p).FramerSound)

/-- R48 to R53, R69, R131, R142, R144, R163, R164. Every step keeps the outstanding-tag set equal to the tags of the
requests not yet fully answered, and with it the long-operation table, the stores and the draining marks. -/
def Obligations.TagsStayExact : Prop :=
  ∀ s t : State, step s = .next t →
    s.TagsSound → s.link.Bounded → s.ops.Sound → s.OpsAgree → (∀ i, (s.store i).Sound) →
    t.TagsSound ∧ t.link.Bounded ∧ t.ops.Sound ∧ t.OpsAgree ∧ ∀ i, (t.store i).Sound

/-- R1, R3, R27, R50, R76, R97, R99. Every step keeps every setting, rule and template, and a held edit, in its
range. -/
def Obligations.SettingsStayInRange : Prop :=
  ∀ s t : State, step s = .next t → s.SettingsValid → t.SettingsValid
end

