-- ==== Sys2Proof/Laws/State.lean ====
section
/-! SUPPORT. One lemma for each field of the state and each update of one part of it, so that no proof unfolds a
record update; and what reading one port, store, descriptor, rule or chain gives after one is replaced. -/

namespace Sys2Proof.Machine

/-! ### State.modPort -/

@[simp] theorem State.modPort_pending (s : State) (p : PortId) (f : Port → Port) : (s.modPort p f).pending = s.pending := rfl
@[simp] theorem State.modPort_pins (s : State) (p : PortId) (f : Port → Port) : (s.modPort p f).pins = s.pins := rfl
@[simp] theorem State.modPort_timebase (s : State) (p : PortId) (f : Port → Port) : (s.modPort p f).timebase = s.timebase := rfl
@[simp] theorem State.modPort_link (s : State) (p : PortId) (f : Port → Port) : (s.modPort p f).link = s.link := rfl
@[simp] theorem State.modPort_notices (s : State) (p : PortId) (f : Port → Port) : (s.modPort p f).notices = s.notices := rfl
@[simp] theorem State.modPort_ops (s : State) (p : PortId) (f : Port → Port) : (s.modPort p f).ops = s.ops := rfl
@[simp] theorem State.modPort_memory (s : State) (p : PortId) (f : Port → Port) : (s.modPort p f).memory = s.memory := rfl
@[simp] theorem State.modPort_classifier (s : State) (p : PortId) (f : Port → Port) : (s.modPort p f).classifier = s.classifier := rfl
@[simp] theorem State.modPort_stores (s : State) (p : PortId) (f : Port → Port) : (s.modPort p f).stores = s.stores := rfl
@[simp] theorem State.modPort_nextSendId (s : State) (p : PortId) (f : Port → Port) : (s.modPort p f).nextSendId = s.nextSendId := rfl
@[simp] theorem State.modPort_ticks (s : State) (p : PortId) (f : Port → Port) : (s.modPort p f).ticks = s.ticks := rfl

/-! ### State.modStore -/

@[simp] theorem State.modStore_pending (s : State) (i : StoreId) (f : Store → Store) : (s.modStore i f).pending = s.pending := rfl
@[simp] theorem State.modStore_pins (s : State) (i : StoreId) (f : Store → Store) : (s.modStore i f).pins = s.pins := rfl
@[simp] theorem State.modStore_timebase (s : State) (i : StoreId) (f : Store → Store) : (s.modStore i f).timebase = s.timebase := rfl
@[simp] theorem State.modStore_link (s : State) (i : StoreId) (f : Store → Store) : (s.modStore i f).link = s.link := rfl
@[simp] theorem State.modStore_notices (s : State) (i : StoreId) (f : Store → Store) : (s.modStore i f).notices = s.notices := rfl
@[simp] theorem State.modStore_ops (s : State) (i : StoreId) (f : Store → Store) : (s.modStore i f).ops = s.ops := rfl
@[simp] theorem State.modStore_memory (s : State) (i : StoreId) (f : Store → Store) : (s.modStore i f).memory = s.memory := rfl
@[simp] theorem State.modStore_classifier (s : State) (i : StoreId) (f : Store → Store) : (s.modStore i f).classifier = s.classifier := rfl
@[simp] theorem State.modStore_ports (s : State) (i : StoreId) (f : Store → Store) : (s.modStore i f).ports = s.ports := rfl
@[simp] theorem State.modStore_nextSendId (s : State) (i : StoreId) (f : Store → Store) : (s.modStore i f).nextSendId = s.nextSendId := rfl
@[simp] theorem State.modStore_ticks (s : State) (i : StoreId) (f : Store → Store) : (s.modStore i f).ticks = s.ticks := rfl

/-! ### State.modLink -/

@[simp] theorem State.modLink_pending (s : State) (f : Link → Link) : (s.modLink f).pending = s.pending := rfl
@[simp] theorem State.modLink_pins (s : State) (f : Link → Link) : (s.modLink f).pins = s.pins := rfl
@[simp] theorem State.modLink_timebase (s : State) (f : Link → Link) : (s.modLink f).timebase = s.timebase := rfl
@[simp] theorem State.modLink_link (s : State) (f : Link → Link) :
    (s.modLink f).link = f s.link := rfl
@[simp] theorem State.modLink_notices (s : State) (f : Link → Link) : (s.modLink f).notices = s.notices := rfl
@[simp] theorem State.modLink_ops (s : State) (f : Link → Link) : (s.modLink f).ops = s.ops := rfl
@[simp] theorem State.modLink_memory (s : State) (f : Link → Link) : (s.modLink f).memory = s.memory := rfl
@[simp] theorem State.modLink_classifier (s : State) (f : Link → Link) : (s.modLink f).classifier = s.classifier := rfl
@[simp] theorem State.modLink_stores (s : State) (f : Link → Link) : (s.modLink f).stores = s.stores := rfl
@[simp] theorem State.modLink_ports (s : State) (f : Link → Link) : (s.modLink f).ports = s.ports := rfl
@[simp] theorem State.modLink_nextSendId (s : State) (f : Link → Link) : (s.modLink f).nextSendId = s.nextSendId := rfl
@[simp] theorem State.modLink_ticks (s : State) (f : Link → Link) : (s.modLink f).ticks = s.ticks := rfl

/-! ### State.modNotices -/

@[simp] theorem State.modNotices_pending (s : State) (f : NoticeQueue → NoticeQueue) : (s.modNotices f).pending = s.pending := rfl
@[simp] theorem State.modNotices_pins (s : State) (f : NoticeQueue → NoticeQueue) : (s.modNotices f).pins = s.pins := rfl
@[simp] theorem State.modNotices_timebase (s : State) (f : NoticeQueue → NoticeQueue) : (s.modNotices f).timebase = s.timebase := rfl
@[simp] theorem State.modNotices_link (s : State) (f : NoticeQueue → NoticeQueue) : (s.modNotices f).link = s.link := rfl
@[simp] theorem State.modNotices_notices (s : State) (f : NoticeQueue → NoticeQueue) :
    (s.modNotices f).notices = f s.notices := rfl
@[simp] theorem State.modNotices_ops (s : State) (f : NoticeQueue → NoticeQueue) : (s.modNotices f).ops = s.ops := rfl
@[simp] theorem State.modNotices_memory (s : State) (f : NoticeQueue → NoticeQueue) : (s.modNotices f).memory = s.memory := rfl
@[simp] theorem State.modNotices_classifier (s : State) (f : NoticeQueue → NoticeQueue) : (s.modNotices f).classifier = s.classifier := rfl
@[simp] theorem State.modNotices_stores (s : State) (f : NoticeQueue → NoticeQueue) : (s.modNotices f).stores = s.stores := rfl
@[simp] theorem State.modNotices_ports (s : State) (f : NoticeQueue → NoticeQueue) : (s.modNotices f).ports = s.ports := rfl
@[simp] theorem State.modNotices_nextSendId (s : State) (f : NoticeQueue → NoticeQueue) : (s.modNotices f).nextSendId = s.nextSendId := rfl
@[simp] theorem State.modNotices_ticks (s : State) (f : NoticeQueue → NoticeQueue) : (s.modNotices f).ticks = s.ticks := rfl

/-! ### State.modOps -/

@[simp] theorem State.modOps_pending (s : State) (f : OpTable → OpTable) : (s.modOps f).pending = s.pending := rfl
@[simp] theorem State.modOps_pins (s : State) (f : OpTable → OpTable) : (s.modOps f).pins = s.pins := rfl
@[simp] theorem State.modOps_timebase (s : State) (f : OpTable → OpTable) : (s.modOps f).timebase = s.timebase := rfl
@[simp] theorem State.modOps_link (s : State) (f : OpTable → OpTable) : (s.modOps f).link = s.link := rfl
@[simp] theorem State.modOps_notices (s : State) (f : OpTable → OpTable) : (s.modOps f).notices = s.notices := rfl
@[simp] theorem State.modOps_ops (s : State) (f : OpTable → OpTable) :
    (s.modOps f).ops = f s.ops := rfl
@[simp] theorem State.modOps_memory (s : State) (f : OpTable → OpTable) : (s.modOps f).memory = s.memory := rfl
@[simp] theorem State.modOps_classifier (s : State) (f : OpTable → OpTable) : (s.modOps f).classifier = s.classifier := rfl
@[simp] theorem State.modOps_stores (s : State) (f : OpTable → OpTable) : (s.modOps f).stores = s.stores := rfl
@[simp] theorem State.modOps_ports (s : State) (f : OpTable → OpTable) : (s.modOps f).ports = s.ports := rfl
@[simp] theorem State.modOps_nextSendId (s : State) (f : OpTable → OpTable) : (s.modOps f).nextSendId = s.nextSendId := rfl
@[simp] theorem State.modOps_ticks (s : State) (f : OpTable → OpTable) : (s.modOps f).ticks = s.ticks := rfl

/-! ### State.modMemory -/

@[simp] theorem State.modMemory_pending (s : State) (f : RecordMemory → RecordMemory) : (s.modMemory f).pending = s.pending := rfl
@[simp] theorem State.modMemory_pins (s : State) (f : RecordMemory → RecordMemory) : (s.modMemory f).pins = s.pins := rfl
@[simp] theorem State.modMemory_timebase (s : State) (f : RecordMemory → RecordMemory) : (s.modMemory f).timebase = s.timebase := rfl
@[simp] theorem State.modMemory_link (s : State) (f : RecordMemory → RecordMemory) : (s.modMemory f).link = s.link := rfl
@[simp] theorem State.modMemory_notices (s : State) (f : RecordMemory → RecordMemory) : (s.modMemory f).notices = s.notices := rfl
@[simp] theorem State.modMemory_ops (s : State) (f : RecordMemory → RecordMemory) : (s.modMemory f).ops = s.ops := rfl
@[simp] theorem State.modMemory_memory (s : State) (f : RecordMemory → RecordMemory) :
    (s.modMemory f).memory = f s.memory := rfl
@[simp] theorem State.modMemory_classifier (s : State) (f : RecordMemory → RecordMemory) : (s.modMemory f).classifier = s.classifier := rfl
@[simp] theorem State.modMemory_stores (s : State) (f : RecordMemory → RecordMemory) : (s.modMemory f).stores = s.stores := rfl
@[simp] theorem State.modMemory_ports (s : State) (f : RecordMemory → RecordMemory) : (s.modMemory f).ports = s.ports := rfl
@[simp] theorem State.modMemory_nextSendId (s : State) (f : RecordMemory → RecordMemory) : (s.modMemory f).nextSendId = s.nextSendId := rfl
@[simp] theorem State.modMemory_ticks (s : State) (f : RecordMemory → RecordMemory) : (s.modMemory f).ticks = s.ticks := rfl

/-! ### State.modClassifier -/

@[simp] theorem State.modClassifier_pending (s : State) (f : Classifier → Classifier) : (s.modClassifier f).pending = s.pending := rfl
@[simp] theorem State.modClassifier_pins (s : State) (f : Classifier → Classifier) : (s.modClassifier f).pins = s.pins := rfl
@[simp] theorem State.modClassifier_timebase (s : State) (f : Classifier → Classifier) : (s.modClassifier f).timebase = s.timebase := rfl
@[simp] theorem State.modClassifier_link (s : State) (f : Classifier → Classifier) : (s.modClassifier f).link = s.link := rfl
@[simp] theorem State.modClassifier_notices (s : State) (f : Classifier → Classifier) : (s.modClassifier f).notices = s.notices := rfl
@[simp] theorem State.modClassifier_ops (s : State) (f : Classifier → Classifier) : (s.modClassifier f).ops = s.ops := rfl
@[simp] theorem State.modClassifier_memory (s : State) (f : Classifier → Classifier) : (s.modClassifier f).memory = s.memory := rfl
@[simp] theorem State.modClassifier_classifier (s : State) (f : Classifier → Classifier) :
    (s.modClassifier f).classifier = f s.classifier := rfl
@[simp] theorem State.modClassifier_stores (s : State) (f : Classifier → Classifier) : (s.modClassifier f).stores = s.stores := rfl
@[simp] theorem State.modClassifier_ports (s : State) (f : Classifier → Classifier) : (s.modClassifier f).ports = s.ports := rfl
@[simp] theorem State.modClassifier_nextSendId (s : State) (f : Classifier → Classifier) : (s.modClassifier f).nextSendId = s.nextSendId := rfl
@[simp] theorem State.modClassifier_ticks (s : State) (f : Classifier → Classifier) : (s.modClassifier f).ticks = s.ticks := rfl

/-! ### State.count -/

@[simp] theorem State.count_pending (s : State) (p : PortId) (f : PortCounters → PortCounters) : (s.count p f).pending = s.pending := rfl
@[simp] theorem State.count_pins (s : State) (p : PortId) (f : PortCounters → PortCounters) : (s.count p f).pins = s.pins := rfl
@[simp] theorem State.count_timebase (s : State) (p : PortId) (f : PortCounters → PortCounters) : (s.count p f).timebase = s.timebase := rfl
@[simp] theorem State.count_link (s : State) (p : PortId) (f : PortCounters → PortCounters) : (s.count p f).link = s.link := rfl
@[simp] theorem State.count_notices (s : State) (p : PortId) (f : PortCounters → PortCounters) : (s.count p f).notices = s.notices := rfl
@[simp] theorem State.count_ops (s : State) (p : PortId) (f : PortCounters → PortCounters) : (s.count p f).ops = s.ops := rfl
@[simp] theorem State.count_memory (s : State) (p : PortId) (f : PortCounters → PortCounters) : (s.count p f).memory = s.memory := rfl
@[simp] theorem State.count_classifier (s : State) (p : PortId) (f : PortCounters → PortCounters) : (s.count p f).classifier = s.classifier := rfl
@[simp] theorem State.count_stores (s : State) (p : PortId) (f : PortCounters → PortCounters) : (s.count p f).stores = s.stores := rfl
@[simp] theorem State.count_nextSendId (s : State) (p : PortId) (f : PortCounters → PortCounters) : (s.count p f).nextSendId = s.nextSendId := rfl
@[simp] theorem State.count_ticks (s : State) (p : PortId) (f : PortCounters → PortCounters) : (s.count p f).ticks = s.ticks := rfl

/-! ### State.modFramer -/

@[simp] theorem State.modFramer_pending (s : State) (p : PortId) (f : Framer → Framer) : (s.modFramer p f).pending = s.pending := rfl
@[simp] theorem State.modFramer_pins (s : State) (p : PortId) (f : Framer → Framer) : (s.modFramer p f).pins = s.pins := rfl
@[simp] theorem State.modFramer_timebase (s : State) (p : PortId) (f : Framer → Framer) : (s.modFramer p f).timebase = s.timebase := rfl
@[simp] theorem State.modFramer_link (s : State) (p : PortId) (f : Framer → Framer) : (s.modFramer p f).link = s.link := rfl
@[simp] theorem State.modFramer_notices (s : State) (p : PortId) (f : Framer → Framer) : (s.modFramer p f).notices = s.notices := rfl
@[simp] theorem State.modFramer_ops (s : State) (p : PortId) (f : Framer → Framer) : (s.modFramer p f).ops = s.ops := rfl
@[simp] theorem State.modFramer_memory (s : State) (p : PortId) (f : Framer → Framer) : (s.modFramer p f).memory = s.memory := rfl
@[simp] theorem State.modFramer_classifier (s : State) (p : PortId) (f : Framer → Framer) : (s.modFramer p f).classifier = s.classifier := rfl
@[simp] theorem State.modFramer_stores (s : State) (p : PortId) (f : Framer → Framer) : (s.modFramer p f).stores = s.stores := rfl
@[simp] theorem State.modFramer_nextSendId (s : State) (p : PortId) (f : Framer → Framer) : (s.modFramer p f).nextSendId = s.nextSendId := rfl
@[simp] theorem State.modFramer_ticks (s : State) (p : PortId) (f : Framer → Framer) : (s.modFramer p f).ticks = s.ticks := rfl

/-! ### State.modEntry -/

@[simp] theorem State.modEntry_pending (s : State) (p : PortId) (id : Half) (f : SendEntry → SendEntry) : (s.modEntry p id f).pending = s.pending := rfl
@[simp] theorem State.modEntry_pins (s : State) (p : PortId) (id : Half) (f : SendEntry → SendEntry) : (s.modEntry p id f).pins = s.pins := rfl
@[simp] theorem State.modEntry_timebase (s : State) (p : PortId) (id : Half) (f : SendEntry → SendEntry) : (s.modEntry p id f).timebase = s.timebase := rfl
@[simp] theorem State.modEntry_link (s : State) (p : PortId) (id : Half) (f : SendEntry → SendEntry) : (s.modEntry p id f).link = s.link := rfl
@[simp] theorem State.modEntry_notices (s : State) (p : PortId) (id : Half) (f : SendEntry → SendEntry) : (s.modEntry p id f).notices = s.notices := rfl
@[simp] theorem State.modEntry_ops (s : State) (p : PortId) (id : Half) (f : SendEntry → SendEntry) : (s.modEntry p id f).ops = s.ops := rfl
@[simp] theorem State.modEntry_memory (s : State) (p : PortId) (id : Half) (f : SendEntry → SendEntry) : (s.modEntry p id f).memory = s.memory := rfl
@[simp] theorem State.modEntry_classifier (s : State) (p : PortId) (id : Half) (f : SendEntry → SendEntry) : (s.modEntry p id f).classifier = s.classifier := rfl
@[simp] theorem State.modEntry_stores (s : State) (p : PortId) (id : Half) (f : SendEntry → SendEntry) : (s.modEntry p id f).stores = s.stores := rfl
@[simp] theorem State.modEntry_nextSendId (s : State) (p : PortId) (id : Half) (f : SendEntry → SendEntry) : (s.modEntry p id f).nextSendId = s.nextSendId := rfl
@[simp] theorem State.modEntry_ticks (s : State) (p : PortId) (id : Half) (f : SendEntry → SendEntry) : (s.modEntry p id f).ticks = s.ticks := rfl

/-! ### State.modRule -/

@[simp] theorem State.modRule_pending (s : State) (r : RuleId) (f : Rule → Rule) : (s.modRule r f).pending = s.pending := rfl
@[simp] theorem State.modRule_pins (s : State) (r : RuleId) (f : Rule → Rule) : (s.modRule r f).pins = s.pins := rfl
@[simp] theorem State.modRule_timebase (s : State) (r : RuleId) (f : Rule → Rule) : (s.modRule r f).timebase = s.timebase := rfl
@[simp] theorem State.modRule_link (s : State) (r : RuleId) (f : Rule → Rule) : (s.modRule r f).link = s.link := rfl
@[simp] theorem State.modRule_notices (s : State) (r : RuleId) (f : Rule → Rule) : (s.modRule r f).notices = s.notices := rfl
@[simp] theorem State.modRule_ops (s : State) (r : RuleId) (f : Rule → Rule) : (s.modRule r f).ops = s.ops := rfl
@[simp] theorem State.modRule_memory (s : State) (r : RuleId) (f : Rule → Rule) : (s.modRule r f).memory = s.memory := rfl
@[simp] theorem State.modRule_classifier (s : State) (r : RuleId) (f : Rule → Rule) :
    (s.modRule r f).classifier = s.classifier.modRule r f := rfl
@[simp] theorem State.modRule_stores (s : State) (r : RuleId) (f : Rule → Rule) : (s.modRule r f).stores = s.stores := rfl
@[simp] theorem State.modRule_ports (s : State) (r : RuleId) (f : Rule → Rule) : (s.modRule r f).ports = s.ports := rfl
@[simp] theorem State.modRule_nextSendId (s : State) (r : RuleId) (f : Rule → Rule) : (s.modRule r f).nextSendId = s.nextSendId := rfl
@[simp] theorem State.modRule_ticks (s : State) (r : RuleId) (f : Rule → Rule) : (s.modRule r f).ticks = s.ticks := rfl

/-! ### State.modCurrent -/

@[simp] theorem State.modCurrent_pending (s : State) (f : Classification → Classification) : (s.modCurrent f).pending = s.pending := rfl
@[simp] theorem State.modCurrent_pins (s : State) (f : Classification → Classification) : (s.modCurrent f).pins = s.pins := rfl
@[simp] theorem State.modCurrent_timebase (s : State) (f : Classification → Classification) : (s.modCurrent f).timebase = s.timebase := rfl
@[simp] theorem State.modCurrent_link (s : State) (f : Classification → Classification) : (s.modCurrent f).link = s.link := rfl
@[simp] theorem State.modCurrent_notices (s : State) (f : Classification → Classification) : (s.modCurrent f).notices = s.notices := rfl
@[simp] theorem State.modCurrent_ops (s : State) (f : Classification → Classification) : (s.modCurrent f).ops = s.ops := rfl
@[simp] theorem State.modCurrent_memory (s : State) (f : Classification → Classification) : (s.modCurrent f).memory = s.memory := rfl
@[simp] theorem State.modCurrent_classifier (s : State) (f : Classification → Classification) :
    (s.modCurrent f).classifier = { s.classifier with current := s.classifier.current.map f } := rfl
@[simp] theorem State.modCurrent_stores (s : State) (f : Classification → Classification) : (s.modCurrent f).stores = s.stores := rfl
@[simp] theorem State.modCurrent_ports (s : State) (f : Classification → Classification) : (s.modCurrent f).ports = s.ports := rfl
@[simp] theorem State.modCurrent_nextSendId (s : State) (f : Classification → Classification) : (s.modCurrent f).nextSendId = s.nextSendId := rfl
@[simp] theorem State.modCurrent_ticks (s : State) (f : Classification → Classification) : (s.modCurrent f).ticks = s.ticks := rfl

/-! ### State.setReceiver -/

@[simp] theorem State.setReceiver_pending (s : State) (r : Receiver) : (s.setReceiver r).pending = s.pending := rfl
@[simp] theorem State.setReceiver_pins (s : State) (r : Receiver) : (s.setReceiver r).pins = s.pins := rfl
@[simp] theorem State.setReceiver_timebase (s : State) (r : Receiver) : (s.setReceiver r).timebase = s.timebase := rfl
@[simp] theorem State.setReceiver_link (s : State) (r : Receiver) :
    (s.setReceiver r).link = { s.link with receiver := r } := rfl
@[simp] theorem State.setReceiver_notices (s : State) (r : Receiver) : (s.setReceiver r).notices = s.notices := rfl
@[simp] theorem State.setReceiver_ops (s : State) (r : Receiver) : (s.setReceiver r).ops = s.ops := rfl
@[simp] theorem State.setReceiver_memory (s : State) (r : Receiver) : (s.setReceiver r).memory = s.memory := rfl
@[simp] theorem State.setReceiver_classifier (s : State) (r : Receiver) : (s.setReceiver r).classifier = s.classifier := rfl
@[simp] theorem State.setReceiver_stores (s : State) (r : Receiver) : (s.setReceiver r).stores = s.stores := rfl
@[simp] theorem State.setReceiver_ports (s : State) (r : Receiver) : (s.setReceiver r).ports = s.ports := rfl
@[simp] theorem State.setReceiver_nextSendId (s : State) (r : Receiver) : (s.setReceiver r).nextSendId = s.nextSendId := rfl
@[simp] theorem State.setReceiver_ticks (s : State) (r : Receiver) : (s.setReceiver r).ticks = s.ticks := rfl

/-! ### State.countLink -/

@[simp] theorem State.countLink_pending (s : State) (f : LinkCounters → LinkCounters) : (s.countLink f).pending = s.pending := rfl
@[simp] theorem State.countLink_pins (s : State) (f : LinkCounters → LinkCounters) : (s.countLink f).pins = s.pins := rfl
@[simp] theorem State.countLink_timebase (s : State) (f : LinkCounters → LinkCounters) : (s.countLink f).timebase = s.timebase := rfl
@[simp] theorem State.countLink_link (s : State) (f : LinkCounters → LinkCounters) :
    (s.countLink f).link = { s.link with counters := f s.link.counters } := rfl
@[simp] theorem State.countLink_notices (s : State) (f : LinkCounters → LinkCounters) : (s.countLink f).notices = s.notices := rfl
@[simp] theorem State.countLink_ops (s : State) (f : LinkCounters → LinkCounters) : (s.countLink f).ops = s.ops := rfl
@[simp] theorem State.countLink_memory (s : State) (f : LinkCounters → LinkCounters) : (s.countLink f).memory = s.memory := rfl
@[simp] theorem State.countLink_classifier (s : State) (f : LinkCounters → LinkCounters) : (s.countLink f).classifier = s.classifier := rfl
@[simp] theorem State.countLink_stores (s : State) (f : LinkCounters → LinkCounters) : (s.countLink f).stores = s.stores := rfl
@[simp] theorem State.countLink_ports (s : State) (f : LinkCounters → LinkCounters) : (s.countLink f).ports = s.ports := rfl
@[simp] theorem State.countLink_nextSendId (s : State) (f : LinkCounters → LinkCounters) : (s.countLink f).nextSendId = s.nextSendId := rfl
@[simp] theorem State.countLink_ticks (s : State) (f : LinkCounters → LinkCounters) : (s.countLink f).ticks = s.ticks := rfl

/-! ### State.raise -/

@[simp] theorem State.raise_pending (s : State) (k : NoticeKind) (subject : Nat) (d : Detail) : (s.raise k subject d).pending = s.pending := rfl
@[simp] theorem State.raise_pins (s : State) (k : NoticeKind) (subject : Nat) (d : Detail) : (s.raise k subject d).pins = s.pins := rfl
@[simp] theorem State.raise_timebase (s : State) (k : NoticeKind) (subject : Nat) (d : Detail) : (s.raise k subject d).timebase = s.timebase := rfl
@[simp] theorem State.raise_link (s : State) (k : NoticeKind) (subject : Nat) (d : Detail) : (s.raise k subject d).link = s.link := rfl
@[simp] theorem State.raise_notices (s : State) (k : NoticeKind) (subject : Nat) (d : Detail) :
    (s.raise k subject d).notices = s.notices.raise k subject d s.timebase := rfl
@[simp] theorem State.raise_ops (s : State) (k : NoticeKind) (subject : Nat) (d : Detail) : (s.raise k subject d).ops = s.ops := rfl
@[simp] theorem State.raise_memory (s : State) (k : NoticeKind) (subject : Nat) (d : Detail) : (s.raise k subject d).memory = s.memory := rfl
@[simp] theorem State.raise_classifier (s : State) (k : NoticeKind) (subject : Nat) (d : Detail) : (s.raise k subject d).classifier = s.classifier := rfl
@[simp] theorem State.raise_stores (s : State) (k : NoticeKind) (subject : Nat) (d : Detail) : (s.raise k subject d).stores = s.stores := rfl
@[simp] theorem State.raise_ports (s : State) (k : NoticeKind) (subject : Nat) (d : Detail) : (s.raise k subject d).ports = s.ports := rfl
@[simp] theorem State.raise_nextSendId (s : State) (k : NoticeKind) (subject : Nat) (d : Detail) : (s.raise k subject d).nextSendId = s.nextSendId := rfl
@[simp] theorem State.raise_ticks (s : State) (k : NoticeKind) (subject : Nat) (d : Detail) : (s.raise k subject d).ticks = s.ticks := rfl

/-! ### State.acquire -/

@[simp] theorem State.acquire_pending (s : State) (d : DescId) : (s.acquire d).pending = s.pending := rfl
@[simp] theorem State.acquire_pins (s : State) (d : DescId) : (s.acquire d).pins = s.pins := rfl
@[simp] theorem State.acquire_timebase (s : State) (d : DescId) : (s.acquire d).timebase = s.timebase := rfl
@[simp] theorem State.acquire_link (s : State) (d : DescId) : (s.acquire d).link = s.link := rfl
@[simp] theorem State.acquire_notices (s : State) (d : DescId) : (s.acquire d).notices = s.notices := rfl
@[simp] theorem State.acquire_ops (s : State) (d : DescId) : (s.acquire d).ops = s.ops := rfl
@[simp] theorem State.acquire_memory (s : State) (d : DescId) :
    (s.acquire d).memory = s.memory.modDesc d fun x => { x with refs := x.refs + 1 } := rfl
@[simp] theorem State.acquire_classifier (s : State) (d : DescId) : (s.acquire d).classifier = s.classifier := rfl
@[simp] theorem State.acquire_stores (s : State) (d : DescId) : (s.acquire d).stores = s.stores := rfl
@[simp] theorem State.acquire_ports (s : State) (d : DescId) : (s.acquire d).ports = s.ports := rfl
@[simp] theorem State.acquire_nextSendId (s : State) (d : DescId) : (s.acquire d).nextSendId = s.nextSendId := rfl
@[simp] theorem State.acquire_ticks (s : State) (d : DescId) : (s.acquire d).ticks = s.ticks := rfl

/-! ### State.release -/

@[simp] theorem State.release_pending (s : State) (d : DescId) : (s.release d).pending = s.pending := rfl
@[simp] theorem State.release_pins (s : State) (d : DescId) : (s.release d).pins = s.pins := rfl
@[simp] theorem State.release_timebase (s : State) (d : DescId) : (s.release d).timebase = s.timebase := rfl
@[simp] theorem State.release_link (s : State) (d : DescId) : (s.release d).link = s.link := rfl
@[simp] theorem State.release_notices (s : State) (d : DescId) : (s.release d).notices = s.notices := rfl
@[simp] theorem State.release_ops (s : State) (d : DescId) : (s.release d).ops = s.ops := rfl
@[simp] theorem State.release_memory (s : State) (d : DescId) :
    (s.release d).memory = s.memory.release d := rfl
@[simp] theorem State.release_classifier (s : State) (d : DescId) : (s.release d).classifier = s.classifier := rfl
@[simp] theorem State.release_stores (s : State) (d : DescId) : (s.release d).stores = s.stores := rfl
@[simp] theorem State.release_ports (s : State) (d : DescId) : (s.release d).ports = s.ports := rfl
@[simp] theorem State.release_nextSendId (s : State) (d : DescId) : (s.release d).nextSendId = s.nextSendId := rfl
@[simp] theorem State.release_ticks (s : State) (d : DescId) : (s.release d).ticks = s.ticks := rfl

/-! ### State.releaseDir -/

@[simp] theorem State.releaseDir_pending (s : State) (p : PortId) : (s.releaseDir p).pending = s.pending := rfl
@[simp] theorem State.releaseDir_pins (s : State) (p : PortId) : (s.releaseDir p).pins = s.pins := rfl
@[simp] theorem State.releaseDir_timebase (s : State) (p : PortId) : (s.releaseDir p).timebase = s.timebase := rfl
@[simp] theorem State.releaseDir_link (s : State) (p : PortId) : (s.releaseDir p).link = s.link := rfl
@[simp] theorem State.releaseDir_notices (s : State) (p : PortId) : (s.releaseDir p).notices = s.notices := rfl
@[simp] theorem State.releaseDir_ops (s : State) (p : PortId) : (s.releaseDir p).ops = s.ops := rfl
@[simp] theorem State.releaseDir_memory (s : State) (p : PortId) : (s.releaseDir p).memory = s.memory := rfl
@[simp] theorem State.releaseDir_classifier (s : State) (p : PortId) : (s.releaseDir p).classifier = s.classifier := rfl
@[simp] theorem State.releaseDir_stores (s : State) (p : PortId) : (s.releaseDir p).stores = s.stores := rfl
@[simp] theorem State.releaseDir_nextSendId (s : State) (p : PortId) : (s.releaseDir p).nextSendId = s.nextSendId := rfl
@[simp] theorem State.releaseDir_ticks (s : State) (p : PortId) : (s.releaseDir p).ticks = s.ticks := rfl

/-! ### State.countRefused -/

@[simp] theorem State.countRefused_pending (s : State) (r : RuleId) : (s.countRefused r).pending = s.pending := rfl
@[simp] theorem State.countRefused_pins (s : State) (r : RuleId) : (s.countRefused r).pins = s.pins := rfl
@[simp] theorem State.countRefused_timebase (s : State) (r : RuleId) : (s.countRefused r).timebase = s.timebase := rfl
@[simp] theorem State.countRefused_link (s : State) (r : RuleId) : (s.countRefused r).link = s.link := rfl
@[simp] theorem State.countRefused_notices (s : State) (r : RuleId) : (s.countRefused r).notices = s.notices := rfl
@[simp] theorem State.countRefused_ops (s : State) (r : RuleId) : (s.countRefused r).ops = s.ops := rfl
@[simp] theorem State.countRefused_memory (s : State) (r : RuleId) : (s.countRefused r).memory = s.memory := rfl
@[simp] theorem State.countRefused_classifier (s : State) (r : RuleId) :
    (s.countRefused r).classifier = s.classifier.modRule r fun x => { x with refused := sat32 (x.refused + 1) } := rfl
@[simp] theorem State.countRefused_stores (s : State) (r : RuleId) : (s.countRefused r).stores = s.stores := rfl
@[simp] theorem State.countRefused_ports (s : State) (r : RuleId) : (s.countRefused r).ports = s.ports := rfl
@[simp] theorem State.countRefused_nextSendId (s : State) (r : RuleId) : (s.countRefused r).nextSendId = s.nextSendId := rfl
@[simp] theorem State.countRefused_ticks (s : State) (r : RuleId) : (s.countRefused r).ticks = s.ticks := rfl

/-! ### Reading one of a fixed collection -/

theorem vector_get_set {α : Type} {n : Nat} (v : Vector α n) (i j : Fin n) (x : α) :
    (v.set i.val x i.isLt).get j = if j = i then x else v.get j := by
  simp only [Vector.get_eq_getElem, Vector.getElem_set]
  by_cases h : j = i
  · subst h; simp
  · have : i.val ≠ j.val := fun e => h (Fin.ext e.symm)
    simp [h, this]

theorem State.port_modPort (s : State) (p q : PortId) (f : Port → Port) :
    (s.modPort p f).port q = if q = p then f (s.port p) else s.port q :=
  vector_get_set s.ports p q (f (s.port p))

@[simp] theorem State.port_modPort_same (s : State) (p : PortId) (f : Port → Port) :
    (s.modPort p f).port p = f (s.port p) := by simp [State.port_modPort]

/-- Two changes of one port are one. -/
@[simp] theorem State.modPort_modPort (s : State) (p : PortId) (f g : Port → Port) :
    (s.modPort p f).modPort p g = s.modPort p fun q => g (f q) := by
  have h : (s.modPort p f).port p = f (s.port p) := s.port_modPort_same p f
  simp only [State.modPort] at h ⊢
  rw [h]
  simp [Vector.set]

/-- A change of a port depends on what it makes of that port alone. -/
theorem State.modPort_congr (s : State) (p : PortId) {f g : Port → Port} (h : f (s.port p) = g (s.port p)) :
    s.modPort p f = s.modPort p g := by simp only [State.modPort, h]

theorem State.port_modPort_other (s : State) {p q : PortId} (f : Port → Port) (h : q ≠ p) :
    (s.modPort p f).port q = s.port q := by simp [State.port_modPort, h]

theorem State.store_modStore (s : State) (i j : StoreId) (f : Store → Store) :
    (s.modStore i f).store j = if j = i then f (s.store i) else s.store j :=
  vector_get_set s.stores i j (f (s.store i))

@[simp] theorem State.store_modStore_same (s : State) (i : StoreId) (f : Store → Store) :
    (s.modStore i f).store i = f (s.store i) := by simp [State.store_modStore]

theorem State.store_modStore_other (s : State) {i j : StoreId} (f : Store → Store) (h : j ≠ i) :
    (s.modStore i f).store j = s.store j := by simp [State.store_modStore, h]

theorem RecordMemory.desc_modDesc (m : RecordMemory) (d e : DescId) (f : Descriptor → Descriptor) :
    (m.modDesc d f).desc e = if e = d then f (m.desc d) else m.desc e :=
  vector_get_set m.descs d e (f (m.desc d))

@[simp] theorem RecordMemory.desc_modDesc_same (m : RecordMemory) (d : DescId) (f : Descriptor → Descriptor) :
    (m.modDesc d f).desc d = f (m.desc d) := by simp [RecordMemory.desc_modDesc]

theorem Classifier.rule_modRule (c : Classifier) (r x : RuleId) (f : Rule → Rule) :
    (c.modRule r f).rule x = if x = r then f (c.rule r) else c.rule x :=
  vector_get_set c.rules r x (f (c.rule r))

theorem Classifier.chain_setChain (c : Classifier) (p q : PortId) (l : List RuleId) :
    (c.setChain p l).chain q = if q = p then l else c.chain q :=
  vector_get_set c.chains p q l

@[simp] theorem Classifier.chain_modRule (c : Classifier) (r : RuleId) (f : Rule → Rule) (p : PortId) :
    (c.modRule r f).chain p = c.chain p := rfl

@[simp] theorem Classifier.rule_setChain (c : Classifier) (p : PortId) (l : List RuleId) (r : RuleId) :
    (c.setChain p l).rule r = c.rule r := rfl

@[simp] theorem RecordMemory.modDesc_cells (m : RecordMemory) (d : DescId) (f : Descriptor → Descriptor) :
    (m.modDesc d f).cells = m.cells := rfl
@[simp] theorem RecordMemory.modDesc_bad (m : RecordMemory) (d : DescId) (f : Descriptor → Descriptor) :
    (m.modDesc d f).bad = m.bad := rfl
@[simp] theorem RecordMemory.modDesc_free (m : RecordMemory) (d : DescId) (f : Descriptor → Descriptor) :
    (m.modDesc d f).free = m.free := rfl
@[simp] theorem RecordMemory.modDesc_lowWater (m : RecordMemory) (d : DescId) (f : Descriptor → Descriptor) :
    (m.modDesc d f).lowWater = m.lowWater := rfl
@[simp] theorem RecordMemory.modDesc_threshold (m : RecordMemory) (d : DescId) (f : Descriptor → Descriptor) :
    (m.modDesc d f).threshold = m.threshold := rfl
@[simp] theorem RecordMemory.modDesc_armed (m : RecordMemory) (d : DescId) (f : Descriptor → Descriptor) :
    (m.modDesc d f).armed = m.armed := rfl
@[simp] theorem RecordMemory.modDesc_counters (m : RecordMemory) (d : DescId) (f : Descriptor → Descriptor) :
    (m.modDesc d f).counters = m.counters := rfl
@[simp] theorem State.store_modPort (s : State) (p : PortId) (f : Port → Port) (x : StoreId) :
    (s.modPort p f).store x = s.store x := rfl
@[simp] theorem State.port_modStore (s : State) (i : StoreId) (f : Store → Store) (x : PortId) :
    (s.modStore i f).port x = s.port x := rfl
@[simp] theorem State.port_modLink (s : State) (f : Link → Link) (x : PortId) :
    (s.modLink f).port x = s.port x := rfl
@[simp] theorem State.store_modLink (s : State) (f : Link → Link) (x : StoreId) :
    (s.modLink f).store x = s.store x := rfl
@[simp] theorem State.port_modNotices (s : State) (f : NoticeQueue → NoticeQueue) (x : PortId) :
    (s.modNotices f).port x = s.port x := rfl
@[simp] theorem State.store_modNotices (s : State) (f : NoticeQueue → NoticeQueue) (x : StoreId) :
    (s.modNotices f).store x = s.store x := rfl
@[simp] theorem State.port_modOps (s : State) (f : OpTable → OpTable) (x : PortId) :
    (s.modOps f).port x = s.port x := rfl
@[simp] theorem State.store_modOps (s : State) (f : OpTable → OpTable) (x : StoreId) :
    (s.modOps f).store x = s.store x := rfl
@[simp] theorem State.port_modMemory (s : State) (f : RecordMemory → RecordMemory) (x : PortId) :
    (s.modMemory f).port x = s.port x := rfl
@[simp] theorem State.store_modMemory (s : State) (f : RecordMemory → RecordMemory) (x : StoreId) :
    (s.modMemory f).store x = s.store x := rfl
@[simp] theorem State.port_modClassifier (s : State) (f : Classifier → Classifier) (x : PortId) :
    (s.modClassifier f).port x = s.port x := rfl
@[simp] theorem State.store_modClassifier (s : State) (f : Classifier → Classifier) (x : StoreId) :
    (s.modClassifier f).store x = s.store x := rfl
@[simp] theorem State.store_count (s : State) (p : PortId) (f : PortCounters → PortCounters) (x : StoreId) :
    (s.count p f).store x = s.store x := rfl
@[simp] theorem State.store_modFramer (s : State) (p : PortId) (f : Framer → Framer) (x : StoreId) :
    (s.modFramer p f).store x = s.store x := rfl
@[simp] theorem State.store_modEntry (s : State) (p : PortId) (id : Half) (f : SendEntry → SendEntry) (x : StoreId) :
    (s.modEntry p id f).store x = s.store x := rfl
@[simp] theorem State.port_modRule (s : State) (r : RuleId) (f : Rule → Rule) (x : PortId) :
    (s.modRule r f).port x = s.port x := rfl
@[simp] theorem State.store_modRule (s : State) (r : RuleId) (f : Rule → Rule) (x : StoreId) :
    (s.modRule r f).store x = s.store x := rfl
@[simp] theorem State.port_modCurrent (s : State) (f : Classification → Classification) (x : PortId) :
    (s.modCurrent f).port x = s.port x := rfl
@[simp] theorem State.store_modCurrent (s : State) (f : Classification → Classification) (x : StoreId) :
    (s.modCurrent f).store x = s.store x := rfl
@[simp] theorem State.port_setReceiver (s : State) (r : Receiver) (x : PortId) :
    (s.setReceiver r).port x = s.port x := rfl
@[simp] theorem State.store_setReceiver (s : State) (r : Receiver) (x : StoreId) :
    (s.setReceiver r).store x = s.store x := rfl
@[simp] theorem State.port_countLink (s : State) (f : LinkCounters → LinkCounters) (x : PortId) :
    (s.countLink f).port x = s.port x := rfl
@[simp] theorem State.store_countLink (s : State) (f : LinkCounters → LinkCounters) (x : StoreId) :
    (s.countLink f).store x = s.store x := rfl
@[simp] theorem State.port_raise (s : State) (k : NoticeKind) (subject : Nat) (d : Detail) (x : PortId) :
    (s.raise k subject d).port x = s.port x := rfl
@[simp] theorem State.store_raise (s : State) (k : NoticeKind) (subject : Nat) (d : Detail) (x : StoreId) :
    (s.raise k subject d).store x = s.store x := rfl
@[simp] theorem State.port_acquire (s : State) (d : DescId) (x : PortId) :
    (s.acquire d).port x = s.port x := rfl
@[simp] theorem State.store_acquire (s : State) (d : DescId) (x : StoreId) :
    (s.acquire d).store x = s.store x := rfl
@[simp] theorem State.port_release (s : State) (d : DescId) (x : PortId) :
    (s.release d).port x = s.port x := rfl
@[simp] theorem State.store_release (s : State) (d : DescId) (x : StoreId) :
    (s.release d).store x = s.store x := rfl
@[simp] theorem State.store_releaseDir (s : State) (p : PortId) (x : StoreId) :
    (s.releaseDir p).store x = s.store x := rfl
@[simp] theorem State.port_countRefused (s : State) (r : RuleId) (x : PortId) :
    (s.countRefused r).port x = s.port x := rfl
@[simp] theorem State.store_countRefused (s : State) (r : RuleId) (x : StoreId) :
    (s.countRefused r).store x = s.store x := rfl

end Sys2Proof.Machine
end

