-- ==== Sys2Proof/Laws/Frames.lean ====
section
/-! SUPPORT. What the shared operations leave unchanged: for each, one lemma that lists the fields of the state
that it never changes. -/

namespace Sys2Proof.Machine

@[simp] theorem State.judgeLow_frame (s : State) (n : Nat) :
    (s.judgeLow n).pending = s.pending ∧ (s.judgeLow n).pins = s.pins ∧
    (s.judgeLow n).timebase = s.timebase ∧ (s.judgeLow n).link = s.link ∧ (s.judgeLow n).ops = s.ops ∧
    (s.judgeLow n).classifier = s.classifier ∧ (s.judgeLow n).stores = s.stores ∧
    (s.judgeLow n).ports = s.ports ∧ (s.judgeLow n).nextSendId = s.nextSendId ∧
    (s.judgeLow n).ticks = s.ticks := by
  simp only [State.judgeLow]
  (repeat' split) <;> simp

@[simp] theorem State.takeBlocks_frame (s : State) (d : DescId) (n : Nat) :
    (s.takeBlocks d n).pending = s.pending ∧ (s.takeBlocks d n).pins = s.pins ∧
    (s.takeBlocks d n).timebase = s.timebase ∧ (s.takeBlocks d n).link = s.link ∧
    (s.takeBlocks d n).ops = s.ops ∧ (s.takeBlocks d n).classifier = s.classifier ∧
    (s.takeBlocks d n).stores = s.stores ∧ (s.takeBlocks d n).ports = s.ports ∧
    (s.takeBlocks d n).nextSendId = s.nextSendId ∧ (s.takeBlocks d n).ticks = s.ticks := by
  simp only [State.takeBlocks]
  simp

@[simp] theorem State.releaseAll_frame (s : State) (ds : List DescId) :
    (s.releaseAll ds).pending = s.pending ∧ (s.releaseAll ds).pins = s.pins ∧
    (s.releaseAll ds).timebase = s.timebase ∧ (s.releaseAll ds).link = s.link ∧
    (s.releaseAll ds).notices = s.notices ∧ (s.releaseAll ds).ops = s.ops ∧
    (s.releaseAll ds).classifier = s.classifier ∧ (s.releaseAll ds).stores = s.stores ∧
    (s.releaseAll ds).ports = s.ports ∧ (s.releaseAll ds).nextSendId = s.nextSendId ∧
    (s.releaseAll ds).ticks = s.ticks := by
  induction ds generalizing s with
  | nil => simp [State.releaseAll]
  | cons d ds ih => simpa [State.releaseAll] using ih (s.release d)

@[simp] theorem State.storeByte_frame (s : State) (d : DescId) (v : Byte) :
    ((s.storeByte d v).2).pending = s.pending ∧ ((s.storeByte d v).2).pins = s.pins ∧
    ((s.storeByte d v).2).timebase = s.timebase ∧ ((s.storeByte d v).2).link = s.link ∧
    ((s.storeByte d v).2).ops = s.ops ∧ ((s.storeByte d v).2).classifier = s.classifier ∧
    ((s.storeByte d v).2).stores = s.stores ∧ ((s.storeByte d v).2).ports = s.ports ∧
    ((s.storeByte d v).2).nextSendId = s.nextSendId ∧ ((s.storeByte d v).2).ticks = s.ticks := by
  simp only [State.storeByte]
  (repeat' split) <;> simp

@[simp] theorem State.fill_frame (s : State) (bs : List Byte) :
    ((s.fill bs).2).pending = s.pending ∧ ((s.fill bs).2).pins = s.pins ∧
    ((s.fill bs).2).timebase = s.timebase ∧ ((s.fill bs).2).link = s.link ∧
    ((s.fill bs).2).ops = s.ops ∧ ((s.fill bs).2).classifier = s.classifier ∧
    ((s.fill bs).2).stores = s.stores ∧ ((s.fill bs).2).ports = s.ports ∧
    ((s.fill bs).2).nextSendId = s.nextSendId ∧ ((s.fill bs).2).ticks = s.ticks := by
  simp only [State.fill]
  (repeat' split) <;> simp

@[simp] theorem State.checkBlock_frame (s : State) (d : DescId) (b : BlockId) :
    (s.checkBlock d b).pending = s.pending ∧ (s.checkBlock d b).pins = s.pins ∧
    (s.checkBlock d b).timebase = s.timebase ∧ (s.checkBlock d b).link = s.link ∧
    (s.checkBlock d b).ops = s.ops ∧ (s.checkBlock d b).classifier = s.classifier ∧
    (s.checkBlock d b).stores = s.stores ∧ (s.checkBlock d b).ports = s.ports ∧
    (s.checkBlock d b).nextSendId = s.nextSendId ∧ (s.checkBlock d b).ticks = s.ticks := by
  simp only [State.checkBlock]
  (repeat' split) <;> simp

@[simp] theorem State.checkBlocks_frame (s : State) (d : DescId) (bs : List BlockId) :
    (s.checkBlocks d bs).pending = s.pending ∧ (s.checkBlocks d bs).pins = s.pins ∧
    (s.checkBlocks d bs).timebase = s.timebase ∧ (s.checkBlocks d bs).link = s.link ∧
    (s.checkBlocks d bs).ops = s.ops ∧ (s.checkBlocks d bs).classifier = s.classifier ∧
    (s.checkBlocks d bs).stores = s.stores ∧ (s.checkBlocks d bs).ports = s.ports ∧
    (s.checkBlocks d bs).nextSendId = s.nextSendId ∧ (s.checkBlocks d bs).ticks = s.ticks := by
  induction bs generalizing s with
  | nil => simp [State.checkBlocks]
  | cons b bs ih => simpa [State.checkBlocks] using ih (s.checkBlock d b)

@[simp] theorem State.makeEntry_frame (s : State) (p : PortId) (o : SendOrigin) (c : Fin 4) (ttl : Nat) (d : DescId) (rep : Bool) (tag : Option Byte) :
    ((s.makeEntry p o c ttl d rep tag).2).pending = s.pending ∧
    ((s.makeEntry p o c ttl d rep tag).2).pins = s.pins ∧
    ((s.makeEntry p o c ttl d rep tag).2).timebase = s.timebase ∧
    ((s.makeEntry p o c ttl d rep tag).2).link = s.link ∧
    ((s.makeEntry p o c ttl d rep tag).2).notices = s.notices ∧
    ((s.makeEntry p o c ttl d rep tag).2).ops = s.ops ∧
    ((s.makeEntry p o c ttl d rep tag).2).memory = s.memory ∧
    ((s.makeEntry p o c ttl d rep tag).2).classifier = s.classifier ∧
    ((s.makeEntry p o c ttl d rep tag).2).stores = s.stores ∧
    ((s.makeEntry p o c ttl d rep tag).2).ticks = s.ticks := by
  simp [State.makeEntry]

@[simp] theorem State.completeDrain_frame (s : State) (p : PortId) (st : OpStatus) (n : Nat) (b : Bool) :
    (s.completeDrain p st n b).pending = s.pending ∧ (s.completeDrain p st n b).pins = s.pins ∧
    (s.completeDrain p st n b).timebase = s.timebase ∧ (s.completeDrain p st n b).link = s.link ∧
    (s.completeDrain p st n b).notices = s.notices ∧ (s.completeDrain p st n b).memory = s.memory ∧
    (s.completeDrain p st n b).classifier = s.classifier ∧
    (s.completeDrain p st n b).stores = s.stores ∧
    (s.completeDrain p st n b).nextSendId = s.nextSendId ∧ (s.completeDrain p st n b).ticks = s.ticks := by
  simp [State.completeDrain]

@[simp] theorem State.countDrained_frame (s : State) (p : PortId) :
    (s.countDrained p).pending = s.pending ∧ (s.countDrained p).pins = s.pins ∧
    (s.countDrained p).timebase = s.timebase ∧ (s.countDrained p).link = s.link ∧
    (s.countDrained p).notices = s.notices ∧ (s.countDrained p).memory = s.memory ∧
    (s.countDrained p).classifier = s.classifier ∧ (s.countDrained p).stores = s.stores ∧
    (s.countDrained p).ports = s.ports ∧ (s.countDrained p).nextSendId = s.nextSendId ∧
    (s.countDrained p).ticks = s.ticks := by
  simp [State.countDrained]

@[simp] theorem State.endEntry_frame (s : State) (p : PortId) (e : SendEntry) (st : SendStatus) (b j : Bool) :
    (s.endEntry p e st b j).pending = s.pending ∧ (s.endEntry p e st b j).pins = s.pins ∧
    (s.endEntry p e st b j).timebase = s.timebase ∧ (s.endEntry p e st b j).link = s.link ∧
    (s.endEntry p e st b j).classifier = s.classifier ∧ (s.endEntry p e st b j).stores = s.stores ∧
    (s.endEntry p e st b j).nextSendId = s.nextSendId ∧ (s.endEntry p e st b j).ticks = s.ticks := by
  simp only [State.endEntry]
  (repeat' split) <;> simp

@[simp] theorem State.holdOrEnd_frame (s : State) (p : PortId) (e : SendEntry) (st : SendStatus) :
    (s.holdOrEnd p e st).pending = s.pending ∧ (s.holdOrEnd p e st).pins = s.pins ∧
    (s.holdOrEnd p e st).timebase = s.timebase ∧ (s.holdOrEnd p e st).link = s.link ∧
    (s.holdOrEnd p e st).classifier = s.classifier ∧ (s.holdOrEnd p e st).stores = s.stores ∧
    (s.holdOrEnd p e st).nextSendId = s.nextSendId ∧ (s.holdOrEnd p e st).ticks = s.ticks := by
  simp only [State.holdOrEnd]
  (repeat' split) <;> simp

@[simp] theorem State.beginCharacter_frame (s : State) (p : PortId) (e : SendEntry) (k : Nat) :
    (s.beginCharacter p e k).pending = s.pending ∧ (s.beginCharacter p e k).pins = s.pins ∧
    (s.beginCharacter p e k).timebase = s.timebase ∧ (s.beginCharacter p e k).link = s.link ∧
    (s.beginCharacter p e k).classifier = s.classifier ∧ (s.beginCharacter p e k).stores = s.stores ∧
    (s.beginCharacter p e k).nextSendId = s.nextSendId ∧ (s.beginCharacter p e k).ticks = s.ticks := by
  simp only [State.beginCharacter]
  (repeat' split) <;> simp

@[simp] theorem State.startEntry_frame (s : State) (p : PortId) (e : SendEntry) :
    (s.startEntry p e).pending = s.pending ∧ (s.startEntry p e).pins = s.pins ∧
    (s.startEntry p e).timebase = s.timebase ∧ (s.startEntry p e).link = s.link ∧
    (s.startEntry p e).classifier = s.classifier ∧ (s.startEntry p e).stores = s.stores ∧
    (s.startEntry p e).nextSendId = s.nextSendId ∧ (s.startEntry p e).ticks = s.ticks := by
  simp only [State.startEntry]
  (repeat' split) <;> simp

@[simp] theorem State.stopEntry_frame (s : State) (p : PortId) (e : SendEntry) :
    (State.stopEntry p s e).pending = s.pending ∧ (State.stopEntry p s e).pins = s.pins ∧
    (State.stopEntry p s e).timebase = s.timebase ∧ (State.stopEntry p s e).link = s.link ∧
    (State.stopEntry p s e).classifier = s.classifier ∧ (State.stopEntry p s e).stores = s.stores ∧
    (State.stopEntry p s e).nextSendId = s.nextSendId ∧ (State.stopEntry p s e).ticks = s.ticks := by
  simp only [State.stopEntry]
  (repeat' split) <;> simp

@[simp] theorem State.dropFrame_frame (s : State) (p : PortId) :
    (s.dropFrame p).pending = s.pending ∧ (s.dropFrame p).pins = s.pins ∧
    (s.dropFrame p).timebase = s.timebase ∧ (s.dropFrame p).link = s.link ∧
    (s.dropFrame p).notices = s.notices ∧ (s.dropFrame p).ops = s.ops ∧
    (s.dropFrame p).classifier = s.classifier ∧ (s.dropFrame p).stores = s.stores ∧
    (s.dropFrame p).nextSendId = s.nextSendId ∧ (s.dropFrame p).ticks = s.ticks := by
  simp only [State.dropFrame]
  (repeat' split) <;> simp

@[simp] theorem State.discardFrame_frame (s : State) (p : PortId) (c : DiscardCause) :
    (s.discardFrame p c).pending = s.pending ∧ (s.discardFrame p c).pins = s.pins ∧
    (s.discardFrame p c).timebase = s.timebase ∧ (s.discardFrame p c).link = s.link ∧
    (s.discardFrame p c).notices = s.notices ∧ (s.discardFrame p c).ops = s.ops ∧
    (s.discardFrame p c).classifier = s.classifier ∧ (s.discardFrame p c).stores = s.stores ∧
    (s.discardFrame p c).nextSendId = s.nextSendId ∧ (s.discardFrame p c).ticks = s.ticks := by
  simp only [State.discardFrame]
  simp

@[simp] theorem State.beginFrame_frame (s : State) (p : PortId) (a l : Word) (m : Bool) :
    ((s.beginFrame p a l m).2).pending = s.pending ∧ ((s.beginFrame p a l m).2).pins = s.pins ∧
    ((s.beginFrame p a l m).2).timebase = s.timebase ∧ ((s.beginFrame p a l m).2).link = s.link ∧
    ((s.beginFrame p a l m).2).notices = s.notices ∧ ((s.beginFrame p a l m).2).ops = s.ops ∧
    ((s.beginFrame p a l m).2).classifier = s.classifier ∧
    ((s.beginFrame p a l m).2).stores = s.stores ∧
    ((s.beginFrame p a l m).2).nextSendId = s.nextSendId ∧ ((s.beginFrame p a l m).2).ticks = s.ticks := by
  simp only [State.beginFrame]
  (repeat' split) <;> simp

@[simp] theorem State.notePart_frame (s : State) (p : PortId) (c : Char) :
    (s.notePart p c).pending = s.pending ∧ (s.notePart p c).pins = s.pins ∧
    (s.notePart p c).timebase = s.timebase ∧ (s.notePart p c).link = s.link ∧
    (s.notePart p c).notices = s.notices ∧ (s.notePart p c).ops = s.ops ∧
    (s.notePart p c).memory = s.memory ∧ (s.notePart p c).classifier = s.classifier ∧
    (s.notePart p c).stores = s.stores ∧ (s.notePart p c).nextSendId = s.nextSendId ∧
    (s.notePart p c).ticks = s.ticks := by
  simp [State.notePart]

@[simp] theorem State.storeInFrame_frame (s : State) (p : PortId) (v : Byte) :
    ((s.storeInFrame p v).2).pending = s.pending ∧ ((s.storeInFrame p v).2).pins = s.pins ∧
    ((s.storeInFrame p v).2).timebase = s.timebase ∧ ((s.storeInFrame p v).2).link = s.link ∧
    ((s.storeInFrame p v).2).ops = s.ops ∧ ((s.storeInFrame p v).2).classifier = s.classifier ∧
    ((s.storeInFrame p v).2).stores = s.stores ∧ ((s.storeInFrame p v).2).ports = s.ports ∧
    ((s.storeInFrame p v).2).nextSendId = s.nextSendId ∧ ((s.storeInFrame p v).2).ticks = s.ticks := by
  simp only [State.storeInFrame]
  split
  · simp
  · rename_i a _
    split
    · simp
    · have h := s.storeByte_frame a.desc v
      split <;> rename_i t e <;> rw [e] at h <;> exact h

@[simp] theorem State.storeSeq_frame (s : State) (p : PortId) (vs : List Byte) :
    ((s.storeSeq p vs).2).pending = s.pending ∧ ((s.storeSeq p vs).2).pins = s.pins ∧
    ((s.storeSeq p vs).2).timebase = s.timebase ∧ ((s.storeSeq p vs).2).link = s.link ∧
    ((s.storeSeq p vs).2).ops = s.ops ∧ ((s.storeSeq p vs).2).classifier = s.classifier ∧
    ((s.storeSeq p vs).2).stores = s.stores ∧ ((s.storeSeq p vs).2).ports = s.ports ∧
    ((s.storeSeq p vs).2).nextSendId = s.nextSendId ∧ ((s.storeSeq p vs).2).ticks = s.ticks := by
  induction vs generalizing s with
  | nil => simp [State.storeSeq]
  | cons v vs ih =>
    have h := s.storeInFrame_frame p v
    simp only [State.storeSeq]
    split
    · rename_i t e
      rw [e] at h
      have k := ih t
      simp only at h
      simp_all
    · exact h

@[simp] theorem State.flagFrame_frame (s : State) (p : PortId) (f : FrameFlags → FrameFlags) :
    (s.flagFrame p f).pending = s.pending ∧ (s.flagFrame p f).pins = s.pins ∧
    (s.flagFrame p f).timebase = s.timebase ∧ (s.flagFrame p f).link = s.link ∧
    (s.flagFrame p f).notices = s.notices ∧ (s.flagFrame p f).ops = s.ops ∧
    (s.flagFrame p f).memory = s.memory ∧ (s.flagFrame p f).classifier = s.classifier ∧
    (s.flagFrame p f).stores = s.stores ∧ (s.flagFrame p f).nextSendId = s.nextSendId ∧
    (s.flagFrame p f).ticks = s.ticks := by
  simp [State.flagFrame]

@[simp] theorem State.flagIncomplete_frame (s : State) (p : PortId) (b : Bool) :
    (s.flagIncomplete p b).pending = s.pending ∧ (s.flagIncomplete p b).pins = s.pins ∧
    (s.flagIncomplete p b).timebase = s.timebase ∧ (s.flagIncomplete p b).link = s.link ∧
    (s.flagIncomplete p b).notices = s.notices ∧ (s.flagIncomplete p b).ops = s.ops ∧
    (s.flagIncomplete p b).memory = s.memory ∧ (s.flagIncomplete p b).classifier = s.classifier ∧
    (s.flagIncomplete p b).stores = s.stores ∧ (s.flagIncomplete p b).nextSendId = s.nextSendId ∧
    (s.flagIncomplete p b).ticks = s.ticks := by
  simp [State.flagIncomplete]

@[simp] theorem State.truncateFrame_frame (s : State) (p : PortId) :
    (s.truncateFrame p).pending = s.pending ∧ (s.truncateFrame p).pins = s.pins ∧
    (s.truncateFrame p).timebase = s.timebase ∧ (s.truncateFrame p).link = s.link ∧
    (s.truncateFrame p).notices = s.notices ∧ (s.truncateFrame p).ops = s.ops ∧
    (s.truncateFrame p).memory = s.memory ∧ (s.truncateFrame p).classifier = s.classifier ∧
    (s.truncateFrame p).stores = s.stores ∧ (s.truncateFrame p).nextSendId = s.nextSendId ∧
    (s.truncateFrame p).ticks = s.ticks := by
  simp [State.truncateFrame]

@[simp] theorem State.completeFrame_frame (s : State) (p : PortId) (a : Assembly) (t : Word) :
    (s.completeFrame p a t).pending = s.pending ∧ (s.completeFrame p a t).pins = s.pins ∧
    (s.completeFrame p a t).timebase = s.timebase ∧ (s.completeFrame p a t).link = s.link ∧
    (s.completeFrame p a t).ops = s.ops ∧ (s.completeFrame p a t).stores = s.stores ∧
    (s.completeFrame p a t).nextSendId = s.nextSendId ∧ (s.completeFrame p a t).ticks = s.ticks := by
  simp only [State.completeFrame]
  (repeat' split) <;> simp

@[simp] theorem State.finishClose_frame (s : State) (p : PortId) (t : Word) :
    (s.finishClose p t).pending = s.pending ∧ (s.finishClose p t).pins = s.pins ∧
    (s.finishClose p t).timebase = s.timebase ∧ (s.finishClose p t).link = s.link ∧
    (s.finishClose p t).ops = s.ops ∧ (s.finishClose p t).stores = s.stores ∧
    (s.finishClose p t).nextSendId = s.nextSendId ∧ (s.finishClose p t).ticks = s.ticks := by
  simp only [State.finishClose]
  (repeat' split) <;> simp

@[simp] theorem State.closeFrame_frame (s : State) (p : PortId) (k : CloseKind) (t : Word) :
    (s.closeFrame p k t).pending = s.pending ∧ (s.closeFrame p k t).pins = s.pins ∧
    (s.closeFrame p k t).timebase = s.timebase ∧ (s.closeFrame p k t).link = s.link ∧
    (s.closeFrame p k t).ops = s.ops ∧ (s.closeFrame p k t).stores = s.stores ∧
    (s.closeFrame p k t).nextSendId = s.nextSendId ∧ (s.closeFrame p k t).ticks = s.ticks := by
  cases k with
  | truncated => simp [State.closeFrame]
  | ended b => cases b <;> simp [State.closeFrame]
  | incomplete b =>
    simp only [State.closeFrame]
    split
    · simp
    · have h := s.storeSeq_frame p ((s.framer p).held.map (·.value))
      split <;> rename_i t e <;> rw [e] at h <;> simp only at h
      · simp [h]
      · simp [h]
      · split <;> simp [h]

@[simp] theorem State.storeFailed_frame (s : State) (p : PortId) (r : Stored) (b : Bool) (t : Word) :
    (s.storeFailed p r b t).pending = s.pending ∧ (s.storeFailed p r b t).pins = s.pins ∧
    (s.storeFailed p r b t).timebase = s.timebase ∧ (s.storeFailed p r b t).link = s.link ∧
    (s.storeFailed p r b t).ops = s.ops ∧ (s.storeFailed p r b t).stores = s.stores ∧
    (s.storeFailed p r b t).nextSendId = s.nextSendId ∧ (s.storeFailed p r b t).ticks = s.ticks := by
  cases r <;> simp only [State.storeFailed]
  · simp
  · (repeat' split) <;> simp
  · simp

@[simp] theorem State.endFrame_frame (s : State) (p : PortId) (b : Bool) (t : Word) :
    (s.endFrame p b t).pending = s.pending ∧ (s.endFrame p b t).pins = s.pins ∧
    (s.endFrame p b t).timebase = s.timebase ∧ (s.endFrame p b t).link = s.link ∧
    (s.endFrame p b t).ops = s.ops ∧ (s.endFrame p b t).stores = s.stores ∧
    (s.endFrame p b t).nextSendId = s.nextSendId ∧ (s.endFrame p b t).ticks = s.ticks := by
  simp [State.endFrame]

@[simp] theorem State.delimitedBody_frame (s : State) (p : PortId) (c : Char) :
    (s.delimitedBody p c).pending = s.pending ∧ (s.delimitedBody p c).pins = s.pins ∧
    (s.delimitedBody p c).timebase = s.timebase ∧ (s.delimitedBody p c).link = s.link ∧
    (s.delimitedBody p c).ops = s.ops ∧ (s.delimitedBody p c).stores = s.stores ∧
    (s.delimitedBody p c).nextSendId = s.nextSendId ∧ (s.delimitedBody p c).ticks = s.ticks := by
  simp only [State.delimitedBody]
  (repeat' split) <;> simp

@[simp] theorem State.delimitedHunt_frame (s : State) (p : PortId) (c : Char) :
    (s.delimitedHunt p c).pending = s.pending ∧ (s.delimitedHunt p c).pins = s.pins ∧
    (s.delimitedHunt p c).timebase = s.timebase ∧ (s.delimitedHunt p c).link = s.link ∧
    (s.delimitedHunt p c).ops = s.ops ∧ (s.delimitedHunt p c).stores = s.stores ∧
    (s.delimitedHunt p c).nextSendId = s.nextSendId ∧ (s.delimitedHunt p c).ticks = s.ticks := by
  simp only [State.delimitedHunt]
  (repeat' split) <;> simp

@[simp] theorem State.delimitedSkip_frame (s : State) (p : PortId) (c : Char) :
    (s.delimitedSkip p c).pending = s.pending ∧ (s.delimitedSkip p c).pins = s.pins ∧
    (s.delimitedSkip p c).timebase = s.timebase ∧ (s.delimitedSkip p c).link = s.link ∧
    (s.delimitedSkip p c).ops = s.ops ∧ (s.delimitedSkip p c).stores = s.stores ∧
    (s.delimitedSkip p c).nextSendId = s.nextSendId ∧ (s.delimitedSkip p c).ticks = s.ticks := by
  simp only [State.delimitedSkip]
  (repeat' split) <;> simp

@[simp] theorem State.judgeHeader_frame (s : State) (p : PortId) (t : Word) :
    (s.judgeHeader p t).pending = s.pending ∧ (s.judgeHeader p t).pins = s.pins ∧
    (s.judgeHeader p t).timebase = s.timebase ∧ (s.judgeHeader p t).link = s.link ∧
    (s.judgeHeader p t).ops = s.ops ∧ (s.judgeHeader p t).stores = s.stores ∧
    (s.judgeHeader p t).nextSendId = s.nextSendId ∧ (s.judgeHeader p t).ticks = s.ticks := by
  simp only [State.judgeHeader]
  (repeat' split) <;> simp

@[simp] theorem State.judgeSkip_frame (s : State) (p : PortId) :
    (s.judgeSkip p).pending = s.pending ∧ (s.judgeSkip p).pins = s.pins ∧
    (s.judgeSkip p).timebase = s.timebase ∧ (s.judgeSkip p).link = s.link ∧
    (s.judgeSkip p).ops = s.ops ∧ (s.judgeSkip p).stores = s.stores ∧
    (s.judgeSkip p).nextSendId = s.nextSendId ∧ (s.judgeSkip p).ticks = s.ticks := by
  simp only [State.judgeSkip]
  (repeat' split) <;> simp

@[simp] theorem State.lengthUnstored_frame (s : State) (p : PortId) (c : Char) :
    (s.lengthUnstored p c).pending = s.pending ∧ (s.lengthUnstored p c).pins = s.pins ∧
    (s.lengthUnstored p c).timebase = s.timebase ∧ (s.lengthUnstored p c).link = s.link ∧
    (s.lengthUnstored p c).ops = s.ops ∧ (s.lengthUnstored p c).stores = s.stores ∧
    (s.lengthUnstored p c).nextSendId = s.nextSendId ∧ (s.lengthUnstored p c).ticks = s.ticks := by
  simp [State.lengthUnstored]

@[simp] theorem State.lengthChar_start_frame (s : State) (p : PortId) (c : Char) :
    (State.lengthChar.start p c s).pending = s.pending ∧ (State.lengthChar.start p c s).pins = s.pins ∧
    (State.lengthChar.start p c s).timebase = s.timebase ∧
    (State.lengthChar.start p c s).link = s.link ∧ (State.lengthChar.start p c s).ops = s.ops ∧
    (State.lengthChar.start p c s).stores = s.stores ∧
    (State.lengthChar.start p c s).nextSendId = s.nextSendId ∧
    (State.lengthChar.start p c s).ticks = s.ticks := by
  simp only [State.lengthChar.start]
  (repeat' split) <;> simp

@[simp] theorem State.lengthChar_frame (s : State) (p : PortId) (c : Char) :
    (s.lengthChar p c).pending = s.pending ∧ (s.lengthChar p c).pins = s.pins ∧
    (s.lengthChar p c).timebase = s.timebase ∧ (s.lengthChar p c).link = s.link ∧
    (s.lengthChar p c).ops = s.ops ∧ (s.lengthChar p c).stores = s.stores ∧
    (s.lengthChar p c).nextSendId = s.nextSendId ∧ (s.lengthChar p c).ticks = s.ticks := by
  simp only [State.lengthChar]
  (repeat' split) <;> simp

@[simp] theorem State.gapChar_store_frame (s : State) (p : PortId) (c : Char) :
    (State.gapChar.store p c s).pending = s.pending ∧ (State.gapChar.store p c s).pins = s.pins ∧
    (State.gapChar.store p c s).timebase = s.timebase ∧ (State.gapChar.store p c s).link = s.link ∧
    (State.gapChar.store p c s).ops = s.ops ∧ (State.gapChar.store p c s).stores = s.stores ∧
    (State.gapChar.store p c s).nextSendId = s.nextSendId ∧ (State.gapChar.store p c s).ticks = s.ticks := by
  simp [State.gapChar.store]

@[simp] theorem State.gapChar_frame (s : State) (p : PortId) (c : Char) :
    (s.gapChar p c).pending = s.pending ∧ (s.gapChar p c).pins = s.pins ∧
    (s.gapChar p c).timebase = s.timebase ∧ (s.gapChar p c).link = s.link ∧
    (s.gapChar p c).ops = s.ops ∧ (s.gapChar p c).stores = s.stores ∧
    (s.gapChar p c).nextSendId = s.nextSendId ∧ (s.gapChar p c).ticks = s.ticks := by
  simp only [State.gapChar]
  (repeat' split) <;> simp

@[simp] theorem State.framerChar_frame (s : State) (p : PortId) (c : Char) :
    (s.framerChar p c).pending = s.pending ∧ (s.framerChar p c).pins = s.pins ∧
    (s.framerChar p c).timebase = s.timebase ∧ (s.framerChar p c).link = s.link ∧
    (s.framerChar p c).ops = s.ops ∧ (s.framerChar p c).stores = s.stores ∧
    (s.framerChar p c).nextSendId = s.nextSendId ∧ (s.framerChar p c).ticks = s.ticks := by
  simp only [State.framerChar]
  (repeat' split) <;> simp

@[simp] theorem State.closeIncomplete_frame (s : State) (p : PortId) (b : Bool) :
    (s.closeIncomplete p b).pending = s.pending ∧ (s.closeIncomplete p b).pins = s.pins ∧
    (s.closeIncomplete p b).timebase = s.timebase ∧ (s.closeIncomplete p b).link = s.link ∧
    (s.closeIncomplete p b).ops = s.ops ∧ (s.closeIncomplete p b).stores = s.stores ∧
    (s.closeIncomplete p b).nextSendId = s.nextSendId ∧ (s.closeIncomplete p b).ticks = s.ticks := by
  simp [State.closeIncomplete]

@[simp] theorem State.framerBoundary_frame (s : State) (p : PortId) (b : Bool) :
    (s.framerBoundary p b).pending = s.pending ∧ (s.framerBoundary p b).pins = s.pins ∧
    (s.framerBoundary p b).timebase = s.timebase ∧ (s.framerBoundary p b).link = s.link ∧
    (s.framerBoundary p b).ops = s.ops ∧ (s.framerBoundary p b).stores = s.stores ∧
    (s.framerBoundary p b).nextSendId = s.nextSendId ∧ (s.framerBoundary p b).ticks = s.ticks := by
  simp only [State.framerBoundary]
  (repeat' split) <;> simp

@[simp] theorem State.abortFraming_frame (s : State) (p : PortId) :
    (s.abortFraming p).pending = s.pending ∧ (s.abortFraming p).pins = s.pins ∧
    (s.abortFraming p).timebase = s.timebase ∧ (s.abortFraming p).link = s.link ∧
    (s.abortFraming p).notices = s.notices ∧ (s.abortFraming p).ops = s.ops ∧
    (s.abortFraming p).classifier = s.classifier ∧ (s.abortFraming p).stores = s.stores ∧
    (s.abortFraming p).nextSendId = s.nextSendId ∧ (s.abortFraming p).ticks = s.ticks := by
  simp only [State.abortFraming]
  (repeat' split) <;> simp

@[simp] theorem State.takeExpiries_frame (s : State) (p : PortId) (n : Nat) :
    (s.takeExpiries p n).pending = s.pending ∧ (s.takeExpiries p n).pins = s.pins ∧
    (s.takeExpiries p n).timebase = s.timebase ∧ (s.takeExpiries p n).link = s.link ∧
    (s.takeExpiries p n).ops = s.ops ∧ (s.takeExpiries p n).stores = s.stores ∧
    (s.takeExpiries p n).nextSendId = s.nextSendId ∧ (s.takeExpiries p n).ticks = s.ticks := by
  induction n generalizing s with
  | zero => simp [State.takeExpiries]
  | succ n ih => simpa [State.takeExpiries] using ih (s.framerBoundary p false)

@[simp] theorem State.takeItem_frame (s : State) (p : PortId) :
    (s.takeItem p).pending = s.pending ∧ (s.takeItem p).pins = s.pins ∧
    (s.takeItem p).timebase = s.timebase ∧ (s.takeItem p).link = s.link ∧ (s.takeItem p).ops = s.ops ∧
    (s.takeItem p).stores = s.stores ∧ (s.takeItem p).nextSendId = s.nextSendId ∧
    (s.takeItem p).ticks = s.ticks := by
  simp only [State.takeItem]
  (repeat' split) <;> simp

@[simp] theorem State.quietExpiry_frame (s : State) (p : PortId) :
    (s.quietExpiry p).pending = s.pending ∧ (s.quietExpiry p).pins = s.pins ∧
    (s.quietExpiry p).timebase = s.timebase ∧ (s.quietExpiry p).link = s.link ∧
    (s.quietExpiry p).ops = s.ops ∧ (s.quietExpiry p).stores = s.stores ∧
    (s.quietExpiry p).nextSendId = s.nextSendId ∧ (s.quietExpiry p).ticks = s.ticks := by
  simp only [State.quietExpiry]
  (repeat' split) <;> simp

@[simp] theorem State.abortReceiving_frame (s : State) (p : PortId) :
    (s.abortReceiving p).pending = s.pending ∧ (s.abortReceiving p).pins = s.pins ∧
    (s.abortReceiving p).timebase = s.timebase ∧ (s.abortReceiving p).link = s.link ∧
    (s.abortReceiving p).notices = s.notices ∧ (s.abortReceiving p).ops = s.ops ∧
    (s.abortReceiving p).classifier = s.classifier ∧ (s.abortReceiving p).stores = s.stores ∧
    (s.abortReceiving p).nextSendId = s.nextSendId ∧ (s.abortReceiving p).ticks = s.ticks := by
  simp [State.abortReceiving]

/-- Several entries are stopped in turn. -/
@[simp] theorem State.stopEntries_frame (s : State) (p : PortId) (es : List SendEntry) :
    (es.foldl (State.stopEntry p) s).pending = s.pending ∧
    (es.foldl (State.stopEntry p) s).pins = s.pins ∧
    (es.foldl (State.stopEntry p) s).timebase = s.timebase ∧
    (es.foldl (State.stopEntry p) s).link = s.link ∧
    (es.foldl (State.stopEntry p) s).classifier = s.classifier ∧
    (es.foldl (State.stopEntry p) s).stores = s.stores ∧
    (es.foldl (State.stopEntry p) s).nextSendId = s.nextSendId ∧
    (es.foldl (State.stopEntry p) s).ticks = s.ticks := by
  induction es generalizing s with
  | nil => simp
  | cons e es ih => simpa using ih (State.stopEntry p s e)

@[simp] theorem State.stopPort_frame (s : State) (p : PortId) :
    (s.stopPort p).pending = s.pending ∧ (s.stopPort p).pins = s.pins ∧
    (s.stopPort p).timebase = s.timebase ∧ (s.stopPort p).link = s.link ∧
    (s.stopPort p).classifier = s.classifier ∧ (s.stopPort p).stores = s.stores ∧
    (s.stopPort p).nextSendId = s.nextSendId ∧ (s.stopPort p).ticks = s.ticks := by
  simp only [State.stopPort]
  (repeat' split) <;> simp

@[simp] theorem State.removePending_frame (s : State) (p : PortId) :
    (s.removePending p).pending = s.pending ∧ (s.removePending p).pins = s.pins ∧
    (s.removePending p).timebase = s.timebase ∧ (s.removePending p).link = s.link ∧
    (s.removePending p).notices = s.notices ∧ (s.removePending p).ops = s.ops ∧
    (s.removePending p).stores = s.stores ∧ (s.removePending p).ports = s.ports ∧
    (s.removePending p).nextSendId = s.nextSendId ∧ (s.removePending p).ticks = s.ticks := by
  simp [State.removePending]

@[simp] theorem State.resetPort_frame (s : State) (p : PortId) :
    (s.resetPort p).pending = s.pending ∧ (s.resetPort p).pins = s.pins ∧
    (s.resetPort p).timebase = s.timebase ∧ (s.resetPort p).link = s.link ∧
    (s.resetPort p).stores = s.stores ∧ (s.resetPort p).nextSendId = s.nextSendId ∧
    (s.resetPort p).ticks = s.ticks := by
  simp only [State.resetPort]
  (repeat' split) <;> simp

@[simp] theorem State.file_frame (s : State) (i : StoreId) (f : Frame) (r : Byte) :
    ((s.file i f r).2).pending = s.pending ∧ ((s.file i f r).2).pins = s.pins ∧
    ((s.file i f r).2).timebase = s.timebase ∧ ((s.file i f r).2).link = s.link ∧
    ((s.file i f r).2).ops = s.ops ∧ ((s.file i f r).2).classifier = s.classifier ∧
    ((s.file i f r).2).ports = s.ports ∧ ((s.file i f r).2).nextSendId = s.nextSendId ∧
    ((s.file i f r).2).ticks = s.ticks := by
  simp only [State.file]
  (repeat' split) <;> simp

@[simp] theorem State.capRecord_frame (s : State) (x : StoreId × Word) :
    (s.capRecord x).pending = s.pending ∧ (s.capRecord x).pins = s.pins ∧
    (s.capRecord x).timebase = s.timebase ∧ (s.capRecord x).link = s.link ∧
    (s.capRecord x).notices = s.notices ∧ (s.capRecord x).ops = s.ops ∧
    (s.capRecord x).memory = s.memory ∧ (s.capRecord x).classifier = s.classifier ∧
    (s.capRecord x).ports = s.ports ∧ (s.capRecord x).nextSendId = s.nextSendId ∧
    (s.capRecord x).ticks = s.ticks := by
  simp [State.capRecord]

@[simp] theorem State.readRecord_frame (s : State) (r : Record) :
    ((s.readRecord r).2).pending = s.pending ∧ ((s.readRecord r).2).pins = s.pins ∧
    ((s.readRecord r).2).timebase = s.timebase ∧ ((s.readRecord r).2).link = s.link ∧
    ((s.readRecord r).2).ops = s.ops ∧ ((s.readRecord r).2).classifier = s.classifier ∧
    ((s.readRecord r).2).stores = s.stores ∧ ((s.readRecord r).2).ports = s.ports ∧
    ((s.readRecord r).2).nextSendId = s.nextSendId ∧ ((s.readRecord r).2).ticks = s.ticks := by
  simp [State.readRecord]

@[simp] theorem State.readRecords_frame (s : State) (rs : List Record) :
    ((s.readRecords rs).2).pending = s.pending ∧ ((s.readRecords rs).2).pins = s.pins ∧
    ((s.readRecords rs).2).timebase = s.timebase ∧ ((s.readRecords rs).2).link = s.link ∧
    ((s.readRecords rs).2).ops = s.ops ∧ ((s.readRecords rs).2).classifier = s.classifier ∧
    ((s.readRecords rs).2).stores = s.stores ∧ ((s.readRecords rs).2).ports = s.ports ∧
    ((s.readRecords rs).2).nextSendId = s.nextSendId ∧ ((s.readRecords rs).2).ticks = s.ticks := by
  induction rs generalizing s with
  | nil => simp [State.readRecords]
  | cons r rs ih => simpa [State.readRecords] using ih (s.readRecord r).2

@[simp] theorem State.endPurge_frame (s : State) (i : StoreId) (x : OpStatus) (b : Bool) :
    (s.endPurge i x b).pending = s.pending ∧ (s.endPurge i x b).pins = s.pins ∧
    (s.endPurge i x b).timebase = s.timebase ∧ (s.endPurge i x b).link = s.link ∧
    (s.endPurge i x b).notices = s.notices ∧ (s.endPurge i x b).memory = s.memory ∧
    (s.endPurge i x b).classifier = s.classifier ∧ (s.endPurge i x b).ports = s.ports ∧
    (s.endPurge i x b).nextSendId = s.nextSendId ∧ (s.endPurge i x b).ticks = s.ticks := by
  simp [State.endPurge]

@[simp] theorem State.judgePurge_frame (s : State) (i : StoreId) (b : Bool) :
    (s.judgePurge i b).pending = s.pending ∧ (s.judgePurge i b).pins = s.pins ∧
    (s.judgePurge i b).timebase = s.timebase ∧ (s.judgePurge i b).link = s.link ∧
    (s.judgePurge i b).notices = s.notices ∧ (s.judgePurge i b).memory = s.memory ∧
    (s.judgePurge i b).classifier = s.classifier ∧ (s.judgePurge i b).ports = s.ports ∧
    (s.judgePurge i b).nextSendId = s.nextSendId ∧ (s.judgePurge i b).ticks = s.ticks := by
  simp only [State.judgePurge]
  (repeat' split) <;> simp

@[simp] theorem State.purgeOne_frame (s : State) (i : StoreId) :
    (s.purgeOne i).pending = s.pending ∧ (s.purgeOne i).pins = s.pins ∧
    (s.purgeOne i).timebase = s.timebase ∧ (s.purgeOne i).link = s.link ∧
    (s.purgeOne i).notices = s.notices ∧ (s.purgeOne i).classifier = s.classifier ∧
    (s.purgeOne i).ports = s.ports ∧ (s.purgeOne i).nextSendId = s.nextSendId ∧
    (s.purgeOne i).ticks = s.ticks := by
  simp only [State.purgeOne]
  (repeat' split) <;> simp

@[simp] theorem State.ruleMatches_frame (s : State) (d : RuleDef) (f : Frame) :
    ((s.ruleMatches d f).2).pending = s.pending ∧ ((s.ruleMatches d f).2).pins = s.pins ∧
    ((s.ruleMatches d f).2).timebase = s.timebase ∧ ((s.ruleMatches d f).2).link = s.link ∧
    ((s.ruleMatches d f).2).ops = s.ops ∧ ((s.ruleMatches d f).2).classifier = s.classifier ∧
    ((s.ruleMatches d f).2).stores = s.stores ∧ ((s.ruleMatches d f).2).ports = s.ports ∧
    ((s.ruleMatches d f).2).nextSendId = s.nextSendId ∧ ((s.ruleMatches d f).2).ticks = s.ticks := by
  simp only [State.ruleMatches]
  (repeat' split) <;> simp

@[simp] theorem State.dropForward_frame (s : State) (r : RuleId) (a : DroppedAction) (c : Status) :
    (s.dropForward r a c).pending = s.pending ∧ (s.dropForward r a c).pins = s.pins ∧
    (s.dropForward r a c).timebase = s.timebase ∧ (s.dropForward r a c).link = s.link ∧
    (s.dropForward r a c).ops = s.ops ∧ (s.dropForward r a c).memory = s.memory ∧
    (s.dropForward r a c).stores = s.stores ∧ (s.dropForward r a c).ports = s.ports ∧
    (s.dropForward r a c).nextSendId = s.nextSendId ∧ (s.dropForward r a c).ticks = s.ticks := by
  simp [State.dropForward]

@[simp] theorem State.fileAction_frame (s : State) (r : RuleId) (f : Frame) (i : StoreId) :
    (s.fileAction r f i).pending = s.pending ∧ (s.fileAction r f i).pins = s.pins ∧
    (s.fileAction r f i).timebase = s.timebase ∧ (s.fileAction r f i).link = s.link ∧
    (s.fileAction r f i).ops = s.ops ∧ (s.fileAction r f i).ports = s.ports ∧
    (s.fileAction r f i).nextSendId = s.nextSendId ∧ (s.fileAction r f i).ticks = s.ticks := by
  have h := s.file_frame i f (byte1 r.val)
  simp only [State.fileAction]
  split <;> rename_i t e <;> rw [e] at h <;> simp only at h <;> simp [h]

@[simp] theorem State.forwardAction_frame (s : State) (r : RuleId) (f : Frame) (p : PortId) (c : Fin 4) (t : Nat) :
    (s.forwardAction r f p c t).pending = s.pending ∧ (s.forwardAction r f p c t).pins = s.pins ∧
    (s.forwardAction r f p c t).timebase = s.timebase ∧ (s.forwardAction r f p c t).link = s.link ∧
    (s.forwardAction r f p c t).ops = s.ops ∧ (s.forwardAction r f p c t).stores = s.stores ∧
    (s.forwardAction r f p c t).ticks = s.ticks := by
  simp only [State.forwardAction]
  (repeat' split) <;> simp

@[simp] theorem State.buildReply_frame (s : State) (t : Template) (f : Frame) :
    ((s.buildReply t f).2).pending = s.pending ∧ ((s.buildReply t f).2).pins = s.pins ∧
    ((s.buildReply t f).2).timebase = s.timebase ∧ ((s.buildReply t f).2).link = s.link ∧
    ((s.buildReply t f).2).ops = s.ops ∧ ((s.buildReply t f).2).classifier = s.classifier ∧
    ((s.buildReply t f).2).stores = s.stores ∧ ((s.buildReply t f).2).ports = s.ports ∧
    ((s.buildReply t f).2).nextSendId = s.nextSendId ∧ ((s.buildReply t f).2).ticks = s.ticks := by
  simp only [State.buildReply]
  (repeat' split) <;> simp

@[simp] theorem State.replyAction_frame (s : State) (r : RuleId) (f : Frame) (x : TemplateId) (c : Fin 4) (t : Nat) :
    (s.replyAction r f x c t).pending = s.pending ∧ (s.replyAction r f x c t).pins = s.pins ∧
    (s.replyAction r f x c t).timebase = s.timebase ∧ (s.replyAction r f x c t).link = s.link ∧
    (s.replyAction r f x c t).ops = s.ops ∧ (s.replyAction r f x c t).stores = s.stores ∧
    (s.replyAction r f x c t).ticks = s.ticks := by
  have h := (s.buildReply (s.classifier.templates.get x) f).2.fill_frame (s.buildReply (s.classifier.templates.get x) f).1
  simp only [State.replyAction]
  split
  · simp
  · split
    · simp
    · split
      · simp
      · split
        · simp
        · split <;> rename_i t e <;> rw [e] at h <;> simp at h <;> simp [h]

@[simp] theorem State.spend_frame (s : State) (r : RuleId) :
    (s.spend r).pending = s.pending ∧ (s.spend r).pins = s.pins ∧ (s.spend r).timebase = s.timebase ∧
    (s.spend r).link = s.link ∧ (s.spend r).ops = s.ops ∧ (s.spend r).memory = s.memory ∧
    (s.spend r).stores = s.stores ∧ (s.spend r).ports = s.ports ∧
    (s.spend r).nextSendId = s.nextSendId ∧ (s.spend r).ticks = s.ticks := by
  simp only [State.spend]
  (repeat' split) <;> simp

@[simp] theorem State.hit_frame (s : State) (r : RuleId) :
    (s.hit r).pending = s.pending ∧ (s.hit r).pins = s.pins ∧ (s.hit r).timebase = s.timebase ∧
    (s.hit r).link = s.link ∧ (s.hit r).notices = s.notices ∧ (s.hit r).ops = s.ops ∧
    (s.hit r).memory = s.memory ∧ (s.hit r).stores = s.stores ∧ (s.hit r).ports = s.ports ∧
    (s.hit r).nextSendId = s.nextSendId ∧ (s.hit r).ticks = s.ticks := by
  simp [State.hit]

@[simp] theorem State.performed_frame (s : State) (b : Bool) :
    (s.performed b).pending = s.pending ∧ (s.performed b).pins = s.pins ∧
    (s.performed b).timebase = s.timebase ∧ (s.performed b).link = s.link ∧
    (s.performed b).notices = s.notices ∧ (s.performed b).ops = s.ops ∧
    (s.performed b).memory = s.memory ∧ (s.performed b).stores = s.stores ∧
    (s.performed b).ports = s.ports ∧ (s.performed b).nextSendId = s.nextSendId ∧
    (s.performed b).ticks = s.ticks := by
  simp [State.performed]

@[simp] theorem State.capRecords_frame (s : State) (l : List (StoreId × Word)) :
    (l.foldl State.capRecord s).pending = s.pending ∧ (l.foldl State.capRecord s).pins = s.pins ∧
    (l.foldl State.capRecord s).timebase = s.timebase ∧ (l.foldl State.capRecord s).link = s.link ∧
    (l.foldl State.capRecord s).notices = s.notices ∧ (l.foldl State.capRecord s).ops = s.ops ∧
    (l.foldl State.capRecord s).memory = s.memory ∧
    (l.foldl State.capRecord s).classifier = s.classifier ∧
    (l.foldl State.capRecord s).ports = s.ports ∧
    (l.foldl State.capRecord s).nextSendId = s.nextSendId ∧ (l.foldl State.capRecord s).ticks = s.ticks := by
  induction l generalizing s with
  | nil => simp
  | cons x l ih => simpa using ih (s.capRecord x)

@[simp] theorem State.capActions_frame (s : State) (k : Classification) :
    (s.capActions k).pending = s.pending ∧ (s.capActions k).pins = s.pins ∧
    (s.capActions k).timebase = s.timebase ∧ (s.capActions k).link = s.link ∧
    (s.capActions k).notices = s.notices ∧ (s.capActions k).ops = s.ops ∧
    (s.capActions k).memory = s.memory ∧ (s.capActions k).ports = s.ports ∧
    (s.capActions k).nextSendId = s.nextSendId ∧ (s.capActions k).ticks = s.ticks := by
  simp [State.capActions]

@[simp] theorem State.act_frame (s : State) (k : Classification) (r : RuleId) (d : RuleDef) :
    (s.act k r d).pending = s.pending ∧ (s.act k r d).pins = s.pins ∧
    (s.act k r d).timebase = s.timebase ∧ (s.act k r d).link = s.link ∧ (s.act k r d).ops = s.ops ∧
    (s.act k r d).ticks = s.ticks := by
  simp only [State.act]
  (repeat' split) <;> simp

@[simp] theorem State.visit_frame (s : State) (k : Classification) (r : RuleId) (rest : List RuleId) :
    (s.visit k r rest).pending = s.pending ∧ (s.visit k r rest).pins = s.pins ∧
    (s.visit k r rest).timebase = s.timebase ∧ (s.visit k r rest).link = s.link ∧
    (s.visit k r rest).ops = s.ops ∧ (s.visit k r rest).ticks = s.ticks := by
  simp only [State.visit]
  (repeat' split) <;> simp

@[simp] theorem State.defaultAction_frame (s : State) (k : Classification) :
    (s.defaultAction k).pending = s.pending ∧ (s.defaultAction k).pins = s.pins ∧
    (s.defaultAction k).timebase = s.timebase ∧ (s.defaultAction k).link = s.link ∧
    (s.defaultAction k).ops = s.ops ∧ (s.defaultAction k).classifier = s.classifier ∧
    (s.defaultAction k).ports = s.ports ∧ (s.defaultAction k).nextSendId = s.nextSendId ∧
    (s.defaultAction k).ticks = s.ticks := by
  simp only [State.defaultAction]
  (repeat' split) <;> simp

@[simp] theorem State.answer_frame (s : State) (t k : Byte) (x : Status) (f : List Byte) (r : ReplyRole) (e : Executor) :
    (s.answer t k x f r e).pending = s.pending ∧ (s.answer t k x f r e).pins = s.pins ∧
    (s.answer t k x f r e).timebase = s.timebase ∧ (s.answer t k x f r e).notices = s.notices ∧
    (s.answer t k x f r e).memory = s.memory ∧ (s.answer t k x f r e).classifier = s.classifier ∧
    (s.answer t k x f r e).stores = s.stores ∧ (s.answer t k x f r e).ports = s.ports ∧
    (s.answer t k x f r e).nextSendId = s.nextSendId ∧ (s.answer t k x f r e).ticks = s.ticks := by
  simp [State.answer]

@[simp] theorem State.refuseArrival_frame (s : State) (t k : Byte) (x : Status) (f : List Byte) :
    (s.refuseArrival t k x f).pending = s.pending ∧ (s.refuseArrival t k x f).pins = s.pins ∧
    (s.refuseArrival t k x f).timebase = s.timebase ∧ (s.refuseArrival t k x f).notices = s.notices ∧
    (s.refuseArrival t k x f).ops = s.ops ∧ (s.refuseArrival t k x f).memory = s.memory ∧
    (s.refuseArrival t k x f).classifier = s.classifier ∧ (s.refuseArrival t k x f).stores = s.stores ∧
    (s.refuseArrival t k x f).ports = s.ports ∧ (s.refuseArrival t k x f).nextSendId = s.nextSendId ∧
    (s.refuseArrival t k x f).ticks = s.ticks := by
  simp only [State.refuseArrival]
  (repeat' split) <;> simp

@[simp] theorem State.carryOutHeld_frame (s : State)  :
    (s.carryOutHeld).pending = s.pending ∧ (s.carryOutHeld).pins = s.pins ∧
    (s.carryOutHeld).timebase = s.timebase ∧ (s.carryOutHeld).notices = s.notices ∧
    (s.carryOutHeld).memory = s.memory ∧ (s.carryOutHeld).stores = s.stores ∧
    (s.carryOutHeld).ports = s.ports ∧ (s.carryOutHeld).nextSendId = s.nextSendId ∧
    (s.carryOutHeld).ticks = s.ticks := by
  simp only [State.carryOutHeld]
  (repeat' split) <;> simp

@[simp] theorem State.endClassification_frame (s : State) (k : Classification) :
    (s.endClassification k).pending = s.pending ∧ (s.endClassification k).pins = s.pins ∧
    (s.endClassification k).timebase = s.timebase ∧ (s.endClassification k).ports = s.ports ∧
    (s.endClassification k).nextSendId = s.nextSendId ∧ (s.endClassification k).ticks = s.ticks := by
  simp [State.endClassification]

@[simp] theorem State.arrive_frame (s : State) (m : Message) :
    (s.arrive m).pending = s.pending ∧ (s.arrive m).pins = s.pins ∧ (s.arrive m).timebase = s.timebase ∧
    (s.arrive m).notices = s.notices ∧ (s.arrive m).ops = s.ops ∧ (s.arrive m).memory = s.memory ∧
    (s.arrive m).classifier = s.classifier ∧ (s.arrive m).stores = s.stores ∧
    (s.arrive m).ports = s.ports ∧ (s.arrive m).nextSendId = s.nextSendId ∧ (s.arrive m).ticks = s.ticks := by
  simp only [State.arrive]
  (repeat' split) <;> simp

@[simp] theorem State.abandonMessage_frame (s : State)  :
    (s.abandonMessage).pending = s.pending ∧ (s.abandonMessage).pins = s.pins ∧
    (s.abandonMessage).timebase = s.timebase ∧ (s.abandonMessage).notices = s.notices ∧
    (s.abandonMessage).ops = s.ops ∧ (s.abandonMessage).memory = s.memory ∧
    (s.abandonMessage).classifier = s.classifier ∧ (s.abandonMessage).stores = s.stores ∧
    (s.abandonMessage).ports = s.ports ∧ (s.abandonMessage).nextSendId = s.nextSendId ∧
    (s.abandonMessage).ticks = s.ticks := by
  simp [State.abandonMessage]

@[simp] theorem State.beginReply_frame (s : State)  :
    (s.beginReply).pending = s.pending ∧ (s.beginReply).pins = s.pins ∧
    (s.beginReply).timebase = s.timebase ∧ (s.beginReply).notices = s.notices ∧
    (s.beginReply).ops = s.ops ∧ (s.beginReply).memory = s.memory ∧
    (s.beginReply).classifier = s.classifier ∧ (s.beginReply).stores = s.stores ∧
    (s.beginReply).ports = s.ports ∧ (s.beginReply).nextSendId = s.nextSendId ∧
    (s.beginReply).ticks = s.ticks := by
  simp only [State.beginReply]
  (repeat' split) <;> simp

@[simp] theorem State.beginReport_frame (s : State)  :
    (s.beginReport).pending = s.pending ∧ (s.beginReport).pins = s.pins ∧
    (s.beginReport).timebase = s.timebase ∧ (s.beginReport).notices = s.notices ∧
    (s.beginReport).ops = s.ops ∧ (s.beginReport).memory = s.memory ∧
    (s.beginReport).classifier = s.classifier ∧ (s.beginReport).stores = s.stores ∧
    (s.beginReport).ports = s.ports ∧ (s.beginReport).nextSendId = s.nextSendId ∧
    (s.beginReport).ticks = s.ticks := by
  simp only [State.beginReport]
  (repeat' split) <;> simp

@[simp] theorem State.beginNotice_frame (s : State)  :
    (s.beginNotice).pending = s.pending ∧ (s.beginNotice).pins = s.pins ∧
    (s.beginNotice).timebase = s.timebase ∧ (s.beginNotice).ops = s.ops ∧
    (s.beginNotice).memory = s.memory ∧ (s.beginNotice).classifier = s.classifier ∧
    (s.beginNotice).stores = s.stores ∧ (s.beginNotice).ports = s.ports ∧
    (s.beginNotice).nextSendId = s.nextSendId ∧ (s.beginNotice).ticks = s.ticks := by
  simp only [State.beginNotice]
  (repeat' split) <;> simp

@[simp] theorem State.endReport_frame (s : State)  :
    (s.endReport).pending = s.pending ∧ (s.endReport).pins = s.pins ∧
    (s.endReport).timebase = s.timebase ∧ (s.endReport).notices = s.notices ∧
    (s.endReport).memory = s.memory ∧ (s.endReport).classifier = s.classifier ∧
    (s.endReport).stores = s.stores ∧ (s.endReport).ports = s.ports ∧
    (s.endReport).nextSendId = s.nextSendId ∧ (s.endReport).ticks = s.ticks := by
  simp only [State.endReport]
  (repeat' split) <;> simp

@[simp] theorem State.unknownRequest_frame (s : State)  :
    (s.unknownRequest).pending = s.pending ∧ (s.unknownRequest).pins = s.pins ∧
    (s.unknownRequest).timebase = s.timebase ∧ (s.unknownRequest).notices = s.notices ∧
    (s.unknownRequest).memory = s.memory ∧ (s.unknownRequest).classifier = s.classifier ∧
    (s.unknownRequest).stores = s.stores ∧ (s.unknownRequest).ports = s.ports ∧
    (s.unknownRequest).nextSendId = s.nextSendId ∧ (s.unknownRequest).ticks = s.ticks := by
  simp only [State.unknownRequest]
  (repeat' split) <;> simp

@[simp] theorem State.edit_frame (s : State) (e : Edit) :
    ((s.edit e).1).pending = s.pending ∧ ((s.edit e).1).pins = s.pins ∧
    ((s.edit e).1).timebase = s.timebase ∧ ((s.edit e).1).link = s.link ∧
    ((s.edit e).1).notices = s.notices ∧ ((s.edit e).1).ops = s.ops ∧ ((s.edit e).1).memory = s.memory ∧
    ((s.edit e).1).stores = s.stores ∧ ((s.edit e).1).ports = s.ports ∧
    ((s.edit e).1).nextSendId = s.nextSendId ∧ ((s.edit e).1).ticks = s.ticks := by
  simp only [State.edit]
  (repeat' split) <;> simp

@[simp] theorem State.examine_frame (s : State) (b : BlockId) :
    (s.examine b).pending = s.pending ∧ (s.examine b).pins = s.pins ∧
    (s.examine b).timebase = s.timebase ∧ (s.examine b).link = s.link ∧
    (s.examine b).classifier = s.classifier ∧ (s.examine b).stores = s.stores ∧
    (s.examine b).ports = s.ports ∧ (s.examine b).nextSendId = s.nextSendId ∧
    (s.examine b).ticks = s.ticks := by
  simp only [State.examine]
  (repeat' split) <;> simp

@[simp] theorem State.serveRead_frame (s : State) (i : StoreId) (b : Bool) (n m : Nat) :
    ((s.serveRead i b n m).1).pending = s.pending ∧ ((s.serveRead i b n m).1).pins = s.pins ∧
    ((s.serveRead i b n m).1).timebase = s.timebase ∧ ((s.serveRead i b n m).1).link = s.link ∧
    ((s.serveRead i b n m).1).ops = s.ops ∧ ((s.serveRead i b n m).1).classifier = s.classifier ∧
    ((s.serveRead i b n m).1).ports = s.ports ∧ ((s.serveRead i b n m).1).nextSendId = s.nextSendId ∧
    ((s.serveRead i b n m).1).ticks = s.ticks := by
  simp only [State.serveRead, State.grant]
  (repeat' split) <;> simp

@[simp] theorem State.admitSend_frame (s : State) (t : Byte) (p : PortId) (c : Fin 4) (ttl : Nat) (r : Bool) (d : List Byte) :
    ((s.admitSend t p c ttl r d).1).pending = s.pending ∧
    ((s.admitSend t p c ttl r d).1).pins = s.pins ∧
    ((s.admitSend t p c ttl r d).1).timebase = s.timebase ∧
    ((s.admitSend t p c ttl r d).1).link = s.link ∧ ((s.admitSend t p c ttl r d).1).ops = s.ops ∧
    ((s.admitSend t p c ttl r d).1).classifier = s.classifier ∧
    ((s.admitSend t p c ttl r d).1).stores = s.stores ∧ ((s.admitSend t p c ttl r d).1).ticks = s.ticks := by
  have h := s.fill_frame d
  simp only [State.admitSend]
  split
  · simp [State.deny]
  · split <;> rename_i e <;> rw [e] at h <;> simp only at h <;> simp [State.deny, State.grant, h]

@[simp] theorem State.clearGroup_frame (s : State) (g : CounterGroup) :
    (s.clearGroup g).pending = s.pending ∧ (s.clearGroup g).pins = s.pins ∧
    (s.clearGroup g).timebase = s.timebase ∧ (s.clearGroup g).notices = s.notices ∧
    (s.clearGroup g).ops = s.ops ∧ (s.clearGroup g).nextSendId = s.nextSendId ∧
    (s.clearGroup g).ticks = s.ticks := by
  cases g <;> simp [State.clearGroup]

@[simp] theorem State.cancelOp_frame (s : State) (w : OpWork) :
    (s.cancelOp w).pending = s.pending ∧ (s.cancelOp w).pins = s.pins ∧
    (s.cancelOp w).timebase = s.timebase ∧ (s.cancelOp w).link = s.link ∧
    (s.cancelOp w).notices = s.notices ∧ (s.cancelOp w).memory = s.memory ∧
    (s.cancelOp w).classifier = s.classifier ∧ (s.cancelOp w).nextSendId = s.nextSendId ∧
    (s.cancelOp w).ticks = s.ticks := by
  cases w <;> simp [State.cancelOp]

end Sys2Proof.Machine
end

