-- ==== Sys2Proof/Laws/Operations.lean ====
section
/-! SUPPORT. What the shared operations do, once for each: the operation as one record update, or the cases of what it
answers. -/

namespace Sys2Proof.Machine

/-- A list of references released is the same releases in Record Memory; nothing else changes. -/
theorem State.releaseAll_eq (s : State) (ds : List DescId) :
    s.releaseAll ds = { s with memory := ds.foldl RecordMemory.release s.memory } := by
  induction ds generalizing s with
  | nil => rfl
  | cons d ds ih => exact ih (s.release d)

/-- The water mark's re-arming as one record update. -/
theorem Store.rearm_eq (st : Store) :
    st.rearm = { st with highArmed := st.highArmed || decide (st.records.length ≤ st.settings.lowMark) } := by
  by_cases h : st.records.length ≤ st.settings.lowMark <;> simp [Store.rearm, h]

theorem Store.take_eq (st : Store) (k : Nat) :
    st.take k = { st with
      records := st.records.drop k
      delivered := st.delivered - k
      blocksUsed := st.blocksUsed - blocksOf (st.records.take k)
      highArmed := st.highArmed || decide (st.records.length - k ≤ st.settings.lowMark)
      counters := { st.counters with taken := sat32 (st.counters.taken + k) } } := by
  simp [Store.take, Store.dropHead, Store.rearm_eq]

theorem Store.ack_eq (st : Store) (k : Nat) :
    st.ack k = { st with
      records := st.records.drop k
      delivered := st.delivered - k
      blocksUsed := st.blocksUsed - blocksOf (st.records.take k)
      highArmed := st.highArmed || decide (st.records.length - k ≤ st.settings.lowMark)
      counters := { st.counters with acknowledged := sat32 (st.counters.acknowledged + k) } } := by
  simp [Store.ack, Store.dropHead, Store.rearm_eq]

theorem Store.purgeHead_eq (st : Store) :
    st.purgeHead = { st with
      records := st.records.drop 1
      delivered := st.delivered - 1
      blocksUsed := st.blocksUsed - blocksOf (st.records.take 1)
      highArmed := st.highArmed || decide (st.records.length - 1 ≤ st.settings.lowMark)
      counters := { st.counters with purged := sat32 (st.counters.purged + 1) } } := by
  simp [Store.purgeHead, Store.dropHead, Store.rearm_eq]

/-- An acknowledgement names a delivered record, or none. -/
theorem Store.ackCount_eq_some {st : Store} {seq : Word} {k : Nat} (h : st.ackCount seq = some k) :
    ∃ r rest, st.records = r :: rest ∧ (seq - r.seq).toNat < st.delivered ∧ k = (seq - r.seq).toNat + 1 := by
  simp only [Store.ackCount] at h
  split at h
  · simp at h
  · rename_i r rest hr
    split at h
    · exact ⟨r, rest, hr, by assumption, by simpa using h.symm⟩
    · simp at h

/-- A notice raised changes the Notice Queue alone. -/
theorem State.raise_eq (s : State) (k : NoticeKind) (subject : Nat) (detail : Detail) :
    s.raise k subject detail = { s with notices := s.notices.raise k subject detail s.timebase } := rfl

/-- The read of a block whose check code agrees changes nothing. -/
theorem State.checkBlock_sound (s : State) (d : DescId) (b : BlockId) (h : b.val ∉ s.memory.bad) :
    s.checkBlock d b = s := by
  simp [State.checkBlock, h]

/-- Reads of blocks whose check codes agree change nothing. -/
theorem State.checkBlocks_sound (s : State) (d : DescId) (bs : List BlockId) (h : ∀ b ∈ bs, b.val ∉ s.memory.bad) :
    s.checkBlocks d bs = s := by
  induction bs with
  | nil => rfl
  | cons b bs ih =>
    have hb : s.checkBlocks d (b :: bs) = (s.checkBlock d b).checkBlocks d bs := rfl
    rw [hb, s.checkBlock_sound d b (h b (by simp)), ih fun x hx => h x (by simp [hx])]

/-- The end of an entry that is not SENT and does not judge a drain, as one record update. -/
theorem State.endEntry_quiet (s : State) (p : PortId) (e : SendEntry) (status : SendStatus) (byRequest : Bool)
    (h : status ≠ .sent) :
    s.endEntry p e status byRequest false = { s with
      memory := s.memory.release e.desc
      notices := if e.origin = .host ∧ e.report then
          s.notices.raise .sendDone e.id.toNat (.sendDone status (e.tag.getD 0)) s.timebase
        else s.notices
      ports := s.ports.set p.val { (s.port p).entryEnded e with
        queue := (s.port p).queue.eraseP fun x => x.id == e.id } p.isLt } := by
  simp only [State.endEntry, h, if_false, Bool.false_and]
  split <;> simp [State.release, State.modMemory, State.modPort, State.raise, State.modNotices, Port.entryEnded, *] <;>
    split <;> simp_all

/-- A descriptor that is FREE with none before it is the one a request is given. -/
theorem RecordMemory.lowestFree_eq_some {m : RecordMemory} {d : DescId} (hd : (m.desc d).live = false)
    (he : ∀ e < d, (m.desc e).live = true) : m.lowestFree = some d := by
  simp only [RecordMemory.lowestFree, List.find?_eq_some_iff_getElem]
  refine ⟨by simp [hd], d.val, by simp, by simp, fun j hj => ?_⟩
  simpa using he _ (by simpa [Fin.lt_def] using hj)

theorem RecordMemory.lowestFree_eq_none {m : RecordMemory} (h : ∀ d, (m.desc d).live = true) :
    m.lowestFree = none := by
  simp [RecordMemory.lowestFree, h]

/-- R98. A measured time has reached a number of character times. -/
theorem LineSettings.reached_iff (ls : LineSettings) (micros n : Nat) :
    ls.reached micros n = true ↔ n * ls.charBits * 1000000 ≤ micros * ls.baud := decide_eq_true_iff

/-- R98. A character on the line has as many bits as its time counts. -/
theorem LineSettings.characterBits_length (ls : LineSettings) (value : Byte) :
    (ls.characterBits value).length = ls.charBits := by
  simp only [LineSettings.characterBits, LineSettings.charBits]
  split <;> simp <;> omega

/-- R126. The bytes of a block as read are 48. -/
theorem RecordMemory.blockBytes_length (m : RecordMemory) (b : BlockId) : (m.blockBytes b).length = 48 := by
  simp [RecordMemory.blockBytes]

/-- R37. Byte `k` of a block as read is the one the storage held at the read. -/
theorem RecordMemory.blockBytes_getD (m : RecordMemory) (b : BlockId) {k : Nat} (h : k < 48) :
    (m.blockBytes b).getD k 0 = Memory.read m.cells (blockAddress b k) := by
  simp [RecordMemory.blockBytes, h]

/-- R138. The receiver takes the bytes among what HRX brings. -/
theorem hrxBytes_eq (items : List HrxItem) : hrxBytes items = lineBytes items := by
  induction items with
  | nil => rfl
  | cons x _ ih => cases x <;> simp_all [hrxBytes, lineBytes]

/-- R136, R147. One microsecond of a notice on HTX; nothing else on HTX moves with time. -/
theorem Outgoing.tick_notice (rate : LinkRate) (m : Message) (n : Nat) :
    Outgoing.tick rate (.notice m n) =
      if 1000000 * (10 * (8 + m.body.length)) ≤ rate.baud * (n + 1) then none else some (.notice m (n + 1)) := rfl

/-- The release of a reference and a change of a port do not meet. -/
theorem State.modPort_release (s : State) (p : PortId) (d : DescId) (f : Port → Port) :
    (s.release d).modPort p f = (s.modPort p f).release d := rfl

/-- A discard of the frame in assembly releases its descriptor and counts the cause. -/
theorem State.discardFrame_eq {s : State} {p : PortId} {a : Assembly} (h : (s.port p).framer.frame = some a)
    (cause : DiscardCause) :
    s.discardFrame p cause = (s.modPort p fun q => { q with
      framer := { q.framer with frame := none }
      counters := q.counters.discard cause }).release a.desc := by
  simp only [State.discardFrame, State.dropFrame, State.framer, h, State.modFramer, State.count,
    State.modPort_release, State.modPort_modPort]

end Sys2Proof.Machine
end

