-- ==== Sys2Proof/Laws/Memory.lean ====
section
/-! SUPPORT. The payload bytes of Record Memory: what a read finds after a write, and that every operation on them
keeps the canonical form, in which equal contents are equal lists. -/

namespace Sys2Proof.Machine

/-! ### The canonical form -/

theorem Memory.wf_iff (cells : List Host.Cell) :
    Memory.wf cells = true ↔
      cells.Pairwise (fun c d => c.1 < d.1) ∧ ∀ c ∈ cells, c.2 ≠ 0 ∧ c.1 < 49152 := by
  induction cells with
  | nil => simp [Memory.wf]
  | cons c rest ih =>
    cases rest with
    | nil => simp [Memory.wf]
    | cons d rest =>
      simp only [Memory.wf, Bool.and_eq_true, bne_iff_ne, decide_eq_true_eq, ih, List.pairwise_cons, List.mem_cons]
      constructor
      · rintro ⟨⟨h0, hlt⟩, ⟨hd, hr⟩, hall⟩
        refine ⟨⟨?_, hd, hr⟩, ?_⟩
        · rintro x (rfl | hx)
          · exact hlt
          · exact Nat.lt_trans hlt (hd x hx)
        · rintro x (rfl | hx)
          · exact ⟨h0, Nat.lt_trans hlt (hall d (.inl rfl)).2⟩
          · exact hall x hx
      · rintro ⟨⟨hc, hd, hr⟩, hall⟩
        exact ⟨⟨(hall c (.inl rfl)).1, hc d (.inl rfl)⟩, ⟨hd, hr⟩, fun x hx => hall x (.inr hx)⟩

theorem Memory.wf_tail {c : Host.Cell} {rest : List Host.Cell} (h : Memory.wf (c :: rest) = true) :
    Memory.wf rest = true := by
  rw [Memory.wf_iff] at h ⊢
  exact ⟨(List.pairwise_cons.mp h.1).2, fun x hx => h.2 x (List.mem_cons_of_mem _ hx)⟩

/-- An address below every listed one reads 0. -/
theorem Memory.read_of_lt {cells : List Host.Cell} {a : Nat} (h : ∀ c ∈ cells, a < c.1) :
    Memory.read cells a = 0 := by
  induction cells with
  | nil => rfl
  | cons c rest ih =>
    have hc := h c (by simp)
    simp only [Memory.read]
    rw [if_neg (Nat.ne_of_gt hc)]
    exact ih fun x hx => h x (by simp [hx])

/-! ### Read after write -/

/-- A read finds the byte written at its address, and elsewhere what it found before. -/
theorem Memory.read_write {cells : List Host.Cell} (h : Memory.wf cells = true) (a b : Nat) (v : Byte) :
    Memory.read (Memory.write cells a v) b = if b = a then v else Memory.read cells b := by
  induction cells with
  | nil =>
    simp only [Memory.write]
    by_cases hv : v = 0
    · simp [hv, Memory.read]
    · rw [if_neg hv, Memory.read, Memory.read]
      by_cases hb : b = a
      · rw [if_pos hb.symm, if_pos hb]
      · rw [if_neg (Ne.symm hb), if_neg hb]; rfl
  | cons c rest ih =>
    obtain ⟨k, w⟩ := c
    have hp := (Memory.wf_iff _).mp h
    have hk : ∀ x ∈ rest, k < x.1 := (List.pairwise_cons.mp hp.1).1
    have ih := ih (Memory.wf_tail h)
    simp only [Memory.write]
    by_cases h1 : a < k
    · have ha : Memory.read ((k, w) :: rest) a = 0 := by
        refine Memory.read_of_lt fun x hx => ?_
        rcases List.mem_cons.mp hx with rfl | hx
        · exact h1
        · exact Nat.lt_trans h1 (hk x hx)
      by_cases hv : v = 0
      · rw [if_pos h1, if_pos hv]
        by_cases hb : b = a
        · rw [if_pos hb, hb, ha, hv]
        · rw [if_neg hb]
      · rw [if_pos h1, if_neg hv, Memory.read]
        by_cases hb : b = a
        · rw [if_pos hb.symm, if_pos hb]
        · rw [if_neg (Ne.symm hb), if_neg hb]
    · by_cases h2 : a = k
      · subst h2
        by_cases hv : v = 0
        · rw [if_neg h1, if_pos rfl, if_pos hv]
          by_cases hb : b = a
          · rw [if_pos hb, hb, Memory.read_of_lt hk, hv]
          · rw [if_neg hb, Memory.read, if_neg (Ne.symm hb)]
        · rw [if_neg h1, if_pos rfl, if_neg hv, Memory.read, Memory.read]
          by_cases hb : b = a
          · rw [if_pos hb.symm, if_pos hb]
          · rw [if_neg (Ne.symm hb), if_neg hb, if_neg (Ne.symm hb)]
      · rw [if_neg h1, if_neg h2, Memory.read, Memory.read, ih]
        by_cases hb : k = b
        · subst hb; simp [Ne.symm h2]
        · simp [hb]

theorem Memory.read_write_same {cells : List Host.Cell} (h : Memory.wf cells = true) (a : Nat) (v : Byte) :
    Memory.read (Memory.write cells a v) a = v := by simp [Memory.read_write h]

theorem Memory.read_write_other {cells : List Host.Cell} (h : Memory.wf cells = true) {a b : Nat} (v : Byte)
    (hb : b ≠ a) : Memory.read (Memory.write cells a v) b = Memory.read cells b := by
  simp [Memory.read_write h, hb]

/-- Cleared addresses read 0 and the others what they read before. -/
theorem Memory.read_clear (cells : List Host.Cell) (lo n a : Nat) :
    Memory.read (Memory.clear cells lo n) a = if lo ≤ a ∧ a < lo + n then 0 else Memory.read cells a := by
  induction cells with
  | nil => simp [Memory.clear, Memory.read]
  | cons c rest ih =>
    simp only [Memory.clear] at ih ⊢
    by_cases hc : c.1 < lo ∨ lo + n ≤ c.1
    · rw [List.filter_cons_of_pos (by simpa using hc), Memory.read, Memory.read, ih]
      by_cases ha : c.1 = a
      · rw [if_pos ha, if_pos ha, if_neg (by omega)]
      · rw [if_neg ha, if_neg ha]
    · rw [List.filter_cons_of_neg (by simpa using hc), ih, Memory.read]
      by_cases ha : c.1 = a
      · rw [if_pos (by omega), if_pos (by omega)]
      · rw [if_neg ha]

/-! ### The operations keep the form -/

theorem Memory.write_mem {cells : List Host.Cell} {a : Nat} {v : Byte} {c : Host.Cell}
    (h : c ∈ Memory.write cells a v) : c ∈ cells ∨ (c = (a, v) ∧ v ≠ 0) := by
  induction cells with
  | nil =>
    by_cases hv : v = 0
    · simp [Memory.write, hv] at h
    · simp only [Memory.write, if_neg hv, List.mem_singleton] at h; exact .inr ⟨h, hv⟩
  | cons d rest ih =>
    by_cases hv : v = 0 <;> by_cases h1 : a < d.1 <;> by_cases h2 : a = d.1 <;>
      simp only [Memory.write, hv, h1, h2, if_true, if_false, Nat.lt_irrefl] at h <;> grind

theorem Memory.write_wf {cells : List Host.Cell} (h : Memory.wf cells = true) {a : Nat} (ha : a < 49152) (v : Byte) :
    Memory.wf (Memory.write cells a v) = true := by
  rw [Memory.wf_iff] at h ⊢
  refine ⟨?_, fun c hc => ?_⟩
  · have hp := h.1
    clear h
    induction cells with
    | nil =>
      simp only [Memory.write]
      split <;> simp
    | cons d rest ih =>
      have hd := (List.pairwise_cons.mp hp).1
      have hr := (List.pairwise_cons.mp hp).2
      simp only [Memory.write]
      by_cases h1 : a < d.1
      · by_cases hv : v = 0
        · simpa [h1, hv] using ⟨fun x y hxy => hd (x, y) hxy, hr⟩
        · simp only [h1, hv, if_true, if_false]
          refine List.pairwise_cons.mpr ⟨fun x hx => ?_, hp⟩
          rcases List.mem_cons.mp hx with rfl | hx
          · exact h1
          · exact Nat.lt_trans h1 (hd x hx)
      · by_cases h2 : a = d.1
        · by_cases hv : v = 0
          · simpa [h2, hv] using hr
          · simp only [h2, hv, Nat.lt_irrefl, if_true, if_false]
            exact List.pairwise_cons.mpr ⟨hd, hr⟩
        · simp only [h1, h2, if_false]
          refine List.pairwise_cons.mpr ⟨fun x hx => ?_, ih hr⟩
          rcases Memory.write_mem hx with hx | ⟨rfl, _⟩
          · exact hd x hx
          · show d.1 < a
            omega
  · rcases Memory.write_mem hc with hc | ⟨rfl, hv⟩
    · exact h.2 c hc
    · exact ⟨hv, ha⟩

theorem Memory.clear_wf {cells : List Host.Cell} (h : Memory.wf cells = true) (lo n : Nat) :
    Memory.wf (Memory.clear cells lo n) = true := by
  rw [Memory.wf_iff] at h ⊢
  exact ⟨h.1.filter _, fun c hc => h.2 c (List.mem_of_mem_filter hc)⟩

/-- Two memories in the canonical form that read alike are equal. -/
theorem Memory.ext {cells cells' : List Host.Cell} (h : Memory.wf cells = true) (h' : Memory.wf cells' = true)
    (hr : ∀ a, Memory.read cells a = Memory.read cells' a) : cells = cells' := by
  induction cells generalizing cells' with
  | nil =>
    cases cells' with
    | nil => rfl
    | cons d rest =>
      have hd := ((Memory.wf_iff _).mp h').2 d (by simp)
      have := hr d.1
      simp only [Memory.read, if_true] at this
      exact absurd this.symm hd.1
  | cons c rest ih =>
    have hc := (Memory.wf_iff _).mp h
    have hcl := (List.pairwise_cons.mp hc.1).1
    cases cells' with
    | nil =>
      have := hr c.1
      simp only [Memory.read, if_true] at this
      exact absurd this (hc.2 c (by simp)).1
    | cons d rest' =>
      have hd := (Memory.wf_iff _).mp h'
      have hdl := (List.pairwise_cons.mp hd.1).1
      have key : c.1 = d.1 := by
        rcases Nat.lt_trichotomy c.1 d.1 with hlt | heq | hlt
        · have h0 : Memory.read (d :: rest') c.1 = 0 := Memory.read_of_lt fun x hx => by
            rcases List.mem_cons.mp hx with rfl | hx
            · exact hlt
            · exact Nat.lt_trans hlt (hdl x hx)
          have := hr c.1
          rw [h0] at this
          simp only [Memory.read, if_true] at this
          exact absurd this (hc.2 c (by simp)).1
        · exact heq
        · have h0 : Memory.read (c :: rest) d.1 = 0 := Memory.read_of_lt fun x hx => by
            rcases List.mem_cons.mp hx with rfl | hx
            · exact hlt
            · exact Nat.lt_trans hlt (hcl x hx)
          have := hr d.1
          rw [h0] at this
          simp only [Memory.read, if_true] at this
          exact absurd this.symm (hd.2 d (by simp)).1
      have hv : c.2 = d.2 := by
        have := hr c.1
        simpa [Memory.read, key] using this
      have htail : rest = rest' := by
        refine ih (Memory.wf_tail h) (Memory.wf_tail h') fun a => ?_
        by_cases ha : c.1 = a
        · subst ha
          rw [Memory.read_of_lt hcl, Memory.read_of_lt (key ▸ hdl)]
        · have := hr a
          rwa [Memory.read, Memory.read, if_neg ha, if_neg (key ▸ ha)] at this
      rw [htail, Prod.ext key hv]

theorem blockAddress_lt (b : BlockId) {k : Nat} (h : k < 48) : blockAddress b k < 49152 := by
  have := b.isLt
  simp only [blockAddress]
  omega

theorem RecordMemory.takeBlocks_wf {m : RecordMemory} (h : Memory.wf m.cells = true) (d : DescId) (n : Nat) :
    Memory.wf (m.takeBlocks d n).cells = true := by
  simp only [RecordMemory.takeBlocks]
  generalize m.free.take n = taken
  generalize hc : m.cells = cells at h
  clear hc
  induction taken generalizing cells with
  | nil => exact h
  | cons b rest ih => exact ih _ (Memory.clear_wf h _ _)

theorem RecordMemory.appendByte_wf {m : RecordMemory} (h : Memory.wf m.cells = true) (d : DescId) (v : Byte) :
    Memory.wf (m.appendByte d v).cells = true := by
  simp only [RecordMemory.appendByte]
  split
  · exact Memory.write_wf h (blockAddress_lt _ (Nat.mod_lt _ (by decide))) v
  · exact h

theorem RecordMemory.disturb_wf {m : RecordMemory} (h : Memory.wf m.cells = true) (u : Upset) :
    Memory.wf (m.disturb u).cells = true :=
  Memory.write_wf h (blockAddress_lt _ u.offset.isLt) _

theorem RecordMemory.tick_wf {m : RecordMemory} (h : Memory.wf m.cells = true) (now : Nat) :
    Memory.wf (m.tick now).cells = true := by
  simp only [RecordMemory.tick]
  generalize Config.upsets now = us
  induction us generalizing m with
  | nil => exact h
  | cons u us ih => exact ih (RecordMemory.disturb_wf h u)

theorem RecordMemory.release_cells (m : RecordMemory) (d : DescId) : (m.release d).cells = m.cells := by
  simp only [RecordMemory.release, RecordMemory.rearm]
  (repeat' split) <;> rfl

theorem State.judgeLow_cells (s : State) (n : Nat) : (s.judgeLow n).memory.cells = s.memory.cells := by
  simp only [State.judgeLow]
  split <;> rfl

theorem State.storeByte_wf {s : State} (h : Memory.wf s.memory.cells = true) (d : DescId) (v : Byte) :
    Memory.wf (s.storeByte d v).2.memory.cells = true := by
  simp only [State.storeByte]
  split
  · exact RecordMemory.appendByte_wf h d v
  · split
    · exact h
    · refine RecordMemory.appendByte_wf ?_ d v
      rw [State.takeBlocks, State.judgeLow_cells]
      exact RecordMemory.takeBlocks_wf h d 1

theorem State.fill_wf {s : State} (h : Memory.wf s.memory.cells = true) (bytes : List Byte) :
    Memory.wf (s.fill bytes).2.memory.cells = true := by
  simp only [State.fill]
  split
  · exact h
  · rename_i d _
    split
    · exact h
    · have append : ∀ (bs : List Byte) (m : RecordMemory), Memory.wf m.cells = true →
          Memory.wf (bs.foldl (fun m v => m.appendByte d v) m).cells = true := by
        intro bs
        induction bs with
        | nil => exact fun m hm => hm
        | cons b bs ih => exact fun m hm => ih _ (RecordMemory.appendByte_wf hm d b)
      refine append _ _ ?_
      rw [State.takeBlocks, State.judgeLow_cells]
      exact RecordMemory.takeBlocks_wf (m := s.memory.takeDescriptor d) h d _

theorem State.reset_cells_wf : Memory.wf State.reset.memory.cells = true := rfl

end Sys2Proof.Machine
end

