-- ==== Sys2Proof/Laws/Requests.lean ====
section
/-! SUPPORT. What the Request Executor does with the request at the head of its queue: once for every kind. -/

namespace Sys2Proof.Machine

theorem isRequestKind_code (k : Kind) : isRequestKind k.code = true := by cases k <;> decide

@[simp] theorem replyKind_code (k : Kind) : replyKind k.code = k.code + 0x80 := by
  simp [replyKind, isRequestKind_code]

theorem roleOf_eq (status : Status) : roleOf status = if status = .accepted then .accepted else .ordinary := by
  cases status <;> simp [roleOf]

/-- The answer to a taken request is the reply of the state that the request left, whatever it did to the rest. -/
theorem State.answer_taken (u : State) (k : Kind) (tag : Byte) (body : List Byte) (rest : List Message)
    (status : Status) (fields : List Byte) :
    (u.modLink fun l => l.takeRequest ⟨k.code, tag, body⟩ k rest).answer tag k.code status fields (roleOf status) .idle
      = u.replied k tag rest status fields := by
  simp [State.answer, State.replied, State.modLink, Link.takeRequest, replyBody, roleOf_eq]

/-- A request that waits is executed by what is given for it. -/
theorem State.request_waiting {s : State} {k : Kind} {tag : Byte} {body : List Byte} {rest : List Message}
    (h : s.Waiting k tag body rest) (run : Byte → List Byte → State → State × Response) :
    s.request k run =
      let out := run tag body s
      let taken := out.1.modLink fun l => l.takeRequest ⟨k.code, tag, body⟩ k rest
      match out.2 with
      | .reply status fields => taken.answer tag k.code status fields (roleOf status) .idle
      | .restart => taken.answer tag k.code .ok [] .restart .stopped
      | .held => taken := by
  have hp : s.link.placeFree = true := by simpa [Link.placeFree] using h.place
  simp only [State.request, h.idle, h.head]
  exact if_pos (by rw [beq_self_eq_true, hp]; rfl)

/-- A request whose body passes the length and field checks is handed to its owning block. -/
theorem State.execRequest_ok {α : Type} {s : State} {k : Kind} {tag : Byte} {body : List Byte}
    {rest : List Message} {parse : List Byte → Except Nat α} {act : Byte → α → State → State × Response} {a : α}
    {u : State} {status : Status} {fields : List Byte} (h : s.Waiting k tag body rest)
    (hl : lengthAllowed k body.length = true) (hp : parse body = .ok a)
    (ha : act tag a s = (u, .reply status fields)) :
    s.execRequest k parse act = .next (u.replied k tag rest status fields) := by
  simp only [State.execRequest, State.unlessReset, h.running, State.request_waiting h, checked, hl, hp, ha]
  simp [State.answer_taken]

/-- A request of a wrong body length. -/
theorem State.execRequest_badLength {α : Type} {s : State} {k : Kind} {tag : Byte} {body : List Byte}
    {rest : List Message} {parse : List Byte → Except Nat α} {act : Byte → α → State → State × Response}
    (h : s.Waiting k tag body rest) (hl : lengthAllowed k body.length = false) :
    s.execRequest k parse act = .next (s.replied k tag rest .badLength []) := by
  simp only [State.execRequest, State.unlessReset, h.running, State.request_waiting h, checked, hl]
  simp [State.answer_taken]

/-- A request with a field out of range. -/
theorem State.execRequest_badParam {α : Type} {s : State} {k : Kind} {tag : Byte} {body : List Byte}
    {rest : List Message} {parse : List Byte → Except Nat α} {act : Byte → α → State → State × Response} {i : Nat}
    (h : s.Waiting k tag body rest) (hl : lengthAllowed k body.length = true) (hp : parse body = .error i) :
    s.execRequest k parse act = .next (s.replied k tag rest .badParam [byte1 i]) := by
  simp only [State.execRequest, State.unlessReset, h.running, State.request_waiting h, checked, hl, hp]
  simp [State.answer_taken]

/-- Everything that the taking of a request can do: nothing, or the taking of the oldest request of the kind and
its execution. -/
theorem State.request_cases (s : State) (k : Kind) (run : Byte → List Byte → State → State × Response) :
    s.request k run = s ∨ ∃ r rest, s.link.executor = .idle ∧ s.link.requests = r :: rest ∧ r.kind = k.code
      ∧ s.link.placeFree = true
      ∧ s.request k run =
        (let out := run r.tag r.body s
        let taken := out.1.modLink fun l => l.takeRequest r k rest
        match out.2 with
        | .reply status fields => taken.answer r.tag r.kind status fields (roleOf status) .idle
        | .restart => taken.answer r.tag r.kind .ok [] .restart .stopped
        | .held => taken) := by
  simp only [State.request]
  split
  · rename_i r rest h1 h2
    split
    · rename_i h
      simp only [Bool.and_eq_true, beq_iff_eq] at h
      exact .inr ⟨r, rest, h1, h2, h.1, h.2, rfl⟩
    · exact .inl rfl
  · exact .inl rfl

end Sys2Proof.Machine
end

