-- ==== Sys2Proof/Laws/Reset.lean ====
section
/-! SUPPORT. The state right after reset meets each of the properties of Safety.lean: the first state of every run, and
a witness that each of them can be met. -/

namespace Sys2Proof.Machine

/-- A vector of one value holds it at every place. -/
theorem vector_get_replicate {α : Type} {n : Nat} (x : α) (i : Fin n) : (Vector.replicate n x).get i = x := by
  simp [Vector.get_eq_getElem]

theorem State.reset_port (p : PortId) : State.reset.port p = .reset := vector_get_replicate _ _

theorem State.reset_store (i : StoreId) : State.reset.store i = .reset := vector_get_replicate _ _

theorem RecordMemory.reset_desc (d : DescId) : RecordMemory.reset.desc d = .unused := vector_get_replicate _ _

theorem Classifier.reset_rule (r : RuleId) : Classifier.reset.rule r = .unused := vector_get_replicate _ _

theorem Classifier.reset_chain (p : PortId) : Classifier.reset.chain p = [] := vector_get_replicate _ _

theorem RecordMemory.reset_sound : RecordMemory.reset.Sound where
  cells := rfl
  partitioned := by
    have h : RecordMemory.reset.chained = [] := by
      simp [RecordMemory.chained, RecordMemory.reset_desc, Descriptor.unused]
    rw [RecordMemory.Partitioned, h, List.append_nil]
    exact .of_eq (by simp only [RecordMemory.reset])
  tidy := fun d => by simp [RecordMemory.reset_desc, Descriptor.Tidy, Descriptor.unused]
  threshold := by decide
  lowWater := by simp [RecordMemory.reset]

theorem State.reset_entries : State.reset.entries = [] := by decide +kernel

theorem State.reset_counted : State.reset.Counted := by
  intro d
  have h1 : (State.reset.memory.desc d).refs = 0 := congrArg Descriptor.refs (RecordMemory.reset_desc d)
  rw [h1]
  rfl

theorem State.reset_poolSound : State.reset.PoolSound where
  size := by decide +kernel
  ids := by rw [State.reset_entries]; exact List.nodup_nil
  nonzero := by rw [State.reset_entries]; simp
  next := by decide

theorem State.reset_sendSound (p : PortId) : (State.reset.port p).SendSound := by
  rw [State.reset_port]
  exact ⟨by decide, by decide, by decide, fun h => absurd h (by decide)⟩

theorem State.reset_dirSound (p : PortId) : (State.reset.port p).DirSound := by
  rw [State.reset_port]
  exact fun h => absurd h (by decide)

theorem State.reset_framerSound (p : PortId) : (State.reset.port p).FramerSound := by
  rw [State.reset_port]
  exact ⟨by decide, by decide⟩

theorem State.reset_fifoBounded (p : PortId) : (State.reset.port p).FifoBounded := by
  rw [State.reset_port]
  exact (by decide : Port.reset.fill ≤ 64)

theorem State.reset_storeSound (i : StoreId) : (State.reset.store i).Sound := by
  rw [State.reset_store]
  exact ⟨by decide, by decide, by decide, by decide, by decide, by decide, trivial, by decide, by decide, by decide⟩

theorem State.reset_classifierSound : State.reset.classifier.Sound where
  queue := by decide
  once := fun p => by rw [show State.reset.classifier.chain p = [] from Classifier.reset_chain p]; exact List.nodup_nil
  linked := fun r p => by
    rw [show State.reset.classifier.chain p = [] from Classifier.reset_chain p,
      show State.reset.classifier.rule r = .unused from Classifier.reset_rule r]
    simp [Rule.unused]
  unlinked := fun r _ => by rw [show State.reset.classifier.rule r = .unused from Classifier.reset_rule r]; rfl
  linkedSomewhere := fun r h => by
    rw [show State.reset.classifier.rule r = .unused from Classifier.reset_rule r] at h
    exact absurd h (by decide)
  free := fun r _ => Classifier.reset_rule r

theorem State.reset_linkBounded : State.reset.link.Bounded := ⟨by decide, by decide, rfl⟩

theorem State.reset_noticesSound : State.reset.notices.Sound :=
  ⟨by decide, by decide, by decide, by decide, by decide, by decide, by decide⟩

theorem State.reset_opsSound : State.reset.ops.Sound :=
  ⟨by decide, by decide, by decide, List.Perm.refl _⟩

theorem State.reset_tagsSound : State.reset.TagsSound where
  exact := List.Perm.refl _
  different := List.nodup_nil
  nonzero := by decide
  report := fun _ h => nomatch h

theorem State.reset_opsAgree : State.reset.OpsAgree where
  purging := fun i => by rw [State.reset_store]; simp [Store.reset, State.reset]
  draining := fun p => by rw [State.reset_port]; simp [Port.reset, State.reset]

theorem LineSettings.dflt_valid : LineSettings.dflt.Valid :=
  ⟨by decide, by decide, by decide, by decide, by decide, by decide⟩

theorem FramerSettings.dflt_valid : FramerSettings.dflt.Valid :=
  ⟨by decide, by decide, by decide, by decide, (fun _ h => nomatch h), by decide, by decide, by decide, by decide,
    by decide⟩

theorem State.reset_settingsValid : State.reset.SettingsValid where
  lines := fun p => by rw [State.reset_port]; exact LineSettings.dflt_valid
  framers := fun p => by rw [State.reset_port]; exact FramerSettings.dflt_valid
  rules := fun r => by
    rw [show State.reset.classifier.rule r = .unused from Classifier.reset_rule r]
    exact ⟨by decide, by decide, by decide, trivial⟩
  templates := fun i => by
    rw [show State.reset.classifier.templates.get i = ⟨[], none⟩ from vector_get_replicate _ _]
    exact ⟨by decide, (fun _ h => nomatch h)⟩
  held := fun _ h => nomatch h
  stores := fun i => by
    rw [State.reset_store]
    exact ⟨by decide, by decide, by decide, by decide⟩

end Sys2Proof.Machine
end

