-- ==== Sys2Proof/WellFormed.lean ====
section
/-! DEFINITION. The checks a command passes to be well-formed. The numbers of ports and stores are bounded by
their types; what remains is that a link event brings something on HRX, and one byte at the least where the last byte
is what makes the event happen (R139, R141), and that a TTL expiry names a send id of 1 to 65,535 (R116). -/

namespace Sys2Proof

/-- A byte, and no low period (R138). -/
def HrxItem.isByte : HrxItem → Bool
  | .byte _ _ => true
  | .lowPeriod => false

/-- The command's operands are ones that the event can have. -/
def Instr.wellFormed : Instr → Bool
  | .powerUp _ _ => true
  | .resetAssert => true
  | .resetRelease => true
  | .holdAssert => true
  | .holdRelease => true
  | .messageArrival items => !items.isEmpty
  | .badHeader items => items.any HrxItem.isByte
  | .badCrc items => items.any HrxItem.isByte
  | .interByteTimeout => true
  | .unknownKind => true
  | .hello => true
  | .ping => true
  | .restart => true
  | .timeGet => true
  | .timeSet => true
  | .portConfig => true
  | .framerConfig => true
  | .portStart => true
  | .portPause => true
  | .portResume => true
  | .portStop => true
  | .portReset => true
  | .portStatus => true
  | .ruleWrite => true
  | .ruleLink => true
  | .ruleUnlink => true
  | .ruleFree => true
  | .ruleEnable => true
  | .ruleRead => true
  | .chainList => true
  | .defaultSet => true
  | .templateWrite => true
  | .storeConfig => true
  | .storeOpen => true
  | .storePause => true
  | .storeClose => true
  | .storeRead => true
  | .storeAck => true
  | .storeRewind => true
  | .storeStatus => true
  | .storePurge => true
  | .purgeRemoval _ => true
  | .send => true
  | .sendCancel => true
  | .sendStatus => true
  | .portDrain => true
  | .memoryStatus => true
  | .memoryCheck => true
  | .memoryCheckExamine => true
  | .memoryLowSet => true
  | .noticeCredit => true
  | .noticeMask => true
  | .countersRead => true
  | .countersClear => true
  | .opList => true
  | .opCancel => true
  | .replyBegin => true
  | .replyEnd => true
  | .completionReportBegin => true
  | .completionReportEnd => true
  | .noticeSend => true
  | .characterReceived _ _ _ _ => true
  | .breakDetected _ => true
  | .breakEnd _ => true
  | .framerTakeItem _ => true
  | .quietTimeExpiry _ => true
  | .classificationStart => true
  | .walkVisit => true
  | .classificationEnd => true
  | .selection _ => true
  | .sendGapExpiry _ => true
  | .turnaroundEnd _ => true
  | .characterSent _ => true
  | .trailingHoldExpiry _ => true
  | .ttlExpiry sendId => sendId != 0
  | .drainDeadline _ => true
  | .startBit _ => true
  | .framingErrorEnd _ => true

end Sys2Proof
end

