-- ==== Sys2Proof/Tests/Slice0.lean ====
section
/-! SUPPORT. Tests. First the checks of WellFormed on ill-formed terms; then values that the manual works out, each for
one step; then, for every statement that has hypotheses, a state and operands that meet those of each of its
clauses together, at the boundary values where a range has some. -/

namespace Sys2Proof.Tests

-- one theorem after another: together they would take more threads than the memory limit leaves room for
set_option Elab.async false

open Sys2Proof.Machine

/-! ### States to test on -/

/-- The state with one request at the idle Executor. -/
def ask (s : State) (k : Kind) (body : List Byte) : State :=
  { s with
    pins := ⟨false, false, false, false⟩
    link := { s.link with requests := [⟨k.code, 9, body⟩], executor := .idle, replies := [], reserved := 0 } }

theorem ask_waiting (s : State) (k : Kind) (body : List Byte) : (ask s k body).Waiting k 9 body [] where
  running := rfl
  idle := rfl
  place := by simp [ask]
  head := rfl

/-- The reset state with port 0 changed. -/
def onPort (f : Port → Port) : State := State.reset.modPort 0 f

/-- The reset state with port 0 in a state. -/
def inState (x : PortState) : State := onPort fun q => { q with state := x }

/-- The reset state with store 0 changed. -/
def onStore (f : Store → Store) : State := State.reset.modStore 0 f

/-- What follows from the next state of an outcome; false where there is none. -/
def after (o : Host.Outcome State Fault Refusal) (test : State → Bool) : Bool :=
  match o with
  | .next t => test t
  | _ => false

/-- The body of the reply that a request is given. -/
def replyTo (o : Host.Outcome State Fault Refusal) (body : List Byte) : Bool :=
  after o fun t => t.link.replies.map (fun r => r.message.body) == [body]

/-- A send entry of an id, with a TTL and a state. -/
def entry (id : Half) (cls : Fin 4) (state : SendState) (ttl : Option Nat) : SendEntry :=
  ⟨id, .host, cls, 0, ttl, 0, true, some 7, state, 0⟩

/-- Bytes that come on HRX with their stop bits high. -/
def bytesIn (bytes : List Byte) : List HrxItem := bytes.map fun b => .byte b true

/-! ### WellFormed -/

theorem test_wf_refuses_an_arrival_of_nothing : (Instr.messageArrival []).wellFormed = false := by decide
theorem test_wf_refuses_a_bad_header_of_no_byte : (Instr.badHeader [.lowPeriod]).wellFormed = false := by decide
theorem test_wf_refuses_a_bad_crc_of_no_byte : (Instr.badCrc [.lowPeriod]).wellFormed = false := by decide
theorem test_wf_refuses_an_expiry_of_send_id_0 : (Instr.ttlExpiry 0).wellFormed = false := by decide
theorem test_wf_passes_others : (Instr.messageArrival [.lowPeriod]).wellFormed = true ∧ (Instr.ttlExpiry 1).wellFormed = true ∧
    Instr.ping.wellFormed = true := by decide

/-- No word of any length spells a command: the table gives no bits. -/
theorem test_no_word_spells_a_command (nbits w : Nat) : decodeTableWord nbits w = none := rfl

/-! ### Values that the manual works out -/

/-- R136. The header check of the PING with tag 7 and two body bytes is F4. -/
theorem test_header_check : headerCheck [0x02, 0x00, 0x07, 0x02] = 0xF4 := by decide +kernel

/-- R137. The CRC of the nine bytes 31 to 39 is 0x29B1. -/
theorem test_crc : crc16 [0x31, 0x32, 0x33, 0x34, 0x35, 0x36, 0x37, 0x38, 0x39] = 0x29B1 := by decide +kernel

/-- "A PING in full". The message with tag 1, byte for byte. -/
theorem test_ping_bytes :
    Message.bytes ⟨0x02, 1, [0x31, 0x32, 0x33, 0x34, 0x35, 0x36, 0x37, 0x38, 0x39]⟩ =
      [0xC3, 0x09, 0x00, 0x01, 0x02, 0xF3, 0x31, 0x32, 0x33, 0x34, 0x35, 0x36, 0x37, 0x38, 0x39, 0xB1, 0x29] := by
  decide +kernel

/-- R139. A stray C3 before a message: the header it begins is bad, and the message's own C3 begins the next one. -/
theorem test_stray_start_byte :
    after (exec (.badHeader (bytesIn [0xC3, 0xC3, 0x02, 0x00, 0x07, 0x02])) State.reset) (fun t =>
      t.link.receiver == ⟨.header, [0x02, 0x00, 0x07, 0x02], [], 0xFFFF, [], 0⟩ && t.link.counters.badHeader == 1) = true := by
  decide +kernel

/-- R138. A byte with a low stop bit is taken at its value; a low period gives no byte. -/
theorem test_low_stop_bit_and_low_period :
    after (exec (.messageArrival [.byte 0xC3 true, .byte 0x02 false, .lowPeriod, .byte 0x00 true]) State.reset) (fun t =>
      t.link.receiver == ⟨.header, [0x02, 0x00], [], 0xFFFF, [], 0⟩) = true := by decide +kernel

/-- R136, R147. A notice is 25 bytes of 86.81 µs at 115,200 baud, 2,170.1 µs: it is on HTX after 2,170 µs, not after
2,171 µs. -/
theorem test_notice_is_sent_whole :
    let m : Message := ⟨0xF0, 0, List.replicate 17 0⟩
    Outgoing.tick .r115200 (.notice m 2169) = some (.notice m 2170) ∧ Outgoing.tick .r115200 (.notice m 2170) = none := by
  decide +kernel

/-- R100. The character that was on the line at the pause is not taken when it ends after the resume. -/
theorem test_character_cut_by_a_pause :
    let q : Port := { Port.reset with state := .running, line := LineState.abandon (.character false) }
    (q.characterReceived 0 0x41 false true).fifo = [] ∧ (q.characterReceived 0 0x41 false true).counters.received = 0 ∧
      ((q.startBit).characterReceived 0 0x41 false true).fifo = [.char ⟨0x41, ⟨false, false, false⟩, 0⟩] := by
  decide +kernel

/-- R150. PING gives its bytes back. -/
theorem test_ping : replyTo (exec .ping (ask State.reset .ping [0x41, 0x42])) [0x00, 0x41, 0x42] = true := by decide +kernel

/-- R149. HELLO of a part at 115,200 baud after a power-up. -/
theorem test_hello : replyTo (exec .hello (ask State.reset .hello []))
    [0, 0x42, 0x46, 0x53, 1, 0, 0, 4, 128, 16, 0, 4, 0, 1, 8, 48, 16, 8, 8, 12, 16, 4] = true := by decide +kernel

/-- R152. RESTART stops the Executor, and the end of its reply resets the part. -/
theorem test_restart_reply_resets :
    after (exec .replyEnd { State.reset with link := { State.reset.link with htx := some (.reply ⟨⟨0x83, 1, [0]⟩, .restart⟩) } })
      (fun t => t.link.resetCause == .restart && t.link.htx == none) = true := by decide +kernel

/-- R153, "Signals". RATE1 high and RATE0 low select 1,000,000 baud. -/
theorem test_rate : after (exec (.powerUp true false) State.reset) (fun t => t.link.rate == .r1000000) = true := by
  decide +kernel

/-- R98. A character time at 9,600 baud with 10-bit characters is 1,041.67 µs: 4 of them are reached at 4,167 µs, not
at 4,166 µs. -/
theorem test_character_times : LineSettings.dflt.reached 4167 4 = true ∧ LineSettings.dflt.reached 4166 4 = false := by
  decide +kernel

/-- R97, R98. The parity bit of 7-bit data under EVEN and ODD. -/
theorem test_parity : oddOnes 0x07 = true ∧ oddOnes 0x03 = false := by decide +kernel

/-- R98. The 11 bits of 0x41 with 7 data bits, EVEN parity and 2 stop bits, worked out by hand from the rule. -/
theorem test_character_bits :
    ({ LineSettings.dflt with dataBits := 7, parity := .even, stopBits := 2 } : LineSettings).characterBits 0x41 =
      [false, true, false, false, false, false, false, true, false, true, true] := by decide +kernel

/-- R126. A byte of the storage that is disturbed after the read of its block is sent as the read delivered it. -/
theorem test_block_is_read_once :
    let e : SendEntry := entry 1 0 .sending none
    let s := onPort fun q => { q with
      state := .running, queue := [e], tx := .sending 7 q.settings ([7, 8] ++ List.replicate 46 0) }
    after (exec (.characterSent 0) { s with memory := { s.memory with
        descs := s.memory.descs.set 0 ⟨true, [0], 2, 1, false⟩, cells := [(0, 7), (1, 9)], bad := [0] } })
      (fun t => match (t.port 0).tx with
        | .sending value _ _ => value == 8
        | _ => false) = true := by decide +kernel

/-- R53. A frame of 66 bytes fills 2 blocks, one of 48 fills 1, an empty one 0. -/
theorem test_blocks : blocksFor 66 = 2 ∧ blocksFor 48 = 1 ∧ blocksFor 49 = 2 ∧ blocksFor 0 = 0 := by decide

/-- "A poll answered from a template". Template 06 0D with the echo 31 34 inserted at position 1. -/
theorem test_reply_is_built :
    Template.build ⟨[0x06, 0x0D], some ⟨1, 1, 2⟩⟩ [0x31, 0x34] = [0x06, 0x31, 0x34, 0x0D] := by decide

/-- R78. The pattern 0D 0A: the progress after 0D, then after a second 0D, then after 0A. -/
theorem test_pattern : advance [0x0D, 0x0A] 0 0x0D = 1 ∧ advance [0x0D, 0x0A] 1 0x0D = 1 ∧
    advance [0x0D, 0x0A] 1 0x0A = 2 ∧ advance [0x0D, 0x0A] 1 0x20 = 0 := by decide +kernel

/-- R78. The pattern 41 41 42 at progress 2: another 41 keeps 2. -/
theorem test_pattern_falls_back : advance [0x41, 0x41, 0x42] 2 0x41 = 2 := by decide +kernel

/-- R15, R16. "GP" under FF FF matches a frame that begins 47 50; byte 2 of 52 does not agree with 47. -/
theorem test_key : keyMatches [0x47, 0x50] [0xFF, 0xFF] [0x47, 0x50] = true ∧ keyMatches [0x52] [0xFF] [0x47] = false ∧
    keyMatches [0x52] [0x00] [0x47] = true := by decide +kernel

/-- The records 10* to 13 of "Eviction overtaking an unacknowledged read". -/
def meterStore : Store :=
  { Store.reset with
    settings := ⟨4, 0, .evictOldest, 4, 1⟩
    state := .opened
    records := [10, 11, 12, 13].map fun n => ⟨BitVec.ofNat 32 n, 2, 1, .clear, 0, 0, 60, 0⟩
    delivered := 3, blocksUsed := 8, nextSeq := 14, highArmed := false }

/-- R57. "Eviction overtaking an unacknowledged read": the filing evicts 10 and files 14; blocks used stays at 8. -/
theorem test_eviction :
    ((onStore fun _ => meterStore).file 0 ⟨2, 0, 60, .clear, 0, 0⟩ 1).2.store 0 =
      { meterStore with
        records := [11, 12, 13, 14].map fun n => ⟨BitVec.ofNat 32 n, 2, 1, .clear, 0, 0, 60, 0⟩
        delivered := 2, nextSeq := 15
        counters := ⟨1, 0, 1, 1, 0, 0, 0, 0⟩ } := by decide +kernel

/-- R65. "Collecting S2": the acknowledgement of sequence 1 after 0 and 1 were delivered removes 2 records. -/
theorem test_ack_count :
    Store.ackCount { Store.reset with
      records := [0, 1].map fun n => ⟨BitVec.ofNat 32 n, 0, 5, .clear, 0, 0, 66, 0⟩
      delivered := 2, nextSeq := 2 } 1 = some 2 := by decide +kernel

/-- R84. A field 0x05 with adjust 3 gives a total of 8; two bytes 01 02 read HIGH_FIRST give 258. -/
theorem test_total_length :
    Framer.totalLength { Framer.fresh { FramerSettings.dflt with adjust := 3 } with lengthField := [5] } = 8 ∧
    Framer.totalLength { Framer.fresh { FramerSettings.dflt with byteOrder := .highFirst } with lengthField := [1, 2] }
      = 258 := by decide +kernel

/-- R118. The send-id counter goes from 65,535 to 1. -/
theorem test_send_ids : nextId 65535 = 1 ∧ nextId 1 = 2 ∧ freshId [65535, 1] 48 65535 = 2 := by decide +kernel

/-- R117. The positions of "A drain that times out": 90 SENDING, then 91 of class 2, then 92 of class 3. -/
theorem test_positions :
    let q : Port := { Port.reset with
      queue := [entry 90 1 .sending none, entry 91 2 .queued none, entry 92 3 .queued none] }
    q.queue.map q.position = [0, 1, 2] := by decide +kernel

/-- R160. A credit beyond 64 is kept at 64, and a grant of 65 is refused with field index 1. -/
theorem test_credit :
    after (exec .noticeCredit (ask State.reset .noticeCredit [64])) (fun t => t.notices.credit == 64) = true ∧
    replyTo (exec .noticeCredit (ask State.reset .noticeCredit [65])) [5, 1] = true := by decide +kernel

/-- R110. The 65th item of a full FIFO is lost, and the next one entered carries OVERRUN. -/
theorem test_overrun :
    (Port.characterReceived { Port.reset with state := .running, fifo := List.replicate 64 (.brk 0) } 0 0x41 false
      true).overrunPending = true ∧
    (Port.characterReceived { Port.reset with state := .running, overrunPending := true } 0 0x41 false true).fifo =
      [.char ⟨0x41, ⟨false, false, true⟩, 0⟩] := by decide +kernel

/-- R163, R164. Three RUNNING operations and one COMPLETE fill the table. -/
theorem test_table_full :
    OpTable.full ⟨[⟨1, .purge 0 0, none, 0, false, false⟩, ⟨2, .purge 1 0, none, 0, false, false⟩,
      ⟨3, .drain 0 1 1 0 0, none, 0, false, false⟩, ⟨4, .check 0 0 0, some .done, 0, false, false⟩], [4]⟩ = true := by decide

/-! ### The hypotheses of the statements can be met

Each theorem names the statement. Its parts are the hypotheses of the statement's clauses, in the clauses' order, on
concrete states and operands. -/

/-- The reset state with RESET asserted. -/
def held : State := { State.reset with pins := ⟨true, false, false, false⟩ }

/-- The reset state with the receiver in HEADER after this many microseconds of silence. -/
def silent (micros : Nat) : State :=
  { State.reset with link := { State.reset.link with receiver := ⟨.header, [1], [], 0xFFFF, [], micros⟩ } }

/-- Port 0 RUNNING with its line quiet for this long. -/
def quiet (micros : Nat) : State := onPort fun q => { q with state := .running, quiet := ⟨true, micros, false⟩ }

/-- The reset state in the last microsecond of a notice on HTX. -/
def sendingNotice : State := { State.reset with link := { State.reset.link with
  htx := some (.notice ⟨0xF0, 0, List.replicate 17 0⟩ 2170) } }

theorem witness_IdleStepPassesTime :
    (State.reset.pending = [] ∧ State.reset.pins.reset = false ∧ State.reset.due = none) ∧
    ((onPort fun q => { q with queue := [entry 1 0 .queued (some 0)] }).pending = [] ∧
      (onPort fun q => { q with queue := [entry 1 0 .queued (some 0)] }).due = some (.ttlExpiry 1)) ∧
    ((silent 20000).due = some .interByteTimeout ∧ (silent 19999).due = none ∧
      (quiet 4167).due = some (.quietTimeExpiry 0) ∧ (quiet 4166).due = none) ∧
    (held.pending = [] ∧ held.pins.reset = true) ∧
    (sendingNotice.pending = [] ∧ sendingNotice.pins.reset = false ∧ sendingNotice.due = none ∧
      sendingNotice.link.htx = some (.notice ⟨0xF0, 0, List.replicate 17 0⟩ 2170) ∧
      1000000 * (10 * (8 + 17)) ≤ 115200 * (2170 + 1)) ∧
    Memory.wf State.reset.memory.cells = true := by decide +kernel

theorem witness_ResetHoldsThePart :
    held.pins.reset = true ∧ (∀ a b, Instr.ping ≠ .powerUp a b) ∧ Instr.ping ≠ .resetAssert ∧
      Instr.ping ≠ .resetRelease ∧ Instr.ping ≠ .holdAssert ∧ Instr.ping ≠ .holdRelease := by decide +kernel

/-- The reset state with the RESTART reply on HTX. -/
def restarting : State :=
  { State.reset with link := { State.reset.link with htx := some (.reply ⟨⟨0x83, 1, [0]⟩, .restart⟩) } }

theorem witness_DeviceResets :
    held.pins.reset = true ∧ State.reset.pins.reset = false ∧
      (restarting.pins.reset = false ∧ restarting.link.htx = some (.reply ⟨⟨0x83, 1, [0]⟩, .restart⟩)) :=
  ⟨rfl, rfl, rfl, rfl⟩

/-- A message of tag 7 with a body of this many bytes. -/
def longMessage (n : Nat) : Message := ⟨2, 7, List.replicate n 0⟩

/-- A message of tag 7 with the body 41. -/
def letter : Message := ⟨2, 7, [0x41]⟩

theorem witness_MessageRoundTrip :
    (State.reset.pins.reset = false ∧ State.reset.link.receiver.Holds [] ∧
      (longMessage 1100).body.length ≤ 1100 ∧ (longMessage 0).body.length ≤ 1100 ∧ (longMessage 1100).tag ≠ 0 ∧
      (longMessage 1100).tag ∉ State.reset.link.outstanding ∧ State.reset.link.requests.length < 8 ∧
      (List.replicate 7 (longMessage 0)).length < 8) ∧
    -- in HEADER with one byte, in BODY with none, and in CRC with one
    (letter.bytes = [0xC3, 1] ++ lineBytes [.byte 0 true, .lowPeriod, .byte 7 false, .byte 2 true] ++ letter.bytes.drop 5 ∧
      letter.bytes = letter.bytes.take 6 ++ lineBytes [.byte 0x41 false] ++ letter.bytes.drop 7 ∧
      letter.bytes = letter.bytes.take 8 ++ lineBytes (bytesIn (letter.bytes.drop 8)) ∧
      lineBytes (bytesIn (letter.bytes.drop 8)) ≠ []) ∧
    ((silent 0).link.receiver.Holds [0xC3, 1] ∧
      Receiver.Holds ⟨.body, [1, 0, 7, 2, 0xF5], [], 0xFFFF, [], 0⟩ (letter.bytes.take 6) ∧
      Receiver.Holds ⟨.crc, [1, 0, 7, 2, 0xF5], [0x41], crc16 [0x41], (letter.bytes.drop 7).take 1, 0⟩ (letter.bytes.take 8)) ∧
    (State.reset.link.receiver.state = .hunt ∧ (0xC3 : Byte) ∉ lineBytes [.lowPeriod, .byte 0x41 true]) ∧
    (∀ x ∈ [HrxItem.lowPeriod, .lowPeriod], x = .lowPeriod) :=
  ⟨⟨rfl, rfl, List.length_replicate.le, by decide, by decide, by decide, by decide, by decide⟩, by decide +kernel,
    ⟨by simp only [Receiver.Holds]; decide +kernel, ⟨by decide +kernel, by decide +kernel, by decide +kernel,
      by decide +kernel, by decide +kernel⟩, ⟨by decide +kernel, by decide +kernel, by decide +kernel,
      by decide +kernel, by decide +kernel⟩⟩, by decide +kernel, by decide⟩

/-- The reset state with 7 outstanding, full with 8 requests and with this many replies queued. -/
def crowded (replies : Nat) : State :=
  { State.reset with link := { State.reset.link with
      outstanding := [7]
      requests := List.replicate 8 ⟨2, 7, []⟩
      replies := List.replicate replies ⟨⟨0x82, 5, [0]⟩, .ordinary⟩ } }

theorem witness_ArrivalsRefused :
    (State.reset.pins.reset = false ∧ State.reset.link.receiver.Holds [] ∧
      State.reset.link.replies.length + State.reset.link.reserved < 12 ∧ (⟨2, 0, []⟩ : Message).tag = 0) ∧
    ((crowded 11).link.receiver.Holds [] ∧ (crowded 11).link.replies.length + (crowded 11).link.reserved < 12 ∧
      (7 : Byte) ≠ 0 ∧ 7 ∈ (crowded 11).link.outstanding ∧
      Message.bytes ⟨2, 7, []⟩ = [] ++ lineBytes (bytesIn (Message.bytes ⟨2, 7, []⟩)) ∧
      lineBytes (bytesIn (Message.bytes ⟨2, 7, []⟩)) ≠ []) ∧
    ((8 : Byte) ≠ 0 ∧ 8 ∉ (crowded 11).link.outstanding ∧ 8 ≤ (crowded 11).link.requests.length) ∧
    ((crowded 12).pins.reset = false ∧ (crowded 12).link.receiver.Holds [] ∧
      12 ≤ (crowded 12).link.replies.length + (crowded 12).link.reserved ∧ 8 ≤ (crowded 12).link.requests.length) ∧
    (0x29B2 : Half) ≠ crc16 [0x31, 0x32, 0x33, 0x34, 0x35, 0x36, 0x37, 0x38, 0x39] := by
  simp only [Receiver.Holds]
  decide +kernel

theorem witness_ReceptionAbandoned :
    (State.reset.pins.reset = false ∧ State.reset.link.receiver.Holds [] ∧
      (silent 0).link.receiver.Holds [0xC3, 1] ∧ [0xC3, 1, 0, 7, 2, 0] = [0xC3, 1] ++ lineBytes (bytesIn [0, 7, 2, 0]) ∧
      lineBytes (bytesIn [0, 7, 2, 0]) ≠ [] ∧
      (0 : Byte) ≠ ~~~ (1 + 0 + 7 + 2) ∧ (0 : Byte) ≠ ~~~ (2 + 0 + 7 + 2) ∧ (∀ x ∈ ([2, 0, 7, 2, 0] : List Byte), x ≠ 0xC3)) ∧
    (1100 < (0x4D : Byte).toNat + 256 * (0x04 : Byte).toNat) ∧
    (([0xC3, 2, 0, 7, 2] : List Byte) = [] ++ 0xC3 :: [2, 0, 7, 2] ∧ (0xC3 : Byte) ∉ ([] : List Byte) ∧
      (2 : Byte) ≠ ~~~ (0xC3 + 2 + 0 + 7)) ∧
    ((silent 20000).pins.reset = false ∧ (silent 20000).link.receiver.state ≠ .hunt ∧
      20000 ≤ (silent 20000).link.receiver.silence) ∧
    ((silent 19999).link.receiver.silence < 20000 ∧ State.reset.link.receiver.state = .hunt) := by
  simp only [Receiver.Holds]
  decide +kernel

/-- The reset state with a request of kind 0x7E at the Executor. -/
def unknown : State :=
  { State.reset with link := { State.reset.link with requests := [⟨0x7E, 9, []⟩] } }

theorem witness_ExecutorChecks :
    (unknown.pins.reset = false ∧ unknown.link.executor = .idle ∧
      unknown.link.replies.length + unknown.link.reserved < 12 ∧ unknown.link.requests = [⟨0x7E, 9, []⟩] ∧
      ∀ k ∈ Kind.all, k.code ≠ 0x7E) ∧
    ((ask State.reset .ping (List.replicate 33 0)).Waiting .ping 9 (List.replicate 33 0) [] ∧
      lengthAllowed .ping (List.replicate 33 (0 : Byte)).length = false) ∧
    (((ask State.reset .portDrain [3, 0, 0]).Waiting .portDrain 9 [3, 0, 0] [] ∧
        lengthAllowed .portDrain ([3, 0, 0] : List Byte).length = true ∧
        Kind.portDrain.fieldTests [3, 0, 0] = [([1], true)] ++ ([2], false) :: [] ∧
        ∀ x ∈ [(([1] : List Nat), true)], x.2 = true) ∧
      (ask State.reset .ruleFree [128]).Waiting .ruleFree 9 [128] [] ∧
        Kind.ruleFree.fieldTests [128] = [] ++ ([1], false) :: [] ∧ Kind.ruleFree.fieldTests [127] = [([1], true)]) :=
  ⟨by decide +kernel, ⟨ask_waiting .., by decide +kernel⟩, ⟨ask_waiting .., by decide +kernel⟩, ask_waiting ..,
    by decide +kernel⟩

/-- The reset state with the Executor STOPPED. -/
def stopped : State := { State.reset with link := { State.reset.link with executor := .stopped } }

theorem witness_RestartStopsTheExecutor :
    (ask State.reset .restart []).Waiting .restart 9 [] [] ∧ stopped.link.executor = .stopped :=
  ⟨ask_waiting .., rfl⟩

theorem witness_PingAnswered :
    ((ask State.reset .ping (List.replicate 32 0)).Waiting .ping 9 (List.replicate 32 0) [] ∧
      (List.replicate 32 (0 : Byte)).length ≤ 32) ∧
    ((ask State.reset .ping []).Waiting .ping 9 [] [] ∧ ([] : List Byte).length ≤ 32) ∧
    ((ask State.reset .ping (List.replicate 33 0)).Waiting .ping 9 (List.replicate 33 0) [] ∧
      32 < (List.replicate 33 (0 : Byte)).length) :=
  ⟨⟨ask_waiting .., by decide⟩, ⟨ask_waiting .., by decide⟩, ask_waiting .., by decide⟩

theorem witness_ReportsChangeNothing :
    (ask State.reset .hello []).Waiting .hello 9 [] [] ∧ (ask State.reset .timeGet []).Waiting .timeGet 9 [] [] ∧
    (ask State.reset .memoryStatus []).Waiting .memoryStatus 9 [] [] ∧
    (ask State.reset .opList []).Waiting .opList 9 [] [] ∧
    (ask State.reset .portStatus [idByte (3 : PortId)]).Waiting .portStatus 9 [idByte (3 : PortId)] [] ∧
    (ask State.reset .ruleRead [idByte (127 : RuleId)]).Waiting .ruleRead 9 [idByte (127 : RuleId)] [] ∧
    (ask State.reset .chainList [idByte (0 : PortId)]).Waiting .chainList 9 [idByte (0 : PortId)] [] ∧
    (ask State.reset .storeStatus [idByte (7 : StoreId)]).Waiting .storeStatus 9 [idByte (7 : StoreId)] [] :=
  ⟨ask_waiting .., ask_waiting .., ask_waiting .., ask_waiting .., ask_waiting .., ask_waiting .., ask_waiting ..,
    ask_waiting ..⟩

theorem witness_ValueRequestsSet :
    (ask State.reset .timeSet (le4 (4294967295#32).toNat)).Waiting .timeSet 9 (le4 (4294967295#32).toNat) [] ∧
    ((ask State.reset .memoryLowSet (le2 1023)).Waiting .memoryLowSet 9 (le2 1023) [] ∧ 1023 ≤ 65535) ∧
    ((ask State.reset .memoryLowSet (le2 1024)).Waiting .memoryLowSet 9 (le2 1024) [] ∧ 1024 ≤ 65535 ∧ 1023 < 1024) ∧
    ((ask State.reset .noticeCredit [64]).Waiting .noticeCredit 9 [64] [] ∧ (64 : Byte).toNat ≤ 64) ∧
    ((ask State.reset .noticeCredit [65]).Waiting .noticeCredit 9 [65] [] ∧ 64 < (65 : Byte).toNat) ∧
    ((ask State.reset .noticeMask (le2 (511#16).toNat)).Waiting .noticeMask 9 (le2 (511#16).toNat) [] ∧
      (511#16).toNat < 512) ∧
    ((ask State.reset .noticeMask (le2 (512#16).toNat)).Waiting .noticeMask 9 (le2 (512#16).toNat) [] ∧
      512 ≤ (512#16).toNat) :=
  ⟨ask_waiting .., ⟨ask_waiting .., by decide⟩, ⟨ask_waiting .., by decide⟩, ⟨ask_waiting .., by decide⟩,
    ⟨ask_waiting .., by decide⟩, ⟨ask_waiting .., by decide⟩, ask_waiting .., by decide⟩

/-- Line settings at the ends of their ranges. -/
def slowLine : LineSettings := ⟨300, 7, .odd, 2, .half, 255, 255, 255⟩

def fastLine : LineSettings := ⟨3000000, 8, .even, 1, .full, 1, 0, 0⟩

/-- Framer settings at the ends of their ranges. -/
def wideFramer : FramerSettings :=
  ⟨.delimited, 1024, .discard, .discard, .discard, 255, [1, 2, 3, 4], [5, 6, 7, 8], true, some 9, true, some 10, 15, 2,
    .highFirst, -64, 255⟩

def narrowFramer : FramerSettings :=
  ⟨.length, 16, .truncate, .keep, .keep, 0, [], [5], false, none, false, none, 15, 1, .lowFirst, 64, 2⟩

theorem witness_PortConfigured :
    (slowLine.Valid ∧ fastLine.Valid ∧
      (ask (inState .off) .portConfig (slowLine.body 0)).Waiting .portConfig 9 (slowLine.body 0) [] ∧
      ((inState .off).port 0).state = .off ∧ ((inState .ready).port 0).state = .ready ∧
      ((inState .running).port 0).state = .running ∧ ((inState .paused).port 0).state = .paused) ∧
    (wideFramer.Valid ∧ narrowFramer.Valid ∧
      (ask (inState .off) .framerConfig (wideFramer.body 0)).Waiting .framerConfig 9 (wideFramer.body 0) [] ∧
      (ask (inState .running) .framerConfig (narrowFramer.body 0)).Waiting .framerConfig 9 (narrowFramer.body 0) []) :=
  ⟨⟨⟨by decide, by decide, by decide, by decide, by decide, by decide⟩,
      ⟨by decide, by decide, by decide, by decide, by decide, by decide⟩, ask_waiting .., by decide +kernel⟩,
    ⟨by decide, by decide, by decide, by decide, (fun b h => by cases h; decide), by decide, by decide, by decide,
      by decide, by decide⟩,
    ⟨by decide, by decide, by decide, by decide, (fun b h => nomatch h), by decide, by decide, by decide, by decide,
      by decide⟩, ask_waiting .., ask_waiting ..⟩

/-- Port 0 RUNNING, in BODY, with descriptor 0 in assembly. -/
def inBody : State := onPort fun q => { q with
  state := .running
  framer := { q.framer with state := .body, frame := some ⟨0, 0, .clear, 0⟩ } }

theorem witness_PortReceiverSwitched :
    ((ask (inState .ready) .portStart [idByte (0 : PortId)]).Waiting .portStart 9 [idByte (0 : PortId)] [] ∧
      ((inState .ready).port 0).state = .ready ∧ ((inState .off).port 0).state ≠ .ready) ∧
    ((ask (inState .paused) .portResume [idByte (0 : PortId)]).Waiting .portResume 9 [idByte (0 : PortId)] [] ∧
      ((inState .paused).port 0).state = .paused ∧ ((inState .running).port 0).state ≠ .paused) ∧
    ((ask (inState .running) .portPause [idByte (0 : PortId)]).Waiting .portPause 9 [idByte (0 : PortId)] [] ∧
      ((inState .running).port 0).state = .running ∧ ((inState .running).port 0).framer.frame = none ∧
      (inBody.port 0).state = .running ∧ (inBody.port 0).framer.frame = some ⟨0, 0, .clear, 0⟩ ∧
      ({ Port.reset with line := .character false } : Port).line = .character false) :=
  ⟨⟨ask_waiting .., by decide +kernel⟩, ⟨ask_waiting .., by decide +kernel⟩, ask_waiting .., by decide +kernel⟩

/-- Port 0 RUNNING, with a character of entry 1 on the line and entry 2 QUEUED. -/
def sending : State := onPort fun q => { q with
  state := .running, queue := [entry 1 0 .sending none, entry 2 0 .queued none], tx := .sending 0 q.settings [] }

theorem sending_poolSound : sending.PoolSound where
  size := by decide +kernel
  ids := by decide +kernel
  nonzero := by decide +kernel
  next := by decide +kernel

theorem sending_sendSound : (sending.port 0).SendSound where
  length := by decide +kernel
  one := by decide +kernel
  off := by decide +kernel
  stopping := fun h => absurd h (by decide +kernel)

theorem witness_PortStopped :
    ((ask (inState .ready) .portStop [idByte (0 : PortId)]).Waiting .portStop 9 [idByte (0 : PortId)] [] ∧
      ((inState .ready).port 0).canSend = false) ∧
    ((ask sending .portStop [idByte (0 : PortId)]).Waiting .portStop 9 [idByte (0 : PortId)] [] ∧
      (sending.port 0).canSend = true ∧ sending.PoolSound ∧ (sending.port 0).SendSound) ∧
    (ask sending .portReset [idByte (0 : PortId)]).Waiting .portReset 9 [idByte (0 : PortId)] [] :=
  ⟨⟨ask_waiting .., by decide +kernel⟩, ⟨ask_waiting .., by decide +kernel, sending_poolSound, sending_sendSound⟩,
    ask_waiting ..⟩


/-! Rules and classification -/

/-- A state with its classifier changed. -/
def onClassifier (f : Classifier → Classifier) (s : State) : State := { s with classifier := f s.classifier }

/-- A frame of 60 bytes of port 0. -/
def sixty : Frame := ⟨0, 0, 60, .clear, 0, 0⟩

/-- The state with a frame of port 0 under classification: the rules left to visit, the actions performed, and
whether a rule has decided. -/
def classifying (rest : List RuleId) (performed : Nat) (decided ended : Bool) (s : State) : State :=
  onClassifier (fun c => { c with current := some ⟨sixty, rest, .file 0, performed, decided, ended, []⟩ }) s

/-- A rule with all fields at the tops of their ranges, and one with all at the bottoms. -/
def widest : RuleDef := ⟨true, true, true, 1023, List.replicate 8 1, List.replicate 8 255, 1024, 1024, .clean,
  .reply 15 3 65535⟩

def narrowest : RuleDef := ⟨false, false, false, 0, [], [], 1, 1, .any, .drop⟩

theorem widest_valid : widest.Valid := ⟨by decide, by decide, by decide, (by decide : 65535 ≤ 65535)⟩

theorem narrowest_valid : narrowest.Valid := ⟨by decide, by decide, by decide, trivial⟩

/-- Templates at the ends of their ranges. -/
def fullTemplate : Template := ⟨List.replicate 64 0, some ⟨64, 1023, 8⟩⟩

def bareTemplate : Template := ⟨[], none⟩

theorem fullTemplate_valid : fullTemplate.Valid := ⟨by decide, fun e h => by cases h; decide⟩

theorem bareTemplate_valid : bareTemplate.Valid := ⟨by decide, (fun _ h => nomatch h)⟩

theorem witness_EditHeldWhileClassifying :
    (Edit.ruleWrite 127 widest).Valid ∧ (Edit.templateWrite 15 fullTemplate).Valid ∧ (Edit.ruleFree 0).Valid ∧
    (ask (classifying [] 0 false false State.reset) .ruleWrite (Edit.ruleWrite 127 widest).body).classifier.current.isSome
      = true ∧
    (ask (classifying [] 0 false false State.reset) .ruleWrite (Edit.ruleWrite 127 widest).body).Waiting
      (Edit.ruleWrite 127 widest).kind 9 (Edit.ruleWrite 127 widest).body [] ∧
    (∃ tag kind, ({ State.reset.link with executor := .executing 9 .ruleFree } : Link).executor = .executing tag kind) ∧
    12 ≤ (crowded 12).link.replies.length + (crowded 12).link.reserved :=
  ⟨widest_valid, fullTemplate_valid, trivial, rfl, ask_waiting .., ⟨9, .ruleFree, rfl⟩, by decide +kernel⟩

theorem witness_FieldsWritten :
    State.reset.classifier.current = none ∧
    (widest.Valid ∧ narrowest.Valid ∧ (ask State.reset .ruleWrite (Edit.ruleWrite 127 widest).body).Waiting .ruleWrite 9
      (Edit.ruleWrite 127 widest).body []) ∧
    (ask State.reset .defaultSet (Edit.defaultSet 3 (.file 7)).body).Waiting .defaultSet 9
      (Edit.defaultSet 3 (.file 7)).body [] ∧
    (fullTemplate.Valid ∧ bareTemplate.Valid ∧
      (ask State.reset .templateWrite (Edit.templateWrite 15 fullTemplate).body).Waiting .templateWrite 9
        (Edit.templateWrite 15 fullTemplate).body []) :=
  ⟨rfl, ⟨widest_valid, narrowest_valid, ask_waiting ..⟩, ask_waiting .., fullTemplate_valid, bareTemplate_valid,
    ask_waiting ..⟩

/-- Rule 5 LINKED in the chain of port 0 after rule 4, rule 6 DEFINED, and the rest FREE. -/
def linkedRules : State := onClassifier (fun c => { c with
  chains := c.chains.set 0 [4, 5]
  rules := ((c.rules.set 4 ⟨.linked, some 0, widest, 0, none, 0⟩).set 5 ⟨.linked, some 0, widest, 0, none, 0⟩).set 6
    ⟨.defined, none, narrowest, 0, none, 0⟩ }) State.reset

theorem linkedRules_sound : linkedRules.classifier.Sound where
  queue := by decide +kernel
  once := by decide +kernel
  linked := by decide +kernel
  unlinked := by decide +kernel
  linkedSomewhere := by decide +kernel
  free := by decide +kernel

theorem witness_RuleLinked :
    (linkedRules.classifier.Sound ∧ (linkedRules.classifier.rule 6).state ≠ .linked ∧
      (linkedRules.classifier.rule 5).chainPort ≠ some 1) ∧
    linkedRules.classifier.current = none ∧
    ((ask linkedRules .ruleLink (Edit.ruleLink 5 0 .head).body).Waiting .ruleLink 9 (Edit.ruleLink 5 0 .head).body [] ∧
      (linkedRules.classifier.rule 5).state ≠ .defined) ∧
    ((ask linkedRules .ruleLink (Edit.ruleLink 6 0 .head).body).Waiting .ruleLink 9 (Edit.ruleLink 6 0 .head).body [] ∧
      (linkedRules.classifier.rule 6).state = .defined) ∧
    ((ask linkedRules .ruleLink (Edit.ruleLink 6 0 (.after 7)).body).Waiting .ruleLink 9
        (Edit.ruleLink 6 0 (.after 7)).body [] ∧ 7 ∉ linkedRules.classifier.chain 0) ∧
    ((ask linkedRules .ruleLink (Edit.ruleLink 6 0 (.after 5)).body).Waiting .ruleLink 9
        (Edit.ruleLink 6 0 (.after 5)).body [] ∧
      linkedRules.classifier.chain 0 = [4] ++ 5 :: [] ∧ 5 ∉ ([4] : List RuleId)) :=
  ⟨⟨linkedRules_sound, by decide +kernel⟩, rfl, ⟨ask_waiting .., by decide +kernel⟩,
    ⟨ask_waiting .., by decide +kernel⟩, ⟨ask_waiting .., by decide +kernel⟩, ask_waiting .., by decide +kernel⟩

theorem witness_RuleStateEdited :
    linkedRules.classifier.current = none ∧
    ((ask linkedRules .ruleUnlink [idByte (5 : RuleId)]).Waiting .ruleUnlink 9 [idByte (5 : RuleId)] [] ∧
      (linkedRules.classifier.rule 5).state = .linked ∧ (linkedRules.classifier.rule 5).chainPort = some 0 ∧
      (linkedRules.classifier.rule 6).state ≠ .linked) ∧
    ((ask linkedRules .ruleFree [idByte (6 : RuleId)]).Waiting .ruleFree 9 [idByte (6 : RuleId)] [] ∧
      (linkedRules.classifier.rule 6).state = .defined ∧ (linkedRules.classifier.rule 5).state ≠ .defined) ∧
    ((ask linkedRules .ruleEnable [idByte (6 : RuleId), yesNo true]).Waiting .ruleEnable 9
        [idByte (6 : RuleId), yesNo true] [] ∧
      (linkedRules.classifier.rule 6).state ≠ .free ∧ (linkedRules.classifier.rule 7).state = .free) :=
  ⟨rfl, ⟨ask_waiting .., by decide +kernel⟩, ⟨ask_waiting .., by decide +kernel⟩, ask_waiting .., by decide +kernel⟩

/-- The reset state with one pending frame. -/
def onePending : State := onClassifier (fun c => { c with queue := [sixty] }) State.reset

theorem witness_ClassificationStarts :
    (onePending.pins.reset = false ∧ onePending.classifier.current = none ∧ onePending.classifier.queue = sixty :: []) ∧
    ((classifying [] 0 false false onePending).classifier.current ≠ none ∧ State.reset.classifier.queue = []) := by
  decide +kernel

theorem witness_RuleMatchesByFiveTests :
    widest.Valid ∧ narrowest.Valid ∧ widest.applies sixty = false ∧ widest.applies { sixty with length := 1024 } = false ∧
      RuleDef.applies { widest with keyOffset := 1016 } { sixty with length := 1024 } = true :=
  ⟨widest_valid, narrowest_valid, by decide +kernel⟩

/-- Rules 0 to 4, which match every frame of 60 bytes, with the actions DROP, COUNT, FILE, FORWARD and REPLY. -/
def acting : State := onClassifier (fun c =>
  let rule (a : Action) : Rule := ⟨.linked, some 0, ⟨true, true, false, 0, [], [], 1, 1024, .any, a⟩, 0, none, 0⟩
  { c with rules := ((((c.rules.set 0 (rule .drop)).set 1 (rule .count)).set 2 (rule (.file 0))).set 3
      (rule (.forward 3 0 65535))).set 4 (rule (.reply 0 0 0)) }) State.reset

theorem witness_WalkVisitsTheNextRule :
    (∀ r : RuleId, (classifying [r] 0 false false acting).pins.reset = false ∧
      (classifying [r] 0 false false acting).classifier.current = some ⟨sixty, [r], .file 0, 0, false, false, []⟩) ∧
    (acting.ruleMatches (acting.classifier.rule 5).fields sixty).1 = false ∧
    ((acting.ruleMatches (acting.classifier.rule 0).fields sixty).1 = true ∧
      (acting.classifier.rule 0).fields.action = .drop) ∧
    ((acting.ruleMatches (acting.classifier.rule 1).fields sixty).1 = true ∧
      (acting.classifier.rule 1).fields.action = .count) ∧
    ((acting.ruleMatches (acting.classifier.rule 2).fields sixty).1 = true ∧
      (acting.classifier.rule 2).fields.action = .file 0) ∧
    ((acting.ruleMatches (acting.classifier.rule 3).fields sixty).1 = true ∧
      (acting.classifier.rule 3).fields.action = .forward 3 0 65535) ∧
    ((acting.ruleMatches (acting.classifier.rule 4).fields sixty).1 = true ∧
      (acting.classifier.rule 4).fields.action = .reply 0 0 0) ∧ (3 < 4 ∧ 4 ≤ 4) :=
  ⟨fun _ => ⟨rfl, rfl⟩, by decide +kernel⟩

/-- The reset state with every descriptor LIVE. -/
def noDescriptor (s : State) : State :=
  { s with memory := { s.memory with descs := Vector.replicate 256 ⟨true, [], 0, 1, false⟩ } }

/-- The state with an empty free list. -/
def noBlock (s : State) : State := { s with memory := { s.memory with free := [] } }

/-- The state with template 0 written. -/
def templated (s : State) : State := onClassifier (fun c => { c with templates := c.templates.set 0 fullTemplate }) s

theorem witness_ActionsPerformed :
    (((onStore fun st => { st with state := .opened }).file 0 sixty (idByte (3 : RuleId))).1 = some 0 ∧
      (State.reset.file 0 sixty (idByte (3 : RuleId))).1 = none) ∧
    ((State.reset.port 0).state ≠ .running ∧ ((inState .running).port 0).state = .running ∧
      ((inState .running).port 0).draining = false ∧ ((inState .running).port 0).queue.length < 16 ∧
      (inState .running).entries.length < 48) ∧
    ((inState .running).classifier.templates.get 0).bytes = [] ∧
    ((templated (inState .running)).classifier.templates.get 0).bytes ≠ [] ∧
    (∀ d, ((noDescriptor (inState .running)).memory.desc d).live = true) ∧
    (((inState .running).memory.desc 0).live = false ∧ (noBlock (inState .running)).memory.free.length < blocksFor 64 ∧
      blocksFor 72 ≤ (inState .running).memory.free.length) :=
  ⟨by decide +kernel, by decide +kernel, by decide +kernel, by decide +kernel,
    (fun d => by
      rw [show (noDescriptor (inState .running)).memory.desc d = ⟨true, [], 0, 1, false⟩ from vector_get_replicate _ _]),
    by decide +kernel⟩

/-- The Classifier at the end of a walk, with an edit held for the request of tag 9. -/
def editHeld : State :=
  let s := onClassifier (fun c => { c with held := some (.ruleFree 0) }) (classifying [] 0 false false State.reset)
  { s with link := { s.link with executor := .executing 9 .ruleFree, reserved := 1 } }

theorem witness_ClassificationEnds :
    ((classifying [3] 0 false false State.reset).pins.reset = false ∧
      (classifying [3] 0 false false State.reset).classifier.current = some ⟨sixty, [3], .file 0, 0, false, false, []⟩) ∧
    ((classifying [] 0 false false State.reset).classifier.current = some ⟨sixty, [], .file 0, 0, false, false, []⟩ ∧
      (classifying [3] 0 true true State.reset).classifier.current = some ⟨sixty, [3], .file 0, 0, true, true, []⟩ ∧
      (classifying [] 0 false false State.reset).classifier.held = none) ∧
    (editHeld.classifier.held = some (.ruleFree 0) ∧ editHeld.link.executor = .executing 9 .ruleFree) ∧
    ((Edit.ruleFree 0).Valid ∧ (ask State.reset .ruleFree (Edit.ruleFree 0).body).classifier.current = none ∧
      (ask State.reset .ruleFree (Edit.ruleFree 0).body).Waiting (Edit.ruleFree 0).kind 9 (Edit.ruleFree 0).body []) :=
  ⟨by decide +kernel, by decide +kernel, by decide +kernel, trivial, rfl, ask_waiting ..⟩

/-! Stores and Record Memory -/

def storeIn (x : StoreState) : State := onStore fun st => { st with state := x }

theorem witness_StoreStatesChange :
    ((⟨1, 0, .refuse, 1, 0⟩ : StoreSettings).Valid ∧ (⟨255, 1024, .evictOldest, 255, 254⟩ : StoreSettings).Valid ∧
      (ask State.reset .storeConfig (StoreSettings.body 7 ⟨255, 1024, .evictOldest, 255, 254⟩)).Waiting .storeConfig 9
        (StoreSettings.body 7 ⟨255, 1024, .evictOldest, 255, 254⟩) []) ∧
    (ask (storeIn .paused) .storeOpen [idByte (0 : StoreId)]).Waiting .storeOpen 9 [idByte (0 : StoreId)] [] ∧
    (ask (storeIn .opened) .storePause [idByte (0 : StoreId)]).Waiting .storePause 9 [idByte (0 : StoreId)] [] ∧
    (ask (storeIn .paused) .storeClose [idByte (0 : StoreId)]).Waiting .storeClose 9 [idByte (0 : StoreId)] [] :=
  ⟨⟨⟨by decide, by decide, by decide, by decide⟩, ⟨by decide, by decide, by decide, by decide⟩, ask_waiting ..⟩,
    ask_waiting .., ask_waiting .., ask_waiting ..⟩

/-- A record of the meter of 60 bytes. -/
def meter (n : Nat) : Record := ⟨BitVec.ofNat 32 n, 2, 1, .clear, 0, 0, 60, 0⟩

/-- The split of the meter's records that makes room: one record goes, and with none gone the store is full. -/
theorem witness_FilingJudged :
    (Store.reset.blocksUsed = blocksOf Store.reset.records ∧ Store.reset.state ≠ .opened) ∧
    (meterStore.blocksUsed = blocksOf meterStore.records ∧ meterStore.settings.policy = .evictOldest ∧
      meterStore.settings.capacity ≤ meterStore.records.length) ∧
    (¬ (meterStore.state ≠ .opened ∨ (meterStore.settings.quota ≠ 0 ∧ meterStore.settings.quota < blocksFor 60) ∨
        (meterStore.settings.policy = .refuse ∧ (meterStore.settings.capacity ≤ meterStore.records.length ∨
          (meterStore.settings.quota ≠ 0 ∧ meterStore.settings.quota < blocksOf meterStore.records + blocksFor 60)))) ∧
      meterStore.records = [meter 10] ++ [meter 11, meter 12, meter 13] ∧
      ¬ (4 ≤ [meter 11, meter 12, meter 13].length ∨ ((0 : Nat) ≠ 0 ∧
        0 < blocksOf [meter 11, meter 12, meter 13] + blocksFor 60)) ∧
      ∀ before after, [meter 10] = before ++ after → after ≠ [] →
        4 ≤ (after ++ [meter 11, meter 12, meter 13]).length) :=
  ⟨by decide, by decide, by decide, by decide, by decide, fun before after h h' => by
    rcases List.cons_eq_append_iff.mp h with ⟨-, rfl⟩ | ⟨_, -, h2⟩
    · decide
    · exact absurd (List.append_eq_nil_iff.mp h2.symm).2 h'⟩

/-- The meter's store as store 0, this many records delivered. -/
def metered (delivered : Nat) : State := onStore fun _ => { meterStore with delivered := delivered }

/-- A STORE_READ of store 0 at the state. -/
def readBody (take : Bool) (records bytes : Nat) : List Byte :=
  [idByte (0 : StoreId), yesNo take, byte1 records] ++ le2 bytes

theorem witness_StoreReadServed :
    (1 ≤ 1 ∧ 16 ≤ 16 ∧ 64 ≤ 64 ∧ 1100 ≤ 1100) ∧
    ((ask (storeIn .purging) .storeRead (readBody true 16 1100)).Waiting .storeRead 9 (readBody true 16 1100) [] ∧
      ((storeIn .purging).store 0).state = .purging) ∧
    ((ask (metered 3) .storeRead (readBody true 1 64)).Waiting .storeRead 9 (readBody true 1 64) [] ∧
      ((metered 3).store 0).state ≠ .purging ∧ ((metered 3).store 0).delivered ≠ 0 ∧
      ((metered 0).store 0).delivered = 0) ∧
    -- the newest record alone passes the byte limit
    (((metered 3).store 0).delivered ≤ ((metered 3).store 0).records.length ∧
      ((metered 3).store 0).records.drop 3 = [meter 13] ++ [] ∧ [meter 13].length ≤ 1 ∧
      (4 + ([meter 13].map fun r => 18 + r.length).sum ≤ 64 ∨ [meter 13].length = 1)) ∧
    -- two of four, by the record limit
    (((metered 0).store 0).records.drop 0 = [meter 10, meter 11] ++ [meter 12, meter 13] ∧
      4 + ([meter 10, meter 11].map fun r => 18 + r.length).sum ≤ 160 ∧ [meter 10, meter 11].length = 2) ∧
    -- two of four, by the byte limit
    (237 < 4 + (([meter 10, meter 11] ++ [meter 12]).map fun r => 18 + r.length).sum) ∧
    -- none
    (((metered 4).store 0).records.drop 4 = [] ++ [] ∧ 4 + (([] : List Record).map fun r => 18 + r.length).sum ≤ 64) :=
  ⟨by decide, ⟨ask_waiting .., by decide +kernel⟩, ⟨ask_waiting .., by decide +kernel⟩, by decide +kernel,
    by decide +kernel, by decide, by decide +kernel⟩

/-- The reset state with a block whose check code disagrees. -/
def disturbed : State := { State.reset with memory := { State.reset.memory with bad := [7] } }

theorem witness_RecordsReadAndChecked :
    (∀ b ∈ ([6, 8] : List BlockId), b.val ∉ disturbed.memory.bad) ∧ (7 : BlockId).val ∈ disturbed.memory.bad ∧
    ((⟨true, [7, 8], 49, 1, false⟩ : Descriptor).chain[0 / 48]? = some 7 ∧
      (⟨true, [7, 8], 49, 1, false⟩ : Descriptor).chain[48 / 48]? = some 8) := by
  decide +kernel

theorem witness_StoreAckRemoves :
    ((ask (storeIn .purging) .storeAck (idByte (0 : StoreId) :: le4 (13#32).toNat)).Waiting .storeAck 9
        (idByte (0 : StoreId) :: le4 (13#32).toNat) [] ∧ ((storeIn .purging).store 0).state = .purging) ∧
    ((ask (metered 3) .storeAck (idByte (0 : StoreId) :: le4 (13#32).toNat)).Waiting .storeAck 9
        (idByte (0 : StoreId) :: le4 (13#32).toNat) [] ∧ ((metered 3).store 0).state ≠ .purging ∧
      ∀ r ∈ ((metered 3).store 0).records.head?, ((metered 3).store 0).delivered ≤ (13 - r.seq).toNat) ∧
    ((ask (metered 3) .storeAck (idByte (0 : StoreId) :: le4 (12#32).toNat)).Waiting .storeAck 9
        (idByte (0 : StoreId) :: le4 (12#32).toNat) [] ∧
      ((metered 3).store 0).records = meter 10 :: [meter 11, meter 12, meter 13] ∧
      (12 - (meter 10).seq).toNat < ((metered 3).store 0).delivered) :=
  ⟨⟨ask_waiting .., by decide +kernel⟩, ⟨ask_waiting .., by decide +kernel⟩, ask_waiting .., by decide +kernel⟩

theorem witness_StoreRewindClearsTheMarks :
    ((ask State.reset .storeRewind [8]).Waiting .storeRewind 9 [8] [] ∧ 7 < (8 : Byte).toNat) ∧
    ((ask (storeIn .purging) .storeRewind [0]).Waiting .storeRewind 9 [0] [] ∧ (0 : Byte) = idByte (0 : StoreId) ∧
      (7 : Byte) = idByte (7 : StoreId) ∧ ((storeIn .purging).store 0).state = .purging) ∧
    (((metered 3).store 0).state ≠ .purging ∧ (State.reset.store 7).state ≠ .purging ∧ (State.reset.store 7).Sound ∧
      (State.reset.store 7).records = []) :=
  ⟨⟨ask_waiting .., by decide⟩, ⟨ask_waiting .., by decide +kernel⟩, by decide +kernel, by decide +kernel,
    State.reset_storeSound 7, by decide +kernel⟩

/-- The state with this many operations RUNNING, the first a walk. -/
def busy (n : Nat) (s : State) : State :=
  { s with ops := ⟨[(⟨1, .check 0 0 0, none, 0, false, false⟩ : OpEntry), ⟨2, .purge 0 0, none, 0, false, false⟩,
      ⟨3, .drain 0 1 0 0 0, none, 0, false, false⟩, ⟨4, .purge 1 0, none, 0, false, false⟩].take n, []⟩ }

/-- The state with 4 operations RUNNING, none of store 0, of port 0 or a walk. -/
def crowdedOps (s : State) : State :=
  { s with ops := ⟨[(⟨1, .purge 4 0, none, 0, false, false⟩ : OpEntry), ⟨2, .purge 1 0, none, 0, false, false⟩,
      ⟨3, .purge 2 0, none, 0, false, false⟩, ⟨4, .purge 3 0, none, 0, false, false⟩], []⟩ }

/-- A store that is PURGING, with two records left. -/
def purging : State := busy 2 (onStore fun _ => { meterStore with
  records := [meter 12, meter 13], state := .purging, prior := some .opened, delivered := 0, blocksUsed := 4 })

theorem witness_StorePurged :
    (∀ s, (ask s .storePurge [idByte (0 : StoreId)]).Waiting .storePurge 9 [idByte (0 : StoreId)] []) ∧
    ((∃ e ∈ (busy 2 State.reset).ops.entries, e.work.isPurgeOf 0 = true) ∧
      ¬ (∃ e ∈ State.reset.ops.entries, e.work.isPurgeOf 0 = true) ∧ (State.reset.store 0).state = .closed) ∧
    (¬ (∃ e ∈ (crowdedOps (metered 3)).ops.entries, e.work.isPurgeOf 0 = true) ∧
      ((crowdedOps (metered 3)).store 0).state ≠ .closed ∧ 4 ≤ (crowdedOps (metered 3)).ops.entries.length) ∧
    ((metered 3).ops.entries.length < 4 ∧ ((metered 3).store 0).records ≠ [] ∧ ((storeIn .opened).store 0).records = []) ∧
    (((metered 3).store 0).state ≠ .purging ∧ purging.pins.reset = false ∧ (purging.store 0).state = .purging ∧
      (purging.store 0).records = meter 12 :: [meter 13]) :=
  ⟨fun _ => ask_waiting .., by decide +kernel⟩

theorem witness_PayloadFilled :
    (State.reset.memory.Sound ∧ (State.reset.memory.desc 0).live = false) ∧
      (∀ e < (0 : DescId), (State.reset.memory.desc e).live = true) ∧
      ((List.replicate 1024 (0 : Byte)).length + 47) / 48 ≤ State.reset.memory.free.length ∧
      (∀ d, ((noDescriptor State.reset).memory.desc d).live = true) ∧
      ((noBlock State.reset).memory.desc 0).live = false ∧
      (noBlock State.reset).memory.free.length < ((List.replicate 1 (0 : Byte)).length + 47) / 48 :=
  ⟨⟨RecordMemory.reset_sound, by decide +kernel⟩, (fun e h => absurd h (by simp)),
    by rw [List.length_replicate]; decide +kernel,
    (fun d => by rw [show (noDescriptor State.reset).memory.desc d = ⟨true, [], 0, 1, false⟩ from vector_get_replicate _ _]),
    by decide +kernel, by decide +kernel⟩

/-- Record Memory with descriptor 0 LIVE and block 0 in its chain, this many bytes written. -/
def oneFrame (length : Nat) : RecordMemory :=
  { RecordMemory.reset.modDesc 0 fun _ => ⟨true, [0], length, 1, false⟩ with
    free := (List.finRange 1024).drop 1, lowWater := 1023 }

theorem oneFrame_desc (n : Nat) (d : DescId) :
    (oneFrame n).desc d = if d = 0 then ⟨true, [0], n, 1, false⟩ else .unused := by
  have h : (oneFrame n).descs = (RecordMemory.reset.modDesc 0 fun _ => ⟨true, [0], n, 1, false⟩).descs := by
    simp only [oneFrame]
  have h2 := RecordMemory.desc_modDesc RecordMemory.reset 0 d fun _ => ⟨true, [0], n, 1, false⟩
  rw [RecordMemory.reset_desc] at h2
  rw [← h2, RecordMemory.desc, h, RecordMemory.desc]

theorem oneFrame_sound (n : Nat) (h : blocksFor n = 1) : (oneFrame n).Sound where
  cells := rfl
  partitioned := by
    have h1 : (oneFrame n).chained = [0] := by
      have h2 : ∀ d, ((oneFrame n).desc d).chain = if d = 0 then [0] else [] := fun d => by
        rw [oneFrame_desc]; split <;> rfl
      simp only [RecordMemory.chained, h2]
      decide +kernel
    rw [RecordMemory.Partitioned, h1]
    refine (List.perm_append_comm).trans (.of_eq ?_)
    simp only [oneFrame]
    decide +kernel
  tidy := fun d => by
    rw [oneFrame_desc]
    split
    · simp [Descriptor.Tidy, h]
    · simp [Descriptor.Tidy, Descriptor.unused]
  threshold := (by decide : 64 ≤ 1023)
  lowWater := by simp [oneFrame]

/-- Port 0 with descriptor 0 in assembly. -/
def assembling (length top : Nat) : State :=
  { inBody.modPort 0 fun q => { q with framer := { q.framer with settings := { q.framer.settings with maxLength := top } } }
      with memory := oneFrame length }

theorem witness_ByteStored :
    ((assembling 16 16).port 0).framer.frame = some ⟨0, 0, .clear, 0⟩ ∧
    ((assembling 16 16).port 0).framer.settings.maxLength ≤ ((assembling 16 16).memory.desc 0).length ∧
    (((assembling 48 49).memory.desc 0).length < ((assembling 48 49).port 0).framer.settings.maxLength ∧
      ¬ ((assembling 48 49).memory.desc 0).length < 48 * ((assembling 48 49).memory.desc 0).chain.length ∧
      (noBlock (assembling 48 49)).memory.free = [] ∧ (assembling 48 49).memory.free ≠ []) ∧
    (((assembling 47 48).memory.desc 0).live = true ∧
      ((assembling 47 48).memory.desc 0).length < ((assembling 47 48).port 0).framer.settings.maxLength ∧
      ((assembling 47 48).memory.desc 0).length < 48 * ((assembling 47 48).memory.desc 0).chain.length) ∧
    (oneFrame 47).Sound ∧ (oneFrame 48).Sound :=
  ⟨by decide +kernel, by decide +kernel, by decide +kernel, by decide +kernel, oneFrame_sound 47 rfl, oneFrame_sound 48 rfl⟩

theorem witness_ReferenceReleased :
    (((oneFrame 48).desc 0).live = true ∧ ((oneFrame 48).desc 0).refs ≤ 1) ∧
    1 < (((oneFrame 48).modDesc 0 fun x => { x with refs := 2 }).desc 0).refs := by decide +kernel

theorem witness_MemoryCheckWalks :
    (∀ s, (ask s .memoryCheck []).Waiting .memoryCheck 9 [] []) ∧
    ((∃ e ∈ (busy 1 State.reset).ops.entries, e.work.isCheck = true) ∧
      ¬ (∃ e ∈ State.reset.ops.entries, e.work.isCheck = true) ∧ State.reset.ops.entries.length < 4) ∧
    (¬ (∃ e ∈ (crowdedOps State.reset).ops.entries, e.work.isCheck = true) ∧
      4 ≤ (crowdedOps State.reset).ops.entries.length) ∧
    (State.reset.pins.reset = false ∧ ∀ e ∈ State.reset.ops.entries, e.status = none → e.work.isCheck = false) ∧
    ((busy 1 State.reset).pins.reset = false ∧
      (busy 1 State.reset).ops.entries = [] ++ ⟨1, .check 0 0 0, none, 0, false, false⟩ :: [] ∧
      (∀ x ∈ ([] ++ [] : List OpEntry), x.work.isCheck = false) ∧ ((0 : BlockId).val = 0 ∧ (1023 : BlockId).val = 1023)) ∧
    (oneFrame 48).Sound ∧ 0 ∈ ((oneFrame 48).desc 0).chain ∧ ∀ d, 1023 ∉ ((oneFrame 48).desc d).chain :=
  ⟨fun _ => ask_waiting .., by decide +kernel, by decide +kernel, by decide +kernel, by decide +kernel,
    oneFrame_sound 48 rfl, by decide +kernel, by decide +kernel⟩

/-! Sending -/

/-- The state with port 0 RUNNING with this queue. -/
def queued (es : List SendEntry) : State := onPort fun q => { q with state := .running, queue := es }

/-- A SEND body of port 0, with no TTL or the longest. -/
def sendOf (n ttl : Nat) : List Byte := sendBody 0 3 ttl true (List.replicate n 0)

theorem witness_SendAdmitted :
    (1 ≤ (List.replicate 1 (0 : Byte)).length ∧ (List.replicate 1024 (0 : Byte)).length ≤ 1024 ∧ 65535 ≤ 65535) ∧
    ((∀ s n ttl, (ask s .send (sendOf n ttl)).Waiting .send 9 (sendOf n ttl) []) ∧
      ¬ ((State.reset.port 0).state = .running ∨ (State.reset.port 0).state = .paused)) ∧
    (((onPort fun q => { q with state := .paused, draining := true }).port 0).state = .paused ∧
      ((onPort fun q => { q with state := .paused, draining := true }).port 0).draining = true) ∧
    (((queued (List.replicate 16 (entry 1 0 .queued none))).port 0).draining = false ∧
      ¬ (((queued (List.replicate 16 (entry 1 0 .queued none))).port 0).queue.length < 16)) ∧
    (∀ d, ((noDescriptor (inState .running)).memory.desc d).live = true) ∧
    (((noBlock (inState .running)).port 0).state = .running ∧ ((noBlock (inState .running)).port 0).queue.length < 16 ∧
      (noBlock (inState .running)).entries.length < 48 ∧ ((noBlock (inState .running)).memory.desc 0).live = false ∧
      (noBlock (inState .running)).memory.free.length < blocksFor 1) ∧
    blocksFor 1024 ≤ (inState .running).memory.free.length :=
  ⟨⟨by decide, List.length_replicate.le, by decide⟩, ⟨fun _ _ _ => ask_waiting .., by decide +kernel⟩,
    by decide +kernel, by decide +kernel,
    (fun d => by
      rw [show (noDescriptor (inState .running)).memory.desc d = ⟨true, [], 0, 1, false⟩ from vector_get_replicate _ _]),
    by decide +kernel, by decide +kernel⟩

theorem witness_SendIdRequests :
    (ask sending .sendStatus (le2 (2#16).toNat)).PoolSound ∧
    (∀ id : Half, (ask sending .sendStatus (le2 id.toNat)).Waiting .sendStatus 9 (le2 id.toNat) [] ∧
      (ask sending .sendCancel (le2 id.toNat)).Waiting .sendCancel 9 (le2 id.toNat) []) ∧
    ((65535 : Half) ≠ 0 ∧ ∀ p, ∀ e ∈ (sending.port p).queue, e.id ≠ 65535) ∧
    (entry 1 0 .sending none ∈ (sending.port 0).queue ∧ (entry 1 0 .sending none).state = .sending ∧
      entry 2 0 .queued none ∈ (sending.port 0).queue ∧ (entry 2 0 .queued none).state = .queued) ∧
    ((sending.port 0).queue = [] ++ entry 1 0 .sending none :: [entry 2 0 .queued none] ∧
      (sending.port 0).queue = [entry 1 0 .sending none] ++ entry 2 0 .queued none :: []) :=
  ⟨⟨sending_poolSound.size, sending_poolSound.ids, sending_poolSound.nonzero, sending_poolSound.next⟩,
    fun _ => ⟨ask_waiting .., ask_waiting ..⟩, by decide +kernel, by decide +kernel, by decide +kernel⟩

theorem witness_PortDrainAccepted :
    (∀ s n, (ask s .portDrain (idByte (0 : PortId) :: le2 n)).Waiting .portDrain 9 (idByte (0 : PortId) :: le2 n) []) ∧
    (0 ≤ 65535 ∧ 1 ≤ 65535 ∧ 65535 ≤ 65535 ∧ (1 : Nat) ≠ 0) ∧
    (∃ e ∈ (busy 3 sending).ops.entries, e.work.isDrainOf 0 = true) ∧
    (¬ (∃ e ∈ State.reset.ops.entries, e.work.isDrainOf 0 = true) ∧
      ¬ ((State.reset.port 0).state = .running ∨ (State.reset.port 0).state = .paused)) ∧
    (¬ (∃ e ∈ (crowdedOps sending).ops.entries, e.work.isDrainOf 0 = true) ∧
      ((crowdedOps sending).port 0).state = .running ∧ 4 ≤ (crowdedOps sending).ops.entries.length) ∧
    (sending.ops.entries.length < 4 ∧ (sending.port 0).queue ≠ [] ∧ ((inState .paused).port 0).queue = []) :=
  ⟨fun _ _ => ask_waiting .., by decide +kernel⟩

/-- Port 0 half duplex, its line quiet for this long, with entry 1 in this phase. -/
def turning (phase : TxPhase) (micros : Nat) : State := onPort fun q => { q with
  state := .running, settings := { q.settings with duplex := .half }, queue := [entry 1 0 .sending none], tx := phase
  quiet := ⟨true, micros, false⟩ }

/-- Port 0 RUNNING in its send gap of 3 character times. -/
def gapped (micros : Nat) : State := onPort fun q => { q with
  state := .running, settings := { q.settings with sendGap := 3 }, gap := some micros }

/-- The descriptor of entry 1 of port 0 holds block 0; it is damaged or not, and the block is bad or not. -/
def stored (length : Nat) (damaged : Bool) (bad : List Nat) (s : State) : State :=
  { s with memory := { s.memory with
      descs := s.memory.descs.set 0 ⟨true, [0, 1], length, 1, damaged⟩
      bad := bad } }

/-- At 9,600 baud with 10-bit characters, 2 character times are reached in the 2,084th microsecond. -/
theorem witness_TransmissionBegins :
    ((queued [entry 1 1 .queued none, entry 2 0 .queued none, entry 3 0 .queued none]).pins.reset = false ∧
      ((queued [entry 1 1 .queued none, entry 2 0 .queued none, entry 3 0 .queued none]).port 0).state = .running ∧
      ((queued []).port 0).settings.sendGap = 0 ∧
      (let before := [entry 1 1 .queued none]
       let after := [entry 3 0 .queued none]
       let e := entry 2 0 .queued none
       (∀ x ∈ before ++ e :: after, x.state ≠ .sending) ∧ (∀ x ∈ before, x.state = .queued → e.cls < x.cls) ∧
        (∀ x ∈ after, x.state = .queued → e.cls ≤ x.cls) ∧ ∀ x ∈ before ++ after, x.id ≠ e.id)) ∧
    (((queued []).port 0).settings.duplex = .full ∧ ((turning .idle 0).port 0).settings.duplex = .half ∧
      ∀ x ∈ ((queued []).port 0).queue, x.state ≠ .queued) ∧
    (((gapped 3125).port 0).gap = some 3125 ∧ 3 * 10 * 1000000 ≤ 3125 * ((gapped 3125).port 0).settings.baud ∧
      ((gapped 3124).port 0).gap = some 3124 ∧ ¬ 3 * 10 * 1000000 ≤ 3124 * ((gapped 3124).port 0).settings.baud) ∧
    (((turning .turnaround 2084).port 0).tx = .turnaround ∧ ((turning .turnaround 2084).port 0).quiet.running = true ∧
      2 * 10 * 1000000 ≤ 2084 * ((turning .turnaround 2084).port 0).settings.baud ∧
      ((turning .turnaround 2084).port 0).settings.turnaround = 2 ∧
      ((turning .turnaround 2084).port 0).framer.state = .hunt ∧
      ((turning .turnaround 2084).port 0).queue = [] ++ entry 1 0 .sending none :: []) ∧
    ((stored 1 true [] sending).memory.desc 0).damaged = true ∧
    (((stored 1 false [0] sending).memory.desc 0).damaged = false ∧
      ((stored 1 false [0] sending).memory.desc 0).chain.head? = some 0 ∧
      (0 : BlockId).val ∈ (stored 1 false [0] sending).memory.bad ∧
      (0 : BlockId).val ∉ (stored 1 false [] sending).memory.bad) := by decide +kernel

/-- Port 0 with a character of an entry of this many sent on the line. -/
def midway (n : Nat) (stopping : Bool) : State := onPort fun q => { q with
  state := if stopping then .ready else .running, queue := [{ entry 1 0 .sending none with charsSent := n }]
  tx := .sending 0 q.settings (List.replicate 48 7), stopping := stopping }

theorem witness_CharactersSent :
    ((midway 0 true).pins.reset = false ∧
      ((midway 0 true).port 0).queue = [] ++ { entry 1 0 .sending none with charsSent := 0 } :: [] ∧
      ((midway 0 true).port 0).tx = .sending 0 ((midway 0 true).port 0).settings (List.replicate 48 7) ∧
      ((midway 0 true).port 0).stopping = true ∧ ((midway 0 false).port 0).stopping = false) ∧
    (((stored 1 false [] (midway 0 false)).memory.desc 0).length ≤ 0 + 1 ∧
      0 + 1 < ((stored 2 false [] (midway 0 false)).memory.desc 0).length ∧ (0 + 1) % 48 ≠ 0) ∧
    (47 + 1 < ((stored 49 false [1] (midway 47 false)).memory.desc 0).length ∧ (47 + 1) % 48 = 0 ∧
      ((stored 49 false [1] (midway 47 false)).memory.desc 0).chain[(47 + 1) / 48]? = some 1 ∧
      (1 : BlockId).val ∈ (stored 49 false [1] (midway 47 false)).memory.bad ∧
      (1 : BlockId).val ∉ (stored 49 false [] (midway 47 false)).memory.bad) ∧
    (((turning (.holding .sent 1042) 0).port 0).tx = .holding .sent 1042 ∧
      ((turning (.holding .sent 1042) 0).port 0).settings.trailingHold = 1 ∧
      1 * 10 * 1000000 ≤ 1042 * ((turning (.holding .sent 1042) 0).port 0).settings.baud ∧
      1041 * ((turning (.holding .sent 1041) 0).port 0).settings.baud < 1 * 10 * 1000000) ∧
    ((∀ value format block, ((queued []).port 0).tx ≠ .sending value format block) ∧
      ∀ status micros, ((queued []).port 0).tx ≠ .holding status micros) ∧
    (((midway 0 true).port 0).settings.dataBits = 8 ∧ fastLine.dataBits = 8 ∧ slowLine.dataBits = 7 ∧
      slowLine.parity = .odd) := by
  refine ⟨by decide +kernel, by decide +kernel, by decide +kernel, by decide +kernel, ?_, by decide⟩
  have h : ((queued []).port 0).tx = .idle := by decide +kernel
  exact ⟨fun _ _ _ => by rw [h]; nofun, fun _ _ => by rw [h]; nofun⟩

/-- Port 0 with an entry whose TTL has run out, and a drain whose deadline is reached. -/
def overdue : State :=
  let s := queued [entry 1 0 .sending none, entry 2 0 .queued (some 0), entry 3 0 .queued (some 1)]
  { s with ops := ⟨[⟨5, .drain 0 1 0 0 0, none, 0, false, false⟩], []⟩ }

theorem overdue_poolSound : overdue.PoolSound where
  size := by decide +kernel
  ids := by decide +kernel
  nonzero := by decide +kernel
  next := by decide +kernel

theorem witness_TimesRunOut :
    (overdue.pins.reset = false ∧ overdue.PoolSound) ∧
    (entry 2 0 .queued (some 0) ∈ (overdue.port 0).queue ∧ entry 1 0 .sending none ∈ (overdue.port 0).queue ∧
      entry 3 0 .queued (some 1) ∈ (overdue.port 0).queue ∧ ∀ p, ∀ e ∈ (overdue.port p).queue, e.id ≠ 4) ∧
    ((State.reset.port 0).queue = [] ∧ (∀ e ∈ (busy 3 overdue).ops.entries, e.status = none → e.work ≠ .drain 1 1 0 0 0) ∧
      overdue.ops.entries = [] ++ ⟨5, .drain 0 1 0 0 0, none, 0, false, false⟩ :: [] ∧
      (∀ x ∈ ([] ++ [] : List OpEntry), ¬ (x.work.isDrainOf 0 = true)) ∧ (overdue.port 0).queue ≠ []) :=
  ⟨⟨rfl, overdue_poolSound⟩, by decide +kernel, by decide +kernel⟩

/-! Counters, operations, notices and the link -/

theorem witness_CountersReadAndCleared :
    ∀ g : CounterGroup, (ask State.reset .countersRead (g.body ++ [0])).Waiting .countersRead 9 (g.body ++ [0]) [] ∧
      (ask State.reset .countersRead (g.body ++ [1])).Waiting .countersRead 9 (g.body ++ [1]) [] ∧
      (ask State.reset .countersClear g.body).Waiting .countersClear 9 g.body [] :=
  fun _ => ⟨ask_waiting .., ask_waiting .., ask_waiting ..⟩

/-- Three RUNNING operations, and a COMPLETE one of which the ACCEPTED reply has been sent. -/
def mixedOps : OpTable :=
  ⟨[⟨1, .purge 0 0, none, 0, false, false⟩, ⟨2, .drain 0 1 1 0 0, none, 0, false, false⟩,
    ⟨3, .check 0 0 0, none, 0, false, false⟩, ⟨4, .purge 1 0, some .done, 0, true, false⟩], [4]⟩

theorem mixedOps_sound : mixedOps.Sound := ⟨by decide, by decide, by decide, List.Perm.refl _⟩

def withOps : State := { State.reset with ops := mixedOps }

theorem witness_OperationCancelled :
    (ask withOps .opCancel [5]).ops.Sound ∧
    (∀ t : Byte, (ask withOps .opCancel [t]).Waiting .opCancel 9 [t] []) ∧
    ((5 : Byte) ≠ 0 ∧ 5 ∉ mixedOps.entries.map (·.tag)) ∧
    (∀ e ∈ mixedOps.entries, e.tag = 4 → e.status ≠ none) ∧
    ((⟨1, .purge 0 0, none, 0, false, false⟩ : OpEntry) ∈ mixedOps.entries ∧
      (⟨2, .drain 0 1 1 0 0, none, 0, false, false⟩ : OpEntry) ∈ mixedOps.entries ∧
      (⟨3, .check 0 0 0, none, 0, false, false⟩ : OpEntry) ∈ mixedOps.entries) :=
  ⟨mixedOps_sound, fun _ => ask_waiting .., by decide, by decide, by decide⟩

/-- A queue of this many notices of sends, and a NOTICE_OVERFLOW entry or none. -/
def noticed (n : Nat) (overflow : List Notice) (mask : Half) : State :=
  { State.reset with notices :=
      ⟨(List.range n).map (fun i => ⟨.sendDone, i + 1, 1, 0, 0, .sendDone .sent 0⟩) ++ overflow, 1, mask⟩ }

def overflowed : Notice := ⟨.noticeOverflow, 0, 65535, 0, 0, .lost 65535⟩

theorem witness_NoticeRaised :
    NoticeKind.memoryLow ≠ .noticeOverflow ∧
    (noticed 0 [] 128).notices.mask.getLsbD (NoticeKind.memoryLow.code - 1) = true ∧
    (¬ (noticed 2 [] 0).notices.mask.getLsbD (NoticeKind.sendDone.code - 1) = true ∧
      (noticed 2 [] 0).notices.entries = [⟨.sendDone, 1, 1, 0, 0, .sendDone .sent 0⟩] ++
        ⟨.sendDone, 2, 1, 0, 0, .sendDone .sent 0⟩ :: [] ∧
      ∀ x ∈ [(⟨.sendDone, 1, 1, 0, 0, .sendDone .sent 0⟩ : Notice)] ++ [], ¬ (x.kind = .sendDone ∧ x.subject = 2)) ∧
    (((noticed 14 [overflowed] 0).notices.entries.filter fun n => n.kind != .noticeOverflow).length < 15 ∧
      ∀ x ∈ (noticed 14 [overflowed] 0).notices.entries, ¬ (x.kind = .memoryLow ∧ x.subject = 0)) ∧
    (15 ≤ ((noticed 15 [] 0).notices.entries.filter fun n => n.kind != .noticeOverflow).length ∧
      ∀ x ∈ (noticed 15 [] 0).notices.entries, x.kind ≠ .noticeOverflow) ∧
    (15 ≤ ((noticed 15 [overflowed] 0).notices.entries.filter fun n => n.kind != .noticeOverflow).length ∧
      (noticed 15 [overflowed] 0).notices.entries = (noticed 15 [] 0).notices.entries ++ overflowed :: [] ∧
      overflowed.kind = .noticeOverflow) := by decide +kernel

/-- The link with this on HTX and these replies. -/
def linkWith (htx : Option Outgoing) (replies : List Reply) (hold : Bool) (s : State) : State :=
  { s with pins := { s.pins with hold := hold }, link := { s.link with htx := htx, replies := replies } }

def pinged : Reply := ⟨⟨0x82, 1, [0]⟩, .ordinary⟩

theorem witness_ArbiterBegins :
    (linkWith none [pinged] true State.reset).pins.hold = true ∧
    ((linkWith (some (.reply pinged)) [] false State.reset).pins.hold = false ∧
      (linkWith (some (.reply pinged)) [] false State.reset).pins.reset = false ∧
      (linkWith (some (.reply pinged)) [] false State.reset).link.htx = some (.reply pinged) ∧
      (linkWith (some (.report pinged.message)) [] false State.reset).link.htx = some (.report pinged.message) ∧
      (linkWith (some (.notice pinged.message 0)) [] false State.reset).link.htx = some (.notice pinged.message 0)) ∧
    ((linkWith none [pinged] false State.reset).link.replies = pinged :: [] ∧
      (linkWith none [pinged] false State.reset).link.htx = none) ∧
    (withOps.link.replies = [] ∧ (⟨4, .purge 1 0, some .done, 0, true, false⟩ : OpEntry) ∈ withOps.ops.entries ∧
      withOps.ops.Sound ∧ withOps.ops.completed = [] ++ 4 :: []) ∧
    (State.reset.link.replies = [] ∧ (∀ e ∈ State.reset.ops.entries, e.status = none ∨ e.acceptedSent = false ∨ e.replyPending = true) ∧
      State.reset.notices.entries = ⟨.started, 0, 1, 0, 0, .cause .powerUp⟩ :: [] ∧ 1 ≤ State.reset.notices.credit) ∧
    { State.reset.notices with credit := 0 }.credit = 0 :=
  ⟨rfl, by decide +kernel, by decide +kernel, ⟨rfl, by decide, mixedOps_sound, rfl⟩, by decide +kernel, rfl⟩

theorem witness_MessagesEnd :
    let m : Message := ⟨0x82, 1, [0]⟩
    State.reset.pins.reset = false ∧
    (linkWith (some (.reply ⟨m, .ordinary⟩)) [] false State.reset).link.htx = some (.reply ⟨m, .ordinary⟩) ∧
    (linkWith (some (.reply ⟨m, .refusal⟩)) [] false State.reset).link.htx = some (.reply ⟨m, .refusal⟩) ∧
    (linkWith (some (.reply ⟨m, .accepted⟩)) [] false State.reset).link.htx = some (.reply ⟨m, .accepted⟩) ∧
    (linkWith (some (.report m)) [] false State.reset).link.htx = some (.report m) ∧
    (∀ r, State.reset.link.htx ≠ some (.reply r)) ∧ ∀ m, State.reset.link.htx ≠ some (.report m) :=
  ⟨rfl, rfl, rfl, rfl, rfl, fun _ => nofun, fun _ => nofun⟩

/-! The receive line and the framer -/

/-- Port 0 in a state, its line in a state, with DIRn and this many items in the FIFO. -/
def lined (x : PortState) (l : LineState) (dir : Bool) (n : Nat) : State := onPort fun q =>
  { q with state := x, line := l, dir := dir, fifo := List.replicate n (.brk 0) ++ [.expiry] }

theorem witness_LineReceived :
    ((lined .running .high true 0).pins.reset = false ∧ ((lined .running .high true 0).port 0).line = .high ∧
      ((lined .running (.character false) true 0).port 0).line = .character false ∧
      ((lined .paused (.character false) true 0).port 0).state = .paused ∧
      ((lined .running (.character true) true 0).port 0).line = .character true ∧
      ((lined .running (.character true) true 0).port 0).canSend = true ∧
      ((lined .running .high true 0).port 0).state = .running ∧ ((lined .running .high true 0).port 0).dir = true ∧
      (((lined .running .high false 63).port 0).fifo.filter fun i => i != .expiry).length < 64 ∧
      64 ≤ (((lined .running .high false 64).port 0).fifo.filter fun i => i != .expiry).length ∧
      ((lined .paused .high false 0).port 0).state = .paused ∧ ((lined .paused .high false 0).port 0).canSend = true) ∧
    (((lined .running (.lowStop (some ⟨0, true, 0, true, false⟩)) false 0).port 0).line =
        .lowStop (some ⟨0, true, 0, true, false⟩) ∧
      ((lined .running (.lowStop (some ⟨0, true, 0, false, true⟩)) false 64).port 0).line =
        .lowStop (some ⟨0, true, 0, false, true⟩) ∧
      ((lined .paused (.lowStop none) false 0).port 0).line = .lowStop none ∧
      ((lined .off .high false 0).port 0).canSend = false) ∧
    (((lined .running .high false 63).port 0).line ≠ .brk ∧ ((lined .running .brk false 63).port 0).line = .brk) := by
  decide +kernel

/-- Port 0 RUNNING in GAP mode with a quiet line. -/
def quietFor (micros : Nat) (given : Bool) (fifo : List FifoItem) : State := onPort fun q =>
  { q with state := .running, quiet := ⟨true, micros, given⟩, fifo := fifo }

theorem witness_FramerTakesItems :
    ((quietFor 0 false [.brk 0, .expiry, .brk 1]).pins.reset = false ∧
      ((quietFor 0 false [.brk 0, .expiry, .brk 1]).port 0).state = .running ∧
      ((quietFor 0 false [.brk 0, .expiry, .brk 1]).port 0).fifo = .brk 0 :: (List.replicate 1 FifoItem.expiry ++ [.brk 1]) ∧
      ([.brk 1] : List FifoItem).head? ≠ some .expiry) ∧
    (((inState .paused).port 0).state ≠ .running ∧ ((quietFor 0 false []).port 0).fifo = []) ∧
    (((quietFor 4167 false []).port 0).framer.settings.mode = .gap ∧
      ((quietFor 4167 false []).port 0).framer.settings.gapThreshold = 4 ∧
      4 * 10 * 1000000 ≤ 4167 * ((quietFor 4167 false []).port 0).settings.baud ∧
      ((quietFor 4167 false [.brk 0]).port 0).fifo ≠ []) ∧
    ¬ 4 * 10 * 1000000 ≤ 4166 * ((quietFor 4166 false []).port 0).settings.baud := by decide +kernel

/-- Port 0 closing a frame of this many bytes and flags, with these policies. -/
def closing (length : Nat) (flags : FrameFlags) (fs : FramerSettings) (pending : Nat) : State :=
  let s := onPort fun q => { q with state := .running, framer := { q.framer with
    settings := fs, state := .body, frame := some ⟨0, 0, flags, 0⟩ } }
  onClassifier (fun c => { c with queue := List.replicate pending sixty }) { s with memory := oneFrame length }

theorem witness_FrameCloses :
    let marked : FrameFlags := ⟨false, true, false, false, false⟩
    (((closing 48 marked wideFramer 0).port 0).framer.frame = some ⟨0, 0, marked, 0⟩ ∧ marked.charError = true ∧
      wideFramer.charError = .discard) ∧
    (((closing 0 .clear narrowFramer 0).memory.desc 0).length = 0 ∧ FrameFlags.clear.charError = false) ∧
    ((closing 48 .clear narrowFramer 7).classifier.queue.length < 8 ∧
      8 ≤ (closing 48 .clear narrowFramer 8).classifier.queue.length ∧
      ((closing 48 .clear narrowFramer 7).memory.desc 0).length ≠ 0) ∧
    (wideFramer.incomplete = .discard ∧ narrowFramer.incomplete = .keep ∧
      ((closing 48 .clear narrowFramer 7).port 0).framer.held = []) ∧
    -- a held character that is stored, finds the frame too long, and finds no block
    (((closing 15 .clear narrowFramer 0).storeSeq 0 [7]).1 = .stored ∧
      ((closing 16 .clear narrowFramer 0).storeSeq 0 [7]).1 = .tooLong ∧
      ((noBlock (closing 48 .clear { narrowFramer with maxLength := 49 } 0)).storeSeq 0 [7]).1 = .noBlock ∧
      narrowFramer.tooLong = .truncate ∧ ({ narrowFramer with tooLong := .discard } : FramerSettings).incomplete = .keep)
    := by decide +kernel

/-- Port 0 RUNNING with these framer settings in a state, with the frame in assembly where one is open. -/
def framing (fs : FramerSettings) (x : FramerState) (f : Framer → Framer) : State := onPort fun q =>
  { q with state := .running, framer := f { Framer.fresh fs with
    state := x, frame := if x == .header || x == .body then some ⟨0, 0, .clear, 0⟩ else none } }

def inGap (x : FramerState) : State := framing FramerSettings.dflt x id

theorem witness_GapFrames :
    (∀ x ∈ [FramerState.hunt, .body, .skip], ((inGap x).port 0).framer.settings.mode = .gap ∧
      ((inGap x).port 0).framer.state = x ∧
      ((inGap x).port 0).framer.frame.isSome = (((inGap x).port 0).framer.state == .header ||
        ((inGap x).port 0).framer.state == .body)) ∧
    (∀ d, ((noDescriptor (inGap .hunt)).memory.desc d).live = true) ∧
    (((inGap .hunt).memory.desc 0).live = false ∧ ∀ e < (0 : DescId), ((inGap .hunt).memory.desc e).live = true) ∧
    ((inGap .body).port 0).framer.frame = some ⟨0, 0, .clear, 0⟩ ∧
    (FramerSettings.dflt.tooLong = .truncate ∧ wideFramer.tooLong = .discard) :=
  ⟨by decide +kernel,
    (fun d => by
      rw [show (noDescriptor (inGap .hunt)).memory.desc d = ⟨true, [], 0, 1, false⟩ from vector_get_replicate _ _]),
    ⟨by decide +kernel, fun e h => absurd h (by simp)⟩, by decide +kernel, by decide⟩

/-- DELIMITED mode with a start pattern of 2 bytes or none, an end pattern of 2, and the escape byte 9 or none. -/
def delimiters (start : List Byte) (escape : Option Byte) (keep : Bool) : FramerSettings :=
  { FramerSettings.dflt with
    mode := .delimited, startPattern := start, endPattern := [3, 4], escape := escape, keepDelimiters := keep }

theorem witness_DelimitedFrames :
    (0 < [(3 : Byte), 4].length ∧ ([3, 4] : List Byte)[1]? = some 4 ∧ ([3, 4] : List Byte)[1]? ≠ some 3) ∧
    (((framing (delimiters [1, 2] none false) .hunt id).port 0).framer.settings.mode = .delimited ∧
      ((framing (delimiters [1, 2] none false) .hunt id).port 0).framer.state = .hunt ∧
      (delimiters [1, 2] none false).startPattern ≠ [] ∧ advance [1, 2] 0 1 ≠ 2 ∧ advance [1, 2] 1 2 = 2 ∧
      ((framing (delimiters [1, 2] none false) .hunt id).memory.desc 0).live = false ∧
      (delimiters [] none false).startPattern = [] ∧
      ((framing (delimiters [] none false) .hunt id).port 0).framer.frame = none) ∧
    (∀ d, ((noDescriptor (framing (delimiters [] none false) .hunt id)).memory.desc d).live = true) ∧
    (((framing (delimiters [1] (some 9) false) .body id).port 0).framer.state = .body ∧
      ((framing (delimiters [1] (some 9) false) .body id).port 0).framer.frame = some ⟨0, 0, .clear, 0⟩ ∧
      ((framing (delimiters [1] (some 9) false) .body fun f => { f with escapeOpen := true }).port 0).framer.escapeOpen
        = true ∧
      ((framing (delimiters [1] (some 9) false) .body id).port 0).framer.escapeOpen = false ∧
      (delimiters [1] (some 9) false).escape = some 9 ∧ (delimiters [1] (some 9) false).escape ≠ some 4 ∧
      (delimiters [1] (some 9) false).keepDelimiters = false ∧ (delimiters [1] (some 9) true).keepDelimiters = true) ∧
    -- an end pattern complete, in a frame that stores the character, that is too long and that finds no block
    (advance [3, 4] 1 4 = 2 ∧ advance [3, 4] 1 5 ≠ 2 ∧
      ((assembling 47 48).storeInFrame 0 4).1 = .stored ∧ ((assembling 48 48).storeInFrame 0 4).1 = .tooLong ∧
      ((noBlock (assembling 48 49)).storeInFrame 0 4).1 = .noBlock) ∧
    (((framing (delimiters [1] (some 9) false) .skip id).port 0).framer.state = .skip ∧
      ((framing (delimiters [1] (some 9) false) .skip fun f => { f with escapeOpen := true }).port 0).framer.escapeOpen
        = true) ∧
    (((framing (delimiters [1] none false) .header id).port 0).framer.frame = some ⟨0, 0, .clear, 0⟩ ∧
      (delimiters [1] none false).tooLong = .truncate ∧ wideFramer.tooLong = .discard ∧
      ((assembling 47 48).storeSeq 0 [1, 2]).1 = .tooLong) :=
  ⟨by decide +kernel, by decide +kernel,
    (fun d => by
      rw [show (noDescriptor (framing (delimiters [] none false) .hunt id)).memory.desc d = ⟨true, [], 0, 1, false⟩ from
        vector_get_replicate _ _]),
    by decide +kernel, by decide +kernel, by decide +kernel, by decide +kernel⟩

/-- LENGTH mode with a sync byte or none; the field is the one byte at offset 1. -/
def counted (sync : Option Byte) : FramerSettings :=
  { FramerSettings.dflt with mode := .length, sync := sync, fieldOffset := 1, fieldWidth := 1 }

/-- Port 0 in LENGTH mode with one block in the frame in assembly. -/
def counting (x : FramerState) (taken : Nat) (total : Option Int) : State :=
  { framing (counted (some 0x02)) x (fun f => { f with taken := taken, total := total }) with memory := oneFrame 47 }

theorem witness_LengthFrames :
    (((counting .header 1 none).port 0).framer.settings.mode = .length ∧ (counted none).fieldWidth = 1 ∧
      (1 < 2 → ((counting .header 1 none).port 0).framer.lengthField.length = 1 - 1)) ∧
    (((counting .hunt 0 none).port 0).framer.state = .hunt ∧ (counted (some 2)).sync = some 2 ∧ (2 : Byte) ≠ 3 ∧
      (counted none).sync = none ∧ ((counting .hunt 0 none).port 0).framer.frame = none ∧
      ((counting .hunt 0 none).memory.desc 1).live = false ∧ ((counting .hunt 0 none).memory.desc 0).live = true ∧
      (({ (counting .hunt 0 none).modPort 0 fun q => { q with framer := { q.framer with
          state := .header, frame := some ⟨1, 0, .clear, 0⟩ } } with
        memory := (counting .hunt 0 none).memory.takeDescriptor 1 } : State).storeInFrame 0 2).1 = .stored) ∧
    (((counting .header 1 none).port 0).framer.frame = some ⟨0, 0, .clear, 0⟩ ∧
      ((counting .header 1 none).storeInFrame 0 3).1 = .stored) ∧
    (((counting .body 4 (some 5)).port 0).framer.total = some 5 ∧ (5 : Int) = ((4 : Nat) : Int) + 1 ∧
      ((counting .body 4 (some 6)).port 0).framer.total = some 6 ∧ (6 : Int) ≠ ((4 : Nat) : Int) + 1 ∧
      ((counting .body 4 (some 5)).storeInFrame 0 3).1 = .stored) ∧
    (∀ d, ((noDescriptor (counting .hunt 0 none)).memory.desc d).live = true) ∧
    -- a byte that finds no block, at the start of a frame and in it
    ((({ (counting .hunt 0 none).modPort 0 fun q => { q with framer := { q.framer with
          state := .header, frame := some ⟨1, 0, .clear, 0⟩ } } with
        memory := (noBlock (counting .hunt 0 none)).memory.takeDescriptor 1 } : State).storeInFrame 0 2).1 = .noBlock ∧
      ((noBlock { counting .header 1 none with memory := oneFrame 48 }).storeInFrame 0 3).1 = .noBlock) ∧
    (((counting .skip 1 none).port 0).framer.state = .skip ∧
      ((counting .body 1 none).port 0).framer.frame = some ⟨0, 0, .clear, 0⟩) :=
  ⟨by decide +kernel, by decide +kernel, by decide +kernel, by decide +kernel,
    (fun d => by
      rw [show (noDescriptor (counting .hunt 0 none)).memory.desc d = ⟨true, [], 0, 1, false⟩ from
        vector_get_replicate _ _]),
    by decide +kernel, by decide +kernel⟩

/-! What every step keeps: the reset state meets each of the properties and has a next state. -/

theorem reset_steps : ∃ t, step State.reset = .next t := ⟨_, rfl⟩

theorem witness_CollectionsStayBounded :
    (∃ t, step State.reset = .next t) ∧ State.reset.link.Bounded ∧ State.reset.notices.Sound ∧
      (∀ p, (State.reset.port p).FifoBounded) ∧ State.reset.classifier.Sound ∧ State.reset.PoolSound ∧
      (∀ p, (State.reset.port p).SendSound) ∧ ∀ p, (State.reset.port p).DirSound :=
  ⟨reset_steps, State.reset_linkBounded, State.reset_noticesSound, State.reset_fifoBounded, State.reset_classifierSound,
    State.reset_poolSound, State.reset_sendSound, State.reset_dirSound⟩

theorem witness_MemoryConserved :
    (∃ t, step State.reset = .next t) ∧ State.reset.memory.Sound ∧ State.reset.Counted ∧ State.reset.PoolSound ∧
      (∀ p, (State.reset.port p).SendSound) ∧ ∀ p, (State.reset.port p).FramerSound :=
  ⟨reset_steps, RecordMemory.reset_sound, State.reset_counted, State.reset_poolSound, State.reset_sendSound,
    State.reset_framerSound⟩

theorem witness_TagsStayExact :
    (∃ t, step State.reset = .next t) ∧ State.reset.TagsSound ∧ State.reset.link.Bounded ∧ State.reset.ops.Sound ∧
      State.reset.OpsAgree ∧ ∀ i, (State.reset.store i).Sound :=
  ⟨reset_steps, State.reset_tagsSound, State.reset_linkBounded, State.reset_opsSound, State.reset_opsAgree,
    State.reset_storeSound⟩

theorem witness_SettingsStayInRange : (∃ t, step State.reset = .next t) ∧ State.reset.SettingsValid :=
  ⟨reset_steps, State.reset_settingsValid⟩


/-- A code that is no request kind's, and a field shorter than its width, at the boundary and below it. -/
theorem witness_AllowedBodyLengths :
    (∀ k : Kind, k.code ≠ 0x44) ∧ ([] : List Byte).length ≤ 0 ∧ ([1, 2, 3] : List Byte).length ≤ 8 := by
  refine ⟨fun k => ?_, by decide, by decide⟩
  cases k <;> decide
end Sys2Proof.Tests
end

