-- ==== Sys2Proof/Proofs/Resets.lean ====
section
namespace Sys2Proof.Machine

theorem Port.reset_afterReset : Port.reset.AfterReset where
  state := rfl
  settings := rfl
  framerSettings := rfl
  framer := by decide
  fifo := by decide
  quiet := rfl
  dir := rfl
  counters := rfl
  sends := by decide

theorem Store.reset_afterReset : Store.reset.AfterReset where
  settings := rfl
  state := by decide
  records := by decide
  armed := by decide
  counters := rfl

theorem linkRateOf_eq (rate1 rate0 : Bool) :
    linkRateOf rate1 rate0 = if rate1 then (if rate0 then .r3000000 else .r1000000)
      else (if rate0 then .r460800 else .r115200) := by
  cases rate1 <;> cases rate0 <;> rfl

theorem State.afterReset_afterDeviceReset (s : State) (cause : ResetCause) :
    (s.afterReset cause).AfterDeviceReset cause s.pins.rate1 s.pins.rate0 where
  timebase := rfl
  receiver := ⟨rfl, rfl, rfl⟩
  queues := ⟨rfl, rfl, rfl, rfl⟩
  executor := rfl
  htx := rfl
  rate := linkRateOf_eq _ _
  lastCause := rfl
  linkCounters := rfl
  notices := rfl
  credit := rfl
  mask := rfl
  ops := ⟨rfl, rfl⟩
  free := by simp only [State.afterReset, RecordMemory.reset]
  descriptors := RecordMemory.reset_desc
  memoryLow := by simp only [State.afterReset, RecordMemory.reset, and_self]
  memoryCounters := by simp only [State.afterReset, RecordMemory.reset, MemoryCounters.values]
  rules := Classifier.reset_rule
  chains := Classifier.reset_chain
  defaults := fun _ => vector_get_replicate _ _
  templates := fun _ => vector_get_replicate _ _
  classification := ⟨rfl, rfl, rfl⟩
  stores := fun i => by
    rw [show (s.afterReset cause).store i = .reset from vector_get_replicate _ _]
    exact Store.reset_afterReset
  ports := fun p => by
    rw [show (s.afterReset cause).port p = .reset from vector_get_replicate _ _]
    exact Port.reset_afterReset
  nextSendId := rfl

/-- Settles O6: the values are those that every device reset leaves, and each invariant is a law of the reset state. -/
theorem resetStateValues : Obligations.ResetStateValues := by
  refine ⟨State.reset.afterReset_afterDeviceReset .powerUp, State.reset_linkBounded, State.reset_noticesSound, State.reset_fifoBounded,
    State.reset_classifierSound, RecordMemory.reset_sound, State.reset_counted, State.reset_poolSound,
    State.reset_sendSound, State.reset_dirSound, State.reset_framerSound, State.reset_tagsSound, State.reset_opsSound,
    State.reset_opsAgree, State.reset_storeSound, State.reset_settingsValid⟩

theorem State.unlessReset_running {s : State} (h : s.pins.reset = false) (t : State) : s.unlessReset t = .next t := by
  simp [State.unlessReset, h]

/-- Settles O23, by the two things that the row looks at. -/
theorem classificationStarts : Obligations.ClassificationStarts := by
  intro s hr
  refine ⟨fun f rest hc hq => ?_, fun h => ?_⟩
  · simp only [exec, execClassificationStart, State.unlessReset_running hr, hc, hq]
    rfl
  · simp only [exec, execClassificationStart, State.unlessReset_running hr]
    split
    · rename_i hc hq
      exact absurd h (by simp [hc, hq])
    · rfl

theorem byte1_toNat (n : Nat) : (byte1 n).toNat = n % 256 := by simp [byte1]

theorem idByte_toNat {n : Nat} (i : Fin n) (h : n ≤ 256) : (idByte i).toNat = i.val := by
  rw [idByte, byte1_toNat]
  exact Nat.mod_eq_of_lt (by omega)

@[simp] theorem num1_cons_zero (b : Byte) (bs : List Byte) : num1 (b :: bs) 0 = b.toNat := rfl
@[simp] theorem num1_cons_succ (b : Byte) (bs : List Byte) (i : Nat) : num1 (b :: bs) (i + 1) = num1 bs i := rfl
@[simp] theorem num2_cons_succ (b : Byte) (bs : List Byte) (i : Nat) : num2 (b :: bs) (i + 1) = num2 bs i := by
  simp [num2]
@[simp] theorem byteAt_cons_succ (b : Byte) (bs : List Byte) (i : Nat) : byteAt (b :: bs) (i + 1) = byteAt bs i := rfl
@[simp] theorem byteAt_cons_zero (b : Byte) (bs : List Byte) : byteAt (b :: bs) 0 = b := rfl

theorem fieldBelow_idByte {n : Nat} (i : Fin n) (h : n ≤ 256) (k : Nat) : fieldBelow n k (idByte i).toNat = .ok i := by
  simp [fieldBelow, idByte_toNat i h]

theorem fieldYesNo_yesNo (k : Nat) (v : Bool) : fieldYesNo k (yesNo v) = .ok v := by
  cases v <;> rfl

end Sys2Proof.Machine
end

