-- ==== Sys2Proof/Proofs/Edits.lean ====
section
namespace Sys2Proof.Machine

@[simp] theorem except_bind_ok {α β : Type} (a : α) (f : α → Except Nat β) : ((.ok a : Except Nat α) >>= f) = f a := rfl

@[simp] theorem need_true (i : Nat) : need i true = .ok () := rfl

@[simp] theorem fieldBelow_byte1 {n : Nat} (i : Fin n) (h : n ≤ 256) (k : Nat) :
    fieldBelow n k (byte1 i.val).toNat = .ok i := fieldBelow_idByte i h k

@[simp] theorem fieldCode_flagFilter (f : FlagFilter) (i : Nat) :
    fieldCode [FlagFilter.any, .clean, .flagged] i f.code.toNat = .ok f := by
  cases f <;> rfl

theorem le2_number {n : Nat} (h : n ≤ 65535) : (byte1 n).toNat + 256 * (byte1 (n / 256)).toNat = n := by
  simp only [byte1_toNat]
  omega

@[simp] theorem parseAction_file (target cls ttl : Nat) :
    parseAction 1 target cls ttl = (do let i ← fieldBelow 8 10 target; .ok (.file i)) := rfl
@[simp] theorem parseAction_forward (target cls ttl : Nat) :
    parseAction 2 target cls ttl = (do let p ← fieldBelow 4 10 target; let c ← fieldBelow 4 11 cls; .ok (.forward p c ttl)) := rfl
@[simp] theorem parseAction_reply (target cls ttl : Nat) :
    parseAction 3 target cls ttl = (do let t ← fieldBelow 16 10 target; let c ← fieldBelow 4 11 cls; .ok (.reply t c ttl)) := rfl

theorem Action.fields_parse {a : Action} (h : a.Valid) : ∃ target cls low high, a.fields = [target, cls, low, high] ∧
    parseAction a.code.toNat target.toNat cls.toNat (low.toNat + 256 * high.toNat) = .ok a := by
  cases a with
  | drop => exact ⟨0, 0, 0, 0, rfl, rfl⟩
  | count => exact ⟨0, 0, 0, 0, rfl, rfl⟩
  | file i => exact ⟨_, _, _, _, rfl, by simp [Action.code]⟩
  | forward p c ttl => exact ⟨_, _, _, _, rfl, by simp [Action.code, le2_number h]⟩
  | reply t c ttl => exact ⟨_, _, _, _, rfl, by simp [Action.code, le2_number h]⟩

theorem lengthRangeField_none {lo hi : Nat} (h : 1 ≤ lo ∧ lo ≤ hi ∧ hi ≤ 1024) : lengthRangeField lo hi = none := by
  unfold lengthRangeField
  rw [if_neg (by omega), if_neg (by omega), if_pos (by omega)]

theorem parseRuleWrite_body (r : RuleId) {d : RuleDef} (h : d.Valid) :
    parseRuleWrite (Edit.ruleWrite r d).body = .ok (r, d) := by
  obtain ⟨hoff, ⟨hkey, hmask⟩, hlen, hact⟩ := h
  obtain ⟨target, cls, low, high, hf, hp⟩ := Action.fields_parse hact
  have hn : (d.key.length + d.key.length) / 2 = d.key.length := by omega
  have hb : (byte1 d.key.length).toNat = d.key.length := by rw [byte1_toNat]; omega
  have ho := le2_number (n := d.keyOffset) (by omega)
  have hlo := le2_number (n := d.minLength) (by omega)
  have hhi := le2_number (n := d.maxLength) (by omega)
  have hm : d.mask.take d.key.length = d.mask := by rw [← hmask, List.take_length]
  simp [parseRuleWrite, Edit.body, le2, hf, num2, fieldBelow_idByte, fieldYesNo_yesNo, hp, hn, hb, ho, hlo, hhi,
    lengthRangeField_none hlen, hoff, Nat.add_comm 17, hmask, hm]

theorem Edit.length_allowed {e : Edit} (h : e.Valid) : lengthAllowed e.kind e.body.length = true := by
  cases e with
  | ruleWrite r d =>
    obtain ⟨target, cls, low, high, hf, -⟩ := Action.fields_parse h.action
    have := h.key
    simp [Edit.kind, Edit.body, lengthAllowed, le2, hf]
    omega
  | ruleLink r p position => cases position <;> rfl
  | defaultSet p a => cases a <;> rfl
  | templateWrite t v =>
    have hb : v.bytes.length ≤ 64 := h.bytes
    obtain ⟨bytes, _ | e⟩ := v <;> simp only at hb <;> simp [Edit.kind, Edit.body, lengthAllowed, le2] <;> omega
  | ruleUnlink _ | ruleFree _ | ruleEnable _ _ => rfl

theorem parseRule_body (r : RuleId) : parseRule [idByte r] = .ok r := fieldBelow_idByte r (by decide) 1
theorem parsePort_body (p : PortId) : parsePort [idByte p] = .ok p := fieldBelow_idByte p (by decide) 1
theorem parseStore_body (i : StoreId) : parseStore [idByte i] = .ok i := fieldBelow_idByte i (by decide) 1

theorem parseRuleLink_body (r : RuleId) (p : PortId) (position : LinkPosition) :
    parseRuleLink (Edit.ruleLink r p position).body = .ok (r, p, position) := by
  cases position with
  | head => simp [parseRuleLink, Edit.body, fieldBelow_idByte]
  | after a =>
    have ha : (idByte a).toNat ≠ 255 := by rw [idByte_toNat a (by decide)]; omega
    simp [parseRuleLink, Edit.body, fieldBelow_idByte, ha]

theorem parseRuleEnable_body (r : RuleId) (v : Bool) : parseRuleEnable [idByte r, yesNo v] = .ok (r, v) := by
  simp [parseRuleEnable, fieldBelow_idByte, fieldYesNo_yesNo]

theorem parseDefaultSet_body (p : PortId) (a : DefaultAction) :
    parseDefaultSet (Edit.defaultSet p a).body = .ok (p, a) := by
  cases a <;> simp [parseDefaultSet, Edit.body, fieldBelow_idByte]

theorem parseTemplateWrite_body (t : TemplateId) {v : Template} (h : v.Valid) :
    parseTemplateWrite (Edit.templateWrite t v).body = .ok (t, v) := by
  obtain ⟨hlen, hecho⟩ := h
  obtain ⟨bytes, _ | e⟩ := v
  · have hb : (byte1 bytes.length).toNat = bytes.length := by rw [byte1_toNat]; simp at hlen; omega
    simp [parseTemplateWrite, Edit.body, fieldBelow_idByte, fieldYesNo, hb, num2]
  · obtain ⟨hne, hi, ho, he⟩ := hecho e rfl
    simp only at hlen hne hi
    have hb : (byte1 bytes.length).toNat = bytes.length := by rw [byte1_toNat]; omega
    have hib : (byte1 e.insertAt).toNat = e.insertAt := by rw [byte1_toNat]; omega
    have heb : (byte1 e.length).toNat = e.length := by rw [byte1_toNat]; omega
    have hob := le2_number (n := e.offset) (by omega)
    have hn : (bytes.length == 0) = false := by simpa using hne
    simp [parseTemplateWrite, Edit.body, fieldBelow_idByte, fieldYesNo, hb, num2, le2, hib, heb, hob, hi, ho, he, hn]

theorem checked_ok {α : Type} {k : Kind} {parse : List Byte → Except Nat α} {body : List Byte} {a : α}
    (hl : lengthAllowed k body.length = true) (hp : parse body = .ok a) (act : Byte → α → State → State × Response)
    (tag : Byte) (s : State) : checked k parse act tag body s = act tag a s := by
  simp [checked, hl, hp]

/-- R11, R145. The row of an edit executes a body in its ranges as that edit. -/
theorem Edit.exec_instr (e : Edit) (h : e.Valid) (s : State) : ∃ run,
    exec e.kind.instr s = s.unlessReset (s.request e.kind run) ∧ ∀ tag t, run tag e.body t = t.edit e := by
  have hl := Edit.length_allowed h
  cases e with
  | ruleWrite r d => exact ⟨_, rfl, checked_ok hl (parseRuleWrite_body r h) _⟩
  | ruleLink r p position => exact ⟨_, rfl, checked_ok hl (parseRuleLink_body r p position) _⟩
  | ruleUnlink r => exact ⟨_, rfl, checked_ok hl (parseRule_body r) _⟩
  | ruleFree r => exact ⟨_, rfl, checked_ok hl (parseRule_body r) _⟩
  | ruleEnable r v => exact ⟨_, rfl, checked_ok hl (parseRuleEnable_body r v) _⟩
  | defaultSet p a => exact ⟨_, rfl, checked_ok hl (parseDefaultSet_body p a) _⟩
  | templateWrite t v => exact ⟨_, rfl, checked_ok hl (parseTemplateWrite_body t h) _⟩

/-- R11. An edit that finds the Classifier IDLE is carried out and answered. -/
theorem Edit.exec_idle {s : State} {e : Edit} {tag : Byte} {rest : List Message} {status : Status} {c : Classifier}
    (h : e.Valid) (hc : s.classifier.current = none) (hw : s.Waiting e.kind tag e.body rest)
    (ha : s.classifier.applyEdit e = (status, c)) :
    exec e.kind.instr s = .next ({ s with classifier := c }.replied e.kind tag rest status []) := by
  obtain ⟨run, hx, hrun⟩ := e.exec_instr h s
  rw [hx, State.unlessReset_running hw.running, State.request_waiting hw]
  simp only [hrun, State.edit, hc, ha, State.answer_taken]

/-- R11. An edit that finds the Classifier CLASSIFYING is held. -/
theorem Edit.exec_classifying {s : State} {e : Edit} {tag : Byte} {rest : List Message} (h : e.Valid)
    (hc : s.classifier.current.isSome = true) (hw : s.Waiting e.kind tag e.body rest) :
    exec e.kind.instr s = .next { s with
      link := { s.link with requests := rest, reserved := s.link.reserved + 1, executor := .executing tag e.kind }
      classifier := { s.classifier with held := some e } } := by
  obtain ⟨run, hx, hrun⟩ := e.exec_instr h s
  obtain ⟨k, hk⟩ := Option.isSome_iff_exists.mp hc
  rw [hx, State.unlessReset_running hw.running, State.request_waiting hw]
  simp only [hrun, State.edit, hk, State.modClassifier, State.modLink, Link.takeRequest]

theorem exec_request_kind (k : Kind) (s : State) : ∃ run, exec k.instr s = s.unlessReset (s.request k run) := by
  cases k <;> exact ⟨_, rfl⟩

/-- R143, R145. The Executor takes no request while it is EXECUTING or has no place for the reply. -/
theorem State.request_busy {s : State}
    (h : (∃ tag kind, s.link.executor = .executing tag kind) ∨ 12 ≤ s.link.replies.length + s.link.reserved) (k : Kind)
    (run : Byte → List Byte → State → State × Response) : s.request k run = s := by
  obtain hs | ⟨r, rest, hidle, -, -, hplace, -⟩ := s.request_cases k run
  · exact hs
  · obtain ⟨tag, kind, hx⟩ | hfull := h
    · simp [hidle] at hx
    · simp [Link.placeFree] at hplace
      omega

theorem State.unknownRequest_busy {s : State}
    (h : (∃ tag kind, s.link.executor = .executing tag kind) ∨ 12 ≤ s.link.replies.length + s.link.reserved) :
    s.unknownRequest = s := by
  simp only [State.unknownRequest]
  split
  · rename_i hidle _
    obtain ⟨tag, kind, hx⟩ | hfull := h
    · simp [hidle] at hx
    · simp [Link.placeFree, Nat.not_lt.mpr hfull]
  · rfl

theorem State.unlessReset_self (s : State) : s.unlessReset s = .next s := by simp [State.unlessReset]

/-- Settles O19: an edit in range reaches the Classifier, and a request that the Executor cannot take changes nothing. -/
theorem editHeldWhileClassifying : Obligations.EditHeldWhileClassifying := by
  refine ⟨fun s e tag rest hv hc hw => Edit.exec_classifying hv hc hw, fun s k h => ⟨?_, ?_⟩⟩
  · obtain ⟨run, hx⟩ := exec_request_kind k s
    rw [hx, State.request_busy h, State.unlessReset_self]
  · show s.unlessReset s.unknownRequest = _
    rw [State.unknownRequest_busy h, State.unlessReset_self]

/-- Settles O20: each of the three is the edit carried out at the IDLE Classifier. -/
theorem fieldsWritten : Obligations.FieldsWritten := by
  intro s tag rest hc
  refine ⟨fun r d hd hw => ?_, fun p a hw => ?_, fun i v hv hw => ?_⟩
  · exact Edit.exec_idle (e := .ruleWrite r d) hd hc hw rfl
  · exact Edit.exec_idle (e := .defaultSet p a) trivial hc hw rfl
  · exact Edit.exec_idle (e := .templateWrite i v) hv hc hw rfl

theorem insertRule_after (before behind : List RuleId) {a : RuleId} (h : a ∉ before) (r : RuleId) :
    insertRule (before ++ a :: behind) r (.after a) = some (before ++ a :: r :: behind) := by
  have hb : ∀ x ∈ before, (x != a) = true := fun x hx => by
    simpa using fun hxa : x = a => h (hxa ▸ hx)
  simp only [insertRule]
  rw [if_pos (by simp), List.takeWhile_append_of_pos hb, List.dropWhile_append_of_pos hb]
  simp

theorem insertRule_after_not_mem {chain : List RuleId} {a : RuleId} (h : a ∉ chain) (r : RuleId) :
    insertRule chain r (.after a) = none := by simp [insertRule, h]

theorem Classifier.linkRule_not_defined {c : Classifier} {r : RuleId} (h : (c.rule r).state ≠ .defined) (p : PortId)
    (position : LinkPosition) : c.linkRule r p position = (.wrongState, c) := by simp [Classifier.linkRule, h]

theorem Classifier.linkRule_notFound {c : Classifier} {r : RuleId} {p : PortId} {position : LinkPosition}
    (h : (c.rule r).state = .defined) (hi : insertRule (c.chain p) r position = none) :
    c.linkRule r p position = (.notFound, c) := by simp [Classifier.linkRule, h, hi]

theorem Classifier.linkRule_ok {c : Classifier} {r : RuleId} {p : PortId} {position : LinkPosition}
    {chain : List RuleId} (h : (c.rule r).state = .defined) (hi : insertRule (c.chain p) r position = some chain) :
    c.linkRule r p position =
      (.ok, (c.setChain p chain).modRule r fun x => { x with state := .linked, chainPort := some p }) := by
  simp [Classifier.linkRule, h, hi]

/-- Settles O21: RULE_LINK is the edit carried out, and the cases are those of the two checks of R4. -/
theorem ruleLinked : Obligations.RuleLinked := by
  intro s tag rest r p position hc hw x linked
  have edited {status : Status} {c : Classifier} (ha : s.classifier.linkRule r p position = (status, c)) :
      exec .ruleLink s = .next ({ s with classifier := c }.replied .ruleLink tag rest status []) :=
    Edit.exec_idle (e := .ruleLink r p position) trivial hc hw ha
  refine ⟨fun hd => edited (Classifier.linkRule_not_defined hd p position), fun hd hp => ?_, fun a hd hp =>
    ⟨fun ha => ?_, fun hs ha => ?_, fun before behind hchain ha => ?_⟩⟩ <;> subst hp
  · exact edited (Classifier.linkRule_ok hd rfl)
  · exact edited (Classifier.linkRule_notFound hd (insertRule_after_not_mem ha r))
  · have hm : a ∉ s.classifier.chain p := fun hm => by
      obtain ⟨h1, h2⟩ := (hs.linked a p).mp hm
      exact ha.elim (fun h => h h1) (fun h => h h2)
    exact edited (Classifier.linkRule_notFound hd (insertRule_after_not_mem hm r))
  · exact edited (Classifier.linkRule_ok hd (by rw [hchain, insertRule_after before behind ha]))

theorem Classifier.unlinkRule_not_linked {c : Classifier} {r : RuleId} (h : (c.rule r).state ≠ .linked) :
    c.unlinkRule r = (.wrongState, c) := by
  simp only [Classifier.unlinkRule]
  split
  · exact absurd ‹_› h
  · rfl

/-- Settles O22: each of the three is the edit carried out, in the two cases of its check. -/
theorem ruleStateEdited : Obligations.RuleStateEdited := by
  intro s tag rest r hc x
  refine ⟨fun hw => ⟨fun p hl hp => ?_, fun hl => ?_⟩, fun hw => ⟨fun hd => ?_, fun hd => ?_⟩,
    fun v hw => ⟨fun hd => ?_, fun hd => ?_⟩⟩
  · exact Edit.exec_idle (e := .ruleUnlink r) trivial hc hw (by
      simp only [Classifier.applyEdit, Classifier.unlinkRule, show (s.classifier.rule r).state = _ from hl,
        show (s.classifier.rule r).chainPort = _ from hp]
      rfl)
  · exact Edit.exec_idle (e := .ruleUnlink r) trivial hc hw (Classifier.unlinkRule_not_linked hl)
  · exact Edit.exec_idle (e := .ruleFree r) trivial hc hw (if_pos hd)
  · exact Edit.exec_idle (e := .ruleFree r) trivial hc hw (if_neg hd)
  · exact Edit.exec_idle (e := .ruleEnable r v) trivial hc hw (if_neg hd)
  · exact Edit.exec_idle (e := .ruleEnable r v) trivial hc hw (if_pos hd)

end Sys2Proof.Machine
end

