-- ==== Sys2Proof/Proofs/Reads.lean ====
section
namespace Sys2Proof.Machine

/-- A request that reports changes nothing but the queues: its fields may be written in another form. -/
theorem State.execRequest_reports {α : Type} {s : State} {k : Kind} {tag : Byte} {body : List Byte}
    {rest : List Message} {parse : List Byte → Except Nat α} {act : Byte → α → State → State × Response} {a : α}
    {fields fields' : List Byte} (h : s.Waiting k tag body rest) (hl : lengthAllowed k body.length = true)
    (hp : parse body = .ok a) (ha : act tag a s = s.grant fields) (hf : fields = fields') :
    s.execRequest k parse act = .next (s.replied k tag rest .ok fields') :=
  hf ▸ State.execRequest_ok h hl hp ha

/-- Settles O14: each of the eight leaves the state as it is, and its fields are those that Message Formats lays out. -/
theorem reportsChangeNothing : Obligations.ReportsChangeNothing := by
  refine ⟨fun s tag rest => ⟨fun hw => ?_, fun hw => ?_, fun hw => ?_, fun hw => ?_⟩,
    fun s tag rest => ⟨fun p hw => ?_, fun r hw => ?_, fun p hw => ?_, fun i hw => ?_⟩⟩
  · exact State.execRequest_ok hw rfl rfl rfl
  · exact State.execRequest_ok hw rfl rfl rfl
  · exact State.execRequest_ok hw rfl rfl rfl
  · refine State.execRequest_reports hw rfl rfl rfl (congrArg _ (List.flatMap_congr fun e _ => ?_))
    obtain ⟨tag, work, status, start, acceptedSent, replyPending⟩ := e
    cases status <;> cases work <;> rfl
  · exact State.execRequest_ok hw rfl (parsePort_body p) rfl
  · exact State.execRequest_ok hw rfl (parseRule_body r) rfl
  · refine State.execRequest_reports hw rfl (parsePort_body p) rfl ?_
    simp only [chainFields]
    cases s.classifier.defaults.get p <;> rfl
  · refine State.execRequest_reports hw rfl (parseStore_body i) rfl ?_
    simp only [storeFields]
    cases (s.store i).records <;> rfl

/-! R15 -/

theorem RuleDef.applies_iff (d : RuleDef) (f : Frame) : d.applies f = true ↔
    d.enabled = true ∧ (d.minLength ≤ f.length ∧ f.length ≤ d.maxLength) ∧ d.filter.passes f.flags = true ∧
      d.keyOffset + d.key.length ≤ f.length := by
  simp [RuleDef.applies, and_assoc]

theorem keyMatches_iff {key mask bytes : List Byte} (hm : mask.length = key.length) (hb : bytes.length = key.length) :
    keyMatches key mask bytes = true ↔
      ∀ i < key.length, byteAt bytes i &&& byteAt mask i = byteAt key i &&& byteAt mask i := by
  induction key generalizing mask bytes with
  | nil => simp [keyMatches]
  | cons k ks ih =>
    obtain _ | ⟨m, ms⟩ := mask
    · simp at hm
    obtain _ | ⟨b, bs⟩ := bytes
    · simp at hb
    simp only [List.length_cons, Nat.add_right_cancel_iff] at hm hb
    simp only [keyMatches, Bool.and_eq_true, beq_iff_eq, ih hm hb, List.length_cons, Nat.forall_lt_succ_left,
      byteAt_cons_zero, byteAt_cons_succ]

theorem RecordMemory.byteAt_payload (m : RecordMemory) (d : DescId) (offset : Nat) {n i : Nat} (h : i < n) :
    byteAt (m.payload d offset n) i = m.payloadByte d (offset + i) := by
  simp [byteAt, RecordMemory.payload, h]

/-- R15. The five tests are the four that need no read, and the key test. -/
theorem RuleDef.matches_iff (d : RuleDef) (f : Frame) (payload : List Byte) : d.Matches f payload ↔
    d.applies f = true ∧
      ∀ i < d.key.length, byteAt payload (d.keyOffset + i) &&& byteAt d.mask i = byteAt d.key i &&& byteAt d.mask i := by
  simp only [RuleDef.Matches, RuleDef.applies_iff, FlagFilter.passes, FrameFlags.isClean]
  cases d.filter <;> simp [and_assoc, or_assoc]

theorem State.ruleMatches_iff (s : State) {d : RuleDef} (f : Frame) (hm : d.mask.length = d.key.length) :
    (s.ruleMatches d f).1 = true ↔ d.applies f = true ∧
      ∀ i < d.key.length, s.memory.payloadByte f.desc (d.keyOffset + i) &&& byteAt d.mask i
        = byteAt d.key i &&& byteAt d.mask i := by
  simp only [State.ruleMatches]
  split
  · rename_i ha
    rw [keyMatches_iff hm (by simp [RecordMemory.payload]), and_iff_right ha]
    exact forall₂_congr fun i hi => by rw [RecordMemory.byteAt_payload _ _ _ hi]
  · simp_all

theorem State.ruleMatches_inapplicable (s : State) {d : RuleDef} {f : Frame} (h : d.applies f = false) :
    (s.ruleMatches d f).2 = s := by simp [State.ruleMatches, h]

/-- Settles O24, from the four tests that need no read and the key test. -/
theorem ruleMatchesByFiveTests : Obligations.RuleMatchesByFiveTests := by
  intro s d f hd
  refine ⟨?_, ?_, s.ruleMatches_inapplicable⟩
  · rw [State.ruleMatches_iff s f hd.key.2, RuleDef.matches_iff]
    refine and_congr_right fun ha => forall₂_congr fun i hi => ?_
    obtain ⟨-, -, -, hlen⟩ := (d.applies_iff f).mp ha
    rw [RecordMemory.byteAt_payload _ _ _ (by omega), Nat.zero_add]
  · simp only [RuleDef.applies_iff, FlagFilter.passes, FrameFlags.isClean]
    cases d.filter <;> simp

theorem FrameFlags.byte_eq (f : FrameFlags) (damaged : Bool) : f.byte damaged = BitVec.ofNat 8 (
      (if f.truncated then 1 else 0) + (if f.charError then 2 else 0) + (if f.gapClosed then 4 else 0)
        + (if f.brk then 8 else 0) + (if f.capped then 16 else 0) + (if damaged then 32 else 0)) := by
  obtain ⟨truncated, charError, gapClosed, brk, capped⟩ := f
  revert truncated charError gapClosed brk capped damaged
  decide

/-- R37. Block `k` holds one of `n ≥ 1` bytes from an offset exactly when it lies between the first and the last of them. -/
theorem any_byte_in_block (offset n k : Nat) : ((List.range n).any fun i => (offset + i) / 48 == k) = true ↔
    n ≠ 0 ∧ offset / 48 ≤ k ∧ k ≤ (offset + n - 1) / 48 := by
  simp only [List.any_eq_true, List.mem_range, beq_iff_eq]
  constructor
  · rintro ⟨i, hi, rfl⟩
    exact ⟨by omega, Nat.div_le_div_right (by omega), Nat.div_le_div_right (by omega)⟩
  · rintro ⟨hn, hlo, hhi⟩
    exact ⟨max offset (48 * k) - offset, by omega, by omega⟩

/-- The elements of a list at the places from `lo` to `hi`. -/
theorem filterMap_range_between {α : Type} (l : List α) (lo hi : Nat) (h : lo ≤ hi) :
    ((List.range l.length).filter fun k => decide (lo ≤ k ∧ k ≤ hi)).filterMap (fun k => l[k]?)
      = (l.drop lo).take (hi - lo + 1) := by
  induction l generalizing lo hi with
  | nil => simp
  | cons x l ih =>
    rw [List.length_cons, List.range_succ_eq_map, List.filter_cons, List.filter_map]
    obtain _ | lo := lo
    · obtain _ | hi := hi
      · simp [Function.comp_def]
      · simpa [Function.comp_def, List.filterMap_map] using ih 0 hi (by omega)
    · obtain _ | hi := hi
      · omega
      · simpa [Function.comp_def, List.filterMap_map] using ih lo hi (by omega)

/-- R16. The blocks that a read reads are those that hold one of its bytes. -/
theorem RecordMemory.span_eq (m : RecordMemory) (d : DescId) (offset n : Nat) :
    m.span d offset n =
      ((List.range (m.desc d).chain.length).filter fun k => (List.range n).any fun i => (offset + i) / 48 == k).filterMap
        fun k => (m.desc d).chain[k]? := by
  by_cases hn : n = 0
  · simp [RecordMemory.span, hn]
  · rw [RecordMemory.span, if_neg hn, ← filterMap_range_between _ _ _ (Nat.div_le_div_right (by omega))]
    refine congrArg _ (List.filter_congr fun k _ => ?_)
    rw [eq_comm, Bool.eq_iff_iff, any_byte_in_block]
    simp [hn]

/-- A descriptor but for its damaged flag. -/
def Descriptor.undamaged (x : Descriptor) : Descriptor := { x with damaged := false }

/-- R37. A read of a block changes no descriptor but for its damaged flag, and nothing that the storage holds. -/
theorem State.checkBlock_storage (s : State) (d : DescId) (b : BlockId) :
    (s.checkBlock d b).memory.cells = s.memory.cells ∧ (s.checkBlock d b).memory.bad = s.memory.bad ∧
    (s.checkBlock d b).memory.free = s.memory.free ∧
    ∀ e, ((s.checkBlock d b).memory.desc e).undamaged = (s.memory.desc e).undamaged := by
  simp only [State.checkBlock]
  split
  · refine ⟨rfl, rfl, rfl, fun e => ?_⟩
    show ((s.memory.modDesc d fun x => { x with damaged := true }).desc e).undamaged = _
    rw [RecordMemory.desc_modDesc]
    split
    · rename_i h
      rw [h]
      rfl
    · rfl
  · exact ⟨rfl, rfl, rfl, fun _ => rfl⟩

theorem State.checkBlocks_storage (s : State) (d : DescId) (bs : List BlockId) :
    (s.checkBlocks d bs).memory.cells = s.memory.cells ∧ (s.checkBlocks d bs).memory.bad = s.memory.bad ∧
    (s.checkBlocks d bs).memory.free = s.memory.free ∧
    ∀ e, ((s.checkBlocks d bs).memory.desc e).undamaged = (s.memory.desc e).undamaged := by
  induction bs generalizing s with
  | nil => exact ⟨rfl, rfl, rfl, fun _ => rfl⟩
  | cons b bs ih =>
    obtain ⟨hc, hb, hf, hd⟩ := s.checkBlock_storage d b
    obtain ⟨hc', hb', hf', hd'⟩ := ih (s.checkBlock d b)
    exact ⟨hc'.trans hc, hb'.trans hb, hf'.trans hf, fun e => (hd' e).trans (hd e)⟩

theorem State.checkBlocks_desc (s : State) (d : DescId) (bs : List BlockId) (e : DescId) :
    ((s.checkBlocks d bs).memory.desc e).live = (s.memory.desc e).live ∧
    ((s.checkBlocks d bs).memory.desc e).chain = (s.memory.desc e).chain := by
  obtain ⟨-, -, -, hd⟩ := s.checkBlocks_storage d bs
  have hlive := congrArg Descriptor.live (hd e)
  have hchain := congrArg Descriptor.chain (hd e)
  exact ⟨hlive, hchain⟩

theorem State.checkBlocks_payloadByte (s : State) (d : DescId) (bs : List BlockId) (e : DescId) (i : Nat) :
    (s.checkBlocks d bs).memory.payloadByte e i = s.memory.payloadByte e i := by
  obtain ⟨hc, -⟩ := s.checkBlocks_storage d bs
  simp only [RecordMemory.payloadByte, hc, (s.checkBlocks_desc d bs e).2]

/-- Settles O31, from the form of a record in a reply, the blocks of a span, and the check of one block. -/
theorem recordsReadAndChecked : Obligations.RecordsReadAndChecked := by
  refine ⟨fun s r rs => ⟨rfl, ?_⟩, RecordMemory.span_eq, fun m d i b hb => ?_, fun s d b bs => ⟨rfl, ?_⟩,
    State.checkBlocks_sound⟩
  · simp only [State.readRecords, State.readRecord, recordBytes, FrameFlags.byte_eq, RecordMemory.payload, Nat.zero_add,
      State.checkBlocks_payloadByte]
    rfl
  · simp only [RecordMemory.payloadByte, hb, blockAddress]
  · simp only [State.checkBlock, List.contains_iff_mem]
    rfl

end Sys2Proof.Machine
end

