-- ==== Sys2Proof/Proofs/Classification.lean ====
section
namespace Sys2Proof.Machine

/-! ClassificationEnds -/

/-- R4 to R11. No edit ends in ACCEPTED. -/
theorem Classifier.applyEdit_ne_accepted (c : Classifier) (e : Edit) : (c.applyEdit e).1 ≠ .accepted := by
  cases e <;> simp only [Classifier.applyEdit, Classifier.linkRule, Classifier.unlinkRule, Classifier.freeRule,
    Classifier.enableRule] <;> (repeat' split) <;> simp

theorem Classification.walked_iff (k : Classification) : k.walked = true ↔ k.ended = true ∨ k.remaining = [] := by
  simp [Classification.walked]

/-- R22, R23. The Classifier is IDLE and the frame released, before a held edit is carried out. -/
def State.classified (s : State) (k : Classification) : State :=
  { s.defaultAction k with
    memory := (s.defaultAction k).memory.release k.frame.desc
    classifier := { s.classifier with current := none } }

theorem State.endClassification_eq (s : State) (k : Classification) :
    s.endClassification k = (s.classified k).carryOutHeld := by
  obtain ⟨-, -, -, -, -, hc, -⟩ := s.defaultAction_frame k
  simp only [State.endClassification, State.classified, State.modClassifier, State.release, State.modMemory, hc]

theorem State.carryOutHeld_none {s : State} (h : s.classifier.held = none) : s.carryOutHeld = s := by
  simp [State.carryOutHeld, h]

theorem State.carryOutHeld_some {s : State} {e : Edit} {tag : Byte} {kind : Kind} (h : s.classifier.held = some e)
    (hx : s.link.executor = .executing tag kind) :
    s.carryOutHeld = { s with
      classifier := { (s.classifier.applyEdit e).2 with held := none }
      link := { s.link with
        replies := s.link.replies ++ [⟨⟨kind.code + 0x80, tag, [(s.classifier.applyEdit e).1.code]⟩, .ordinary⟩]
        reserved := s.link.reserved - 1
        executor := .idle }
      ops := { s.ops with entries := s.ops.entries.map fun e => { e with replyPending := false } } } := by
  simp only [State.carryOutHeld, h, hx, State.answer, replyKind_code, replyBody, roleOf_eq,
    if_neg (s.classifier.applyEdit_ne_accepted e)]

/-- Settles O27: the end is the default action and the release, and then the held edit, if there is one. -/
theorem classificationEnds : Obligations.ClassificationEnds := by
  refine ⟨fun s e tag rest hv hc hw => Edit.exec_idle hv hc hw rfl, fun s k hr hk => ⟨fun he hrem => ?_, fun hw => ?_⟩⟩
  · have hw : k.walked = false := by simp [Classification.walked, he, hrem]
    simp only [exec, execClassificationEnd, State.unlessReset_running hr, hk, hw]
    rfl
  · intro filed done
    have hdone : done = s.classified k := by
      simp only [done, filed, State.classified, State.defaultAction]
      cases k.decided <;> cases k.dflt <;> rfl
    have hx : exec .classificationEnd s = .next done.carryOutHeld := by
      simp only [exec, execClassificationEnd, State.unlessReset_running hr, hk, (k.walked_iff).mpr hw,
        State.endClassification_eq, hdone, if_true]
    obtain ⟨-, -, -, hl, ho, -⟩ := s.defaultAction_frame k
    refine ⟨fun hh => ?_, fun e tag kind hh hex => ?_⟩
    · rw [hx, State.carryOutHeld_none (by rw [hdone]; exact hh)]
    · rw [hx, State.carryOutHeld_some (e := e) (tag := tag) (kind := kind) (by rw [hdone]; exact hh)
        (by simpa [hdone, State.classified, hl] using hex)]
      simp only [hdone, State.classified, hl, ho]

/-! WalkVisits -/

theorem State.modCurrent_eq {s : State} {k : Classification} (h : s.classifier.current = some k)
    (f : Classification → Classification) :
    s.modCurrent f = { s with classifier := { s.classifier with current := some (f k) } } := by
  simp [State.modCurrent, State.modClassifier, h]

/-- R20. The stores with the records of a list gaining ACTIONS_CAPPED. -/
def cappedStores (stores : Vector Store 8) (filed : List (StoreId × Word)) : Vector Store 8 :=
  Vector.ofFn fun i => { stores.get i with records := (stores.get i).records.map fun x =>
    if (i, x.seq) ∈ filed then { x with flags := { x.flags with capped := true } } else x }

theorem vector_ext_get {α : Type} {n : Nat} {v w : Vector α n} (h : ∀ i : Fin n, v.get i = w.get i) : v = w :=
  Vector.ext fun i hi => h ⟨i, hi⟩

theorem vector_get_ofFn {α : Type} {n : Nat} (f : Fin n → α) (i : Fin n) : (Vector.ofFn f).get i = f i := by
  simp [Vector.get_eq_getElem]

theorem cappedStores_nil (stores : Vector Store 8) : cappedStores stores [] = stores :=
  vector_ext_get fun i => by simp [cappedStores]

theorem State.capRecord_cappedStores (s : State) (x : StoreId × Word) (filed : List (StoreId × Word)) :
    cappedStores (s.capRecord x).stores filed = cappedStores s.stores (x :: filed) := by
  refine vector_ext_get fun i => ?_
  have hi : (s.capRecord x).stores.get i = _ := State.store_modStore s x.1 i _
  simp only [cappedStores, vector_get_ofFn, hi]
  obtain ⟨j, seq⟩ := x
  by_cases hij : i = j
  · subst hij
    simp only [if_true, State.store, List.map_map]
    congr 1
    refine List.map_congr_left fun r _ => ?_
    by_cases hs : r.seq = seq <;> by_cases hm : (i, r.seq) ∈ filed <;> simp_all
  · simp [hij, State.store]

/-- R20. The records filed gain ACTIONS_CAPPED, each in its store. -/
theorem State.foldl_capRecord (s : State) (filed : List (StoreId × Word)) :
    filed.foldl State.capRecord s = { s with stores := cappedStores s.stores filed } := by
  induction filed generalizing s with
  | nil => simp [cappedStores_nil]
  | cons x filed ih =>
    rw [List.foldl_cons, ih, State.capRecord_cappedStores]
    rfl

end Sys2Proof.Machine
end

