-- ==== Sys2Proof/Proofs/Visits.lean ====
section
namespace Sys2Proof.Machine

/-- What an action of rule `r` may change of the Classifier: the rule's counts, and of the classification in progress
anything but the number of actions performed. -/
structure Classifier.ActsFor (r : RuleId) (c c' : Classifier) : Prop where
  chains : c'.chains = c.chains
  defaults : c'.defaults = c.defaults
  templates : c'.templates = c.templates
  queue : c'.queue = c.queue
  held : c'.held = c.held
  others : ∀ x, x ≠ r → c'.rule x = c.rule x
  state : (c'.rule r).state = (c.rule r).state
  chainPort : (c'.rule r).chainPort = (c.rule r).chainPort
  fields : (c'.rule r).fields = (c.rule r).fields
  performed : c'.current.map (·.performed) = c.current.map (·.performed)

theorem Classifier.ActsFor.refl (r : RuleId) (c : Classifier) : c.ActsFor r c :=
  ⟨rfl, rfl, rfl, rfl, rfl, fun _ _ => rfl, rfl, rfl, rfl, rfl⟩

theorem Classifier.ActsFor.trans {r : RuleId} {c c' c'' : Classifier} (h : c.ActsFor r c') (h' : c'.ActsFor r c'') :
    c.ActsFor r c'' :=
  ⟨h'.chains.trans h.chains, h'.defaults.trans h.defaults, h'.templates.trans h.templates, h'.queue.trans h.queue,
    h'.held.trans h.held, fun x hx => (h'.others x hx).trans (h.others x hx), h'.state.trans h.state,
    h'.chainPort.trans h.chainPort, h'.fields.trans h.fields, h'.performed.trans h.performed⟩

theorem Classifier.ActsFor.modRule (c : Classifier) (r : RuleId) (f : Rule → Rule)
    (h : ∀ x, (f x).state = x.state ∧ (f x).chainPort = x.chainPort ∧ (f x).fields = x.fields) :
    c.ActsFor r (c.modRule r f) := by
  obtain ⟨hs, hp, hf⟩ := h (c.rule r)
  have hr : (c.modRule r f).rule r = f (c.rule r) := by simp [Classifier.rule_modRule]
  exact ⟨rfl, rfl, rfl, rfl, rfl, fun x hx => by simp [Classifier.rule_modRule, hx], by rw [hr, hs], by rw [hr, hp],
    by rw [hr, hf], rfl⟩

theorem Classifier.ActsFor.modCurrent (c : Classifier) (r : RuleId) {f : Classification → Classification}
    (h : ∀ k, (f k).performed = k.performed) : c.ActsFor r { c with current := c.current.map f } :=
  ⟨rfl, rfl, rfl, rfl, rfl, fun _ _ => rfl, rfl, rfl, rfl, by simp [Option.map_map, Function.comp_def, h]⟩

theorem State.countRefused_actsFor (s : State) (r : RuleId) :
    s.classifier.ActsFor r (s.countRefused r).classifier :=
  .modRule s.classifier r (fun x => { x with refused := sat32 (x.refused + 1) }) fun _ => ⟨rfl, rfl, rfl⟩

theorem State.dropForward_actsFor (s : State) (r : RuleId) (action : DroppedAction) (cause : Status) :
    s.classifier.ActsFor r (s.dropForward r action cause).classifier := s.countRefused_actsFor r

theorem State.fileAction_actsFor (s : State) (r : RuleId) (f : Frame) (i : StoreId) :
    s.classifier.ActsFor r (s.fileAction r f i).classifier := by
  obtain ⟨-, -, -, -, -, hc, -⟩ := s.file_frame i f (byte1 r.val)
  simp only [State.fileAction]
  split <;> rename_i t e <;> rw [e] at hc <;> rw [← hc]
  · exact .modCurrent _ r fun _ => rfl
  · exact State.countRefused_actsFor _ r

theorem State.forwardAction_actsFor (s : State) (r : RuleId) (f : Frame) (p : PortId) (cls : Fin 4) (ttl : Nat) :
    s.classifier.ActsFor r (s.forwardAction r f p cls ttl).classifier := by
  simp only [State.forwardAction]
  split
  · exact s.dropForward_actsFor r _ _
  · simpa using Classifier.ActsFor.refl r s.classifier

theorem State.replyAction_actsFor (s : State) (r : RuleId) (f : Frame) (i : TemplateId) (cls : Fin 4) (ttl : Nat) :
    s.classifier.ActsFor r (s.replyAction r f i cls ttl).classifier := by
  obtain ⟨-, -, -, -, -, hb, -⟩ := s.buildReply_frame (s.classifier.templates.get i) f
  obtain ⟨-, -, -, -, -, hf, -⟩ := (s.buildReply (s.classifier.templates.get i) f).2.fill_frame
    (s.buildReply (s.classifier.templates.get i) f).1
  simp only [State.replyAction]
  split
  · exact s.dropForward_actsFor r _ _
  split
  · exact s.dropForward_actsFor r _ _
  split
  · exact State.dropForward_actsFor (s.modMemory _) r .reply .noMemory
  split
  · exact State.dropForward_actsFor (s.modMemory _) r .reply .noMemory
  split <;> rename_i t e <;> rw [e] at hf <;> rw [← hb, ← hf]
  · simpa using Classifier.ActsFor.refl r t.classifier
  · exact t.dropForward_actsFor r _ _

theorem State.hit_actsFor (s : State) (r : RuleId) : s.classifier.ActsFor r (s.hit r).classifier :=
  .modRule s.classifier r (fun x => { x with hits := sat32 (x.hits + 1), lastHit := some s.timebase })
    fun _ => ⟨rfl, rfl, rfl⟩

/-- R18. An action is counted as performed. -/
theorem State.performed_eq {s : State} {n : Nat} (h : s.classifier.current.map (·.performed) = some n) (goOn : Bool) :
    s.performed goOn = { s with classifier := { s.classifier with
      current := s.classifier.current.map fun k => { k with performed := n + 1, decided := true, ended := !goOn } } } := by
  simp only [State.performed, State.modCurrent, State.modClassifier]
  cases hc : s.classifier.current <;> simp_all

theorem State.spend_eq {s : State} {r : RuleId} {d : RuleDef} (h : (s.classifier.rule r).fields = d) :
    s.spend r = if d.oneShot then ({ s with classifier := { s.classifier with
      rules := s.classifier.rules.set r.val { s.classifier.rule r with fields := { d with enabled := false } } r.isLt }
      }).raise .ruleSpent r.val .none else s := by
  simp only [State.spend, h, State.modRule, State.modClassifier, Classifier.modRule]

/-- R17. The row visits the next rule of a walk that goes on. -/
theorem exec_walkVisit {s : State} {k : Classification} {r : RuleId} {rest : List RuleId} (h : s.pins.reset = false)
    (hk : s.classifier.current = some k) (he : k.ended = false) (hr : k.remaining = r :: rest) :
    exec .walkVisit s = .next (s.visit k r rest) := by
  simp only [exec, execWalkVisit, State.unlessReset_running h, hk, he, hr]

theorem State.ruleMatches_snd (s : State) (d : RuleDef) (f : Frame) : (s.ruleMatches d f).2 =
    if d.applies f then s.checkBlocks f.desc (s.memory.span f.desc d.keyOffset d.key.length) else s := by
  simp only [State.ruleMatches]
  split <;> rfl

/-- R15. Whether a rule matches is a matter of Record Memory alone. -/
theorem State.ruleMatches_fst_congr {s t : State} (h : t.memory = s.memory) (d : RuleDef) (f : Frame) :
    (t.ruleMatches d f).1 = (s.ruleMatches d f).1 := by
  simp only [State.ruleMatches, h]
  split <;> rfl

/-- Settles O25, by the action kinds of R18 to R21; the actions themselves keep the rule and the count of R20. -/
theorem walkVisitsTheNextRule : Obligations.WalkVisitsTheNextRule := by
  intro s k r rest hr hk he hrem d went read hit spent acted
  have hwent : s.modCurrent (fun k => { k with remaining := rest }) = went := State.modCurrent_eq hk _
  have hread : (went.ruleMatches d k.frame).2 = read := went.ruleMatches_snd d k.frame
  have hfst : (went.ruleMatches d k.frame).1 = (s.ruleMatches d k.frame).1 := State.ruleMatches_fst_congr (s := s) (t := went) rfl _ _
  obtain ⟨-, -, htime, -, -, hclass, hstores, -⟩ := went.ruleMatches_frame d k.frame
  rw [hread] at htime hclass hstores
  have hrule : read.classifier.rule r = s.classifier.rule r := by rw [hclass]; rfl
  have hhit : read.hit r = hit := by
    simp only [State.hit, State.modRule, State.modClassifier, Classifier.modRule, htime, hit, hrule]
    rfl
  have hcur : hit.classifier.current = some { k with remaining := rest } := by
    simp only [hit, hclass]
    rfl
  have hperf : hit.classifier.current.map (·.performed) = some k.performed := by rw [hcur]; rfl
  have hfields : (hit.classifier.rule r).fields = d := by
    rw [← hhit, (read.hit_actsFor r).fields, hrule]
  have hspent {t : State} (ht : (t.classifier.rule r).fields = d) : t.spend r = spent t := State.spend_eq ht
  have hacted {t : State} (ht : hit.classifier.ActsFor r t.classifier) (goOn : Bool) :
      (t.performed goOn).spend r = spent (acted t (k.performed + 1) (!goOn)) := by
    rw [State.performed_eq (ht.performed.trans hperf)]
    exact hspent (t := acted t _ _) (ht.fields.trans hfields)
  have hvisit : s.visit k r rest = if (s.ruleMatches d k.frame).1 then read.act k r d else read := by
    simp only [State.visit, hwent, ← hfst, ← hread]
    rfl
  rw [exec_walkVisit hr hk he hrem, hvisit]
  refine ⟨fun hm => by rw [hm]; rfl, fun hm => ?_⟩
  rw [hm, if_pos rfl]
  refine ⟨fun ha => ?_, fun ha => ?_, fun hp hd hc => ?_, fun hp => ⟨fun i ha => ?_, fun p c ttl ha => ?_, fun i c ttl ha => ?_⟩⟩
  · have hk' : hit.modCurrent (fun k => { k with decided := true, ended := true }) = acted hit k.performed true := by
      rw [State.modCurrent_eq hcur]
      simp only [acted, hcur]
      rfl
    simp only [State.act, ha, hhit, hk']
    exact congrArg _ (hspent (t := acted hit _ _) hfields)
  · simp only [State.act, ha, hhit, hspent hfields]
  · have hcap : read.act k r d = read.capActions k := by
      simp only [State.act]
      cases ha : d.action with
      | drop => exact absurd ha hd
      | count => exact absurd ha hc
      | file i => exact if_pos hp
      | forward p cls ttl => exact if_pos hp
      | reply i cls ttl => exact if_pos hp
    rw [hcap, State.capActions, State.foldl_capRecord, State.modCurrent_eq (k := { k with remaining := rest })]
    · simp only [hstores]
      rfl
    · show read.classifier.current = _
      rw [hclass]
  · simp only [State.act, ha, hhit, if_neg (Nat.not_le.mpr hp), hacted (hit.fileAction_actsFor r k.frame i)]
  · simp only [State.act, ha, hhit, if_neg (Nat.not_le.mpr hp), hacted (hit.forwardAction_actsFor r k.frame p c ttl)]
  · simp only [State.act, ha, hhit, if_neg (Nat.not_le.mpr hp), hacted (hit.replyAction_actsFor r k.frame i c ttl)]
end Sys2Proof.Machine
end

