-- ==== Sys2Proof/Proofs/Actions.lean ====
section
namespace Sys2Proof.Machine

/-! ### R118: the first free send id -/

theorem nextId_toNat (v : Half) : (nextId v).toNat = 1 + v.toNat % 65535 := by
  have := v.isLt
  simp only [nextId]
  split
  · subst_vars; rfl
  · rename_i h
    have : v.toNat ≠ 65535 := fun hv => h (BitVec.eq_of_toNat_eq hv)
    rw [BitVec.toNat_add]
    simp
    omega

theorem nextId_iterate_toNat (v : Half) (n : Nat) : (nextId^[n + 1] v).toNat = 1 + (v.toNat + n) % 65535 := by
  induction n with
  | zero => exact nextId_toNat v
  | succ n ih => rw [Function.iterate_succ_apply', nextId_toNat, ih]; omega

/-- R118. The counter meets 48 different values one after another. -/
theorem nextId_iterate_injOn (v : Half) : Set.InjOn (fun n => nextId^[n] v) (Set.Iio 48) := by
  have hlt := v.isLt
  have hne : ∀ m n, m < n → n < 48 → nextId^[m] v ≠ nextId^[n] v := fun m n hmn hn h => by
    obtain ⟨n, rfl⟩ : ∃ k, n = k + 1 := ⟨n - 1, by omega⟩
    have h' := congrArg BitVec.toNat h
    rw [nextId_iterate_toNat] at h'
    obtain _ | m := m
    · simp at h'
      omega
    · rw [nextId_iterate_toNat] at h'
      omega
  intro m hm n hn h
  simp only [Set.mem_Iio] at hm hn
  rcases Nat.lt_trichotomy m n with hlt | heq | hgt
  · exact absurd h (hne m n hlt hn)
  · exact heq
  · exact absurd h.symm (hne n m hgt hm)

/-- R118. The search skips live values only, and stops at the first that is not, or when its fuel is used. -/
theorem freshId_iterate (live : List Half) (fuel : Nat) (v : Half) : ∃ n ≤ fuel, (∀ m < n, nextId^[m] v ∈ live) ∧
    freshId live fuel v = nextId^[n] v ∧ (n < fuel → nextId^[n] v ∉ live) := by
  induction fuel generalizing v with
  | zero => exact ⟨0, by simp [freshId]⟩
  | succ fuel ih =>
    by_cases hv : v ∈ live
    · obtain ⟨n, hn, hlive, hid, hstop⟩ := ih (nextId v)
      refine ⟨n + 1, by omega, fun m hm => ?_, by simpa [freshId, hv] using hid, fun h => hstop (by omega)⟩
      obtain _ | m := m
      · exact hv
      · exact hlive m (by omega)
    · exact ⟨0, by simp [freshId, hv]⟩

/-- R118. With fewer than 48 live entries the search ends at a value that none of them holds. -/
theorem freshId_fresh {live : List Half} (h : live.length < 48) (v : Half) : ∃ n ≤ 47,
    (∀ m < n, nextId^[m] v ∈ live) ∧ nextId^[n] v ∉ live ∧ freshId live 48 v = nextId^[n] v := by
  obtain ⟨n, hn, hlive, hid, hstop⟩ := freshId_iterate live 48 v
  have hlt : n < 48 := by
    by_contra hge
    have hsub : (Finset.range 48).image (fun m => nextId^[m] v) ⊆ live.toFinset := fun x hx => by
      obtain ⟨m, hm, rfl⟩ := Finset.mem_image.mp hx
      exact List.mem_toFinset.mpr (hlive m (by have := Finset.mem_range.mp hm; omega))
    have hcard := Finset.card_le_card hsub
    rw [Finset.card_image_of_injOn (by simpa using nextId_iterate_injOn v), Finset.card_range] at hcard
    exact absurd (hcard.trans live.toFinset_card_le) (by omega)
  exact ⟨n, by omega, hlive, hstop hlt, hid⟩

/-! ### Actions -/

theorem State.admissionCause_eq (s : State) (p : PortId) : s.admissionCause p =
    if (s.port p).state ≠ .running ∧ (s.port p).state ≠ .paused then some .wrongState
    else if (s.port p).draining then some .portDraining
    else if 16 ≤ (s.port p).queue.length ∨ 48 ≤ s.entries.length then some .queueFull else none := by
  have hcan : (!(s.port p).canSend) = true ↔ (s.port p).state ≠ .running ∧ (s.port p).state ≠ .paused := by
    simp [Port.canSend]
  have hroom : (decide ((s.port p).queue.length < 16) && decide (s.entries.length < 48)) = true ↔
      ¬ (16 ≤ (s.port p).queue.length ∨ 48 ≤ s.entries.length) := by
    simp
  simp only [State.admissionCause, hcan, hroom, ite_not]

/-- R119. An admission with no failing check finds fewer than 48 live entries. -/
theorem State.entries_lt_of_admissionCause {s : State} {p : PortId} (h : s.admissionCause p = none) :
    s.entries.length < 48 := by
  rw [State.admissionCause_eq] at h
  split_ifs at h
  omega

/-- R118, R119. The entry made joins the tail of the queue under the first id from the counter on that is free. -/
theorem State.makeEntry_joins {s : State} {p : PortId} (h : s.entries.length < 48) (origin : SendOrigin) (cls : Fin 4)
    (ttl : Nat) (d : DescId) (report : Bool) (tag : Option Byte) :
    ∃ n ≤ 47, (∀ m < n, nextId^[m] s.nextSendId ∈ s.entries.map (·.id)) ∧
      nextId^[n] s.nextSendId ∉ s.entries.map (·.id) ∧
      s.makeEntry p origin cls ttl d report tag = (nextId^[n] s.nextSendId,
        { s.modPort p fun q => { q with queue := q.queue ++ [⟨nextId^[n] s.nextSendId, origin, cls, d,
            if ttl = 0 then none else some (1000 * ttl), s.timebase, report, tag, .queued, 0⟩] } with
          nextSendId := nextId (nextId^[n] s.nextSendId) }) := by
  obtain ⟨n, hn, hlive, hfree, hid⟩ := freshId_fresh (live := s.entries.map (·.id)) (by simpa using h) s.nextSendId
  exact ⟨n, hn, hlive, hfree, by simp only [State.makeEntry, hid]⟩

theorem RecordMemory.lowestFree_congr {m m' : RecordMemory} (h : ∀ d, (m'.desc d).live = (m.desc d).live) :
    m'.lowestFree = m.lowestFree := by simp only [RecordMemory.lowestFree, h]

theorem RecordMemory.lowestFree_isSome {m : RecordMemory} (h : ∃ d, (m.desc d).live = false) :
    ∃ d, m.lowestFree = some d := by
  obtain ⟨d, hd⟩ := h
  refine Option.isSome_iff_exists.mp (List.find?_isSome.mpr ⟨d, List.mem_finRange d, by simp [hd]⟩)

/-- R36. A fill finds a descriptor and its blocks when there are enough. -/
theorem State.fill_some {s : State} {d : DescId} {bytes : List Byte} (hd : s.memory.lowestFree = some d)
    (hb : blocksFor bytes.length ≤ s.memory.free.length) : (s.fill bytes).1 = some d := by
  simp [State.fill, hd, RecordMemory.freeCount, Nat.not_lt.mpr hb]

/-- R28. The reads for a reply's echo bytes change no place of Record Memory. -/
theorem State.buildReply_memory (s : State) (t : Template) (f : Frame) :
    (s.buildReply t f).2.memory.free = s.memory.free ∧
      (s.buildReply t f).2.memory.lowestFree = s.memory.lowestFree := by
  simp only [State.buildReply]
  split
  · exact ⟨rfl, rfl⟩
  · obtain ⟨-, -, hfree, -⟩ := s.checkBlocks_storage f.desc (s.memory.span f.desc ‹Echo›.offset (‹Echo›.count f.length))
    exact ⟨hfree, RecordMemory.lowestFree_congr fun e => (s.checkBlocks_desc _ _ e).1⟩

theorem State.buildReply_length (s : State) (t : Template) (f : Frame) :
    (s.buildReply t f).1.length = t.replyLength f.length := by
  simp only [State.buildReply, Template.replyLength]
  cases he : t.echo with
  | none => simp [Template.build, he]
  | some e =>
    simp [Template.build, he, RecordMemory.payload]
    omega

theorem State.fileAction_filed {s t : State} {r : RuleId} {f : Frame} {i : StoreId} {seq : Word}
    (h : s.file i f (byte1 r.val) = (some seq, t)) :
    s.fileAction r f i = t.modCurrent fun k => { k with filed := k.filed ++ [(i, seq)] } := by
  simp only [State.fileAction, h]

theorem State.fileAction_refused {s t : State} {r : RuleId} {f : Frame} {i : StoreId}
    (h : s.file i f (byte1 r.val) = (none, t)) : s.fileAction r f i = t.countRefused r := by
  simp only [State.fileAction, h]

theorem State.forwardAction_failed {s : State} {p : PortId} {cause : Status} (h : s.admissionCause p = some cause)
    (r : RuleId) (f : Frame) (cls : Fin 4) (ttl : Nat) :
    s.forwardAction r f p cls ttl = s.dropForward r .forward cause := by
  simp only [State.forwardAction, h]

theorem State.forwardAction_admitted {s : State} {p : PortId} (h : s.admissionCause p = none)
    (r : RuleId) (f : Frame) (cls : Fin 4) (ttl : Nat) :
    s.forwardAction r f p cls ttl = (s.makeEntry p .forward cls ttl f.desc false none).2.acquire f.desc := by
  simp only [State.forwardAction, h]

section
variable {s : State} {f : Frame} {i : TemplateId}

theorem State.replyAction_failed {cause : Status} (h : s.admissionCause f.port = some cause)
    (r : RuleId) (cls : Fin 4) (ttl : Nat) : s.replyAction r f i cls ttl = s.dropForward r .reply cause := by
  simp only [State.replyAction, h]

theorem State.replyAction_empty (h : s.admissionCause f.port = none) (hb : (s.classifier.templates.get i).bytes = [])
    (r : RuleId) (cls : Fin 4) (ttl : Nat) : s.replyAction r f i cls ttl = s.dropForward r .reply .notFound := by
  simp only [State.replyAction, h, hb, List.isEmpty_nil, if_true]

theorem State.replyAction_noDescriptor (h : s.admissionCause f.port = none)
    (hb : (s.classifier.templates.get i).bytes ≠ []) (hd : s.memory.lowestFree = none) (r : RuleId) (cls : Fin 4)
    (ttl : Nat) : s.replyAction r f i cls ttl =
      (s.modMemory RecordMemory.countNoDescriptor).dropForward r .reply .noMemory := by
  simp [State.replyAction, h, hb, hd]

theorem State.replyAction_noBlock (h : s.admissionCause f.port = none)
    (hb : (s.classifier.templates.get i).bytes ≠ []) {d : DescId} (hd : s.memory.lowestFree = some d)
    (hn : s.memory.freeCount < blocksFor ((s.classifier.templates.get i).replyLength f.length)) (r : RuleId)
    (cls : Fin 4) (ttl : Nat) : s.replyAction r f i cls ttl =
      (s.modMemory RecordMemory.countNoBlock).dropForward r .reply .noMemory := by
  simp [State.replyAction, h, hb, hd, hn]

theorem State.replyAction_admitted (h : s.admissionCause f.port = none)
    (hb : (s.classifier.templates.get i).bytes ≠ []) {d : DescId} (hd : s.memory.lowestFree = some d)
    (hn : blocksFor ((s.classifier.templates.get i).replyLength f.length) ≤ s.memory.freeCount) (r : RuleId)
    (cls : Fin 4) (ttl : Nat) : ∃ t,
      (s.buildReply (s.classifier.templates.get i) f).2.fill (s.buildReply (s.classifier.templates.get i) f).1
        = (some d, t) ∧
      s.replyAction r f i cls ttl = (t.makeEntry f.port .reply cls ttl d false none).2 := by
  obtain ⟨hfree, hlowest⟩ := s.buildReply_memory (s.classifier.templates.get i) f
  have hfill := State.fill_some (bytes := (s.buildReply (s.classifier.templates.get i) f).1) (hlowest.trans hd)
    (by rw [hfree, State.buildReply_length]; exact hn)
  refine ⟨_, Prod.ext hfill rfl, ?_⟩
  simp only [State.replyAction, h, List.isEmpty_iff, hb, if_false, hd, Option.isNone_some, Bool.false_eq_true,
    Nat.not_lt.mpr hn]
  rw [show (s.buildReply (s.classifier.templates.get i) f).2.fill (s.buildReply (s.classifier.templates.get i) f).1
    = (some d, _) from Prod.ext hfill rfl]

end

/-- Settles O26, by the checks of each action in their order. -/
theorem actionsPerformed : Obligations.ActionsPerformed := by
  intro s r f refused failed admission next joins
  have hadm : ∀ p, s.admissionCause p = admission p := s.admissionCause_eq
  refine ⟨fun i t seq h => State.fileAction_filed h, fun i t h => State.fileAction_refused h, fun p cls ttl =>
    ⟨fun cause h => State.forwardAction_failed ((hadm p).trans h) r f cls ttl, fun h => ?_⟩, fun i cls ttl => ?_⟩
  · rw [State.forwardAction_admitted ((hadm p).trans h)]
    obtain ⟨n, hn, hlive, hfree, he⟩ := State.makeEntry_joins (State.entries_lt_of_admissionCause ((hadm p).trans h))
      .forward cls ttl f.desc false none
    exact ⟨n, hn, hlive, hfree, by rw [he]; rfl⟩
  · intro v n bytes read
    have hlen : v.replyLength f.length = v.bytes.length + n := by
      simp only [Template.replyLength, n]
      cases v.echo <;> rfl
    have hbuild : s.buildReply v f = (bytes, read) := by
      simp only [State.buildReply, bytes, read, n]
      cases he : v.echo <;> simp only [Template.build, he] <;> rfl
    refine ⟨fun cause h => State.replyAction_failed ((hadm _).trans h) r cls ttl, fun h => ?_⟩
    have h := (hadm _).trans h
    refine ⟨fun hb => State.replyAction_empty h hb r cls ttl, fun hb hd =>
      State.replyAction_noDescriptor h hb (RecordMemory.lowestFree_eq_none hd) r cls ttl, fun hb hd hn => ?_,
      fun hb hd hn => ?_⟩
    · obtain ⟨d, hd⟩ := RecordMemory.lowestFree_isSome hd
      refine State.replyAction_noBlock h hb hd ?_ r cls ttl
      rw [hlen]; exact hn
    · obtain ⟨d, hd⟩ := RecordMemory.lowestFree_isSome hd
      obtain ⟨t, ht, hreply⟩ := State.replyAction_admitted h hb hd (by rw [hlen]; exact hn) r cls ttl
      obtain ⟨-, -, htime', -, -, -, -, hports', hid', -⟩ := s.buildReply_frame v f
      obtain ⟨-, -, htime, -, -, -, -, hports, hid, -⟩ := (s.buildReply v f).2.fill_frame (s.buildReply v f).1
      rw [show (s.buildReply v f).2.fill (s.buildReply v f).1 = (some d, t) from ht] at htime hports hid
      replace htime : t.timebase = s.timebase := htime.trans htime'
      replace hid : t.nextSendId = s.nextSendId := hid.trans hid'
      have hentries : t.entries = s.entries := congrArg (fun v => v.toList.flatMap (·.queue)) (hports.trans hports')
      obtain ⟨k, hk, hlive, hfree, he⟩ := State.makeEntry_joins (s := t) (p := f.port)
        (hentries ▸ State.entries_lt_of_admissionCause h) .reply cls ttl d false none
      rw [hentries, hid] at hlive hfree
      rw [show (s.buildReply (s.classifier.templates.get i) f) = (bytes, read) from hbuild] at ht
      refine ⟨d, t, ht, k, hk, hlive, hfree, ?_⟩
      rw [hreply, he, hid, htime]
      rfl
end Sys2Proof.Machine
end

