-- ==== Sys2Proof/Proofs/PortStop.lean ====
section
namespace Sys2Proof.Machine

/-- R118. The entries of one port have different send ids. -/
theorem State.PoolSound.portIds {s : State} (h : s.PoolSound) (p : PortId) : ((s.port p).queue.map (·.id)).Nodup := by
  have hids : (s.ports.toList.flatMap fun q => q.queue.map (·.id)).Nodup := by
    simpa only [State.entries, List.map_flatMap] using h.ids
  refine (List.nodup_flatMap.mp hids).1 (s.port p) ?_
  simp [State.port, Vector.get_eq_getElem]

/-- The state with Record Memory, the Notice Queue, the long-operation table and one port replaced. -/
def State.patched (s : State) (m : RecordMemory) (n : NoticeQueue) (o : OpTable) (p : PortId) (q : Port) : State :=
  { s with memory := m, notices := n, ops := o, ports := s.ports.set p.val q p.isLt }

section
variable (s : State) (m m' : RecordMemory) (n n' : NoticeQueue) (o o' : OpTable) (p : PortId) (q q' : Port)

@[simp] theorem State.patched_port : (s.patched m n o p q).port p = q := by
  show (s.ports.set p.val q p.isLt).get p = q
  simp [vector_get_set]
@[simp] theorem State.patched_memory : (s.patched m n o p q).memory = m := rfl
@[simp] theorem State.patched_notices : (s.patched m n o p q).notices = n := rfl
@[simp] theorem State.patched_ops : (s.patched m n o p q).ops = o := rfl
@[simp] theorem State.patched_timebase : (s.patched m n o p q).timebase = s.timebase := rfl
@[simp] theorem State.patched_patched : (s.patched m n o p q).patched m' n' o' p q' = s.patched m' n' o' p q' := by
  simp [State.patched, Vector.set]

end

theorem vector_set_get {α : Type} {n : Nat} (v : Vector α n) (i : Fin n) : v.set i.val (v.get i) i.isLt = v := by
  refine vector_ext_get fun j => ?_
  rw [vector_get_set]
  split
  · rename_i h; rw [h]
  · rfl

theorem State.patched_self (s : State) (p : PortId) : s.patched s.memory s.notices s.ops p (s.port p) = s := by
  simp only [State.patched, State.port, vector_set_get]

theorem State.modPort_eq_patched (s : State) (p : PortId) (f : Port → Port) :
    s.modPort p f = s.patched s.memory s.notices s.ops p (f (s.port p)) := rfl

/-- R96. What the abort of a port's receiving does to the port. -/
def Port.receivingAborted (q : Port) : Port :=
  { q with
    framer := q.framer.toHunt
    fifo := []
    overrunPending := false
    line := q.line.abandon
    counters := if q.framer.frame.isSome then { q.counters with aborted := sat32 (q.counters.aborted + 1) } else q.counters }

theorem State.abortReceiving_eq (s : State) (p : PortId) :
    s.abortReceiving p = s.patched (((s.port p).framer.frame.toList.map (·.desc)).foldl RecordMemory.release s.memory)
      s.notices s.ops p (s.port p).receivingAborted := by
  simp only [State.abortReceiving, State.abortFraming, State.framer, State.dropFrame, State.modFramer, State.count]
  cases hf : (s.port p).framer.frame with
  | none =>
    rw [State.modPort_modPort, State.modPort_eq_patched]
    simp only [Port.receivingAborted, hf]
    rfl
  | some a =>
    simp only [State.modPort_release, State.modPort_modPort]
    simp only [State.modPort_eq_patched, Port.receivingAborted, hf]
    rfl

/-- R128, R156. The notices of entries that end ABORTED. -/
def raiseAborted (now : Word) (es : List SendEntry) (n : NoticeQueue) : NoticeQueue :=
  (es.filter fun e => e.origin == .host && e.report).foldl
    (fun n e => n.raise .sendDone e.id.toNat (.sendDone .aborted (e.tag.getD 0)) now) n

theorem raiseAborted_cons (now : Word) (e : SendEntry) (es : List SendEntry) (n : NoticeQueue) :
    raiseAborted now (e :: es) n = raiseAborted now es (raiseAborted now [e] n) := by
  simp only [raiseAborted, List.filter_cons]
  split <;> rfl

/-- R128. What the end of an entry that is not SENT does to its port. -/
def Port.ended (q : Port) (e : SendEntry) : Port :=
  { q.entryEnded e with queue := q.queue.eraseP fun x => x.id == e.id }

@[simp] theorem SendState.queued_beq_sending : (SendState.queued == SendState.sending) = false := rfl
@[simp] theorem SendState.sending_beq_queued : (SendState.sending == SendState.queued) = false := rfl

theorem Port.ended_queued {q : Port} {e : SendEntry} (h : e.state = .queued) :
    q.ended e = { q with queue := q.queue.eraseP fun x => x.id == e.id } := by
  simp [Port.ended, Port.entryEnded, h]

theorem Port.ended_sending {q : Port} {e : SendEntry} (h : e.state = .sending) :
    q.ended e = { q with
      queue := q.queue.eraseP fun x => x.id == e.id
      tx := .idle
      stopping := false
      gap := if e.charsSent = 0 then q.gap else some 0 } := by
  simp [Port.ended, Port.entryEnded, h]

theorem State.endEntry_aborted (s : State) (p : PortId) (e : SendEntry) :
    s.endEntry p e .aborted true false =
      s.patched (s.memory.release e.desc) (raiseAborted s.timebase [e] s.notices) s.ops p ((s.port p).ended e) := by
  rw [State.endEntry_quiet s p e .aborted true (by decide)]
  simp only [raiseAborted, List.filter_cons, List.filter_nil, Bool.and_eq_true, beq_iff_eq, State.patched]
  split <;> rfl

/-- A character is on the port's transmit line. -/
def Port.onLine (q : Port) : Bool :=
  match q.tx with
  | .sending _ _ _ => true
  | _ => false

theorem Port.onLine_iff (q : Port) : q.onLine = true ↔ ∃ value format block, q.tx = .sending value format block := by
  simp only [Port.onLine]
  split <;> simp_all

theorem State.stopEntry_queued {s : State} {p : PortId} {e : SendEntry} (h : e.state = .queued) :
    State.stopEntry p s e =
      s.patched (s.memory.release e.desc) (raiseAborted s.timebase [e] s.notices) s.ops p ((s.port p).ended e) := by
  rw [State.stopEntry, if_pos h, State.endEntry_aborted]

theorem State.stopEntry_onLine {s : State} {p : PortId} {e : SendEntry} (h : e.state = .sending)
    (hl : (s.port p).onLine = true) :
    State.stopEntry p s e = s.patched s.memory s.notices s.ops p { s.port p with stopping := true } := by
  obtain ⟨value, format, block, htx⟩ := (s.port p).onLine_iff.mp hl
  rw [State.stopEntry, if_neg (by simp [h]), htx]
  rfl

theorem State.stopEntry_offLine {s : State} {p : PortId} {e : SendEntry} (h : e.state = .sending)
    (hl : (s.port p).onLine = false) :
    State.stopEntry p s e = s.patched (s.memory.release e.desc) (raiseAborted s.timebase [e] s.notices) s.ops p
      (Port.ended { s.port p with dir := false } e) := by
  rw [State.stopEntry, if_neg (by simp [h])]
  split
  · rename_i htx
    simp [Port.onLine, htx] at hl
  · rw [State.endEntry_aborted, State.releaseDir, State.modPort_eq_patched, State.patched_patched, State.patched_port]
    rfl

/-- R104. The port once a stop has reached these entries with a character on the line: they follow `kept` in its
queue. -/
def Port.stoppedOnLine (q : Port) (kept es : List SendEntry) : Port :=
  { q with
    queue := kept ++ es.filter fun e => e.state == .sending
    stopping := q.stopping || es.any fun e => e.state == .sending }

/-- R104. The port once a stop has reached all its entries with no character on the line. -/
def Port.stoppedOffLine (q : Port) (es : List SendEntry) : Port :=
  if es.any fun e => e.state == .sending then
    { q with
      queue := []
      dir := false
      tx := .idle
      stopping := false
      gap := if es.any fun e => e.state == .sending && e.charsSent != 0 then some 0 else q.gap }
  else { q with queue := [] }

theorem eraseP_id_middle {kept es : List SendEntry} {e : SendEntry} (h : ((kept ++ e :: es).map (·.id)).Nodup) :
    (kept ++ e :: es).eraseP (fun x => x.id == e.id) = kept ++ es := by
  have hk : ∀ x ∈ kept, ¬ (x.id == e.id) = true := fun x hx hxe => by
    simp only [List.map_append, List.map_cons, List.nodup_append] at h
    exact h.2.2 x.id (List.mem_map_of_mem hx) e.id (by simp) (by simpa using hxe)
  rw [List.eraseP_append_right _ hk, List.eraseP_cons_of_pos (by simp)]

/-- R104. With a character on the line the QUEUED entries end, and the SENDING one goes on to finish it. -/
theorem State.stopEntries_onLine {p : PortId} (es : List SendEntry) : ∀ (s : State) (kept : List SendEntry),
    (s.port p).onLine = true → (s.port p).queue = kept ++ es → ((kept ++ es).map (·.id)).Nodup →
    es.foldl (State.stopEntry p) s = s.patched
      (((es.filter fun e => e.state == .queued).map (·.desc)).foldl RecordMemory.release s.memory)
      (raiseAborted s.timebase (es.filter fun e => e.state == .queued) s.notices) s.ops p
      ((s.port p).stoppedOnLine kept es) := by
  induction es with
  | nil =>
    intro s kept _ hq _
    have hp : (s.port p).stoppedOnLine kept [] = s.port p := by simp [Port.stoppedOnLine, ← hq]
    rw [hp]
    exact (s.patched_self p).symm
  | cons e es ih =>
    intro s kept hl hq hn
    rw [List.foldl_cons]
    cases he : e.state with
    | queued =>
      have hn' : ((kept ++ es).map (·.id)).Nodup := hn.sublist (by simp)
      rw [State.stopEntry_queued he, Port.ended_queued he, hq, eraseP_id_middle hn,
        ih _ kept (by rw [State.patched_port]; exact hl) (by rw [State.patched_port]) hn']
      simp [he, raiseAborted_cons _ e (es.filter _), Port.stoppedOnLine]
    | sending =>
      rw [State.stopEntry_onLine he hl, ih _ (kept ++ [e]) (by rw [State.patched_port]; exact hl) (by simp [hq])
        (by simpa using hn)]
      simp [he, Port.stoppedOnLine]

/-- R104. With no character on the line every entry ends. -/
theorem State.stopEntries_offLine {p : PortId} (es : List SendEntry) : ∀ s : State,
    (s.port p).onLine = false → (s.port p).queue = es →
    es.foldl (State.stopEntry p) s = s.patched
      ((es.map (·.desc)).foldl RecordMemory.release s.memory)
      (raiseAborted s.timebase es s.notices) s.ops p ((s.port p).stoppedOffLine es) := by
  induction es with
  | nil =>
    intro s _ hq
    have hp : (s.port p).stoppedOffLine [] = s.port p := by
      simp only [Port.stoppedOffLine, List.any_nil, Bool.false_eq_true, if_false]
      rw [← hq]
    rw [hp]
    exact (s.patched_self p).symm
  | cons e es ih =>
    intro s hl hq
    have herase : (s.port p).queue.eraseP (fun x => x.id == e.id) = es := by simp [hq]
    rw [List.foldl_cons]
    cases he : e.state with
    | queued =>
      rw [State.stopEntry_queued he, Port.ended_queued he, herase,
        ih _ (by rw [State.patched_port]; exact hl) (by rw [State.patched_port])]
      simp [he, raiseAborted_cons _ e es, Port.stoppedOffLine]
    | sending =>
      rw [State.stopEntry_offLine he hl, Port.ended_sending he, herase,
        ih _ (by rw [State.patched_port]; rfl) (by rw [State.patched_port])]
      have hport : ({ s.port p with
          dir := false, queue := es, tx := .idle, stopping := false,
          gap := if e.charsSent = 0 then (s.port p).gap else some 0 } : Port).stoppedOffLine es
          = (s.port p).stoppedOffLine (e :: es) := by
        by_cases hc : e.charsSent = 0 <;>
          cases hs : es.any (fun e => e.state == .sending) <;> simp_all [Port.stoppedOffLine]
      simp only [State.patched_patched, State.patched_port, hport]
      simp [raiseAborted_cons _ e es]

theorem State.completeDrain_eq (s : State) (p : PortId) (status : OpStatus) (n : Nat) (byRequest : Bool) :
    s.completeDrain p status n byRequest = s.patched s.memory s.notices (s.completeDrain p status n byRequest).ops p
      { s.port p with draining := false } := rfl

/-- R104. The entries that a stop ends, and the one that it leaves on the line. -/
def Port.stopEnds (q : Port) : List SendEntry :=
  if q.onLine then q.queue.filter fun e => e.state == .queued else q.queue

/-- R104, R128, R133. The port after a stop. -/
def Port.stopped (q : Port) : Port :=
  { q with
    state := .ready
    framer := q.framer.toHunt
    fifo := [], overrunPending := false, line := .high, quiet := .off
    queue := if q.onLine then q.queue.filter fun e => e.state == .sending else []
    stopping := q.onLine
    tx := if q.onLine then q.tx else .idle
    dir := q.onLine && q.dir || q.tx == TxPhase.idle && q.dir
    gap := if q.onLine then q.gap
      else if q.queue.any fun e => e.state == .sending && e.charsSent != 0 then some 0 else q.gap
    draining := false
    counters := q.receivingAborted.counters }

/-- R121. An entry is SENDING exactly when the transmitter is not idle. -/
theorem Port.SendSound.any_sending {q : Port} (h : q.SendSound) :
    (q.queue.any fun e => e.state == .sending) = true ↔ q.tx ≠ .idle := by
  have hone := h.one
  have hany : (q.queue.any fun e => e.state == .sending) = true ↔
      0 < (q.queue.filter fun e => e.state == .sending).length := by
    simp [List.length_pos_iff_exists_mem]
  rw [hany, hone]
  split <;> simp_all

/-- R104. The entries have been stopped. -/
theorem State.stopEntries_eq {s : State} {p : PortId} (hn : ((s.port p).queue.map (·.id)).Nodup) :
    (s.port p).queue.foldl (State.stopEntry p) s = s.patched
      (((s.port p).stopEnds.map (·.desc)).foldl RecordMemory.release s.memory)
      (raiseAborted s.timebase (s.port p).stopEnds s.notices) s.ops p
      (if (s.port p).onLine then (s.port p).stoppedOnLine [] (s.port p).queue
        else (s.port p).stoppedOffLine (s.port p).queue) := by
  cases hl : (s.port p).onLine with
  | true => simp only [Port.stopEnds, hl, if_true, State.stopEntries_onLine _ s [] hl rfl hn]
  | false => simp [Port.stopEnds, hl, State.stopEntries_offLine _ s hl rfl]

/-- R104. What the abort of the receiving, the stop of the entries and the end of the stop make of the port. -/
theorem Port.stopped_eq {q : Port} (h : q.SendSound) : q.stopped =
    { (if q.onLine then q.receivingAborted.stoppedOnLine [] q.queue else q.receivingAborted.stoppedOffLine q.queue) with
      state := .ready, line := .high, quiet := .off, draining := false } := by
  have hany := h.any_sending
  cases hl : q.onLine with
  | true =>
    have htx : q.tx ≠ .idle := fun ht => by simp [Port.onLine, ht] at hl
    simp [Port.stopped, hl, Port.stoppedOnLine, Port.receivingAborted, hany.mpr htx, htx]
  | false =>
    have hstop : q.stopping = false := by
      by_contra hs
      rw [Bool.not_eq_false] at hs
      rw [q.onLine_iff.mpr (h.stopping hs)] at hl
      exact absurd hl (by decide)
    cases hs : q.queue.any fun e => e.state == .sending with
    | true =>
      have htx := hany.mp hs
      simp [Port.stopped, hl, Port.stoppedOffLine, Port.receivingAborted, hs, htx]
    | false =>
      have htx : q.tx = .idle := by
        by_contra ht
        rw [hany.mpr ht] at hs
        exact absurd hs (by decide)
      have hgap : (q.queue.any fun e => e.state == .sending && e.charsSent != 0) = false := by
        rw [List.any_eq_false] at hs ⊢
        intro e he
        simp [hs e he]
      simp only [Port.stopped, hl, Port.stoppedOffLine, Port.receivingAborted, hs, htx, hstop, hgap]
      simp

/-- R104, R133. The end of a stop: a drain in flight completes ABORTED, and the port is READY. -/
theorem State.stopPort_end (s : State) (m : RecordMemory) (n : NoticeQueue) (p : PortId) (q : Port) (k : Nat) :
    ((if q.draining then (s.patched m n s.ops p q).completeDrain p .aborted k true else s.patched m n s.ops p q).modPort p
      fun x => { x with state := .ready, line := .high, quiet := .off }) =
    s.patched m n (if q.draining then s.completeDrain p .aborted k true else s).ops p
      { q with state := .ready, line := .high, quiet := .off, draining := false } := by
  cases hd : q.draining with
  | true =>
    rw [if_pos rfl, if_pos rfl, State.completeDrain_eq, State.modPort_eq_patched]
    simp only [State.patched_patched, State.patched_port, State.patched_memory, State.patched_notices]
    rfl
  | false =>
    rw [if_neg (by decide), if_neg (by decide), State.modPort_eq_patched, ← hd]
    simp

theorem State.stopPort_eq {s : State} {p : PortId} (hs : s.PoolSound) (hp : (s.port p).SendSound) :
    s.stopPort p = s.patched
      (((s.port p).framer.frame.toList.map (·.desc) ++ (s.port p).stopEnds.map (·.desc)).foldl RecordMemory.release s.memory)
      (raiseAborted s.timebase (s.port p).stopEnds s.notices)
      (if (s.port p).draining then s.completeDrain p .aborted (s.port p).queue.length true else s).ops
      p (s.port p).stopped := by
  have hq : (s.abortReceiving p).port p = (s.port p).receivingAborted := by rw [State.abortReceiving_eq, State.patched_port]
  have hstop := State.stopEntries_eq (s := s.abortReceiving p) (p := p) (by rw [hq]; exact hs.portIds p)
  rw [hq, State.abortReceiving_eq] at hstop
  simp only [State.patched_patched, State.patched_memory, State.patched_notices, State.patched_ops,
    State.patched_timebase] at hstop
  have hd : (if (s.port p).receivingAborted.onLine then
      (s.port p).receivingAborted.stoppedOnLine [] (s.port p).receivingAborted.queue
      else (s.port p).receivingAborted.stoppedOffLine (s.port p).receivingAborted.queue).draining
      = (s.port p).draining := by
    simp only [Port.stoppedOffLine]
    (repeat' split) <;> rfl
  simp only [State.stopPort, List.foldl_append, Port.stopped_eq hp]
  rw [State.abortReceiving_eq, show (s.port p).queue = (s.port p).receivingAborted.queue from rfl, hstop,
    State.patched_port, State.stopPort_end, hd]
  rfl

/-- R164. The operations that complete after their counts have moved are those that were picked before. -/
theorem OpTable.complete_progress_completed (t : OpTable) {sel : OpWork → Bool} {f : OpWork → OpWork}
    (h : ∀ w, sel (f w) = sel w) (status : OpStatus) (byRequest : Bool) :
    ((t.progress sel f).complete sel status byRequest).completed =
      t.completed ++ (t.entries.filter fun e => e.running && sel e.work).map (·.tag) := by
  simp only [OpTable.complete, OpTable.progress, List.filter_map, List.map_map]
  have hsel : ∀ e : OpEntry, (if e.running && sel e.work then { e with work := f e.work } else e).running = e.running ∧
      sel (if e.running && sel e.work then { e with work := f e.work } else e).work = sel e.work ∧
      (if e.running && sel e.work then { e with work := f e.work } else e).tag = e.tag := fun e => by
    split
    · exact ⟨rfl, h e.work, rfl⟩
    · exact ⟨rfl, rfl, rfl⟩
  simp only [Function.comp_def, hsel]

/-- R133, R164. What the completion of a drain makes of one entry of the table. -/
theorem OpTable.complete_progress_entries (t : OpTable) {sel : OpWork → Bool} {f : OpWork → OpWork}
    (h : ∀ w, sel (f w) = sel w) (status : OpStatus) (byRequest : Bool) :
    ((t.progress sel f).complete sel status byRequest).entries = t.entries.map fun e =>
      if e.running && sel e.work then { e with work := f e.work, status := some status, replyPending := byRequest }
      else e := by
  simp only [OpTable.complete, OpTable.progress, List.map_map]
  refine List.map_congr_left fun e _ => ?_
  have hf : (({ e with work := f e.work } : OpEntry).running && sel (f e.work)) = (e.running && sel e.work) := by
    rw [h]
    rfl
  rw [Function.comp_apply]
  by_cases hc : (e.running && sel e.work) = true
  · rw [if_pos hc, if_pos hc, if_pos (hf.trans hc)]
  · rw [if_neg hc, if_neg hc, if_neg hc]

/-- Settles O18: the fold over the queue, and the release of the pending frames. -/
theorem portStopped : Obligations.PortStopped := by
  refine ⟨fun s tag rest p hw => ⟨fun hc => ?_, fun hc hs hp => ?_⟩, fun s tag rest p hw => ?_⟩
  · exact State.execRequest_ok hw rfl (parsePort_body p) (if_neg (by rw [hc]; decide))
  · intro q onLine kept ended
    refine ⟨s.stopPort p, State.execRequest_ok hw rfl (parsePort_body p) (if_pos hc), ?_, ?_, ?_⟩
    · rw [State.stopPort_eq hs hp]
      rfl
    · rw [State.stopPort_eq hs hp, State.patched_ops]
      split
      · exact OpTable.complete_progress_completed s.ops (fun w => by cases w <;> rfl) _ _
      · simp
    · rw [State.stopPort_eq hs hp, State.patched_ops]
      split
      · rename_i hd
        rw [show (s.completeDrain p .aborted (s.port p).queue.length true).ops.entries = _ from
          OpTable.complete_progress_entries s.ops (fun w => by cases w <;> rfl) _ _, List.map_map]
        refine List.map_congr_left fun e _ => ?_
        obtain ⟨tag, work, status, start, acceptedSent, replyPending⟩ := e
        cases status <;> cases work <;> simp [OpEntry.running, OpWork.isDrainOf]
        case none.drain port _ _ _ _ _ => by_cases hpp : port = p <;> simp [hpp, q, hd]
      · rename_i hd
        refine List.map_congr_left fun e _ => ?_
        obtain ⟨tag, work, status, start, acceptedSent, replyPending⟩ := e
        cases status <;> cases work <;> simp [q, hd]
  · intro u
    have hx : exec .portReset s = .next ((s.resetPort p).replied .portReset tag rest .ok []) :=
      State.execRequest_ok hw rfl (parsePort_body p) rfl
    have hu : u.classifier = s.classifier := by
      simp only [u]
      split <;> simp
    have hreset : s.resetPort p = (u.removePending p).modPort p fun q =>
      { q with state := .off, settings := .dflt, framer := .fresh .dflt, counters := .zero } := rfl
    rw [hx, hreset, State.removePending, State.releaseAll_eq, hu]
    simp only [State.modPort, State.modClassifier, hu]
    rfl
end Sys2Proof.Machine
end

