-- ==== Sys2Proof/Proofs/Collections.lean ====
section
namespace Sys2Proof.Machine

/-! ### The Notice Queue -/

/-- R155. What tells one entry of the Notice Queue from another. -/
def Notice.key (n : Notice) : NoticeKind × Nat := (n.kind, n.subject)

theorem Notice.same_iff (n : Notice) (k : NoticeKind) (subject : Nat) : n.same k subject = true ↔ n.key = (k, subject) := by
  simp [Notice.same, Notice.key]

theorem sat16_bounds (n : Nat) : 1 ≤ sat16 (n + 1) ∧ sat16 (n + 1) ≤ 65535 := by
  simp only [sat16]
  omega

/-- R155. At most one entry is NOTICE_OVERFLOW. -/
theorem NoticeQueue.Sound.overflow_le_one {q : NoticeQueue} (h : q.Sound) :
    q.entries.countP (fun n => n.kind == .noticeOverflow) ≤ 1 := by
  have hkey : q.entries.countP (fun n => n.kind == .noticeOverflow) =
      (q.entries.map fun n => (n.kind, n.subject)).count (.noticeOverflow, 0) := by
    rw [List.count, List.countP_map]
    refine List.countP_congr fun n hn => ?_
    simp only [Function.comp_apply, beq_iff_eq, Prod.mk.injEq]
    exact ⟨fun hk => ⟨hk, (h.overflow n hn hk).1⟩, fun hk => hk.1⟩
  rw [hkey]
  exact List.nodup_iff_count_le_one.mp h.different _

theorem NoticeQueue.length_eq (q : NoticeQueue) :
    q.entries.length = q.ordinary + q.entries.countP fun n => n.kind == .noticeOverflow := by
  rw [NoticeQueue.ordinary, ← List.countP_eq_length_filter, Nat.add_comm,
    List.length_eq_countP_add_countP (fun n => n.kind == NoticeKind.noticeOverflow)]
  exact congrArg _ (List.countP_congr fun n _ => by simp)

/-- R157, R158. An entry that is raised again keeps its place, kind and subject. -/
theorem NoticeQueue.Sound.map {q : NoticeQueue} (h : q.Sound) {g : Notice → Notice} (hkey : ∀ n, (g n).key = n.key)
    (hcount : ∀ n ∈ q.entries, 1 ≤ (g n).count ∧ (g n).count ≤ 65535)
    (hlost : ∀ n ∈ q.entries, n.kind = .noticeOverflow → (g n).detail = .lost (g n).count) :
    ({ q with entries := q.entries.map g } : NoticeQueue).Sound := by
  have hkind : ∀ n, (g n).kind = n.kind := fun n => congrArg Prod.fst (hkey n)
  have hsubject : ∀ n, (g n).subject = n.subject := fun n => congrArg Prod.snd (hkey n)
  obtain ⟨hord, hlen, hdiff, hover, -, hcredit, hmask⟩ := h
  refine ⟨?_, by simpa using hlen, ?_, ?_, ?_, hcredit, hmask⟩
  · simpa [NoticeQueue.ordinary, List.filter_map, Function.comp_def, hkind] using hord
  · simpa [Function.comp_def, hkind, hsubject] using hdiff
  · simp only [List.forall_mem_map, hkind, hsubject]
    exact fun n hn hk => ⟨(hover n hn hk).1, hlost n hn hk⟩
  · simpa only [List.forall_mem_map] using hcount

/-- R157, R158. A new entry joins the tail, when there is a place for its kind. -/
theorem NoticeQueue.Sound.append {q : NoticeQueue} (h : q.Sound) {n : Notice} (hnew : ∀ x ∈ q.entries, x.key ≠ n.key)
    (hcount : n.count = 1) (hplace : n.kind ≠ .noticeOverflow → q.ordinary < 15)
    (hover : n.kind = .noticeOverflow → n.subject = 0 ∧ n.detail = .lost 1) :
    ({ q with entries := q.entries ++ [n] } : NoticeQueue).Sound := by
  have hle := h.overflow_le_one
  have hlength := q.length_eq
  have hord := h.ordinary
  have hnone : n.kind = .noticeOverflow → q.entries.countP (fun n => n.kind == .noticeOverflow) = 0 := fun hk =>
    List.countP_eq_zero.mpr fun x hx hxk => hnew x hx (by
      have hxk : x.kind = .noticeOverflow := by simpa using hxk
      simp [Notice.key, hk, hxk, (hover hk).1, (h.overflow x hx hxk).1])
  refine ⟨?_, ?_, ?_, ?_, ?_, h.credit, h.mask⟩
  · by_cases hk : n.kind = .noticeOverflow
    · simpa [NoticeQueue.ordinary, hk] using hord
    · have := hplace hk
      simp only [NoticeQueue.ordinary] at this
      simp [NoticeQueue.ordinary, hk]
      omega
  · simp only [List.length_append, List.length_singleton]
    by_cases hk : n.kind = .noticeOverflow
    · have := hnone hk
      omega
    · have := hplace hk
      omega
  · simp only [List.map_append, List.map_cons, List.map_nil]
    refine h.different.append (by simp) ?_
    simp only [List.disjoint_singleton, List.mem_map, not_exists, not_and]
    exact fun x hx hxn => hnew x hx hxn
  · simp only [List.mem_append, List.mem_singleton]
    rintro x (hx | rfl) hk
    · exact h.overflow x hx hk
    · rw [hcount]
      exact hover hk
  · simp only [List.mem_append, List.mem_singleton]
    rintro x (hx | rfl)
    · exact h.counts x hx
    · omega

theorem NoticeQueue.Sound.lose {q : NoticeQueue} (h : q.Sound) (now : Word) : (q.lose now).Sound := by
  rw [NoticeQueue.lose]
  split
  · refine h.map (fun n => ?_) (fun n hn => ?_) (fun n hn hk => ?_)
    · split <;> rfl
    · split
      · exact sat16_bounds n.count
      · exact h.counts n hn
    · simp [hk]
  · rename_i hany
    refine h.append (fun x hx hxk => hany ?_) rfl (fun hk => absurd rfl hk) (fun _ => ⟨rfl, rfl⟩)
    exact List.any_eq_true.mpr ⟨x, hx, beq_iff_eq.mpr (congrArg Prod.fst hxk)⟩

/-- R157. A notice raised by a block of the part keeps the queue sound. -/
theorem NoticeQueue.Sound.raise {q : NoticeQueue} (h : q.Sound) {k : NoticeKind} (hk : k ≠ .noticeOverflow)
    (subject : Nat) (detail : Detail) (now : Word) : (q.raise k subject detail now).Sound := by
  rw [NoticeQueue.raise]
  split
  · exact h
  split
  · refine h.map (fun n => ?_) (fun n hn => ?_) (fun n hn hkn => ?_)
    · split <;> rfl
    · split
      · exact sat16_bounds n.count
      · exact h.counts n hn
    · have hs : n.same k subject = false := by simpa [Notice.same, hkn] using fun hkk => absurd hkk.symm hk
      simpa [hs] using (h.overflow n hn hkn).2
  rename_i hany
  split
  · refine h.append (fun x hx hxk => hany ?_) rfl (fun _ => ‹_›) (fun hkn => absurd hkn hk)
    exact List.any_eq_true.mpr ⟨x, hx, (x.same_iff k subject).mpr hxk⟩
  · exact h.lose now

/-- R159. The oldest entry leaves the queue and uses a credit. -/
theorem NoticeQueue.Sound.tail {q : NoticeQueue} (h : q.Sound) {n : Notice} {rest : List Notice}
    (he : q.entries = n :: rest) : ({ q with entries := rest, credit := q.credit - 1 } : NoticeQueue).Sound := by
  have hsub : rest.Sublist q.entries := by rw [he]; exact List.sublist_cons_self n rest
  obtain ⟨hord, hlen, hdiff, hover, hcounts, hcredit, hmask⟩ := h
  exact ⟨(hsub.filter _).length_le.trans hord, hsub.length_le.trans hlen, hdiff.sublist (hsub.map _),
    fun x hx => hover x (hsub.subset hx), fun x hx => hcounts x (hsub.subset hx), (Nat.sub_le _ _).trans hcredit, hmask⟩

theorem NoticeQueue.Sound.withCredit {q : NoticeQueue} (h : q.Sound) {n : Nat} (hn : n ≤ 64) :
    ({ q with credit := n } : NoticeQueue).Sound :=
  ⟨h.ordinary, h.length, h.different, h.overflow, h.counts, hn, h.mask⟩

theorem NoticeQueue.Sound.withMask {q : NoticeQueue} (h : q.Sound) {mask : Half} (hm : mask.toNat < 512) :
    ({ q with mask := mask } : NoticeQueue).Sound :=
  ⟨h.ordinary, h.length, h.different, h.overflow, h.counts, h.credit, hm⟩

theorem NoticeQueue.afterReset_sound (cause : ResetCause) : (NoticeQueue.afterReset cause).Sound := by
  cases cause <;> exact ⟨by decide, by decide, by decide, by decide, by decide, by decide, by decide⟩

/-! ### The staging FIFO -/

theorem Port.fifoBounded_iff (q : Port) : q.FifoBounded ↔
    q.fill ≤ 64 ∧ ∀ c, q.line = .lowStop (some c) → c.echo = false → c.lost = false → q.fill < 64 := by
  simp only [Port.FifoBounded]
  split
  · rename_i c hl
    split
    · rename_i hc
      refine ⟨fun h => ⟨h, fun d hd he hlost => ?_⟩, fun h => h.1⟩
      obtain rfl : c = d := by simpa [hl] using hd
      simp [he, hlost] at hc
    · rename_i hc
      refine ⟨fun h => ⟨h.le, fun _ _ _ _ => h⟩, fun h => h.2 c hl ?_ ?_⟩ <;> simp_all
  · rename_i hl
    exact ⟨fun h => ⟨h, fun c hc => absurd hc (hl c)⟩, fun h => h.1⟩

/-- R109. With no character held, only the fill counts. -/
theorem Port.FifoBounded.of_fill {q : Port} (hl : ∀ c, q.line ≠ .lowStop (some c)) (h : q.fill ≤ 64) : q.FifoBounded :=
  q.fifoBounded_iff.mpr ⟨h, fun c hc => absurd hc (hl c)⟩

theorem Port.FifoBounded.fill_le {q : Port} (h : q.FifoBounded) : q.fill ≤ 64 := (q.fifoBounded_iff.mp h).1

theorem Port.FifoBounded.of_fifo_line {q q' : Port} (h : q.FifoBounded) (hf : q'.fifo = q.fifo) (hl : q'.line = q.line) :
    q'.FifoBounded := by
  rw [Port.fifoBounded_iff, Port.fill, hf, hl]
  exact q.fifoBounded_iff.mp h

/-- R109, R110. A judged character is entered only where there is a place. -/
theorem Port.receive_fill {q : Port} {c : LowStopChar} {framing : Bool} (h : q.fill ≤ 64)
    (hp : c.echo = false → c.lost = false → q.fill < 64) : (q.receive c framing).fill ≤ 64 := by
  simp only [Port.fill] at h hp
  simp only [Port.receive]
  split
  · exact h
  split
  · exact h
  · have := hp (by simp_all) (by simp_all)
    simp [Port.fill]
    omega

theorem Port.characterReceived_fifoBounded {q : Port} (h : q.FifoBounded) (now : Word) (data : Byte)
    (parityBit stopHigh : Bool) : (q.characterReceived now data parityBit stopHigh).FifoBounded := by
  have hfill := h.fill_le
  have hplace : (q.sampled now data parityBit).lost = false → q.fill < 64 := by simp [Port.sampled]
  simp only [Port.characterReceived]
  split
  · exact h
  split
  · refine .of_fill (fun _ => nofun) ?_
    show (if q.hears then q.receive _ false else q).fill ≤ 64
    split
    · exact Port.receive_fill hfill fun _ => hplace
    · exact hfill
  · refine (Port.fifoBounded_iff _).mpr ⟨hfill, fun c hc _ hlost => ?_⟩
    simp only [LineState.lowStop.injEq] at hc
    split at hc
    · obtain rfl : q.sampled now data parityBit = c := by simpa using hc
      exact hplace hlost
    · exact absurd hc (by simp)

theorem Port.framingErrorEnd_fifoBounded {q : Port} (h : q.FifoBounded) : q.framingErrorEnd.FifoBounded := by
  simp only [Port.framingErrorEnd]
  split
  · rename_i held hl
    split
    · refine .of_fill (fun _ => nofun) ?_
      show (q.enterHeld held).fill ≤ 64
      simp only [Port.enterHeld]
      split
      · split
        · exact Port.receive_fill h.fill_le ((q.fifoBounded_iff.mp h).2 _ hl)
        · exact h.fill_le
      · exact h.fill_le
    · exact h
  · exact h

theorem Port.breakDetected_fifoBounded {q : Port} (h : q.FifoBounded) (now : Word) : (q.breakDetected now).FifoBounded := by
  have hfill : (q.fifo.filter fun i => i != .expiry).length ≤ 64 := h.fill_le
  simp only [Port.breakDetected]
  split
  · exact h
  refine .of_fill (fun c => ?_) ?_ <;> (repeat' split) <;> simp_all [Port.fill]

theorem Port.breakEnd_fifoBounded {q : Port} (h : q.FifoBounded) : q.breakEnd.FifoBounded := by
  rw [Port.breakEnd]
  split
  · exact .of_fill (fun _ => nofun) h.fill_le
  · exact h

theorem Port.startBit_fifoBounded {q : Port} (h : q.FifoBounded) : q.startBit.FifoBounded := by
  rw [Port.startBit]
  split
  · exact .of_fill (fun _ => nofun) h.fill_le
  · exact h

/-- R110. A FIFO with fewer items keeps the place of a held character. -/
theorem Port.FifoBounded.shrink {q : Port} (h : q.FifoBounded) {fifo : List FifoItem}
    (hf : (fifo.filter fun i => i != .expiry).length ≤ q.fill) : ({ q with fifo := fifo } : Port).FifoBounded := by
  obtain ⟨hfill, hheld⟩ := q.fifoBounded_iff.mp h
  exact (Port.fifoBounded_iff _).mpr ⟨hf.trans hfill, fun c hc he hl => hf.trans_lt (hheld c hc he hl)⟩

theorem LineState.abandon_ne_held (l : LineState) (c : LowStopChar) : l.abandon ≠ .lowStop (some c) := by
  cases l <;> simp [LineState.abandon]

end Sys2Proof.Machine
end

