-- ==== Sys2Proof/Proofs/Operands.lean ====
section
namespace Sys2Proof.Machine

/-! ### What a body that passes its field checks gives -/

theorem except_bind_eq_ok {α β : Type} {x : Except Nat α} {f : α → Except Nat β} {b : β} :
    (x >>= f) = .ok b ↔ ∃ a, x = .ok a ∧ f a = .ok b := by
  cases x with
  | error i => exact ⟨nofun, fun ⟨_, h, _⟩ => nomatch h⟩
  | ok a => exact ⟨fun h => ⟨a, rfl, h⟩, fun ⟨_, ha, h⟩ => by cases ha; exact h⟩

theorem need_eq_ok {i : Nat} {c : Bool} {u : Unit} : need i c = .ok u ↔ c = true := by
  cases c <;> simp [need]

theorem num1_le (b : List Byte) (i : Nat) : num1 b i ≤ 255 := by
  have := (byteAt b i).isLt
  simp only [num1]
  omega

theorem num2_le (b : List Byte) (i : Nat) : num2 b i ≤ 65535 := by
  have := num1_le b i
  have := num1_le b (i + 1)
  simp only [num2]
  omega

theorem parsePortConfig_valid {b : List Byte} {a : PortId × LineSettings} (h : parsePortConfig b = .ok a) : a.2.Valid := by
  simp only [parsePortConfig, except_bind_eq_ok, need_eq_ok, Bool.and_eq_true, Bool.or_eq_true, decide_eq_true_eq,
    beq_iff_eq] at h
  obtain ⟨p, -, -, hbaud, -, hdata, parity, -, -, hstop, duplex, -, -, hturn, ha⟩ := h
  cases ha
  exact ⟨hbaud, hdata, hstop, ⟨hturn, num1_le _ _⟩, num1_le _ _, num1_le _ _⟩

theorem offsetWidthField_eq_none {maxLength offset width : Nat} (h : offsetWidthField maxLength offset width = none) :
    offset ≤ 15 ∧ (width = 1 ∨ width = 2) ∧ offset + width ≤ maxLength := by
  simp only [offsetWidthField] at h
  split at h
  · cases h
  split at h
  · split at h
    · cases h
    · omega
  · split at h <;> cases h

theorem patternBytes_length {b : List Byte} {at_ n : Nat} (h : at_ + n ≤ b.length) : (patternBytes b at_ n).length = n := by
  simp [patternBytes]
  omega

theorem parseFramerConfig_valid {b : List Byte} {a : PortId × FramerSettings}
    (hl : lengthAllowed .framerConfig b.length = true) (h : parseFramerConfig b = .ok a) : a.2.Valid := by
  have hlen : b.length = 29 := by simpa [lengthAllowed] using hl
  simp only [parseFramerConfig, except_bind_eq_ok, need_eq_ok, Bool.and_eq_true, decide_eq_true_eq] at h
  obtain ⟨p, -, mode, -, -, hmax, tooLong, -, incomplete, -, charError, -, -, hidle, -, hstart, -, hend, keepDelimiters, -,
    escapePresent, -, -, hesc, keepEscape, -, syncPresent, -, h⟩ := h
  split at h
  · cases h
  rename_i how
  obtain ⟨hoff, hwidth, hfield⟩ := offsetWidthField_eq_none how
  simp only [except_bind_eq_ok, need_eq_ok, Bool.and_eq_true, decide_eq_true_eq] at h
  obtain ⟨order, -, -, hadj, -, hgap, ha⟩ := h
  cases ha
  have hs : (patternBytes b 9 (num1 b 8)).length = num1 b 8 := patternBytes_length (by omega)
  have he : (patternBytes b 14 (num1 b 13)).length = num1 b 13 := patternBytes_length (by omega)
  refine ⟨hmax, ⟨by simpa using hidle, num1_le _ _⟩, hs.trans_le hstart, by rw [he]; exact hend, fun v hv => ?_, hoff, hwidth, hfield, hadj,
    hgap, num1_le _ _⟩
  simp only at hv
  split at hv
  · rename_i hp
    cases hv
    simpa [hp] using hesc
  · cases hv

theorem lengthRangeField_eq_none {lo hi : Nat} (h : lengthRangeField lo hi = none) : 1 ≤ lo ∧ lo ≤ hi ∧ hi ≤ 1024 := by
  simp only [lengthRangeField] at h
  split at h
  · cases h
  split at h
  · cases h
  split at h
  · omega
  · cases h

theorem parseAction_valid {kind target cls ttl : Nat} {a : Action} (h : parseAction kind target cls ttl = .ok a)
    (ht : ttl ≤ 65535) : a.Valid := by
  simp only [parseAction] at h
  split at h
  · cases h; trivial
  · obtain ⟨i, -, ha⟩ := except_bind_eq_ok.mp h; cases ha; trivial
  · obtain ⟨p, -, h⟩ := except_bind_eq_ok.mp h
    obtain ⟨c, -, ha⟩ := except_bind_eq_ok.mp h
    cases ha
    exact ht
  · obtain ⟨t, -, h⟩ := except_bind_eq_ok.mp h
    obtain ⟨c, -, ha⟩ := except_bind_eq_ok.mp h
    cases ha
    exact ht
  · cases h; trivial
  · cases h

theorem parseRuleWrite_valid {b : List Byte} {a : RuleId × RuleDef} (hl : lengthAllowed .ruleWrite b.length = true)
    (h : parseRuleWrite b = .ok a) : a.2.Valid := by
  have hlen : (17 ≤ b.length ∧ b.length ≤ 33) ∧ b.length % 2 = 1 := by simpa [lengthAllowed] using hl
  simp only [parseRuleWrite, except_bind_eq_ok, need_eq_ok, decide_eq_true_eq] at h
  obtain ⟨r, -, enabled, -, oneShot, -, goOn, -, -, hoff, h⟩ := h
  split at h
  · cases h
  rename_i hlr
  simp only [except_bind_eq_ok, need_eq_ok] at h
  obtain ⟨filter, -, action, hact, -, -, ha⟩ := h
  cases ha
  refine ⟨hoff, ⟨?_, ?_⟩, lengthRangeField_eq_none hlr, parseAction_valid hact (num2_le _ _)⟩ <;>
    simp only [List.length_take, List.length_drop] <;> omega

theorem parseTemplateWrite_valid {b : List Byte} {a : TemplateId × Template}
    (hl : lengthAllowed .templateWrite b.length = true) (h : parseTemplateWrite b = .ok a) : a.2.Valid := by
  have hlen : 7 ≤ b.length ∧ b.length ≤ 71 := by simpa [lengthAllowed] using hl
  simp only [parseTemplateWrite, except_bind_eq_ok, need_eq_ok, Bool.and_eq_true, Bool.or_eq_true, decide_eq_true_eq,
    beq_iff_eq] at h
  obtain ⟨t, -, echo, -, -, -, -, hat, -, hoff, -, hlength, -, ⟨hcount, hne⟩, ha⟩ := h
  cases ha
  have hbytes : (b.drop 7).length = b.length - 7 := List.length_drop
  refine ⟨by simp only [hbytes]; omega, fun e he => ?_⟩
  simp only at he
  split at he
  · rename_i hecho
    cases he
    simp only [hecho, Bool.not_true, Bool.false_eq_true, false_or, Bool.true_and, Bool.not_eq_true', beq_eq_false_iff_ne] at hat hoff hlength hne
    refine ⟨fun hnil => ?_, by simp only [hbytes]; omega, hoff, hlength⟩
    have := congrArg List.length hnil
    simp only [hbytes, List.length_nil] at this
    omega
  · cases he

theorem parseStoreConfig_valid {b : List Byte} {a : StoreId × StoreSettings} (h : parseStoreConfig b = .ok a) : a.2.Valid := by
  simp only [parseStoreConfig, except_bind_eq_ok, need_eq_ok, Bool.and_eq_true, decide_eq_true_eq] at h
  obtain ⟨i, -, -, hcap, -, hquota, policy, -, -, hhigh, -, hlow, ha⟩ := h
  cases ha
  exact ⟨⟨hcap, num1_le _ _⟩, hquota, hhigh, hlow⟩

theorem parseNoticeMask_lt {b : List Byte} {mask : Half} (h : parseNoticeMask b = .ok mask) : mask.toNat < 512 := by
  simp only [parseNoticeMask, except_bind_eq_ok, need_eq_ok, decide_eq_true_eq] at h
  obtain ⟨-, hlt, ha⟩ := h
  cases ha
  rw [BitVec.toNat_ofNat]
  omega

end Sys2Proof.Machine
end

