-- ==== Sys2Proof/Proofs/Keeps.lean ====
section
namespace Sys2Proof.Machine

/-! ### What the operations of the part's blocks keep -/

/-- R1, R3, R27. Every rule and template, and a held edit, is in its range. -/
structure Classifier.Ranged (c : Classifier) : Prop where
  rules : ∀ r, (c.rule r).fields.Valid
  templates : ∀ i : TemplateId, (c.templates.get i).Valid
  held : ∀ e, c.held = some e → e.Valid

/-- What an operation keeps of a port: the bound of its FIFO and the ranges of its settings. -/
structure Port.Keeps (q q' : Port) : Prop where
  fifo : q.FifoBounded → q'.FifoBounded
  line : q.settings.Valid → q'.settings.Valid
  framer : q.framer.settings.Valid → q'.framer.settings.Valid

/-- What an operation keeps of the Notice Queue, the ports and the settings. -/
structure State.Keeps (s t : State) : Prop where
  notices : s.notices.Sound → t.notices.Sound
  ports : ∀ p, (s.port p).Keeps (t.port p)
  ranged : s.classifier.Ranged → t.classifier.Ranged
  stores : ∀ i, (s.store i).settings.Valid → (t.store i).settings.Valid

/-- What an operation keeps that also leaves DIRn where it may be. -/
structure State.KeepsDir (s t : State) : Prop extends s.Keeps t where
  dir : ∀ p, (s.port p).DirSound → (t.port p).DirSound

/-- What an operation keeps that also leaves the chains and the classification queue in order. -/
structure State.KeepsAll (s t : State) : Prop extends s.KeepsDir t where
  chains : s.classifier.Sound → t.classifier.Sound

theorem Port.Keeps.refl (q : Port) : q.Keeps q := ⟨id, id, id⟩

theorem Port.Keeps.of_eq {q q' : Port} (hf : q'.fifo = q.fifo) (hl : q'.line = q.line) (hs : q'.settings = q.settings)
    (hg : q'.framer.settings = q.framer.settings) : q.Keeps q' :=
  ⟨fun h => h.of_fifo_line hf hl, hs ▸ id, hg ▸ id⟩

/-- R112. DIRn is a matter of the queue, the transmitter and the settings. -/
theorem Port.DirSound.of_eq {q q' : Port} (h : q.DirSound) (hd : q'.dir = q.dir) (hq : q'.queue = q.queue)
    (ht : q'.tx = q.tx) (hs : q'.settings = q.settings) (hstop : q'.stopping = q.stopping) : q'.DirSound := by
  simpa only [Port.DirSound, Port.current, hd, hq, ht, hs, hstop] using h

theorem State.Keeps.refl (s : State) : s.Keeps s := ⟨id, fun _ => .refl _, id, fun _ => id⟩

theorem State.Keeps.trans {s t u : State} (h : s.Keeps t) (h' : t.Keeps u) : s.Keeps u where
  notices hs := h'.notices (h.notices hs)
  ports p := ⟨fun hs => (h'.ports p).fifo ((h.ports p).fifo hs), fun hs => (h'.ports p).line ((h.ports p).line hs),
    fun hs => (h'.ports p).framer ((h.ports p).framer hs)⟩
  ranged hs := h'.ranged (h.ranged hs)
  stores i hs := h'.stores i (h.stores i hs)

theorem State.KeepsDir.refl (s : State) : s.KeepsDir s := ⟨.refl s, fun _ => id⟩

theorem State.KeepsDir.trans {s t u : State} (h : s.KeepsDir t) (h' : t.KeepsDir u) : s.KeepsDir u :=
  ⟨h.toKeeps.trans h'.toKeeps, fun p hs => h'.dir p (h.dir p hs)⟩

theorem State.KeepsAll.refl (s : State) : s.KeepsAll s := ⟨.refl s, id⟩

theorem State.KeepsAll.trans {s t u : State} (h : s.KeepsAll t) (h' : t.KeepsAll u) : s.KeepsAll u :=
  ⟨h.toKeepsDir.trans h'.toKeepsDir, fun hs => h'.chains (h.chains hs)⟩

/-- An operation that touches none of the four keeps them. -/
theorem State.KeepsAll.of_eq {s t : State} (hn : t.notices = s.notices) (hp : t.ports = s.ports)
    (hc : t.classifier = s.classifier) (hs : t.stores = s.stores) : s.KeepsAll t := by
  have hport : ∀ p, t.port p = s.port p := fun p => by rw [State.port, hp, State.port]
  have hstore : ∀ i, t.store i = s.store i := fun i => by rw [State.store, hs, State.store]
  exact ⟨⟨⟨hn ▸ id, fun p => by rw [hport p]; exact .refl _, hc ▸ id, fun i => by rw [hstore i]; exact id⟩,
    fun p => by rw [hport p]; exact id⟩, hc ▸ id⟩

theorem State.keeps_modPort {s : State} {p : PortId} {f : Port → Port} (hf : (s.port p).Keeps (f (s.port p))) :
    s.Keeps (s.modPort p f) := by
  refine ⟨id, fun x => ?_, id, fun _ => id⟩
  rw [State.port_modPort]
  split
  · subst x; exact hf
  · exact .refl _

theorem State.keepsAll_modPort {s : State} {p : PortId} {f : Port → Port} (hf : (s.port p).Keeps (f (s.port p)))
    (hd : (s.port p).DirSound → (f (s.port p)).DirSound) : s.KeepsAll (s.modPort p f) := by
  refine ⟨⟨State.keeps_modPort hf, fun x => ?_⟩, id⟩
  rw [State.port_modPort]
  split
  · subst x; exact hd
  · exact id

theorem State.keepsAll_modStore {s : State} {i : StoreId} {f : Store → Store}
    (hf : (s.store i).settings.Valid → (f (s.store i)).settings.Valid) : s.KeepsAll (s.modStore i f) := by
  refine ⟨⟨⟨id, fun _ => .refl _, id, fun x => ?_⟩, fun _ => id⟩, id⟩
  rw [State.store_modStore]
  split
  · subst x; exact hf
  · exact id

theorem State.keepsAll_modNotices {s : State} {f : NoticeQueue → NoticeQueue}
    (hf : s.notices.Sound → (f s.notices).Sound) : s.KeepsAll (s.modNotices f) :=
  ⟨⟨⟨hf, fun _ => .refl _, id, fun _ => id⟩, fun _ => id⟩, id⟩

theorem State.keepsAll_modClassifier {s : State} {f : Classifier → Classifier}
    (hr : s.classifier.Ranged → (f s.classifier).Ranged) (hc : s.classifier.Sound → (f s.classifier).Sound) :
    s.KeepsAll (s.modClassifier f) :=
  ⟨⟨⟨id, fun _ => .refl _, hr, fun _ => id⟩, fun _ => id⟩, hc⟩

theorem State.keepsAll_raise (s : State) {k : NoticeKind} (hk : k ≠ .noticeOverflow) (subject : Nat) (detail : Detail) :
    s.KeepsAll (s.raise k subject detail) :=
  State.keepsAll_modNotices fun h => h.raise hk _ _ _

section
variable {s t : State}

theorem State.KeepsAll.ite {c : Prop} [Decidable c] {u : State} (ht : s.KeepsAll t) (hu : s.KeepsAll u) :
    s.KeepsAll (if c then t else u) := by
  split
  · exact ht
  · exact hu

theorem State.KeepsAll.modMemory {f : RecordMemory → RecordMemory} (h : s.KeepsAll t) : s.KeepsAll (t.modMemory f) :=
  h.trans (.of_eq rfl rfl rfl rfl)

theorem State.KeepsAll.modOps {f : OpTable → OpTable} (h : s.KeepsAll t) : s.KeepsAll (t.modOps f) :=
  h.trans (.of_eq rfl rfl rfl rfl)

theorem State.KeepsAll.release {d : DescId} (h : s.KeepsAll t) : s.KeepsAll (t.release d) :=
  h.trans (.of_eq rfl rfl rfl rfl)

theorem State.KeepsAll.acquire {d : DescId} (h : s.KeepsAll t) : s.KeepsAll (t.acquire d) :=
  h.trans (.of_eq rfl rfl rfl rfl)

theorem State.KeepsAll.releaseAll {ds : List DescId} (h : s.KeepsAll t) : s.KeepsAll (t.releaseAll ds) :=
  h.trans (.of_eq (by simp) (by simp) (by simp) (by simp))

theorem State.KeepsAll.raise {k : NoticeKind} {subject : Nat} {detail : Detail} (h : s.KeepsAll t)
    (hk : k ≠ .noticeOverflow) : s.KeepsAll (t.raise k subject detail) := h.trans (t.keepsAll_raise hk subject detail)

theorem State.KeepsAll.count {p : PortId} {f : PortCounters → PortCounters} (h : s.KeepsAll t) : s.KeepsAll (t.count p f) :=
  h.trans (State.keepsAll_modPort (.of_eq rfl rfl rfl rfl) fun hd => hd.of_eq rfl rfl rfl rfl rfl)

theorem State.KeepsAll.modFramer {p : PortId} {f : Framer → Framer} (h : s.KeepsAll t)
    (hf : ∀ g, (f g).settings = g.settings) : s.KeepsAll (t.modFramer p f) :=
  h.trans (State.keepsAll_modPort (.of_eq rfl rfl rfl (hf _)) fun hd => hd.of_eq rfl rfl rfl rfl rfl)

/-! Record Memory -/

theorem State.KeepsAll.judgeLow {n : Nat} (h : s.KeepsAll t) : s.KeepsAll (t.judgeLow n) := by
  simp only [State.judgeLow]
  exact .ite (.raise h.modMemory (by decide)) h

theorem State.KeepsAll.takeBlocks {d : DescId} {n : Nat} (h : s.KeepsAll t) : s.KeepsAll (t.takeBlocks d n) :=
  h.modMemory.judgeLow

theorem State.KeepsAll.storeByte {d : DescId} {v : Byte} (h : s.KeepsAll t) : s.KeepsAll (t.storeByte d v).2 := by
  simp only [State.storeByte]
  split
  · exact h.modMemory (f := fun m => m.appendByte d v)
  split
  · exact h.modMemory (f := RecordMemory.countNoBlock)
  · exact h.takeBlocks.modMemory (f := fun m => m.appendByte d v)

theorem State.KeepsAll.fill {bytes : List Byte} (h : s.KeepsAll t) : s.KeepsAll (t.fill bytes).2 := by
  simp only [State.fill]
  split
  · exact h.modMemory (f := RecordMemory.countNoDescriptor)
  split
  · exact h.modMemory (f := RecordMemory.countNoBlock)
  · exact h.modMemory.takeBlocks.modMemory (f := fun m => bytes.foldl (fun m v => m.appendByte _ v) m)

theorem State.KeepsAll.checkBlock {d : DescId} {b : BlockId} (h : s.KeepsAll t) : s.KeepsAll (t.checkBlock d b) := by
  simp only [State.checkBlock]
  exact .ite (.raise h.modMemory (by decide)) h

theorem State.KeepsAll.checkBlocks {d : DescId} {bs : List BlockId} (h : s.KeepsAll t) : s.KeepsAll (t.checkBlocks d bs) := by
  induction bs generalizing t with
  | nil => exact h
  | cons b bs ih => exact ih h.checkBlock

/-! The framer -/

theorem State.KeepsAll.dropFrame {p : PortId} (h : s.KeepsAll t) : s.KeepsAll (t.dropFrame p) := by
  simp only [State.dropFrame]
  split
  · exact .release (.modFramer h fun _ => rfl)
  · exact h

theorem State.KeepsAll.discardFrame {p : PortId} {cause : DiscardCause} (h : s.KeepsAll t) :
    s.KeepsAll (t.discardFrame p cause) := h.dropFrame.count

theorem State.KeepsAll.beginFrame {p : PortId} {arrival last : Word} {marked : Bool} (h : s.KeepsAll t) :
    s.KeepsAll (t.beginFrame p arrival last marked).2 := by
  simp only [State.beginFrame]
  split <;> dsimp only
  · exact h.modMemory.discardFrame
  · exact .modFramer h.modMemory fun _ => rfl

theorem State.KeepsAll.notePart {p : PortId} {c : Char} (h : s.KeepsAll t) : s.KeepsAll (t.notePart p c) :=
  .modFramer h fun _ => rfl

theorem State.KeepsAll.storeInFrame {p : PortId} {v : Byte} (h : s.KeepsAll t) : s.KeepsAll (t.storeInFrame p v).2 := by
  simp only [State.storeInFrame]
  split
  · exact h
  split
  · exact h
  · have hb := h.storeByte (d := (by assumption : Assembly).desc) (v := v)
    split <;> rename_i e <;> rw [e] at hb <;> exact hb

theorem State.KeepsAll.storeSeq {p : PortId} {vs : List Byte} (h : s.KeepsAll t) : s.KeepsAll (t.storeSeq p vs).2 := by
  induction vs generalizing t with
  | nil => exact h
  | cons v vs ih =>
    have hv := h.storeInFrame (p := p) (v := v)
    simp only [State.storeSeq]
    split
    · rename_i e
      rw [e] at hv
      exact ih hv
    · exact hv

theorem State.KeepsAll.flagFrame {p : PortId} {f : FrameFlags → FrameFlags} (h : s.KeepsAll t) :
    s.KeepsAll (t.flagFrame p f) := .modFramer h fun _ => rfl

theorem Classifier.Ranged.of_eq {c c' : Classifier} (h : c.Ranged) (hr : c'.rules = c.rules)
    (ht : c'.templates = c.templates) (hh : c'.held = c.held) : c'.Ranged :=
  ⟨by simpa only [Classifier.rule, hr] using h.rules, by simpa only [ht] using h.templates, by
    simpa only [hh] using h.held⟩

theorem Classifier.Sound.of_eq {c c' : Classifier} (h : c.Sound) (hr : c'.rules = c.rules) (hc : c'.chains = c.chains)
    (hq : c'.queue.length ≤ 8) : c'.Sound :=
  ⟨hq, by simpa only [Classifier.chain, hc] using h.once,
    by simpa only [Classifier.chain, Classifier.rule, hc, hr] using h.linked,
    by simpa only [Classifier.rule, hr] using h.unlinked, by simpa only [Classifier.rule, hr] using h.linkedSomewhere,
    by simpa only [Classifier.rule, hr] using h.free⟩

/-- R12, R94. A completed frame joins the classification queue only where there is a place. -/
theorem State.KeepsAll.completeFrame {p : PortId} {a : Assembly} {close : Word} (h : s.KeepsAll t) :
    s.KeepsAll (t.completeFrame p a close) := by
  simp only [State.completeFrame]
  split
  · rename_i hlt
    refine .trans ?_ (State.keepsAll_modClassifier (fun hr => hr.of_eq rfl rfl rfl) fun hs => hs.of_eq rfl rfl ?_)
    · exact .count (.modFramer h fun _ => rfl)
    · simp only [List.length_append, List.length_singleton]
      exact hlt
  · exact .raise (.count (.release (.count (.modFramer h fun _ => rfl)))) (by decide)

theorem State.KeepsAll.finishClose {p : PortId} {close : Word} (h : s.KeepsAll t) : s.KeepsAll (t.finishClose p close) := by
  simp only [State.finishClose]
  split
  · exact h
  · exact .ite h.discardFrame (.ite h.dropFrame.count h.completeFrame)

theorem State.KeepsAll.truncateFrame {p : PortId} (h : s.KeepsAll t) : s.KeepsAll (t.truncateFrame p) :=
  .count (.modFramer h.flagFrame fun _ => rfl)

theorem State.KeepsAll.flagIncomplete {p : PortId} {brk : Bool} (h : s.KeepsAll t) : s.KeepsAll (t.flagIncomplete p brk) :=
  h.flagFrame

theorem State.KeepsAll.closeFrame {p : PortId} {kind : CloseKind} {close : Word} (h : s.KeepsAll t) :
    s.KeepsAll (t.closeFrame p kind close) := by
  cases kind with
  | truncated => exact h.finishClose
  | ended brk => exact .finishClose (.ite h.flagFrame h)
  | incomplete brk =>
    simp only [State.closeFrame]
    split
    · exact h.discardFrame
    · have hv := h.storeSeq (p := p) (vs := (t.framer p).held.map (·.value))
      split <;> rename_i e <;> rw [e] at hv
      · exact hv.flagIncomplete.finishClose
      · exact hv.discardFrame
      · split
        · exact hv.truncateFrame.flagIncomplete.finishClose
        · exact hv.discardFrame

theorem State.KeepsAll.toHunt {p : PortId} (h : s.KeepsAll t) : s.KeepsAll (t.modFramer p Framer.toHunt) :=
  .modFramer h fun _ => rfl

theorem State.KeepsAll.toSkip {p : PortId} (h : s.KeepsAll t) : s.KeepsAll (t.modFramer p Framer.toSkip) :=
  .modFramer h fun _ => rfl

theorem State.KeepsAll.storeFailed {p : PortId} {r : Stored} {boundary : Bool} {time : Word} (h : s.KeepsAll t) :
    s.KeepsAll (t.storeFailed p r boundary time) := by
  cases r with
  | stored => exact h
  | noBlock => exact h.discardFrame.toSkip
  | tooLong =>
    simp only [State.storeFailed]
    refine .modFramer ?_ fun g => ?_
    · split
      · exact h.truncateFrame.closeFrame
      · exact h.discardFrame
    · cases boundary <;> rfl

theorem State.KeepsAll.endFrame {p : PortId} {brk : Bool} {close : Word} (h : s.KeepsAll t) :
    s.KeepsAll (t.endFrame p brk close) := h.closeFrame.toHunt

theorem State.KeepsAll.delimitedBody {p : PortId} {c : Char} (h : s.KeepsAll t) : s.KeepsAll (t.delimitedBody p c) := by
  have hn := h.notePart (p := p) (c := c)
  simp only [State.delimitedBody]
  refine .ite ?_ (.ite ?_ (.ite ?_ (.ite ?_ ?_)))
  · exact .storeFailed (.storeInFrame (.modFramer hn fun _ => rfl))
  · exact .storeFailed (.storeSeq (.modFramer hn fun _ => rfl))
  · split
    · exact .ite (.endFrame (.storeInFrame (.modFramer hn fun _ => rfl))) (.storeInFrame (.modFramer hn fun _ => rfl))
    · exact .storeFailed (.storeInFrame (.modFramer hn fun _ => rfl))
  · exact .endFrame (.modFramer hn fun _ => rfl)
  · exact .storeFailed (.storeSeq (.modFramer hn fun _ => rfl))

theorem State.KeepsAll.delimitedHunt {p : PortId} {c : Char} (h : s.KeepsAll t) : s.KeepsAll (t.delimitedHunt p c) := by
  simp only [State.delimitedHunt]
  refine .ite (.ite ?_ ?_) (.ite (.ite (.ite ?_ ?_) ?_) ?_)
  · exact .delimitedBody (.modFramer h.beginFrame fun _ => rfl)
  · exact .modFramer h.beginFrame fun _ => rfl
  · exact .storeFailed (.storeSeq (.modFramer h.beginFrame fun _ => rfl))
  · exact .modFramer h.beginFrame fun _ => rfl
  · exact .modFramer h.beginFrame fun _ => rfl
  · exact .modFramer h fun _ => rfl

theorem State.KeepsAll.delimitedSkip {p : PortId} {c : Char} (h : s.KeepsAll t) : s.KeepsAll (t.delimitedSkip p c) := by
  simp only [State.delimitedSkip]
  exact .ite (.modFramer h fun _ => rfl) (.ite (.modFramer h fun _ => rfl) (.ite h.toHunt (.modFramer h fun _ => rfl)))

theorem State.KeepsAll.judgeHeader {p : PortId} {time : Word} (h : s.KeepsAll t) : s.KeepsAll (t.judgeHeader p time) := by
  simp only [State.judgeHeader]
  exact .ite (.ite h.discardFrame.toHunt (.ite h.endFrame (.modFramer h fun _ => rfl))) h

theorem State.KeepsAll.judgeSkip {p : PortId} (h : s.KeepsAll t) : s.KeepsAll (t.judgeSkip p) := by
  simp only [State.judgeSkip]
  refine .ite h.toHunt ?_
  split
  · exact .ite h.toHunt (.modFramer h fun _ => rfl)
  · exact h

theorem State.KeepsAll.lengthUnstored {p : PortId} {c : Char} (h : s.KeepsAll t) : s.KeepsAll (t.lengthUnstored p c) :=
  .judgeSkip (.modFramer h fun _ => rfl)

theorem State.KeepsAll.lengthStart {p : PortId} {c : Char} (h : s.KeepsAll t) : s.KeepsAll (State.lengthChar.start p c t) := by
  simp only [State.lengthChar.start]
  refine .ite ?_ h.beginFrame.lengthUnstored
  split
  · exact .judgeHeader (.modFramer (.storeInFrame (.modFramer h.beginFrame fun _ => rfl)) fun _ => rfl)
  · exact .lengthUnstored (.storeFailed (.storeInFrame (.modFramer h.beginFrame fun _ => rfl)))

theorem State.KeepsAll.lengthChar {p : PortId} {c : Char} (h : s.KeepsAll t) : s.KeepsAll (t.lengthChar p c) := by
  have hv := h.notePart (p := p) (c := c) |>.storeInFrame (p := p) (v := c.value)
  simp only [State.lengthChar]
  split
  · split
    · exact .ite h.lengthStart h
    · exact h.lengthStart
  · split
    · exact .judgeHeader (.modFramer hv fun _ => rfl)
    · exact hv.storeFailed.lengthUnstored
  · split
    · exact .ite (.endFrame (.modFramer hv fun _ => rfl)) (.modFramer hv fun _ => rfl)
    · exact hv.storeFailed.lengthUnstored
  · exact h.lengthUnstored

theorem State.KeepsAll.gapStore {p : PortId} {c : Char} (h : s.KeepsAll t) : s.KeepsAll (State.gapChar.store p c t) :=
  h.storeInFrame.storeFailed

theorem State.KeepsAll.gapChar {p : PortId} {c : Char} (h : s.KeepsAll t) : s.KeepsAll (t.gapChar p c) := by
  simp only [State.gapChar]
  split
  · exact .ite (.gapStore (.modFramer h.beginFrame fun _ => rfl)) h.beginFrame.toSkip
  · exact h
  · exact h.notePart.gapStore

theorem State.KeepsAll.framerChar {p : PortId} {c : Char} (h : s.KeepsAll t) : s.KeepsAll (t.framerChar p c) := by
  simp only [State.framerChar]
  split
  · split
    · exact h.delimitedHunt
    · exact h.delimitedSkip
    · exact h.delimitedBody
  · exact h.lengthChar
  · exact h.gapChar

theorem State.KeepsAll.closeIncomplete {p : PortId} {brk : Bool} (h : s.KeepsAll t) : s.KeepsAll (t.closeIncomplete p brk) :=
  h.closeFrame.toHunt

theorem State.KeepsAll.framerBoundary {p : PortId} {brk : Bool} (h : s.KeepsAll t) : s.KeepsAll (t.framerBoundary p brk) := by
  simp only [State.framerBoundary]
  split <;> split
  · exact h
  · exact h.toHunt
  · exact h.endFrame
  · exact .modFramer h fun _ => rfl
  · exact h.toHunt
  · exact h.closeIncomplete

theorem State.KeepsAll.takeExpiries {p : PortId} {n : Nat} (h : s.KeepsAll t) : s.KeepsAll (t.takeExpiries p n) := by
  induction n generalizing t with
  | zero => exact h
  | succ n ih => exact ih h.framerBoundary

/-- A change of the FIFO alone, which gains no item. -/
theorem State.KeepsAll.modFifo {p : PortId} {fifo : List FifoItem} (h : s.KeepsAll t)
    (hf : (fifo.filter fun i => i != .expiry).length ≤ (t.port p).fill) :
    s.KeepsAll (t.modPort p fun q => { q with fifo := fifo }) :=
  h.trans (State.keepsAll_modPort ⟨fun hq => hq.shrink hf, id, id⟩ fun hd => hd.of_eq rfl rfl rfl rfl rfl)

theorem State.KeepsAll.takeItem {p : PortId} (h : s.KeepsAll t) : s.KeepsAll (t.takeItem p) := by
  simp only [State.takeItem]
  split
  · exact h
  rename_i item rest hfifo
  have hsub : (rest.dropWhile fun i => i == FifoItem.expiry).Sublist (t.port p).fifo := by
    rw [hfifo]
    exact (List.dropWhile_sublist _).trans (List.sublist_cons_self item rest)
  have hm := h.modFifo (p := p) (hsub.filter _).length_le
  refine .takeExpiries ?_
  split
  · exact hm.framerChar
  · exact hm.framerBoundary
  · exact hm.framerBoundary

theorem State.KeepsAll.quietExpiry {p : PortId} (h : s.KeepsAll t) : s.KeepsAll (t.quietExpiry p) := by
  simp only [State.quietExpiry]
  have hg : s.KeepsAll (t.modPort p fun q => { q with quiet := { q.quiet with given := true } }) :=
    h.trans (State.keepsAll_modPort (.of_eq rfl rfl rfl rfl) fun hd => hd.of_eq rfl rfl rfl rfl rfl)
  refine .ite (.ite hg.framerBoundary (hg.trans (State.keepsAll_modPort ⟨fun hq => hq.shrink ?_, id, id⟩
    fun hd => hd.of_eq rfl rfl rfl rfl rfl))) h
  simp [Port.fill]

theorem State.KeepsAll.abortFraming {p : PortId} (h : s.KeepsAll t) : s.KeepsAll (t.abortFraming p) := by
  simp only [State.abortFraming]
  refine .toHunt ?_
  split
  · exact h.dropFrame.count
  · exact h

theorem State.KeepsAll.abortReceiving {p : PortId} (h : s.KeepsAll t) : s.KeepsAll (t.abortReceiving p) :=
  h.abortFraming.trans (State.keepsAll_modPort
    ⟨fun _ => .of_fill (LineState.abandon_ne_held _) (by simp [Port.fill]), id, id⟩ fun hd => hd.of_eq rfl rfl rfl rfl rfl)

end
end Sys2Proof.Machine
end

