-- ==== Sys2Proof/Proofs/Chains.lean ====
section
namespace Sys2Proof.Machine

/-! ### The rules, chains and templates under an edit -/

theorem Classifier.Ranged.modRule {c : Classifier} {r : RuleId} {f : Rule → Rule} (h : c.Ranged)
    (hf : (c.rule r).fields.Valid → (f (c.rule r)).fields.Valid) : (c.modRule r f).Ranged := by
  refine ⟨fun x => ?_, h.templates, h.held⟩
  rw [Classifier.rule_modRule]
  split
  · exact hf (h.rules r)
  · exact h.rules x

/-- A rule that stays where it is, LINKED in its chain or in none, may change in all else. -/
theorem Classifier.Sound.modRule {c : Classifier} {r : RuleId} {f : Rule → Rule} (h : c.Sound)
    (hl : (f (c.rule r)).state = .linked ↔ (c.rule r).state = .linked) (hp : (f (c.rule r)).chainPort = (c.rule r).chainPort)
    (hfree : (f (c.rule r)).state = .free → f (c.rule r) = .unused) : (c.modRule r f).Sound := by
  have hstate : ∀ x, ((c.modRule r f).rule x).state = .linked ↔ (c.rule x).state = .linked := fun x => by
    rw [Classifier.rule_modRule]
    split
    · subst x; exact hl
    · rfl
  have hport : ∀ x, ((c.modRule r f).rule x).chainPort = (c.rule x).chainPort := fun x => by
    rw [Classifier.rule_modRule]
    split
    · subst x; exact hp
    · rfl
  refine ⟨h.queue, h.once, fun x p => ?_, fun x hx => ?_, fun x hx => ?_, fun x hx => ?_⟩
  · rw [hstate, hport]
    exact h.linked x p
  · rw [hport]
    exact h.unlinked x fun hc => hx ((hstate x).mpr hc)
  · rw [hport]
    exact h.linkedSomewhere x ((hstate x).mp hx)
  · rw [Classifier.rule_modRule] at hx ⊢
    split at hx
    · rw [if_pos ‹_›]
      exact hfree hx
    · rw [if_neg ‹_›]
      exact h.free x hx

theorem insertRule_perm {chain l : List RuleId} {r : RuleId} {position : LinkPosition}
    (h : insertRule chain r position = some l) : l.Perm (r :: chain) := by
  cases position with
  | head => cases h; exact .refl _
  | after a =>
    simp only [insertRule] at h
    split at h
    · rename_i ha
      cases h
      have ha : a ∈ chain := by simpa using ha
      have hdrop : a :: (chain.dropWhile fun x => x != a).drop 1 = chain.dropWhile fun x => x != a := by
        have hne : chain.dropWhile (fun x => x != a) ≠ [] := fun hnil => by
          have := List.dropWhile_eq_nil_iff.mp hnil a ha
          simp at this
        have hhead := List.head_dropWhile_not (fun x => x != a) hne
        obtain ⟨b, bs, hb⟩ := List.exists_cons_of_ne_nil hne
        simp only [hb, List.head_cons, bne_eq_false_iff_eq] at hhead
        rw [hb, hhead, List.drop_one, List.tail_cons]
      have hchain : chain.takeWhile (fun x => x != a) ++ a :: (chain.dropWhile fun x => x != a).drop 1 = chain := by
        rw [hdrop, List.takeWhile_append_dropWhile]
      have hperm : ((chain.takeWhile (fun x => x != a) ++ [a]) ++ r :: (chain.dropWhile fun x => x != a).drop 1).Perm
          (r :: ((chain.takeWhile (fun x => x != a) ++ [a]) ++ (chain.dropWhile fun x => x != a).drop 1)) :=
        List.perm_middle
      rwa [List.append_assoc, List.append_assoc, List.singleton_append, List.singleton_append, hchain] at hperm
    · cases h

/-- R4. A DEFINED rule that joins a chain at any place. -/
theorem Classifier.Sound.link {c : Classifier} {r : RuleId} {p : PortId} {l : List RuleId} (h : c.Sound)
    (hd : (c.rule r).state = .defined) (hl : l.Perm (r :: c.chain p)) :
    ((c.setChain p l).modRule r fun x => { x with state := .linked, chainPort := some p }).Sound := by
  have hout : ∀ q, r ∉ c.chain q := fun q hq => by simp [((h.linked r q).mp hq).1] at hd
  refine ⟨h.queue, fun q => ?_, fun x q => ?_, fun x hx => ?_, fun x hx => ?_, fun x hx => ?_⟩ <;>
    simp only [Classifier.rule_modRule, Classifier.rule_setChain, Classifier.chain_modRule, Classifier.chain_setChain] at *
  · split
    · exact hl.nodup_iff.mpr (List.nodup_cons.mpr ⟨hout p, h.once p⟩)
    · exact h.once q
  · by_cases hx : x = r
    · subst hx
      by_cases hq : q = p
      · simp [hq, hl.mem_iff]
      · simp [hq, hout q, Ne.symm hq]
    · by_cases hq : q = p
      · simp [hx, hq, hl.mem_iff, h.linked]
      · simp [hx, hq, h.linked]
  · split at hx
    · simp at hx
    · rw [if_neg ‹_›]; exact h.unlinked x hx
  · split at hx
    · rw [if_pos ‹_›]; simp
    · rw [if_neg ‹_›]; exact h.linkedSomewhere x hx
  · split at hx
    · simp at hx
    · rw [if_neg ‹_›]; exact h.free x hx

/-- R5. A LINKED rule that leaves its chain. -/
theorem Classifier.Sound.unlink {c : Classifier} {r : RuleId} {p : PortId} (h : c.Sound)
    (hp : (c.rule r).chainPort = some p) :
    ((c.setChain p ((c.chain p).filter fun x => x != r)).modRule r fun x =>
      { x with state := .defined, chainPort := none }).Sound := by
  have hout : ∀ q, q ≠ p → r ∉ c.chain q := fun q hq hm => by
    rw [((h.linked r q).mp hm).2] at hp
    exact hq (Option.some.inj hp)
  refine ⟨h.queue, fun q => ?_, fun x q => ?_, fun x hx => ?_, fun x hx => ?_, fun x hx => ?_⟩ <;>
    simp only [Classifier.rule_modRule, Classifier.rule_setChain, Classifier.chain_modRule, Classifier.chain_setChain] at *
  · split
    · exact (h.once p).filter _
    · exact h.once q
  · by_cases hx : x = r
    · subst hx
      by_cases hq : q = p
      · simp [hq]
      · simp [hq, hout q hq]
    · by_cases hq : q = p
      · simp [hx, hq, h.linked]
      · simp [hx, hq, h.linked]
  · split at hx
    · rw [if_pos ‹_›]
    · rw [if_neg ‹_›]; exact h.unlinked x hx
  · split at hx
    · simp at hx
    · rw [if_neg ‹_›]; exact h.linkedSomewhere x hx
  · split at hx
    · simp at hx
    · rw [if_neg ‹_›]; exact h.free x hx

/-- R2 to R11. An edit keeps the chains in order. -/
theorem Classifier.Sound.applyEdit {c : Classifier} (h : c.Sound) (e : Edit) : (c.applyEdit e).2.Sound := by
  cases e with
  | ruleWrite r fields =>
    simp only [Classifier.applyEdit, Classifier.writeRule]
    refine h.modRule ?_ rfl fun hx => ?_
    · cases (c.rule r).state <;> simp
    · cases hs : (c.rule r).state <;> simp [hs] at hx
  | ruleLink r p position =>
    simp only [Classifier.applyEdit, Classifier.linkRule]
    split
    · exact h
    rename_i hd
    split
    · exact h
    · rename_i hi
      exact h.link (not_not.mp hd) (insertRule_perm hi)
  | ruleUnlink r =>
    simp only [Classifier.applyEdit, Classifier.unlinkRule]
    split
    · rename_i hp
      exact h.unlink hp
    · exact h
  | ruleFree r =>
    simp only [Classifier.applyEdit, Classifier.freeRule]
    split
    · rename_i hd
      dsimp only
      refine h.modRule ?_ ?_ fun _ => rfl
      · simp [hd, Rule.unused]
      · exact (h.unlinked r (by simp [hd])).symm
    · exact h
  | ruleEnable r enabled =>
    simp only [Classifier.applyEdit, Classifier.enableRule]
    split
    · exact h
    · rename_i hf
      dsimp only
      exact h.modRule Iff.rfl rfl fun hx => absurd hx hf
  | defaultSet p action => exact h.of_eq rfl rfl h.queue
  | templateWrite i value => exact h.of_eq rfl rfl h.queue

/-- R1, R3, R27. An edit in its range keeps the rules and templates in theirs. -/
theorem Classifier.Ranged.applyEdit {c : Classifier} (h : c.Ranged) {e : Edit} (he : e.Valid) : (c.applyEdit e).2.Ranged := by
  cases e with
  | ruleWrite r fields =>
    simp only [Classifier.applyEdit, Classifier.writeRule]
    exact h.modRule fun _ => he
  | ruleLink r p position =>
    simp only [Classifier.applyEdit, Classifier.linkRule]
    (repeat' split)
    · exact h
    · exact h
    · dsimp only
      exact .modRule (h.of_eq rfl rfl rfl) id
  | ruleUnlink r =>
    simp only [Classifier.applyEdit, Classifier.unlinkRule]
    split
    · dsimp only
      exact .modRule (h.of_eq rfl rfl rfl) id
    · exact h
  | ruleFree r =>
    simp only [Classifier.applyEdit, Classifier.freeRule]
    split
    · dsimp only
      exact h.modRule fun _ => ⟨by decide, by decide, by decide, trivial⟩
    · exact h
  | ruleEnable r enabled =>
    simp only [Classifier.applyEdit, Classifier.enableRule]
    split
    · exact h
    · dsimp only
      exact h.modRule fun ⟨hoff, hkey, hlen, hact⟩ => ⟨hoff, hkey, hlen, hact⟩
  | defaultSet p action => exact h.of_eq rfl rfl rfl
  | templateWrite i value =>
    refine ⟨h.rules, fun j => ?_, h.held⟩
    show ((c.templates.set i.val value i.isLt).get j).Valid
    rw [vector_get_set]
    split
    · exact he
    · exact h.templates j

theorem Classifier.Ranged.withHeld {c : Classifier} (h : c.Ranged) {e : Option Edit} (he : ∀ x, e = some x → x.Valid) :
    ({ c with held := e } : Classifier).Ranged := ⟨h.rules, h.templates, he⟩

/-- R11. An edit in its range is carried out, or held. -/
theorem State.edit_keepsAll (s : State) {e : Edit} (he : e.Valid) : s.KeepsAll (s.edit e).1 := by
  simp only [State.edit]
  split
  · exact State.keepsAll_modClassifier (f := fun c => (c.applyEdit e).2) (fun h => h.applyEdit he) fun h => h.applyEdit e
  · dsimp only
    refine State.keepsAll_modClassifier (fun h => h.withHeld fun x hx => ?_) fun h => h.of_eq rfl rfl h.queue
    cases hx
    exact he

/-! ### The walk -/

section
variable {s t : State}

theorem State.KeepsDir.then {u : State} (h : s.KeepsDir t) (h' : t.KeepsAll u) : s.KeepsDir u := h.trans h'.toKeepsDir

theorem State.KeepsDir.ite {c : Prop} [Decidable c] {u : State} (ht : s.KeepsDir t) (hu : s.KeepsDir u) :
    s.KeepsDir (if c then t else u) := by
  split
  · exact ht
  · exact hu

theorem State.KeepsDir.modRule {r : RuleId} {f : Rule → Rule} (h : s.KeepsDir t)
    (hf : ∀ x, x.fields.Valid → (f x).fields.Valid) : s.KeepsDir (t.modRule r f) :=
  h.trans ⟨⟨id, fun _ => .refl _, fun hr => hr.modRule (hf _), fun _ => id⟩, fun _ => id⟩

theorem State.keepsAll_modCurrent (s : State) (f : Classification → Classification) : s.KeepsAll (s.modCurrent f) :=
  State.keepsAll_modClassifier (fun h => h.of_eq rfl rfl rfl) fun h => h.of_eq rfl rfl h.queue

theorem State.KeepsDir.modCurrent {f : Classification → Classification} (h : s.KeepsDir t) : s.KeepsDir (t.modCurrent f) :=
  h.then (t.keepsAll_modCurrent f)

theorem State.KeepsDir.hit {r : RuleId} (h : s.KeepsDir t) : s.KeepsDir (t.hit r) := .modRule h fun _ => id

theorem State.KeepsDir.countRefused {r : RuleId} (h : s.KeepsDir t) : s.KeepsDir (t.countRefused r) :=
  .modRule h fun _ => id

theorem State.KeepsDir.dropForward {r : RuleId} {action : DroppedAction} {cause : Status} (h : s.KeepsDir t) :
    s.KeepsDir (t.dropForward r action cause) := h.countRefused.then (State.keepsAll_raise _ (by decide) _ _)

theorem State.KeepsDir.spend {r : RuleId} (h : s.KeepsDir t) : s.KeepsDir (t.spend r) := by
  simp only [State.spend]
  refine .ite (.then (.modRule h ?_) (State.keepsAll_raise _ (by decide) _ _)) h
  exact fun _ ⟨hoff, hkey, hlen, hact⟩ => ⟨hoff, hkey, hlen, hact⟩

theorem Store.file_settings (st : Store) (k n : Nat) (frame : Frame) (rule : Byte) :
    (((st.evict k).append frame rule).judgeMarks n).2.settings = st.settings := by
  simp only [Store.judgeMarks]
  split <;> simp only [Store.rearm_eq] <;> rfl

theorem State.KeepsAll.modStore {i : StoreId} {f : Store → Store} (h : s.KeepsAll t)
    (hf : (f (t.store i)).settings = (t.store i).settings) : s.KeepsAll (t.modStore i f) :=
  h.trans (State.keepsAll_modStore (by rw [hf]; exact id))

theorem State.KeepsAll.file {i : StoreId} {frame : Frame} {rule : Byte} (h : s.KeepsAll t) :
    s.KeepsAll (t.file i frame rule).2 := by
  simp only [State.file]
  split <;> dsimp only
  · have hm := h.modStore (i := i) (f := fun _ => (t.store i).refuse.2) rfl
    exact .ite (hm.raise (by decide)) hm
  · refine .ite (.raise (.acquire (.releaseAll (h.modStore ?_))) (by decide)) (.acquire (.releaseAll (h.modStore ?_))) <;>
      exact Store.file_settings _ _ _ _ _

theorem State.KeepsDir.fileAction {r : RuleId} {f : Frame} {i : StoreId} (h : s.KeepsDir t) :
    s.KeepsDir (t.fileAction r f i) := by
  have hf := (State.KeepsAll.refl t).file (i := i) (frame := f) (rule := byte1 r.val)
  simp only [State.fileAction]
  split <;> rename_i e <;> rw [e] at hf
  · exact (h.then hf).modCurrent
  · exact (h.then hf).countRefused

/-- R112, R121. An entry that joins the queue leaves the SENDING one as it was. -/
theorem State.KeepsAll.enqueue {p : PortId} {e : SendEntry} (h : s.KeepsAll t) :
    s.KeepsAll (t.modPort p fun q => { q with queue := q.queue ++ [e] }) := by
  refine h.trans (State.keepsAll_modPort (.of_eq rfl rfl rfl rfl) fun hd hdir => ?_)
  obtain ⟨x, hx, hsound⟩ := hd hdir
  exact ⟨x, by simp only [Port.current] at hx ⊢; rw [List.find?_append, hx, Option.some_or], hsound⟩

theorem State.KeepsAll.withNextSendId {id : Half} (h : s.KeepsAll t) : s.KeepsAll { t with nextSendId := id } :=
  h.trans (.of_eq rfl rfl rfl rfl)

theorem State.KeepsAll.makeEntry {p : PortId} {origin : SendOrigin} {cls : Fin 4} {ttl : Nat} {desc : DescId} {report : Bool}
    {tag : Option Byte} (h : s.KeepsAll t) : s.KeepsAll (t.makeEntry p origin cls ttl desc report tag).2 :=
  .withNextSendId (.enqueue h)

theorem State.KeepsDir.forwardAction {r : RuleId} {f : Frame} {p : PortId} {cls : Fin 4} {ttl : Nat} (h : s.KeepsDir t) :
    s.KeepsDir (t.forwardAction r f p cls ttl) := by
  simp only [State.forwardAction]
  split
  · exact h.dropForward
  · exact h.then (.acquire (.makeEntry (.refl t)))

theorem State.KeepsAll.buildReply {x : Template} {f : Frame} (h : s.KeepsAll t) : s.KeepsAll (t.buildReply x f).2 := by
  simp only [State.buildReply]
  split
  · exact h
  · exact h.checkBlocks

theorem State.KeepsDir.replyAction {r : RuleId} {f : Frame} {i : TemplateId} {cls : Fin 4} {ttl : Nat} (h : s.KeepsDir t) :
    s.KeepsDir (t.replyAction r f i cls ttl) := by
  have hf := ((State.KeepsAll.refl t).buildReply (x := t.classifier.templates.get i) (f := f)).fill
    (bytes := (t.buildReply (t.classifier.templates.get i) f).1)
  simp only [State.replyAction]
  split
  · exact h.dropForward
  refine .ite h.dropForward (.ite (.dropForward (h.then (.modMemory (.refl t))))
    (.ite (.dropForward (h.then (.modMemory (.refl t)))) ?_))
  split <;> rename_i e <;> rw [e] at hf
  · exact h.then hf.makeEntry
  · exact (h.then hf).dropForward

theorem State.KeepsDir.capActions {k : Classification} (h : s.KeepsDir t) : s.KeepsDir (t.capActions k) := by
  refine .modCurrent (h.then ?_)
  suffices hk : ∀ (l : List (StoreId × Word)) {u : State}, t.KeepsAll u → t.KeepsAll (l.foldl State.capRecord u) from
    hk k.filed (.refl t)
  intro l
  induction l with
  | nil => exact id
  | cons x l ih => exact fun hu => ih (hu.modStore rfl)

theorem State.KeepsDir.act {k : Classification} {r : RuleId} {d : RuleDef} (h : s.KeepsDir t) : s.KeepsDir (t.act k r d) := by
  simp only [State.act]
  split
  · exact h.hit.modCurrent.spend
  · exact h.hit.spend
  · exact .ite h.capActions h.hit.fileAction.modCurrent.spend
  · exact .ite h.capActions h.hit.forwardAction.modCurrent.spend
  · exact .ite h.capActions h.hit.replyAction.modCurrent.spend

theorem State.KeepsAll.ruleMatches {d : RuleDef} {f : Frame} (h : s.KeepsAll t) : s.KeepsAll (t.ruleMatches d f).2 := by
  rw [State.ruleMatches_snd]
  exact .ite h.checkBlocks h

theorem State.visit_keepsDir (s : State) (k : Classification) (r : RuleId) (rest : List RuleId) :
    s.KeepsDir (s.visit k r rest) := by
  have hm := (s.keepsAll_modCurrent fun k => { k with remaining := rest }).ruleMatches
    (d := (s.classifier.rule r).fields) (f := k.frame)
  simp only [State.visit]
  exact .ite (.act hm.toKeepsDir) hm.toKeepsDir

end
end Sys2Proof.Machine
end

