-- ==== Sys2Proof/Proofs/Walk.lean ====
section
namespace Sys2Proof.Machine

/-! ### The chains under the walk -/

/-- What the visit of rule `r` leaves of the chains and the queue. -/
structure Classifier.Walks (r : RuleId) (c c' : Classifier) : Prop where
  chains : c'.chains = c.chains
  queue : c'.queue = c.queue
  others : ∀ x, x ≠ r → c'.rule x = c.rule x
  state : (c'.rule r).state = (c.rule r).state
  chainPort : (c'.rule r).chainPort = (c.rule r).chainPort

theorem Classifier.ActsFor.walks {r : RuleId} {c c' : Classifier} (h : c.ActsFor r c') : c.Walks r c' :=
  ⟨h.chains, h.queue, h.others, h.state, h.chainPort⟩

theorem Classifier.Walks.trans {r : RuleId} {c c' c'' : Classifier} (h : c.Walks r c') (h' : c'.Walks r c'') : c.Walks r c'' :=
  ⟨h'.chains.trans h.chains, h'.queue.trans h.queue, fun x hx => (h'.others x hx).trans (h.others x hx),
    h'.state.trans h.state, h'.chainPort.trans h.chainPort⟩

theorem Classifier.Walks.modCurrent {r : RuleId} {c c' : Classifier} (h : c.Walks r c') (k : Option Classification) :
    c.Walks r { c' with current := k } := ⟨h.chains, h.queue, h.others, h.state, h.chainPort⟩

theorem Classifier.Walks.modRule (c : Classifier) (r : RuleId) (f : Rule → Rule)
    (hs : (f (c.rule r)).state = (c.rule r).state) (hp : (f (c.rule r)).chainPort = (c.rule r).chainPort) :
    c.Walks r (c.modRule r f) :=
  ⟨rfl, rfl, fun x hx => by rw [Classifier.rule_modRule, if_neg hx], by rw [Classifier.rule_modRule, if_pos rfl, hs],
    by rw [Classifier.rule_modRule, if_pos rfl, hp]⟩

theorem State.spend_walks (s : State) (r : RuleId) : s.classifier.Walks r (s.spend r).classifier := by
  simp only [State.spend]
  split
  · exact Classifier.Walks.modRule s.classifier r (fun x => { x with fields := { x.fields with enabled := false } }) rfl rfl
  · exact (Classifier.ActsFor.refl r _).walks

theorem State.capActions_walks (s : State) (k : Classification) (r : RuleId) :
    s.classifier.Walks r (s.capActions k).classifier := by
  obtain ⟨-, -, -, -, -, -, -, hc, -⟩ := s.capRecords_frame k.filed
  refine .modCurrent ?_ _
  rw [hc]
  exact (Classifier.ActsFor.refl r _).walks

/-- R17 to R21. A rule that acts stays where it is. -/
theorem State.act_walks (s : State) (k : Classification) (r : RuleId) (d : RuleDef) :
    s.classifier.Walks r (s.act k r d).classifier := by
  have hhit := (s.hit_actsFor r).walks
  have spent {t : State} (ht : s.classifier.Walks r t.classifier) : s.classifier.Walks r (t.spend r).classifier :=
    ht.trans (t.spend_walks r)
  have performed {t : State} (ht : (s.hit r).classifier.ActsFor r t.classifier) (goOn : Bool) :
      s.classifier.Walks r ((t.performed goOn).spend r).classifier := spent ((hhit.trans ht.walks).modCurrent _)
  simp only [State.act]
  split
  · exact spent (hhit.modCurrent _)
  · exact spent hhit
  · split
    · exact s.capActions_walks k r
    · exact performed ((s.hit r).fileAction_actsFor r k.frame _) _
  · split
    · exact s.capActions_walks k r
    · exact performed ((s.hit r).forwardAction_actsFor r k.frame _ _ _) _
  · split
    · exact s.capActions_walks k r
    · exact performed ((s.hit r).replyAction_actsFor r k.frame _ _ _) _

theorem Classifier.Sound.walks {r : RuleId} {c c' : Classifier} (h : c.Sound) (hr : (c.rule r).state ≠ .free)
    (hw : c.Walks r c') : c'.Sound := by
  have hchain : ∀ p, c'.chain p = c.chain p := fun p => by rw [Classifier.chain, hw.chains, Classifier.chain]
  have hstate : ∀ x, (c'.rule x).state = (c.rule x).state := fun x => by
    by_cases hx : x = r
    · rw [hx, hw.state]
    · rw [hw.others x hx]
  have hport : ∀ x, (c'.rule x).chainPort = (c.rule x).chainPort := fun x => by
    by_cases hx : x = r
    · rw [hx, hw.chainPort]
    · rw [hw.others x hx]
  refine ⟨hw.queue ▸ h.queue, fun p => hchain p ▸ h.once p, fun x p => ?_, fun x hx => ?_, fun x hx => ?_, fun x hx => ?_⟩
  · rw [hchain, hstate, hport]; exact h.linked x p
  · rw [hport]; exact h.unlinked x (hstate x ▸ hx)
  · rw [hport]; exact h.linkedSomewhere x (hstate x ▸ hx)
  · rw [hstate] at hx
    rw [hw.others x fun hxr => hr (hxr ▸ hx)]
    exact h.free x hx

/-- R1, R15. A FREE rule is not enabled, so it never acts. -/
theorem State.visit_keepsAll (s : State) (k : Classification) (r : RuleId) (rest : List RuleId) :
    s.KeepsAll (s.visit k r rest) := by
  refine ⟨s.visit_keepsDir k r rest, fun h => ?_⟩
  have hwent : (s.modCurrent fun k => { k with remaining := rest }).classifier.Sound := h.of_eq rfl rfl h.queue
  obtain ⟨-, -, -, -, -, hc, -⟩ :=
    (s.modCurrent fun k => { k with remaining := rest }).ruleMatches_frame (s.classifier.rule r).fields k.frame
  simp only [State.visit]
  split
  · rename_i hm
    refine Classifier.Sound.walks (r := r) (hc ▸ hwent) (fun hfree => ?_) (State.act_walks _ k r _)
    rw [hc] at hfree
    have hrule : s.classifier.rule r = .unused := h.free r hfree
    rw [hrule] at hm
    simp [State.ruleMatches, RuleDef.applies, Rule.unused, RuleDef.free] at hm
  · exact hc ▸ hwent

/-! ### The other operations -/

section
variable {s t : State}

theorem State.KeepsAll.answer {tag kind : Byte} {status : Status} {fields : List Byte} {role : ReplyRole} {after : Executor}
    (h : s.KeepsAll t) : s.KeepsAll (t.answer tag kind status fields role after) := h.trans (.of_eq rfl rfl rfl rfl)

theorem State.KeepsAll.carryOutHeld (h : s.KeepsAll t) : s.KeepsAll t.carryOutHeld := by
  simp only [State.carryOutHeld]
  split
  · rename_i e _ _ he _
    refine .answer (h.trans (State.keepsAll_modClassifier (f := fun c => { (c.applyEdit e).2 with held := none }) ?_ ?_))
    · exact fun hr => (hr.applyEdit (hr.held e he)).withHeld nofun
    · exact fun hs => (hs.applyEdit e).of_eq rfl rfl (hs.applyEdit e).queue
  · exact h

theorem State.KeepsAll.endClassification {k : Classification} (h : s.KeepsAll t) : s.KeepsAll (t.endClassification k) := by
  refine .carryOutHeld (.trans (.release ?_)
    (State.keepsAll_modClassifier (fun hr => hr.of_eq rfl rfl rfl) fun hs => hs.of_eq rfl rfl hs.queue))
  simp only [State.defaultAction]
  refine .ite h ?_
  split
  · exact h
  · exact h.file

theorem Classifier.Sound.fewer {c : Classifier} (h : c.Sound) {l : List Frame} (hl : l.length ≤ c.queue.length) :
    ({ c with queue := l } : Classifier).Sound := h.of_eq rfl rfl (hl.trans h.queue)

theorem State.KeepsAll.begin {f : Frame} {rest : List Frame} (h : s.KeepsAll t) (hq : t.classifier.queue = f :: rest) :
    s.KeepsAll (t.modClassifier fun c => c.begin f rest) := by
  refine h.trans (State.keepsAll_modClassifier (fun hr => hr.of_eq rfl rfl rfl) fun hs => hs.of_eq rfl rfl ?_)
  have hlen := hs.queue
  rw [hq, List.length_cons] at hlen
  exact Nat.le_of_succ_le hlen

theorem State.KeepsAll.removePending {p : PortId} (h : s.KeepsAll t) : s.KeepsAll (t.removePending p) := by
  refine .releaseAll (h.trans (State.keepsAll_modClassifier (fun hr => hr.of_eq rfl rfl rfl) fun hs => ?_))
  exact hs.fewer (List.length_filter_le _ _)

theorem State.KeepsAll.clearGroup {g : CounterGroup} (h : s.KeepsAll t) : s.KeepsAll (t.clearGroup g) := by
  cases g <;> simp only [State.clearGroup]
  case port p => exact h.count
  case store i => exact h.trans (State.keepsAll_modStore id)
  case rule r =>
    refine h.trans (State.keepsAll_modClassifier (fun hr => hr.modRule ?_) fun hs => hs.modRule ?_ ?_ fun hf => ?_)
    · exact id
    · rfl
    · rfl
    · rw [hs.free r hf]
      rfl
  case link => exact h.trans (.of_eq rfl rfl rfl rfl)
  case memory => exact h.modMemory

theorem State.KeepsAll.readRecords {rs : List Record} (h : s.KeepsAll t) : s.KeepsAll (t.readRecords rs).2 := by
  induction rs generalizing t with
  | nil => exact h
  | cons r rs ih => exact ih (t := (t.readRecord r).2) h.checkBlocks

theorem State.KeepsAll.endPurge {i : StoreId} {status : OpStatus} {byRequest : Bool} (h : s.KeepsAll t) :
    s.KeepsAll (t.endPurge i status byRequest) := .modOps (h.modStore rfl)

theorem State.KeepsAll.judgePurge {i : StoreId} {byRequest : Bool} (h : s.KeepsAll t) :
    s.KeepsAll (t.judgePurge i byRequest) := .ite h.endPurge h

theorem State.KeepsAll.purgeOne {i : StoreId} (h : s.KeepsAll t) : s.KeepsAll (t.purgeOne i) := by
  simp only [State.purgeOne]
  split
  · exact h
  · exact .judgePurge (.modOps (.release (h.modStore (by simp only [Store.purgeHead_eq]))))

theorem State.KeepsAll.examine {b : BlockId} (h : s.KeepsAll t) : s.KeepsAll (t.examine b) := by
  simp only [State.examine]
  refine .ite (.modOps (.modOps ?_)) (.modOps ?_) <;> split
  · exact h.checkBlock
  · exact h
  · exact h.checkBlock
  · exact h

theorem State.KeepsAll.completeDrain {p : PortId} {status : OpStatus} {n : Nat} {byRequest : Bool} (h : s.KeepsAll t) :
    s.KeepsAll (t.completeDrain p status n byRequest) := by
  simp only [State.completeDrain]
  refine .trans h.modOps (State.keepsAll_modPort ?_ fun hd => ?_)
  · exact .of_eq rfl rfl rfl rfl
  · exact hd.of_eq rfl rfl rfl rfl rfl

theorem State.KeepsAll.cancelOp {w : OpWork} (h : s.KeepsAll t) : s.KeepsAll (t.cancelOp w) := by
  cases w <;> simp only [State.cancelOp]
  case purge => exact h.endPurge
  case drain => exact h.completeDrain
  case check => exact h.modOps

theorem State.KeepsAll.serveRead {i : StoreId} {take : Bool} {n m : Nat} (h : s.KeepsAll t) :
    s.KeepsAll (t.serveRead i take n m).1 := by
  simp only [State.serveRead, State.grant]
  exact .ite (.releaseAll (h.readRecords.modStore (by simp only [Store.take_eq]))) (h.readRecords.modStore rfl)

theorem State.KeepsAll.admitSend {tag : Byte} {p : PortId} {cls : Fin 4} {ttl : Nat} {report : Bool} {data : List Byte}
    (h : s.KeepsAll t) : s.KeepsAll (t.admitSend tag p cls ttl report data).1 := by
  have hf := h.fill (bytes := data)
  simp only [State.admitSend]
  split
  · exact h
  · split <;> rename_i e <;> rw [e] at hf
    · exact hf
    · exact hf.makeEntry

theorem State.KeepsAll.beginNotice (h : s.KeepsAll t) : s.KeepsAll t.beginNotice := by
  simp only [State.beginNotice]
  split
  · rename_i he
    refine .ite (.trans ?_ (State.keepsAll_modNotices fun hs => hs.tail he)) h
    exact h.trans (.of_eq rfl rfl rfl rfl)
  · exact h

/-- R112. What the receive line does to a port leaves its queue, its transmitter and its settings. -/
structure Port.Receives (q q' : Port) : Prop where
  fifo : q.FifoBounded → q'.FifoBounded
  settings : q'.settings = q.settings
  framer : q'.framer.settings = q.framer.settings
  dir : q'.dir = q.dir
  queue : q'.queue = q.queue
  tx : q'.tx = q.tx
  stopping : q'.stopping = q.stopping

theorem State.KeepsAll.receives {p : PortId} {f : Port → Port} (h : s.KeepsAll t) (hf : (t.port p).Receives (f (t.port p))) :
    s.KeepsAll (t.modPort p f) :=
  h.trans (State.keepsAll_modPort ⟨hf.fifo, hf.settings ▸ id, hf.framer ▸ id⟩
    fun hd => hd.of_eq hf.dir hf.queue hf.tx hf.settings hf.stopping)

theorem Port.receive_receives (q : Port) (c : LowStopChar) (framing : Bool) :
    (q.receive c framing).settings = q.settings ∧ (q.receive c framing).framer.settings = q.framer.settings ∧
    (q.receive c framing).dir = q.dir ∧ (q.receive c framing).queue = q.queue ∧ (q.receive c framing).tx = q.tx ∧
    (q.receive c framing).stopping = q.stopping := by
  simp only [Port.receive]
  (repeat' split) <;> exact ⟨rfl, rfl, rfl, rfl, rfl, rfl⟩

theorem Port.characterReceived_receives (q : Port) (now : Word) (data : Byte) (parityBit stopHigh : Bool) :
    q.Receives (q.characterReceived now data parityBit stopHigh) := by
  have hr := q.receive_receives (q.sampled now data parityBit) false
  refine ⟨fun h => Port.characterReceived_fifoBounded h now data parityBit stopHigh, ?_, ?_, ?_, ?_, ?_, ?_⟩ <;>
    simp only [Port.characterReceived] <;> (repeat' split) <;> simp only [hr]

theorem Port.breakDetected_receives (q : Port) (now : Word) : q.Receives (q.breakDetected now) := by
  refine ⟨fun h => Port.breakDetected_fifoBounded h now, ?_, ?_, ?_, ?_, ?_, ?_⟩ <;>
    simp only [Port.breakDetected] <;> (repeat' split) <;> rfl

theorem Port.breakEnd_receives (q : Port) : q.Receives q.breakEnd := by
  refine ⟨fun h => Port.breakEnd_fifoBounded h, ?_, ?_, ?_, ?_, ?_, ?_⟩ <;>
    simp only [Port.breakEnd] <;> split <;> rfl

theorem Port.startBit_receives (q : Port) : q.Receives q.startBit := by
  refine ⟨fun h => Port.startBit_fifoBounded h, ?_, ?_, ?_, ?_, ?_, ?_⟩ <;>
    simp only [Port.startBit] <;> split <;> rfl

theorem Port.framingErrorEnd_receives (q : Port) : q.Receives q.framingErrorEnd := by
  have hr := fun c => q.receive_receives c true
  refine ⟨fun h => Port.framingErrorEnd_fifoBounded h, ?_, ?_, ?_, ?_, ?_, ?_⟩ <;>
    simp only [Port.framingErrorEnd, Port.enterHeld] <;> (repeat' split) <;> simp only [hr]

end
end Sys2Proof.Machine
end

