-- ==== Sys2Proof/Proofs/Transmit.lean ====
section
namespace Sys2Proof.Machine

/-! ### What the transmitter keeps -/

section
variable {s t : State}

theorem State.Keeps.then {u : State} (h : s.Keeps t) (h' : t.KeepsAll u) : s.Keeps u := h.trans h'.toKeeps

theorem State.Keeps.ite {c : Prop} [Decidable c] {u : State} (ht : s.Keeps t) (hu : s.Keeps u) :
    s.Keeps (if c then t else u) := by
  split
  · exact ht
  · exact hu

theorem State.Keeps.modPort {p : PortId} {f : Port → Port} (h : s.Keeps t) (hf : (t.port p).Keeps (f (t.port p))) :
    s.Keeps (t.modPort p f) := h.trans (State.keeps_modPort hf)

theorem Port.keeps_entryEnded (q : Port) (e : SendEntry) (queue : List SendEntry) :
    q.Keeps { q.entryEnded e with queue := queue } := by
  simp only [Port.entryEnded]
  split <;> exact .of_eq rfl rfl rfl rfl

theorem State.Keeps.endEntry {p : PortId} {e : SendEntry} {status : SendStatus} {byRequest judges : Bool} (h : s.Keeps t) :
    s.Keeps (t.endEntry p e status byRequest judges) := by
  unfold State.endEntry
  extract_lets ended released counted raised
  have hended : s.Keeps ended := h.modPort ((t.port p).keeps_entryEnded e _)
  have hreleased : s.Keeps released := hended.then (.release (.refl _))
  have hcounted : s.Keeps counted := .ite (hreleased.then (.modOps (.count (.refl _)))) hreleased
  have hraised : s.Keeps raised := .ite (hcounted.then (.raise (.refl _) (by decide))) hcounted
  exact .ite (hraised.then (.completeDrain (.refl _))) hraised

theorem State.Keeps.releaseDir {p : PortId} (h : s.Keeps t) : s.Keeps (t.releaseDir p) :=
  h.modPort (.of_eq rfl rfl rfl rfl)

theorem State.Keeps.holdOrEnd {p : PortId} {e : SendEntry} {status : SendStatus} (h : s.Keeps t) :
    s.Keeps (t.holdOrEnd p e status) := by
  simp only [State.holdOrEnd]
  split
  · exact h.endEntry
  · refine .ite h.releaseDir.endEntry (h.modPort ?_)
    exact .of_eq rfl rfl rfl rfl

theorem State.Keeps.putCharacter {p : PortId} {block : List Byte} {k : Nat} (h : s.Keeps t) :
    s.Keeps (t.modPort p fun q => q.putCharacter block k) := h.modPort (.of_eq rfl rfl rfl rfl)

theorem State.Keeps.beginCharacter {p : PortId} {e : SendEntry} {k : Nat} (h : s.Keeps t) :
    s.Keeps (t.beginCharacter p e k) := by
  simp only [State.beginCharacter]
  refine .ite ?_ (h.modPort (.of_eq rfl rfl rfl rfl))
  split
  · exact h.putCharacter
  · rename_i b _
    have hc := h.then (.checkBlock (d := e.desc) (b := b) (.refl t))
    exact .ite (.ite hc.releaseDir.endEntry hc.holdOrEnd) h.putCharacter

theorem State.Keeps.startEntry {p : PortId} {e : SendEntry} (h : s.Keeps t) : s.Keeps (t.startEntry p e) := by
  simp only [State.startEntry]
  refine .ite h.endEntry (.beginCharacter (h.modPort ?_))
  exact .of_eq rfl rfl rfl rfl

theorem State.Keeps.modEntry {p : PortId} {id : Half} {f : SendEntry → SendEntry} (h : s.Keeps t) :
    s.Keeps (t.modEntry p id f) := by
  simp only [State.modEntry]
  refine h.modPort ?_
  exact .of_eq rfl rfl rfl rfl

theorem State.Keeps.stopEntry {p : PortId} {e : SendEntry} (h : s.Keeps t) : s.Keeps (State.stopEntry p t e) := by
  simp only [State.stopEntry]
  refine .ite h.endEntry ?_
  split
  · refine h.modPort ?_
    exact .of_eq rfl rfl rfl rfl
  · exact h.releaseDir.endEntry

theorem State.Keeps.stopEntries {p : PortId} {es : List SendEntry} (h : s.Keeps t) :
    s.Keeps (es.foldl (State.stopEntry p) t) := by
  induction es generalizing t with
  | nil => exact h
  | cons e es ih => exact ih h.stopEntry

theorem State.Keeps.stopPort {p : PortId} (h : s.Keeps t) : s.Keeps (t.stopPort p) := by
  have hs := (h.then (.abortReceiving (p := p) (.refl t))).stopEntries (p := p) (es := (t.port p).queue)
  simp only [State.stopPort]
  refine .modPort (.ite (hs.then (.completeDrain (.refl _))) hs) ?_
  exact ⟨fun hf => .of_fill nofun hf.fill_le, id, id⟩

theorem State.Keeps.resetPort {p : PortId} (h : s.Keeps t) : s.Keeps (t.resetPort p) := by
  simp only [State.resetPort]
  refine .modPort (.then (.ite h.stopPort h) (.removePending (.refl _))) ?_
  exact ⟨fun hf => hf.of_fifo_line rfl rfl, fun _ => LineSettings.dflt_valid, fun _ => FramerSettings.dflt_valid⟩

end
end Sys2Proof.Machine
end

