-- ==== Sys2Proof/Proofs/Dirn.lean ====
section
namespace Sys2Proof.Machine

/-! ### DIRn under the transmitter -/

/-- R112. With DIRn released there is nothing to show. -/
theorem Port.DirSound.of_low {q : Port} (h : q.dir = false) : q.DirSound := fun hd => by simp [h] at hd

theorem Port.DirSound.of_current {q : Port} (hc : q.current.isSome = true) (ht : q.tx ≠ .turnaround)
    (hd : q.dir = true → q.settings.duplex = .half ∨ q.stopping = true) : q.DirSound := fun hdir =>
  have ⟨e, he⟩ := Option.isSome_iff_exists.mp hc
  ⟨e, he, ht, hd hdir⟩

theorem Port.current_isSome_iff (q : Port) : q.current.isSome = true ↔ ∃ e ∈ q.queue, e.state = .sending := by
  simp [Port.current]

/-- What DIRn depends on, the same in two ports. -/
structure Port.SameSends (q q' : Port) : Prop where
  dir : q'.dir = q.dir
  queue : q'.queue = q.queue
  tx : q'.tx = q.tx
  settings : q'.settings = q.settings
  stopping : q'.stopping = q.stopping

theorem Port.SameSends.dirSound {q q' : Port} (h : q.SameSends q') (hd : q.DirSound) : q'.DirSound :=
  hd.of_eq h.dir h.queue h.tx h.settings h.stopping

/-- R128. The end of an entry is, for the transmitter of its port, the entry's leaving the queue. -/
theorem State.endEntry_sends (s : State) (p : PortId) (e : SendEntry) (status : SendStatus) (byRequest judges : Bool) :
    ((s.port p).ended e).SameSends ((s.endEntry p e status byRequest judges).port p) := by
  unfold State.endEntry
  extract_lets ended released counted raised
  have hreleased : ((s.port p).ended e).SameSends (released.port p) := by
    have hp : ended.port p = (s.port p).ended e := by simp only [ended, State.port_modPort_same, Port.ended]
    rw [show released.port p = ended.port p from rfl, hp]
    exact ⟨rfl, rfl, rfl, rfl, rfl⟩
  have hcounted : ((s.port p).ended e).SameSends (counted.port p) := by
    simp only [counted]
    split
    · simp only [State.countDrained, State.count, State.port_modOps, State.port_modPort_same]
      exact ⟨hreleased.dir, hreleased.queue, hreleased.tx, hreleased.settings, hreleased.stopping⟩
    · exact hreleased
  have hraised : ((s.port p).ended e).SameSends (raised.port p) := by
    simp only [raised]
    split
    · rw [State.port_raise]
      exact hcounted
    · exact hcounted
  split
  · simp only [State.completeDrain, State.port_modPort_same, State.port_modOps]
    exact ⟨hraised.dir, hraised.queue, hraised.tx, hraised.settings, hraised.stopping⟩
  · exact hraised

/-- An operation of one port leaves the others. -/
def State.OnlyPort (p : PortId) (s t : State) : Prop := ∀ x, x ≠ p → t.port x = s.port x

section
variable {s t : State} {p : PortId}

theorem State.OnlyPort.refl (p : PortId) (s : State) : State.OnlyPort p s s := fun _ _ => rfl

theorem State.OnlyPort.modPort {f : Port → Port} (h : State.OnlyPort p s t) : State.OnlyPort p s (t.modPort p f) :=
  fun x hx => (t.port_modPort_other f hx).trans (h x hx)

theorem State.OnlyPort.ite {c : Prop} [Decidable c] {u : State} (ht : State.OnlyPort p s t) (hu : State.OnlyPort p s u) :
    State.OnlyPort p s (if c then t else u) := by
  split
  · exact ht
  · exact hu

theorem State.OnlyPort.of_ports (h : State.OnlyPort p s t) {u : State} (hp : u.ports = t.ports) : State.OnlyPort p s u :=
  fun x hx => by rw [State.port, hp]; exact h x hx

theorem State.OnlyPort.count {f : PortCounters → PortCounters} (h : State.OnlyPort p s t) :
    State.OnlyPort p s (t.count p f) := .modPort h

theorem State.OnlyPort.countDrained (h : State.OnlyPort p s t) : State.OnlyPort p s (t.countDrained p) := h.of_ports rfl

theorem State.OnlyPort.completeDrain {status : OpStatus} {n : Nat} {byRequest : Bool} (h : State.OnlyPort p s t) :
    State.OnlyPort p s (t.completeDrain p status n byRequest) := .modPort (h.of_ports rfl)

theorem State.OnlyPort.endEntry {e : SendEntry} {status : SendStatus} {byRequest judges : Bool} (h : State.OnlyPort p s t) :
    State.OnlyPort p s (t.endEntry p e status byRequest judges) := by
  unfold State.endEntry
  extract_lets ended released counted raised
  have hended : State.OnlyPort p s ended := h.modPort
  have hreleased : State.OnlyPort p s released := hended.of_ports rfl
  have hcounted : State.OnlyPort p s counted := .ite hreleased.count.countDrained hreleased
  have hraised : State.OnlyPort p s raised := .ite (hcounted.of_ports rfl) hcounted
  exact .ite hraised.completeDrain hraised

theorem State.OnlyPort.holdOrEnd {e : SendEntry} {status : SendStatus} (h : State.OnlyPort p s t) :
    State.OnlyPort p s (t.holdOrEnd p e status) := by
  simp only [State.holdOrEnd]
  split
  · exact h.endEntry
  · exact .ite (.endEntry h.modPort) h.modPort

theorem State.OnlyPort.beginCharacter {e : SendEntry} {k : Nat} (h : State.OnlyPort p s t) :
    State.OnlyPort p s (t.beginCharacter p e k) := by
  simp only [State.beginCharacter]
  refine .ite ?_ h.modPort
  split
  · exact h.modPort
  · rename_i b _
    obtain ⟨-, -, -, -, -, -, -, hp, -⟩ := t.checkBlock_frame e.desc b
    have hc := h.of_ports hp
    exact .ite (.ite (.endEntry hc.modPort) hc.holdOrEnd) h.modPort

theorem State.OnlyPort.startEntry {e : SendEntry} (h : State.OnlyPort p s t) : State.OnlyPort p s (t.startEntry p e) := by
  simp only [State.startEntry]
  exact .ite h.endEntry (.beginCharacter h.modPort)

/-- An operation of one port keeps DIRn where it may be when it does so at that port. -/
theorem State.OnlyPort.dirSound (h : State.OnlyPort p s t) (hs : ∀ x, (s.port x).DirSound) (hp : (t.port p).DirSound) (x : PortId) :
    (t.port x).DirSound := by
  by_cases hx : x = p
  · rw [hx]
    exact hp
  · rw [h x hx]
    exact hs x

end

/-- R128. An entry ends with DIRn released. -/
theorem State.endEntry_dirSound_of_low {s : State} {p : PortId} (h : (s.port p).dir = false) (e : SendEntry)
    (status : SendStatus) (byRequest judges : Bool) : ((s.endEntry p e status byRequest judges).port p).DirSound := by
  refine .of_low ((s.endEntry_sends p e status byRequest judges).dir.trans ?_)
  simp only [Port.ended, Port.entryEnded]
  split <;> exact h

theorem State.releaseDir_dir (s : State) (p : PortId) : ((s.releaseDir p).port p).dir = false := by
  rw [State.releaseDir, State.port_modPort_same]

theorem find?_eraseP {α : Type} {l : List α} {f g : α → Bool} {a : α} (hg : l.find? g = some a) (hf : f a = false) :
    (l.eraseP f).find? g = some a := by
  induction l with
  | nil => simp at hg
  | cons b l ih =>
    rw [List.find?_cons] at hg
    rw [List.eraseP_cons]
    cases hgb : g b with
    | true =>
      rw [hgb] at hg
      cases hg
      simp [hf, hgb]
    | false =>
      rw [hgb] at hg
      cases hfb : f b with
      | true => simpa using hg
      | false => simpa [hgb] using ih hg

/-- R112, R118. The end of a QUEUED entry leaves the SENDING one, which has another send id. -/
theorem State.endEntry_dirSound_of_queued {s : State} {p : PortId} {e : SendEntry} (h : (s.port p).DirSound)
    (hn : ((s.port p).queue.map (·.id)).Nodup) (he : e ∈ (s.port p).queue) (hq : e.state = .queued) (status : SendStatus)
    (byRequest judges : Bool) : ((s.endEntry p e status byRequest judges).port p).DirSound := by
  refine (s.endEntry_sends p e status byRequest judges).dirSound fun hd => ?_
  rw [Port.ended_queued hq] at hd ⊢
  obtain ⟨x, hx, hsound⟩ := h hd
  refine ⟨x, find?_eraseP hx ?_, hsound⟩
  have hxs : x.state = .sending := by simpa using List.find?_some hx
  have hne : x.id ≠ e.id := fun hid => by
    have := List.inj_on_of_nodup_map hn (List.mem_of_find?_eq_some hx) he hid
    rw [this, hq] at hxs
    cases hxs
  simpa using hne

/-- R125, R126. The end of the characters: the hold keeps the entry SENDING, and without one DIRn is released. -/
theorem State.holdOrEnd_dirSound {s : State} {p : PortId} (hc : (s.port p).current.isSome = true)
    (hd : (s.port p).dir = true → (s.port p).settings.duplex = .half) (e : SendEntry) (status : SendStatus) :
    ((s.holdOrEnd p e status).port p).DirSound := by
  simp only [State.holdOrEnd]
  split
  · rename_i hfull
    refine State.endEntry_dirSound_of_low ?_ e status false true
    by_contra hdir
    simp [hd (by simpa using hdir)] at hfull
  · split
    · exact State.endEntry_dirSound_of_low (s.releaseDir_dir p) e status false true
    · rw [State.port_modPort_same]
      exact .of_current hc nofun fun hdir => .inl (hd hdir)

theorem Port.putCharacter_dirSound {q : Port} (hc : q.current.isSome = true) (hd : q.dir = true → q.settings.duplex = .half)
    (block : List Byte) (k : Nat) : (q.putCharacter block k).DirSound :=
  .of_current hc nofun fun hdir => .inl (hd hdir)

theorem State.checkBlock_port (s : State) (d : DescId) (b : BlockId) (p : PortId) : (s.checkBlock d b).port p = s.port p := by
  obtain ⟨-, -, -, -, -, -, -, hp, -⟩ := s.checkBlock_frame d b
  rw [State.port, hp, State.port]

/-- R113, R126. A character of the SENDING entry begins, or the entry ends with DIRn released. -/
theorem State.beginCharacter_dirSound {s : State} {p : PortId} (hc : (s.port p).current.isSome = true)
    (hd : (s.port p).dir = true → (s.port p).settings.duplex = .half) (e : SendEntry) (k : Nat) :
    ((s.beginCharacter p e k).port p).DirSound := by
  have hput (block : List Byte) : ((s.modPort p fun q => q.putCharacter block k).port p).DirSound := by
    rw [State.port_modPort_same]
    exact Port.putCharacter_dirSound hc hd block k
  simp only [State.beginCharacter]
  split
  · split
    · exact hput _
    · split
      · split
        · exact State.endEntry_dirSound_of_low (State.releaseDir_dir _ p) e _ false true
        · exact State.holdOrEnd_dirSound (by rwa [State.checkBlock_port]) (by rwa [State.checkBlock_port]) e _
      · exact hput _
  · rw [State.port_modPort_same]
    exact Port.putCharacter_dirSound hc hd _ k

/-- R123. An entry that has become SENDING starts with DIRn released. -/
theorem State.startEntry_dirSound {s : State} {p : PortId} (hc : (s.port p).current.isSome = true)
    (hd : (s.port p).dir = false) (e : SendEntry) : ((s.startEntry p e).port p).DirSound := by
  simp only [State.startEntry]
  split
  · exact State.endEntry_dirSound_of_low hd e _ false true
  · refine State.beginCharacter_dirSound ?_ ?_ e 0 <;> rw [State.port_modPort_same]
    · exact hc
    · exact fun hdir => by simpa using hdir

/-- R104. After a stop DIRn is asserted only for the entry that finishes its last character. -/
theorem Port.stopped_stopping {q : Port} (h : q.DirSound) (hs : q.SendSound) (hd : q.stopped.dir = true) :
    q.stopped.stopping = true := by
  cases hl : q.onLine with
  | true => simp [Port.stopped, hl]
  | false =>
    have hd : q.tx = .idle ∧ q.dir = true := by simpa [Port.stopped, hl] using hd
    obtain ⟨e, he, -⟩ := h hd.2
    refine absurd hd.1 (hs.any_sending.mp (List.any_eq_true.mpr ⟨e, List.mem_of_find?_eq_some he, ?_⟩))
    simpa using List.find?_some he

theorem Port.stopped_dirSound {q : Port} (h : q.DirSound) (hs : q.SendSound) : q.stopped.DirSound := by
  intro hd
  have hstop := Port.stopped_stopping h hs hd
  have hl : q.onLine = true := hstop
  have htx : q.tx ≠ .idle ∧ q.tx ≠ .turnaround := by
    obtain ⟨value, format, block, ht⟩ := q.onLine_iff.mp hl
    simp [ht]
  obtain ⟨e, he, hes⟩ := List.any_eq_true.mp (hs.any_sending.mpr htx.1)
  have hes : e.state = .sending := by simpa using hes
  refine Port.DirSound.of_current ?_ (by simp [Port.stopped, hl, htx.2]) (fun _ => .inr hstop) hd
  exact (Port.current_isSome_iff _).mpr ⟨e, by simp [Port.stopped, hl, he, hes], hes⟩

theorem State.patched_port_other (s : State) (m : RecordMemory) (n : NoticeQueue) (o : OpTable) {p : PortId} (q : Port)
    {x : PortId} (hx : x ≠ p) : (s.patched m n o p q).port x = s.port x :=
  s.port_modPort_other (fun _ => q) hx

/-- R104. Outside RUNNING and PAUSED an entry that is SENDING is one that finishes its last character. -/
theorem Port.DirSound.stopping {q : Port} (h : q.DirSound) (hs : q.SendSound) (ho : q.canSend = false) (hd : q.dir = true) :
    q.stopping = true :=
  have ⟨_, he, _⟩ := h hd
  (hs.off ho).2 (List.ne_nil_of_mem (List.mem_of_find?_eq_some he))

/-- Settings replaced under an entry that finishes its last character leave DIRn where it may be. -/
theorem Port.DirSound.of_stopping {q q' : Port} (h : q.DirSound) (hstop : q.dir = true → q.stopping = true)
    (hd : q'.dir = q.dir) (hq : q'.queue = q.queue) (ht : q'.tx = q.tx) (hs : q'.stopping = q.stopping) : q'.DirSound := by
  intro hdir
  have hdir : q.dir = true := hd ▸ hdir
  obtain ⟨e, he, htx, -⟩ := h hdir
  exact ⟨e, by rwa [Port.current, hq], ht ▸ htx, .inr (hs.trans (hstop hdir))⟩

theorem State.stopPort_dirSound {s : State} (hpool : s.PoolSound) (hsend : ∀ p, (s.port p).SendSound)
    (hdir : ∀ p, (s.port p).DirSound) (p x : PortId) : ((s.stopPort p).port x).DirSound := by
  rw [State.stopPort_eq hpool (hsend p)]
  by_cases hx : x = p
  · rw [hx, State.patched_port]
    exact Port.stopped_dirSound (hdir p) (hsend p)
  · rw [State.patched_port_other s _ _ _ _ hx]
    exact hdir x

theorem State.removePending_port (s : State) (p x : PortId) : (s.removePending p).port x = s.port x := by
  obtain ⟨-, -, -, -, -, -, -, hp, -⟩ := s.removePending_frame p
  rw [State.port, hp, State.port]

theorem State.resetPort_dirSound {s : State} (hpool : s.PoolSound) (hsend : ∀ p, (s.port p).SendSound)
    (hdir : ∀ p, (s.port p).DirSound) (p x : PortId) : ((s.resetPort p).port x).DirSound := by
  have hstopped : ∀ x, ((if (s.port p).canSend then s.stopPort p else s).port x).DirSound := by
    split
    · exact State.stopPort_dirSound hpool hsend hdir p
    · exact hdir
  have hstopping : ((if (s.port p).canSend then s.stopPort p else s).port p).dir = true →
      ((if (s.port p).canSend then s.stopPort p else s).port p).stopping = true := by
    split
    · rw [State.stopPort_eq hpool (hsend p), State.patched_port]
      exact Port.stopped_stopping (hdir p) (hsend p)
    · rename_i ho
      exact (hdir p).stopping (hsend p) (by simpa using ho)
  by_cases hx : x = p
  · subst hx
    rw [State.resetPort, State.port_modPort_same, State.removePending_port]
    exact (hstopped x).of_stopping hstopping rfl rfl rfl rfl
  · rw [State.resetPort, State.port_modPort_other _ _ hx, State.removePending_port]
    exact hstopped x

end Sys2Proof.Machine
end

