-- ==== Sys2Proof/Proofs/Preserves.lean ====
section
namespace Sys2Proof.Machine

/-! ### The queues of the link -/

theorem Link.Bounded.of_eq {l l' : Link} (h : l.Bounded) (hr : l'.requests = l.requests) (hp : l'.replies = l.replies)
    (hv : l'.reserved = l.reserved) (he : l'.executor = l.executor) : l'.Bounded :=
  ⟨hr ▸ h.requests, hp ▸ hv ▸ h.replies, by rw [hv, he]; exact h.reserved⟩

/-- R143. No place is reserved while the Executor is not EXECUTING. -/
theorem Link.Bounded.reserved_of_idle {l : Link} (h : l.Bounded) (hi : l.executor = .idle) : l.reserved = 0 := by
  rw [h.reserved, hi]

theorem Link.placeFree_iff (l : Link) : l.placeFree = true ↔ l.replies.length + l.reserved < 12 := decide_eq_true_iff

/-- R142. One more request waits, where the queue has a place. -/
theorem Link.Bounded.request {l : Link} (h : l.Bounded) (hl : l.requests.length < 8) (m : Message) (outstanding : List Byte)
    (counters : LinkCounters) :
    ({ l with requests := l.requests ++ [m], outstanding := outstanding, counters := counters } : Link).Bounded :=
  ⟨by simpa using hl, h.replies, h.reserved⟩

/-- R143. One more reply waits, in a free place. -/
theorem Link.Bounded.reply {l : Link} (h : l.Bounded) (hp : l.placeFree = true) (r : Reply) :
    ({ l with replies := l.replies ++ [r] } : Link).Bounded := by
  have hp := l.placeFree_iff.mp hp
  refine ⟨h.requests, ?_, h.reserved⟩
  simp only [List.length_append, List.length_singleton]
  omega

theorem Link.Bounded.replyBegun {l : Link} (h : l.Bounded) {r : Reply} {rest : List Reply} (hr : l.replies = r :: rest)
    (htx : Option Outgoing) : ({ l with replies := rest, htx := htx } : Link).Bounded := by
  have := h.replies
  simp only [hr, List.length_cons] at this
  exact ⟨h.requests, by simp only; omega, h.reserved⟩

/-- R145. The request at the head is taken, and answered in the place that it reserves. -/
theorem Link.Bounded.answered {l : Link} (h : l.Bounded) (hi : l.executor = .idle) {r : Message} {rest : List Message}
    (hr : l.requests = r :: rest) (hp : l.placeFree = true) (reply : Reply) {after : Executor}
    (ha : after = .idle ∨ after = .stopped) :
    ({ l with requests := rest, replies := l.replies ++ [reply], reserved := l.reserved + 1 - 1, executor := after } :
      Link).Bounded := by
  have hp := l.placeFree_iff.mp hp
  have hrequests := h.requests
  rw [hr, List.length_cons] at hrequests
  have hv := h.reserved_of_idle hi
  refine ⟨by simp only; omega, ?_, ?_⟩
  · simp only [List.length_append, List.length_singleton]
    omega
  · obtain rfl | rfl := ha <;> simp [hv]

/-- R11, R145. The request at the head is taken, and held with the place that it reserves. -/
theorem Link.Bounded.held {l : Link} (h : l.Bounded) (hi : l.executor = .idle) {r : Message} {rest : List Message}
    (hr : l.requests = r :: rest) (hp : l.placeFree = true) (k : Kind) : (l.takeRequest r k rest).Bounded := by
  have hp := l.placeFree_iff.mp hp
  have hrequests := h.requests
  rw [hr, List.length_cons] at hrequests
  have hv := h.reserved_of_idle hi
  refine ⟨?_, ?_, by simp [Link.takeRequest, hv]⟩ <;> simp only [Link.takeRequest] <;> omega

/-- R11. The held request is answered in its place. -/
theorem Link.Bounded.released {l : Link} (h : l.Bounded) {tag : Byte} {kind : Kind} (he : l.executor = .executing tag kind)
    (reply : Reply) :
    ({ l with replies := l.replies ++ [reply], reserved := l.reserved - 1, executor := .idle } : Link).Bounded := by
  have hv : l.reserved = 1 := by rw [h.reserved, he]
  have hreplies := h.replies
  refine ⟨h.requests, ?_, by simp [hv]⟩
  simp only [List.length_append, List.length_singleton]
  omega

/-! ### What a row keeps -/

/-- What every row keeps of the part's collections and settings. -/
structure State.Preserves (s t : State) : Prop extends s.Keeps t where
  chains : s.classifier.Sound → t.classifier.Sound
  dir : s.PoolSound → (∀ p, (s.port p).SendSound) → (∀ p, (s.port p).DirSound) → ∀ p, (t.port p).DirSound
  link : s.link.Bounded → t.link.Bounded

/-- What the execution of a request keeps; of the link it may change the counters alone. -/
structure State.Executes (s t : State) : Prop extends s.Keeps t where
  chains : s.classifier.Sound → t.classifier.Sound
  dir : s.PoolSound → (∀ p, (s.port p).SendSound) → (∀ p, (s.port p).DirSound) → ∀ p, (t.port p).DirSound
  link : ∃ counters, t.link = { s.link with counters := counters }

section
variable {s t u : State}

theorem State.KeepsAll.executes (h : s.KeepsAll t) (hl : t.link = s.link) : s.Executes t :=
  ⟨h.toKeeps, h.chains, fun _ _ hd p => h.dir p (hd p), s.link.counters, hl⟩

theorem State.KeepsAll.preserves (h : s.KeepsAll t) (hl : s.link.Bounded → t.link.Bounded) : s.Preserves t :=
  ⟨h.toKeeps, h.chains, fun _ _ hd p => h.dir p (hd p), hl⟩

theorem State.Preserves.of_link (h : s.KeepsAll t) (hl : t.link = s.link) : s.Preserves t := h.preserves fun hb => hl ▸ hb

theorem State.Preserves.refl (s : State) : s.Preserves s := .of_link (.refl s) rfl

theorem State.Executes.refl (s : State) : s.Executes s := (KeepsAll.refl s).executes rfl

theorem State.Executes.then (h : s.Executes t) (h' : t.KeepsAll u) (hl : s.link.Bounded → u.link.Bounded) : s.Preserves u :=
  ⟨h.toKeeps.trans h'.toKeeps, fun hs => h'.chains (h.chains hs), fun hp hs hd p => h'.dir p (h.dir hp hs hd p), hl⟩

theorem State.Preserves.ite {c : Prop} [Decidable c] (ht : s.Preserves t) (hu : s.Preserves u) :
    s.Preserves (if c then t else u) := by
  split
  · exact ht
  · exact hu

/-- A request's execution that tests a condition first. -/
theorem State.Executes.ite {c : Prop} [Decidable c] {a b : State × Response} (ha : s.Executes a.1) (hb : s.Executes b.1) :
    s.Executes (if c then a else b).1 := by
  split
  · exact ha
  · exact hb

/-- R145. The taking of a request keeps what its execution keeps. -/
theorem State.request_preserves {k : Kind} {run : Byte → List Byte → State → State × Response}
    (h : ∀ tag body, s.Executes (run tag body s).1) : s.Preserves (s.request k run) := by
  obtain hs | ⟨r, rest, hidle, hreq, -, hplace, hrun⟩ := s.request_cases k run
  · rw [hs]
    exact .refl s
  rw [hrun]
  have hx := h r.tag r.body
  obtain ⟨counters, hl⟩ := hx.link
  have taken (after : Executor) (ha : after = .idle ∨ after = .stopped) (status : Status) (fields : List Byte)
      (role : ReplyRole) : s.Preserves (((run r.tag r.body s).1.modLink fun l => l.takeRequest r k rest).answer r.tag r.kind
        status fields role after) := by
    refine hx.then (.answer (.of_eq rfl rfl rfl rfl)) fun hb => ?_
    refine (hb.answered hidle hreq hplace ⟨⟨replyKind r.kind, r.tag, replyBody status fields⟩, role⟩ ha).of_eq ?_ ?_ ?_ ?_ <;>
      simp only [State.answer, State.modLink_link, Link.takeRequest, hl]
  dsimp only
  split
  · exact taken .idle (.inl rfl) _ _ _
  · exact taken .stopped (.inr rfl) _ _ _
  · refine hx.then (.of_eq rfl rfl rfl rfl) fun hb => (hb.held hidle hreq hplace k).of_eq ?_ ?_ ?_ ?_ <;>
      simp only [State.modLink_link, Link.takeRequest, hl]

theorem checked_executes {α : Type} {k : Kind} {parse : List Byte → Except Nat α}
    {act : Byte → α → State → State × Response} {tag : Byte} {body : List Byte}
    (h : ∀ a, lengthAllowed k body.length = true → parse body = .ok a → s.Executes (act tag a s).1) :
    s.Executes (checked k parse act tag body s).1 := by
  simp only [checked]
  split
  · rename_i hl
    split
    · exact .refl s
    · exact h _ hl ‹_›
  · exact .refl s

/-- What an outcome keeps when it is a next state. -/
def State.Leads (s : State) (o : Host.Outcome State Fault Refusal) : Prop := ∀ t, o = .next t → s.Preserves t

theorem State.Leads.next (h : s.Preserves t) : s.Leads (.next t) := fun u hu => by cases hu; exact h

theorem State.Leads.unlessReset (h : s.Preserves t) : s.Leads (s.unlessReset t) := .next (.ite (.refl s) h)

theorem State.Leads.request {α : Type} {k : Kind} {parse : List Byte → Except Nat α}
    {act : Byte → α → State → State × Response}
    (h : ∀ tag body a, lengthAllowed k body.length = true → parse body = .ok a → s.Executes (act tag a s).1) :
    s.Leads (s.execRequest k parse act) :=
  .unlessReset (State.request_preserves fun tag body => checked_executes (h tag body))

end

/-! ### Resets and time -/

theorem State.afterReset_preserves (s u : State) (cause : ResetCause) : s.Preserves (u.afterReset cause) where
  notices _ := NoticeQueue.afterReset_sound cause
  ports p := ⟨fun _ => State.reset_fifoBounded p, fun _ => State.reset_settingsValid.lines p,
    fun _ => State.reset_settingsValid.framers p⟩
  ranged _ := ⟨State.reset_settingsValid.rules, State.reset_settingsValid.templates, State.reset_settingsValid.held⟩
  stores i _ := State.reset_settingsValid.stores i
  chains _ := State.reset_classifierSound
  dir _ _ _ p := State.reset_dirSound p
  link _ := ⟨by simp [State.afterReset, Link.afterReset], by simp [State.afterReset, Link.afterReset], rfl⟩

theorem State.port_tick (s : State) (h : s.pins.reset = false) (p : PortId) : s.tick.port p = (s.port p).tick := by
  simp only [State.tick, h, Bool.false_eq_true, if_false, State.port]
  simp [Vector.get_eq_getElem]

theorem Port.tick_keeps (q : Port) : q.Keeps q.tick := .of_eq rfl rfl rfl rfl

/-- R112. Time moves no entry and ends no turnaround wait. -/
theorem Port.tick_dirSound {q : Port} (h : q.DirSound) : q.tick.DirSound := by
  intro hd
  obtain ⟨e, he, ht, hs⟩ := h hd
  have hes : e.state = .sending := by simpa using List.find?_some he
  refine Port.DirSound.of_current ?_ ?_ (fun _ => hs) hd
  · refine (Port.current_isSome_iff _).mpr ⟨e, List.mem_map.mpr ⟨e, List.mem_of_find?_eq_some he, ?_⟩, hes⟩
    simp [SendEntry.tick, hes]
  · simp only [Port.tick, TxPhase.tick]
    split
    · simp
    · exact ht

theorem State.tick_preserves (s : State) : s.Preserves s.tick := by
  cases hr : s.pins.reset with
  | true =>
    rw [State.tick, if_pos hr]
    exact .refl s
  | false =>
    have hport := s.port_tick hr
    have ht : s.tick.notices = s.notices ∧ s.tick.classifier = s.classifier ∧ s.tick.stores = s.stores ∧
        s.tick.link.requests = s.link.requests ∧ s.tick.link.replies = s.link.replies ∧
        s.tick.link.reserved = s.link.reserved ∧ s.tick.link.executor = s.link.executor := by
      simp [State.tick, hr]
    obtain ⟨hn, hc, hs, hrequests, hreplies, hreserved, hexecutor⟩ := ht
    refine ⟨⟨hn ▸ id, fun p => ?_, hc ▸ id, fun i => by rw [State.store, State.store, hs]; exact id⟩, hc ▸ id, fun _ _ hd p => ?_,
      fun hb => hb.of_eq hrequests hreplies hreserved hexecutor⟩
    · rw [hport]
      exact (s.port p).tick_keeps
    · rw [hport]
      exact Port.tick_dirSound (hd p)

end Sys2Proof.Machine
end

