-- ==== Sys2Proof/Proofs/RowsLink.lean ====
section
namespace Sys2Proof.Machine

/-! ### The rows of the link -/

/-- An operation of the link alone, which keeps the bounds of its queues. -/
def State.Links (s t : State) : Prop := ∃ l, t = { s with link := l } ∧ (s.link.Bounded → l.Bounded)

section
variable {s t u : State}

theorem State.Links.refl (s : State) : s.Links s := ⟨s.link, rfl, id⟩

theorem State.Links.modLink {f : Link → Link} (h : s.Links t) (hf : t.link.Bounded → (f t.link).Bounded) :
    s.Links (t.modLink f) := by
  obtain ⟨l, rfl, hl⟩ := h
  exact ⟨f l, rfl, fun hb => hf (hl hb)⟩

theorem State.Links.preserves (h : s.Links t) : s.Preserves t := by
  obtain ⟨l, rfl, hl⟩ := h
  exact State.KeepsAll.preserves (.of_eq rfl rfl rfl rfl) hl

theorem State.Links.setReceiver {r : Receiver} (h : s.Links t) : s.Links (t.setReceiver r) :=
  h.modLink fun hb => hb.of_eq rfl rfl rfl rfl

theorem State.Links.countLink {f : LinkCounters → LinkCounters} (h : s.Links t) : s.Links (t.countLink f) :=
  h.modLink fun hb => hb.of_eq rfl rfl rfl rfl

theorem State.Links.refuseArrival {tag kind : Byte} {status : Status} {fields : List Byte} (h : s.Links t) :
    s.Links (t.refuseArrival tag kind status fields) := by
  simp only [State.refuseArrival]
  split
  · exact h.modLink fun hb => hb.reply ‹_› _
  · exact h.modLink fun hb => hb.of_eq rfl rfl rfl rfl

theorem State.Links.arrive {m : Message} (h : s.Links t) : s.Links (t.arrive m) := by
  simp only [State.arrive]
  split
  · exact h.refuseArrival
  split
  · exact h.refuseArrival
  split
  · exact h.refuseArrival
  · exact h.modLink fun hb => hb.request (by omega) m _ _

theorem State.beginReply_links (s : State) : s.Links s.beginReply := by
  simp only [State.beginReply]
  split
  · rename_i hr
    split
    · exact (State.Links.refl s).modLink fun hb => hb.replyBegun hr _
    · exact .refl s
  · exact .refl s

theorem State.beginReport_links (s : State) : s.Links s.beginReport := by
  simp only [State.beginReport]
  split
  · split
    · exact (State.Links.refl s).modLink fun hb => hb.of_eq rfl rfl rfl rfl
    · exact .refl s
  · exact .refl s

theorem State.beginNotice_link (s : State) : ∃ htx, s.beginNotice.link = { s.link with htx := htx } := by
  simp only [State.beginNotice]
  split
  · split
    · exact ⟨_, rfl⟩
    · exact ⟨s.link.htx, rfl⟩
  · exact ⟨s.link.htx, rfl⟩

theorem State.beginNotice_preserves (s : State) : s.Preserves s.beginNotice := by
  obtain ⟨htx, hl⟩ := s.beginNotice_link
  refine (State.KeepsAll.refl s).beginNotice.preserves fun hb => ?_
  rw [hl]
  exact hb.of_eq rfl rfl rfl rfl

theorem State.endReport_preserves (s : State) : s.Preserves s.endReport := by
  obtain ⟨-, -, -, hn, -, hc, hs, hp, -⟩ := s.endReport_frame
  refine State.KeepsAll.preserves (.of_eq hn hp hc hs) fun hb => ?_
  simp only [State.endReport]
  split
  · exact hb.of_eq rfl rfl rfl rfl
  · exact hb

theorem State.endReply_preserves (s : State) : s.Preserves s.endReply := by
  have ended (l : List Byte) : s.Preserves (s.modLink fun x => { x with htx := none, outstanding := l }) :=
    ((State.Links.refl s).modLink fun hb => hb.of_eq rfl rfl rfl rfl).preserves
  simp only [State.endReply]
  split
  · split
    · exact ended _
    · exact ended _
    · exact State.KeepsAll.preserves (.of_eq rfl rfl rfl rfl) fun hb => hb.of_eq rfl rfl rfl rfl
    · exact s.afterReset_preserves _ _
  · exact .refl s

theorem State.unknownRequest_preserves (s : State) : s.Preserves s.unknownRequest := by
  simp only [State.unknownRequest]
  split
  · rename_i r rest hidle hreq
    split
    · rename_i h
      obtain ⟨-, hplace⟩ := Bool.and_eq_true_iff.mp h
      refine State.KeepsAll.preserves (.answer (.of_eq rfl rfl rfl rfl)) fun hb => ?_
      exact hb.answered hidle hreq hplace ⟨_, _⟩ (.inl rfl)
    · exact .refl s
  · exact .refl s

theorem State.endClassification_preserves (s : State) (k : Classification) : s.Preserves (s.endClassification k) := by
  refine (State.KeepsAll.refl s).endClassification.preserves fun hb => ?_
  obtain ⟨-, -, -, hl, -⟩ := s.defaultAction_frame k
  rw [State.endClassification_eq]
  have hl : (s.classified k).link = s.link := hl
  simp only [State.carryOutHeld]
  split
  · rename_i he
    rw [hl] at he
    simp only [State.answer, hl]
    exact hb.released he _
  · rwa [hl]

/-! ### The rows of the ports -/

theorem Port.start_receives (q : Port) : q.Receives q.start :=
  ⟨fun h => .of_fill nofun h.fill_le, rfl, by simp only [Port.start, Framer.switchOn]; split <;> rfl, rfl, rfl, rfl, rfl⟩

theorem Port.resume_receives (q : Port) : q.Receives q.resume :=
  ⟨fun h => h.of_fifo_line rfl rfl, rfl, by simp only [Port.resume, Framer.switchOn]; split <;> rfl, rfl, rfl, rfl, rfl⟩

theorem Port.withState_receives (q : Port) (state : PortState) : q.Receives { q with state := state } :=
  ⟨fun h => h.of_fifo_line rfl rfl, rfl, rfl, rfl, rfl, rfl, rfl⟩

theorem State.portConfig_executes (s : State) (p : PortId) {ls : LineSettings} (hv : ls.Valid)
    (hc : (s.port p).configurable = true) :
    s.Executes (s.modPort p fun q => { q with settings := ls, state := .ready }) := by
  refine ⟨State.keeps_modPort ⟨fun h => h.of_fifo_line rfl rfl, fun _ => hv, id⟩, id, fun _ hs hd => ?_,
    s.link.counters, rfl⟩
  have hoff : (s.port p).canSend = false := by
    simp only [Port.configurable, Bool.or_eq_true, beq_iff_eq] at hc
    obtain hc | hc := hc <;> simp [Port.canSend, hc]
  refine State.OnlyPort.dirSound (.modPort (.refl p s)) hd ?_
  rw [State.port_modPort_same]
  exact (hd p).of_stopping ((hd p).stopping (hs p) hoff) rfl rfl rfl rfl

theorem State.stopPort_executes (s : State) (p : PortId) : s.Executes (s.stopPort p) := by
  obtain ⟨-, -, -, hl, hc, -⟩ := s.stopPort_frame p
  exact ⟨(State.Keeps.refl s).stopPort, hc ▸ id, fun hp hs hd => State.stopPort_dirSound hp hs hd p, s.link.counters, hl⟩

theorem State.resetPort_executes (s : State) (p : PortId) : s.Executes (s.resetPort p) := by
  obtain ⟨-, -, -, hl, -⟩ := s.resetPort_frame p
  refine ⟨(State.Keeps.refl s).resetPort, fun hs => ?_, fun hp hs hd => State.resetPort_dirSound hp hs hd p,
    s.link.counters, hl⟩
  have hc : (if (s.port p).canSend then s.stopPort p else s).classifier.Sound := by
    obtain ⟨-, -, -, -, hc, -⟩ := s.stopPort_frame p
    split
    · rwa [hc]
    · exact hs
  exact ((State.KeepsAll.refl _).removePending (p := p)).chains hc

theorem State.clearGroup_executes (s : State) (g : CounterGroup) : s.Executes (s.clearGroup g) := by
  have hk := (State.KeepsAll.refl s).clearGroup (g := g)
  refine ⟨hk.toKeeps, hk.chains, fun _ _ hd p => hk.dir p (hd p), ?_⟩
  cases g
  case link => exact ⟨_, rfl⟩
  all_goals exact ⟨s.link.counters, rfl⟩

/-! ### The rows of the transmitter -/

theorem State.findEntry_eq_some {id : Half} {p : PortId} {e : SendEntry} (h : s.findEntry id = some (p, e)) :
    e ∈ (s.port p).queue := by
  simp only [State.findEntry] at h
  obtain ⟨x, -, hx⟩ := List.exists_of_findSome?_eq_some h
  split at hx
  · cases hx
    exact List.mem_of_find?_eq_some ‹_›
  · cases hx

/-- What an operation of the transmitter of one port preserves. -/
theorem State.Keeps.preserves {p : PortId} (h : s.Keeps t) (hl : t.link = s.link) (hc : t.classifier = s.classifier)
    (ho : State.OnlyPort p s t)
    (hd : s.PoolSound → (∀ x, (s.port x).SendSound) → (s.port p).DirSound → (t.port p).DirSound) : s.Preserves t :=
  ⟨h, hc ▸ id, fun hp hs hdir => ho.dirSound hdir (hd hp hs (hdir p)), hl ▸ id⟩

theorem State.Preserves.executes (h : s.Preserves t) (hl : t.link = s.link) : s.Executes t :=
  ⟨h.toKeeps, h.chains, h.dir, s.link.counters, hl⟩

/-- R127, R129. A QUEUED entry ends. -/
theorem State.endQueued_preserves {p : PortId} {e : SendEntry} (he : e ∈ (s.port p).queue) (hq : e.state = .queued)
    (status : SendStatus) (byRequest judges : Bool) : s.Preserves (s.endEntry p e status byRequest judges) := by
  obtain ⟨-, -, -, hl, hc, -⟩ := s.endEntry_frame p e status byRequest judges
  exact (State.Keeps.refl s).endEntry.preserves hl hc (.endEntry (.refl p s)) fun hp _ hd =>
    State.endEntry_dirSound_of_queued hd (hp.portIds p) he hq status byRequest judges

theorem State.trailingHold_preserves (s : State) (p : PortId) (e : SendEntry) (status : SendStatus) :
    s.Preserves ((s.releaseDir p).endEntry p e status false true) := by
  obtain ⟨-, -, -, hl, hc, -⟩ := (s.releaseDir p).endEntry_frame p e status false true
  exact (State.Keeps.refl s).releaseDir.endEntry.preserves hl hc (.endEntry (.modPort (.refl p s))) fun _ _ _ =>
    State.endEntry_dirSound_of_low (s.releaseDir_dir p) e status false true

theorem State.modEntry_port (s : State) (p : PortId) (id : Half) (f : SendEntry → SendEntry) :
    (s.modEntry p id f).port p = { s.port p with queue := (s.port p).queue.map fun e => if e.id = id then f e else e } := by
  rw [State.modEntry, State.port_modPort_same]

/-- R121. An entry of the queue becomes, or stays, SENDING. -/
theorem State.modEntry_current {p : PortId} {e x : SendEntry} (he : e ∈ (s.port p).queue) (hx : x.state = .sending) :
    ((s.modEntry p e.id fun _ => x).port p).current.isSome = true := by
  rw [State.modEntry_port]
  exact (Port.current_isSome_iff _).mpr ⟨x, List.mem_map.mpr ⟨e, he, if_pos rfl⟩, hx⟩

theorem Port.selectable_eq_some {q : Port} {e : SendEntry} (h : q.selectable = some e) : q.current = none ∧ e ∈ q.queue := by
  simp only [Port.selectable] at h
  split at h
  · rename_i hc
    simp only [Bool.and_eq_true, Option.isNone_iff_eq_none] at hc
    obtain ⟨c, -, hf⟩ := List.exists_of_findSome?_eq_some h
    exact ⟨hc.1.2, List.mem_of_find?_eq_some hf⟩
  · cases h

theorem Port.DirSound.low_of_current {q : Port} (h : q.DirSound) (hc : q.current = none) : q.dir = false := by
  by_contra hd
  obtain ⟨e, he, -⟩ := h (by simpa using hd)
  simp [hc] at he

/-- R121, R123, R124. The selected entry starts at once, or waits with DIRn released. -/
theorem State.selection_leads (s : State) (p : PortId) : s.Leads (execSelection p s) := by
  refine .unlessReset ?_
  split
  · exact .refl s
  rename_i e he
  obtain ⟨hc, hm⟩ := Port.selectable_eq_some he
  have hk := (State.Keeps.refl s).modEntry (p := p) (id := e.id) (f := fun _ => e.selected)
  have hcur := State.modEntry_current (s := s) hm (x := e.selected) rfl
  have hdir : (s.port p).DirSound → ((s.modEntry p e.id fun _ => e.selected).port p).dir = false := fun hd => by
    rw [State.modEntry_port]
    exact hd.low_of_current hc
  dsimp only
  split
  · obtain ⟨-, -, -, hl, hcl, -⟩ := (s.modEntry p e.id fun _ => e.selected).startEntry_frame p e.selected
    exact hk.startEntry.preserves hl hcl (.startEntry (.modPort (.refl p s))) fun _ _ hd =>
      State.startEntry_dirSound hcur (hdir hd) e.selected
  · refine (hk.modPort (.of_eq rfl rfl rfl rfl)).preserves rfl rfl (.modPort (.modPort (.refl p s))) fun _ _ hd => ?_
    rw [State.port_modPort_same]
    exact .of_low (hdir hd)

theorem Port.turnaroundDue_eq_some {q : Port} {e : SendEntry} (h : q.turnaroundDue = some e) :
    q.tx = .turnaround ∧ q.current = some e := by
  simp only [Port.turnaroundDue] at h
  split at h
  · split at h
    · exact ⟨‹_›, h⟩
    · cases h
  · cases h

/-- R123, R124. The turnaround wait ends with DIRn released until now. -/
theorem State.turnaroundEnd_leads (s : State) (p : PortId) : s.Leads (execTurnaroundEnd p s) := by
  refine .unlessReset ?_
  split
  · exact .refl s
  rename_i e he
  obtain ⟨ht, hc⟩ := Port.turnaroundDue_eq_some he
  obtain ⟨-, -, -, hl, hcl, -⟩ := s.startEntry_frame p e
  refine (State.Keeps.refl s).startEntry.preserves hl hcl (.startEntry (.refl p s)) fun _ _ hd =>
    State.startEntry_dirSound (by rw [hc]; rfl) ?_ e
  by_contra hdir
  obtain ⟨x, -, htx, -⟩ := hd (by simpa using hdir)
  exact htx ht

/-- R104, R125, R126. A character ends: the entry of a stopped port ends, and DIRn of another asserts half duplex. -/
theorem State.characterSent_leads (s : State) (p : PortId) : s.Leads (execCharacterSent p s) := by
  refine .unlessReset ?_
  split
  · rename_i e htx hc
    have hm : e ∈ (s.port p).queue := List.mem_of_find?_eq_some hc
    have hes : e.state = .sending := by simpa using List.find?_some hc
    set x : SendEntry := { e with charsSent := e.charsSent + 1 } with hx
    have hk := (State.Keeps.refl s).modEntry (p := p) (id := e.id) (f := fun _ => x)
    have ho : State.OnlyPort p s (s.modEntry p e.id fun _ => x) := .modPort (.refl p s)
    have hcur := State.modEntry_current (s := s) hm (x := x) hes
    have hport := s.modEntry_port p e.id fun _ => x
    have hhalf (hs : ((s.modEntry p e.id fun _ => x).port p).stopping ≠ true) (hd : (s.port p).DirSound)
        (hdir : ((s.modEntry p e.id fun _ => x).port p).dir = true) :
        ((s.modEntry p e.id fun _ => x).port p).settings.duplex = .half := by
      rw [hport] at hs hdir ⊢
      obtain ⟨-, -, -, hsound⟩ := hd hdir
      exact hsound.resolve_right hs
    dsimp only
    split
    · obtain ⟨-, -, -, hl, hcl, -⟩ := ((s.modEntry p e.id fun _ => x).releaseDir p).endEntry_frame p x .aborted false true
      exact hk.releaseDir.endEntry.preserves hl hcl (.endEntry ho.modPort) fun _ _ _ =>
        State.endEntry_dirSound_of_low (State.releaseDir_dir _ p) x .aborted false true
    · rename_i hstop
      split
      · obtain ⟨-, -, -, hl, hcl, -⟩ := (s.modEntry p e.id fun _ => x).holdOrEnd_frame p x .sent
        exact hk.holdOrEnd.preserves hl hcl ho.holdOrEnd fun _ _ hd =>
          State.holdOrEnd_dirSound hcur (hhalf hstop hd) x .sent
      · obtain ⟨-, -, -, hl, hcl, -⟩ := (s.modEntry p e.id fun _ => x).beginCharacter_frame p x x.charsSent
        exact hk.beginCharacter.preserves hl hcl ho.beginCharacter fun _ _ hd =>
          State.beginCharacter_dirSound hcur (hhalf hstop hd) x x.charsSent
  · exact .refl s

end
end Sys2Proof.Machine
end

