-- ==== Sys2Proof/Proofs/Rows.lean ====
section
namespace Sys2Proof.Machine

/-! ### Every row -/

section
variable {s : State}

theorem State.Links.leads {t : State} (h : s.Links t) : s.Leads (s.unlessReset t) := .unlessReset h.preserves

theorem State.KeepsAll.leads {t : State} (h : s.KeepsAll t) (hl : t.link = s.link) : s.Leads (s.unlessReset t) :=
  .unlessReset (.of_link h hl)

theorem State.Executes.keeps {t : State} (h : s.KeepsAll t) (hl : t.link = s.link) : s.Executes t := h.executes hl

theorem State.Executes.grant {t : State} {fields : List Byte} (h : s.Executes t) : s.Executes (t.grant fields).1 := h

/-- R145, R152. A request that reports, and changes nothing. -/
theorem State.Leads.report {α : Type} {k : Kind} {parse : List Byte → Except Nat α}
    {act : Byte → α → State → State × Response} (h : ∀ tag a, (act tag a s).1 = s) : s.Leads (s.execRequest k parse act) :=
  .request fun tag _ a _ _ => by rw [h tag a]; exact .refl s

theorem State.Executes.pair {t : State} {response : Response} (h : s.Executes t) : s.Executes (t, response).1 := h

theorem State.edit_executes {e : Edit} (he : e.Valid) : s.Executes (s.edit e).1 :=
  .keeps (s.edit_keepsAll he) (s.edit_frame e).2.2.2.1

theorem State.powerUp_leads (rate1 rate0 : Bool) : s.Leads (exec (.powerUp rate1 rate0) s) :=
  .next (s.afterReset_preserves _ _)

theorem State.withPins_leads (pins : Pins) : s.Leads (.next { s with pins := pins }) :=
  .next (.of_link (.of_eq rfl rfl rfl rfl) rfl)

theorem State.resetRelease_leads : s.Leads (exec .resetRelease s) :=
  .next (.ite (s.afterReset_preserves _ _) (.refl s))

theorem State.messageArrival_leads (items : List HrxItem) : s.Leads (exec (.messageArrival items) s) := by
  refine State.Links.leads ?_
  split
  · exact .setReceiver (.refl s)
  · exact .arrive (.setReceiver (.refl s))
  · exact .refl s

theorem State.badHeader_leads (items : List HrxItem) : s.Leads (exec (.badHeader items) s) := by
  refine State.Links.leads ?_
  split
  · exact .countLink (.setReceiver (.refl s))
  · exact .refl s

theorem State.badCrc_leads (items : List HrxItem) : s.Leads (exec (.badCrc items) s) := by
  refine State.Links.leads ?_
  split
  · exact .refuseArrival (.countLink (.setReceiver (.refl s)))
  · exact .refl s

theorem State.interByteTimeout_leads : s.Leads (exec .interByteTimeout s) := by
  refine State.Links.leads ?_
  split
  · exact .countLink (.setReceiver (.refl s))
  · exact .refl s

/-! The requests -/

theorem State.portConfig_leads : s.Leads (exec .portConfig s) :=
  .request fun _ _ a _ hp => by
    split
    · exact s.portConfig_executes a.1 (parsePortConfig_valid hp) ‹_›
    · exact .refl s

theorem State.framerConfig_leads : s.Leads (exec .framerConfig s) :=
  .request fun _ _ _ hl hp => .ite (.grant (.keeps (State.keepsAll_modPort
    ⟨fun h => h.of_fifo_line rfl rfl, id, fun _ => parseFramerConfig_valid hl hp⟩ fun hd => hd.of_eq rfl rfl rfl rfl rfl) rfl))
    (.refl s)

theorem State.portStart_leads : s.Leads (exec .portStart s) :=
  .request fun _ _ p _ _ => .ite (.grant (.keeps (.receives (.refl s) (s.port p).start_receives) rfl)) (.refl s)

theorem State.portPause_leads : s.Leads (exec .portPause s) :=
  .request fun _ _ p _ _ => .ite (.grant (.keeps (.receives (.abortReceiving (.refl s))
    (Port.withState_receives _ .paused)) (s.abortReceiving_frame p).2.2.2.1)) (.refl s)

theorem State.portResume_leads : s.Leads (exec .portResume s) :=
  .request fun _ _ p _ _ => .ite (.grant (.keeps (.receives (.refl s) (s.port p).resume_receives) rfl)) (.refl s)

theorem State.ruleWrite_leads : s.Leads (exec .ruleWrite s) :=
  .request fun _ _ _ hl hp => State.edit_executes (e := .ruleWrite _ _) (parseRuleWrite_valid hl hp)

theorem State.ruleLink_leads : s.Leads (exec .ruleLink s) := .request fun _ _ _ _ _ => State.edit_executes trivial

theorem State.ruleUnlink_leads : s.Leads (exec .ruleUnlink s) := .request fun _ _ _ _ _ => State.edit_executes trivial

theorem State.ruleFree_leads : s.Leads (exec .ruleFree s) := .request fun _ _ _ _ _ => State.edit_executes trivial

theorem State.ruleEnable_leads : s.Leads (exec .ruleEnable s) := .request fun _ _ _ _ _ => State.edit_executes trivial

theorem State.defaultSet_leads : s.Leads (exec .defaultSet s) := .request fun _ _ _ _ _ => State.edit_executes trivial

theorem State.templateWrite_leads : s.Leads (exec .templateWrite s) :=
  .request fun _ _ _ hl hp => State.edit_executes (e := .templateWrite _ _) (parseTemplateWrite_valid hl hp)

theorem State.storeConfig_leads : s.Leads (exec .storeConfig s) := by
  refine .request fun _ _ a _ hp => ?_
  split
  · exact .grant (.keeps (State.keepsAll_modStore fun _ => parseStoreConfig_valid hp) rfl)
  · exact .refl s
  · exact .refl s

/-- A change of a store that leaves its settings. -/
theorem State.modStore_executes {i : StoreId} {f : Store → Store} (hf : (f (s.store i)).settings = (s.store i).settings) :
    s.Executes (s.modStore i f) := ((State.KeepsAll.refl s).modStore hf).executes rfl

theorem State.storeOpen_leads : s.Leads (exec .storeOpen s) := by
  refine .request fun _ _ i _ _ => ?_
  split
  · exact .grant (State.modStore_executes rfl)
  · exact .grant (State.modStore_executes rfl)
  · exact .refl s
  · exact .refl s

theorem State.storePause_leads : s.Leads (exec .storePause s) := by
  refine .request fun _ _ i _ _ => ?_
  split
  · exact .grant (State.modStore_executes rfl)
  · exact .refl s
  · exact .refl s
  · exact .refl s

theorem State.storeClose_leads : s.Leads (exec .storeClose s) := by
  refine .request fun _ _ i _ _ => ?_
  split
  · exact .ite (.grant (State.modStore_executes rfl)) (.refl s)
  · exact .ite (.grant (State.modStore_executes rfl)) (.refl s)
  · exact .refl s
  · exact .refl s

theorem State.storeRead_leads : s.Leads (exec .storeRead s) :=
  .request fun _ _ a _ _ => .ite (.refl s) (.ite (.refl s)
    (.keeps (.serveRead (.refl s)) (s.serveRead_frame a.1 a.2.1 a.2.2.1 a.2.2.2).2.2.2.1))

theorem State.storeAck_leads : s.Leads (exec .storeAck s) := by
  refine .request fun _ _ a _ _ => .ite (.refl s) ?_
  split
  · exact .refl s
  · rename_i k _
    exact .keeps (.releaseAll (.modStore (.refl s) (by simp only [Store.ack_eq])))
      ((s.modStore a.1 fun st => st.ack k).releaseAll_frame _).2.2.2.1

theorem State.storeRewind_leads : s.Leads (exec .storeRewind s) :=
  .request fun _ _ _ _ _ => .ite (.refl s) (.grant (State.modStore_executes rfl))

theorem State.storePurge_leads : s.Leads (exec .storePurge s) :=
  .request fun _ _ i _ _ => .ite (.refl s) (.ite (.refl s) (.ite (.refl s)
    (.keeps (.judgePurge (.modStore (.modOps (.refl s)) rfl)) (State.judgePurge_frame _ i true).2.2.2.1)))

theorem State.send_leads : s.Leads (exec .send s) :=
  .request fun tag _ a _ _ => .keeps (.admitSend (.refl s))
    (s.admitSend_frame tag a.1 a.2.1 a.2.2.1 a.2.2.2.1 a.2.2.2.2).2.2.2.1

theorem State.sendCancel_leads : s.Leads (exec .sendCancel s) := by
  refine .request fun _ _ id _ _ => ?_
  split
  · exact .refl s
  · rename_i p e he
    split
    · exact (State.endQueued_preserves (State.findEntry_eq_some he) ‹_› .cancelled true true).executes
        (s.endEntry_frame p e .cancelled true true).2.2.2.1
    · exact .refl s

theorem State.sendStatus_leads : s.Leads (exec .sendStatus s) :=
  .report fun _ id => by split <;> rfl

theorem State.KeepsAll.startDrain {t : State} {p : PortId} (h : s.KeepsAll t) :
    s.KeepsAll (t.modPort p fun q => { q with draining := true }) :=
  h.trans (State.keepsAll_modPort (.of_eq rfl rfl rfl rfl) fun hd => hd.of_eq rfl rfl rfl rfl rfl)

theorem State.portDrain_leads : s.Leads (exec .portDrain s) := by
  refine .request fun _ _ a _ _ => .ite (.refl s) (.ite (.refl s) (.ite (.refl s) ?_))
  dsimp only
  refine .keeps (.ite (.completeDrain (.startDrain (.modOps (.refl s)))) (.startDrain (.modOps (.refl s)))) ?_
  split <;> rfl

theorem State.memoryCheck_leads : s.Leads (exec .memoryCheck s) :=
  .request fun _ _ _ _ _ => .ite (.refl s) (.ite (.refl s) (.pair (.keeps (.modOps (.refl s)) rfl)))

theorem State.memoryLowSet_leads : s.Leads (exec .memoryLowSet s) :=
  .request fun _ _ _ _ _ => .grant (.keeps (.modMemory (.refl s)) rfl)

theorem State.noticeCredit_leads : s.Leads (exec .noticeCredit s) :=
  .request fun _ _ _ _ _ => .grant (.keeps (State.keepsAll_modNotices fun h => h.withCredit (Nat.min_le_right _ _)) rfl)

theorem State.noticeMask_leads : s.Leads (exec .noticeMask s) :=
  .request fun _ _ _ _ hp => .grant (.keeps (State.keepsAll_modNotices fun h => h.withMask (parseNoticeMask_lt hp)) rfl)

theorem State.countersRead_leads : s.Leads (exec .countersRead s) := by
  refine .request fun _ _ a _ _ => .grant ?_
  split
  · exact s.clearGroup_executes a.1
  · exact .refl s

theorem State.opCancel_leads : s.Leads (exec .opCancel s) := by
  refine .request fun _ _ tag _ _ => ?_
  split
  · exact .refl s
  · rename_i e _
    exact .ite (.grant (.keeps (.cancelOp (.refl s)) (s.cancelOp_frame e.work).2.2.2.1)) (.refl s)

theorem State.memoryCheckExamine_leads : s.Leads (exec .memoryCheckExamine s) := by
  refine .unlessReset ?_
  split
  · split
    · exact .of_link (.examine (.refl s)) (s.examine_frame _).2.2.2.1
    · exact .refl s
  · exact .refl s

/-! The blocks of the part -/

theorem State.purgeRemoval_leads (i : StoreId) : s.Leads (exec (.purgeRemoval i) s) :=
  .unlessReset (.ite (.of_link (.purgeOne (.refl s)) (s.purgeOne_frame i).2.2.2.1) (.refl s))

theorem State.framerTakeItem_leads (p : PortId) : s.Leads (exec (.framerTakeItem p) s) :=
  .unlessReset (.ite (.of_link (.takeItem (.refl s)) (s.takeItem_frame p).2.2.2.1) (.refl s))

theorem State.quietTimeExpiry_leads (p : PortId) : s.Leads (exec (.quietTimeExpiry p) s) :=
  .unlessReset (.of_link (.quietExpiry (.refl s)) (s.quietExpiry_frame p).2.2.2.1)

/-- R107 to R111. A row of the receive line. -/
theorem State.Leads.receives {p : PortId} {f : Port → Port} (hf : (s.port p).Receives (f (s.port p))) :
    s.Leads (s.unlessReset (s.modPort p f)) := .unlessReset (.of_link (.receives (.refl s) hf) rfl)

theorem State.classificationStart_leads : s.Leads (exec .classificationStart s) := by
  refine .unlessReset ?_
  split
  · exact .of_link (.begin (.refl s) ‹_›) rfl
  · exact .refl s

theorem State.walkVisit_leads : s.Leads (exec .walkVisit s) := by
  refine .unlessReset ?_
  split
  · split
    · exact .of_link (s.visit_keepsAll _ _ _) (s.visit_frame _ _ _).2.2.2.1
    · exact .refl s
  · exact .refl s

theorem State.classificationEnd_leads : s.Leads (exec .classificationEnd s) := by
  refine .unlessReset ?_
  split
  · exact .ite (s.endClassification_preserves _) (.refl s)
  · exact .refl s

theorem State.sendGapExpiry_leads (p : PortId) : s.Leads (exec (.sendGapExpiry p) s) :=
  .unlessReset (.ite (.of_link (State.keepsAll_modPort (.of_eq rfl rfl rfl rfl) fun hd => hd.of_eq rfl rfl rfl rfl rfl) rfl)
    (.refl s))

theorem State.trailingHoldExpiry_leads (p : PortId) : s.Leads (exec (.trailingHoldExpiry p) s) := by
  refine .unlessReset ?_
  split
  · exact .refl s
  · exact s.trailingHold_preserves p _ _

theorem State.ttlExpiry_leads (id : Half) : s.Leads (exec (.ttlExpiry id) s) := by
  refine .unlessReset ?_
  split
  · exact .refl s
  · rename_i e he
    split
    · rename_i hx
      simp only [SendEntry.expired, Bool.and_eq_true, beq_iff_eq] at hx
      exact State.endQueued_preserves (State.findEntry_eq_some he) hx.1 .expired false true
    · exact .refl s

theorem State.drainDeadline_leads (p : PortId) : s.Leads (exec (.drainDeadline p) s) :=
  .unlessReset (.ite (.of_link (.completeDrain (.refl s)) (s.completeDrain_frame p _ _ _).2.2.2.1) (.refl s))

end

/-- Every row keeps the bounds, the shapes and the ranges. -/
theorem exec_leads (i : Instr) (s : State) : s.Leads (exec i s) := by
  cases i with
  | powerUp rate1 rate0 => exact State.powerUp_leads rate1 rate0
  | resetAssert => exact State.withPins_leads _
  | resetRelease => exact State.resetRelease_leads
  | holdAssert => exact State.withPins_leads _
  | holdRelease => exact State.withPins_leads _
  | messageArrival items => exact State.messageArrival_leads items
  | badHeader items => exact State.badHeader_leads items
  | badCrc items => exact State.badCrc_leads items
  | interByteTimeout => exact State.interByteTimeout_leads
  | unknownKind => exact .unlessReset s.unknownRequest_preserves
  | hello => exact .report fun _ _ => rfl
  | ping => exact .report fun _ _ => rfl
  | restart => exact .report fun _ _ => rfl
  | timeGet => exact .report fun _ _ => rfl
  | timeSet => exact .request fun _ _ _ _ _ => .grant (.keeps (.of_eq rfl rfl rfl rfl) rfl)
  | portConfig => exact State.portConfig_leads
  | framerConfig => exact State.framerConfig_leads
  | portStart => exact State.portStart_leads
  | portPause => exact State.portPause_leads
  | portResume => exact State.portResume_leads
  | portStop => exact .request fun _ _ p _ _ => .ite (.grant (s.stopPort_executes p)) (.refl s)
  | portReset => exact .request fun _ _ p _ _ => .grant (s.resetPort_executes p)
  | portStatus => exact .report fun _ _ => rfl
  | ruleWrite => exact State.ruleWrite_leads
  | ruleLink => exact State.ruleLink_leads
  | ruleUnlink => exact State.ruleUnlink_leads
  | ruleFree => exact State.ruleFree_leads
  | ruleEnable => exact State.ruleEnable_leads
  | ruleRead => exact .report fun _ _ => rfl
  | chainList => exact .report fun _ _ => rfl
  | defaultSet => exact State.defaultSet_leads
  | templateWrite => exact State.templateWrite_leads
  | storeConfig => exact State.storeConfig_leads
  | storeOpen => exact State.storeOpen_leads
  | storePause => exact State.storePause_leads
  | storeClose => exact State.storeClose_leads
  | storeRead => exact State.storeRead_leads
  | storeAck => exact State.storeAck_leads
  | storeRewind => exact State.storeRewind_leads
  | storeStatus => exact .report fun _ _ => rfl
  | storePurge => exact State.storePurge_leads
  | purgeRemoval store => exact State.purgeRemoval_leads store
  | send => exact State.send_leads
  | sendCancel => exact State.sendCancel_leads
  | sendStatus => exact State.sendStatus_leads
  | portDrain => exact State.portDrain_leads
  | memoryStatus => exact .report fun _ _ => rfl
  | memoryCheck => exact State.memoryCheck_leads
  | memoryCheckExamine => exact State.memoryCheckExamine_leads
  | memoryLowSet => exact State.memoryLowSet_leads
  | noticeCredit => exact State.noticeCredit_leads
  | noticeMask => exact State.noticeMask_leads
  | countersRead => exact State.countersRead_leads
  | countersClear => exact .request fun _ _ g _ _ => .grant (s.clearGroup_executes g)
  | opList => exact .report fun _ _ => rfl
  | opCancel => exact State.opCancel_leads
  | replyBegin => exact s.beginReply_links.leads
  | replyEnd => exact .unlessReset s.endReply_preserves
  | completionReportBegin => exact s.beginReport_links.leads
  | completionReportEnd => exact .unlessReset s.endReport_preserves
  | noticeSend => exact .unlessReset s.beginNotice_preserves
  | characterReceived p data parityBit stopHigh => exact .receives ((s.port p).characterReceived_receives _ data parityBit stopHigh)
  | breakDetected p => exact .receives ((s.port p).breakDetected_receives _)
  | breakEnd p => exact .receives (s.port p).breakEnd_receives
  | framerTakeItem p => exact State.framerTakeItem_leads p
  | quietTimeExpiry p => exact State.quietTimeExpiry_leads p
  | classificationStart => exact State.classificationStart_leads
  | walkVisit => exact State.walkVisit_leads
  | classificationEnd => exact State.classificationEnd_leads
  | selection p => exact s.selection_leads p
  | sendGapExpiry p => exact State.sendGapExpiry_leads p
  | turnaroundEnd p => exact s.turnaroundEnd_leads p
  | characterSent p => exact s.characterSent_leads p
  | trailingHoldExpiry p => exact State.trailingHoldExpiry_leads p
  | ttlExpiry id => exact State.ttlExpiry_leads id
  | drainDeadline p => exact State.drainDeadline_leads p
  | startBit p => exact .receives (s.port p).startBit_receives
  | framingErrorEnd p => exact .receives (s.port p).framingErrorEnd_receives

/-- The queue of waiting commands is none of the collections. -/
theorem State.Preserves.of_pending {s t : State} {pending : List Instr} (h : ({ s with pending := pending } : State).Preserves t) :
    s.Preserves t :=
  ⟨⟨h.notices, h.ports, h.ranged, h.stores⟩, h.chains, fun hp => h.dir ⟨hp.size, hp.ids, hp.nonzero, hp.next⟩, h.link⟩

theorem step_leads (s : State) : s.Leads (step s) := by
  intro t ht
  simp only [step] at ht
  split at ht
  · exact .of_pending (exec_leads _ _ t ht)
  · split at ht
    · exact exec_leads _ s t ht
    · exact State.Leads.next s.tick_preserves t ht

/-- Settles O57, from what a step keeps of each of the five collections. -/
theorem collectionsStayBounded : Obligations.CollectionsStayBounded := fun s t h =>
  have hk := step_leads s t h
  ⟨hk.link, hk.notices, fun hf p => (hk.ports p).fifo (hf p), hk.chains, hk.dir⟩

/-- Settles O60, from what a step keeps of the settings. -/
theorem settingsStayInRange : Obligations.SettingsStayInRange := by
  intro s t h hs
  have hk := step_leads s t h
  have hranged := hk.ranged ⟨hs.rules, hs.templates, hs.held⟩
  exact ⟨fun p => (hk.ports p).line (hs.lines p), fun p => (hk.ports p).framer (hs.framers p), hranged.rules,
    hranged.templates, hranged.held, fun i => hk.stores i (hs.stores i)⟩

end Sys2Proof.Machine
end

