-- ==== Sys2Proof/Proofs/BlockChains.lean ====
section
namespace Sys2Proof.Machine

/-! ### The chains under a change of one descriptor -/

/-- What a list of keys gives, joined, when one key gives something else. -/
theorem flatMap_update_perm {ι α : Type} [DecidableEq ι] {l : List ι} (hl : l.Nodup) {d : ι} (hd : d ∈ l)
    {f g : ι → List α} (h : ∀ e, e ≠ d → g e = f e) : (l.flatMap g ++ f d).Perm (l.flatMap f ++ g d) := by
  have hp := List.perm_cons_erase hd
  have hrest : (l.erase d).flatMap g = (l.erase d).flatMap f :=
    List.flatMap_congr fun e he => h e (List.Nodup.mem_erase_iff hl |>.mp he).1
  have hg : (l.flatMap g).Perm (g d ++ (l.erase d).flatMap f) := by
    rw [← hrest]
    exact hp.flatMap_right g
  have hf : (l.flatMap f).Perm (f d ++ (l.erase d).flatMap f) := hp.flatMap_right f
  calc l.flatMap g ++ f d
      _ |>.Perm (g d ++ (l.erase d).flatMap f ++ f d) := hg.append_right _
      _ |>.Perm (f d ++ (l.erase d).flatMap f ++ g d) := by
        rw [List.append_assoc, List.append_assoc]
        exact List.perm_append_comm.trans ((List.perm_append_comm.append_right _).trans (by rw [List.append_assoc]))
      _ |>.Perm (l.flatMap f ++ g d) := hf.symm.append_right _

/-- The chains of two memories that differ in one descriptor. -/
theorem RecordMemory.chained_update {m m' : RecordMemory} (d : DescId) (h : ∀ e, e ≠ d → (m'.desc e).chain = (m.desc e).chain) :
    (m'.chained ++ (m.desc d).chain).Perm (m.chained ++ (m'.desc d).chain) :=
  flatMap_update_perm (List.nodup_finRange 256) (List.mem_finRange d) h

theorem RecordMemory.mem_chained (m : RecordMemory) (b : BlockId) : b ∈ m.chained ↔ ∃ d, b ∈ (m.desc d).chain := by
  simp [RecordMemory.chained]

section
variable {m : RecordMemory}

theorem RecordMemory.Sound.nodup (h : m.Sound) : (m.free ++ m.chained).Nodup :=
  h.partitioned.nodup_iff.mpr (List.nodup_finRange 1024)

theorem RecordMemory.Sound.free_nodup (h : m.Sound) : m.free.Nodup := (List.nodup_append.mp h.nodup).1

theorem RecordMemory.Sound.chain_nodup (h : m.Sound) (d : DescId) : (m.desc d).chain.Nodup :=
  (List.nodup_flatMap.mp (List.nodup_append.mp h.nodup).2.1).1 d (List.mem_finRange d)

/-- R31. A block of a chain is not on the free list. -/
theorem RecordMemory.Sound.not_free (h : m.Sound) {d : DescId} {b : BlockId} (hb : b ∈ (m.desc d).chain) : b ∉ m.free :=
  fun hf => (List.nodup_append.mp h.nodup).2.2 b hf b ((m.mem_chained b).mpr ⟨d, hb⟩) rfl

/-- R31. A block is in the chain of one descriptor at most. -/
theorem RecordMemory.Sound.chain_unique (h : m.Sound) {d e : DescId} {b : BlockId} (hd : b ∈ (m.desc d).chain)
    (he : b ∈ (m.desc e).chain) : d = e := by
  by_contra hne
  have hp := (List.nodup_flatMap.mp (List.nodup_append.mp h.nodup).2.1).2
  have := (List.pairwise_iff_getElem.mp hp)
  rcases Nat.lt_or_gt_of_ne (fun hv : d.val = e.val => hne (Fin.ext hv)) with hlt | hlt
  · have hdis := this d.val e.val (by simp) (by simp) hlt
    simp only [List.getElem_finRange, Fin.cast_mk, Fin.eta, Function.onFun] at hdis
    exact hdis hd he
  · have hdis := this e.val d.val (by simp) (by simp) hlt
    simp only [List.getElem_finRange, Fin.cast_mk, Fin.eta, Function.onFun] at hdis
    exact hdis he hd

theorem RecordMemory.Sound.of_not_live (h : m.Sound) {d : DescId} (hd : (m.desc d).live = false) : m.desc d = .unused := by
  have := h.tidy d
  rwa [Descriptor.Tidy, hd, if_neg (by decide)] at this

theorem RecordMemory.Sound.of_live (h : m.Sound) {d : DescId} (hd : (m.desc d).live = true) :
    1 ≤ (m.desc d).refs ∧ (m.desc d).chain.length = blocksFor (m.desc d).length := by
  have := h.tidy d
  rwa [Descriptor.Tidy, hd, if_pos rfl] at this

end

end Sys2Proof.Machine
end

