-- ==== Sys2Proof/Proofs/Payloads.lean ====
section
namespace Sys2Proof.Machine

/-! ### A payload that grows -/

/-- The block and the place in it of an address. -/
theorem blockAddress_inj {b c : BlockId} {j k : Nat} (hj : j < 48) (hk : k < 48) (h : blockAddress b j = blockAddress c k) :
    b = c ∧ j = k := by
  simp only [blockAddress] at h
  exact ⟨Fin.ext (by omega), by omega⟩

theorem RecordMemory.payloadByte_of_get {m : RecordMemory} {d : DescId} {i : Nat} {b : BlockId}
    (h : (m.desc d).chain[i / 48]? = some b) : m.payloadByte d i = Memory.read m.cells (blockAddress b (i % 48)) := by
  simp only [RecordMemory.payloadByte, h]

/-- A payload byte depends on the chain and on the bytes of its blocks. -/
theorem RecordMemory.payloadByte_congr {m m' : RecordMemory} {d : DescId} (hc : (m'.desc d).chain = (m.desc d).chain)
    (hr : ∀ b ∈ (m.desc d).chain, ∀ k < 48, Memory.read m'.cells (blockAddress b k) = Memory.read m.cells (blockAddress b k))
    (i : Nat) : m'.payloadByte d i = m.payloadByte d i := by
  simp only [RecordMemory.payloadByte, hc]
  split
  · rename_i b hb
    exact hr b (List.mem_of_getElem? hb) _ (Nat.mod_lt _ (by decide))
  · rfl

theorem RecordMemory.appendByte_eq {m : RecordMemory} {d : DescId} {b : BlockId}
    (hb : (m.desc d).chain[(m.desc d).length / 48]? = some b) (v : Byte) :
    m.appendByte d v = { m.modDesc d fun x => { x with length := x.length + 1 } with
      cells := Memory.write m.cells (blockAddress b ((m.desc d).length % 48)) v
      bad := m.bad.filter fun i => i != b.val } := by
  simp only [RecordMemory.appendByte, hb]

section
variable {m : RecordMemory} {d : DescId} {b : BlockId} (hb : (m.desc d).chain[(m.desc d).length / 48]? = some b) (v : Byte)
include hb

theorem RecordMemory.desc_appendByte (e : DescId) :
    (m.appendByte d v).desc e = if e = d then { m.desc d with length := (m.desc d).length + 1 } else m.desc e := by
  rw [RecordMemory.appendByte_eq hb]
  exact RecordMemory.desc_modDesc m d e fun x => { x with length := x.length + 1 }

theorem RecordMemory.appendByte_cells :
    (m.appendByte d v).cells = Memory.write m.cells (blockAddress b ((m.desc d).length % 48)) v := by
  rw [RecordMemory.appendByte_eq hb]

theorem RecordMemory.appendByte_bad : (m.appendByte d v).bad = m.bad.filter fun i => i != b.val := by
  rw [RecordMemory.appendByte_eq hb]

end

/-- R30. What bytes appended to the payload of a descriptor make of Record Memory. -/
structure RecordMemory.Appends (m : RecordMemory) (d : DescId) (bytes : List Byte) (m' : RecordMemory) : Prop where
  rest : m' = { m with descs := m'.descs, cells := m'.cells, bad := m'.bad }
  desc : m'.desc d = { m.desc d with length := (m.desc d).length + bytes.length }
  others : ∀ e, e ≠ d → m'.desc e = m.desc e
  wf : Memory.wf m'.cells = true
  payload : ∀ i, m'.payloadByte d i = if (m.desc d).length ≤ i ∧ i < (m.desc d).length + bytes.length then
    bytes.getD (i - (m.desc d).length) 0 else m.payloadByte d i
  blocks : ∀ b ∉ (m.desc d).chain, ∀ k < 48, Memory.read m'.cells (blockAddress b k) = Memory.read m.cells (blockAddress b k)
  badOf : ∀ i, i ∈ m'.bad → i ∈ m.bad
  bad : ∀ b ∉ (m.desc d).chain, b.val ∈ m'.bad ↔ b.val ∈ m.bad

section
variable {m m' m'' : RecordMemory} {d : DescId}

theorem RecordMemory.Appends.nil (h : Memory.wf m.cells = true) : m.Appends d [] m where
  rest := rfl
  desc := rfl
  others _ _ := rfl
  wf := h
  payload i := by rw [if_neg (by simp)]
  blocks _ _ _ _ := rfl
  badOf _ := id
  bad _ _ := Iff.rfl

theorem RecordMemory.Appends.append {xs ys : List Byte} (h : m.Appends d xs m') (h' : m'.Appends d ys m'') :
    m.Appends d (xs ++ ys) m'' where
  rest := by rw [h'.rest, h.rest]
  desc := by rw [h'.desc, h.desc, List.length_append, Nat.add_assoc]
  others e he := (h'.others e he).trans (h.others e he)
  wf := h'.wf
  payload i := by
    rw [h'.payload, h.payload, h.desc, List.length_append]
    dsimp only
    by_cases h1 : (m.desc d).length + xs.length ≤ i
    · by_cases h2 : i < (m.desc d).length + xs.length + ys.length
      · rw [if_pos ⟨h1, h2⟩, if_pos (by omega), List.getD_append_right _ _ _ _ (by omega)]
        congr 1
        omega
      · rw [if_neg (by omega), if_neg (by omega), if_neg (by omega)]
    · rw [if_neg (by omega)]
      by_cases h2 : (m.desc d).length ≤ i
      · rw [if_pos (by omega), if_pos (by omega), List.getD_append _ _ _ _ (by omega)]
      · rw [if_neg (by omega), if_neg (by omega)]
  blocks b hb k hk := by
    have hc : (m'.desc d).chain = (m.desc d).chain := by rw [h.desc]
    rw [h'.blocks b (by rwa [hc]) k hk, h.blocks b hb k hk]
  badOf i hi := h.badOf i (h'.badOf i hi)
  bad b hb := by
    have hc : (m'.desc d).chain = (m.desc d).chain := by rw [h.desc]
    rw [h'.bad b (by rwa [hc]), h.bad b hb]

/-- One byte is written at the end of the payload, in a chain that has a place for it. -/
theorem RecordMemory.appendByte_appends (hw : Memory.wf m.cells = true) (hn : (m.desc d).chain.Nodup)
    (hr : (m.desc d).length < 48 * (m.desc d).chain.length) (v : Byte) : m.Appends d [v] (m.appendByte d v) := by
  have hlt : (m.desc d).length / 48 < (m.desc d).chain.length := by omega
  obtain ⟨b, hb⟩ : ∃ b, (m.desc d).chain[(m.desc d).length / 48]? = some b := ⟨_, List.getElem?_eq_getElem hlt⟩
  have hmem : b ∈ (m.desc d).chain := List.mem_of_getElem? hb
  have hmod : (m.desc d).length % 48 < 48 := Nat.mod_lt _ (by decide)
  have hdesc := RecordMemory.desc_appendByte hb v
  have hcells := RecordMemory.appendByte_cells hb v
  refine ⟨by rw [RecordMemory.appendByte_eq hb]; rfl, by rw [hdesc, if_pos rfl]; rfl, fun e he => by rw [hdesc, if_neg he],
    RecordMemory.appendByte_wf hw d v, fun i => ?_, fun c hc k hk => ?_, fun i hi => ?_, fun c hc => ?_⟩
  · have hchain : ((m.appendByte d v).desc d).chain = (m.desc d).chain := by rw [hdesc, if_pos rfl]
    by_cases hi : i = (m.desc d).length
    · subst hi
      rw [if_pos ⟨Nat.le_refl _, by simp⟩, RecordMemory.payloadByte_of_get (by rw [hchain]; exact hb), hcells,
        Memory.read_write_same hw]
      simp
    · rw [if_neg (by simp only [List.length_singleton]; omega)]
      simp only [RecordMemory.payloadByte, hchain, hcells]
      cases hc : (m.desc d).chain[i / 48]? with
      | none => rfl
      | some c =>
        refine Memory.read_write_other hw v fun ha => hi ?_
        obtain ⟨hcb, hk⟩ := blockAddress_inj (Nat.mod_lt _ (by decide)) hmod ha
        have := (List.getElem?_inj hlt hn).mp (hb.trans (hcb ▸ hc.symm))
        omega
  · rw [hcells]
    exact Memory.read_write_other hw v fun ha => hc ((blockAddress_inj hk hmod ha).1 ▸ hmem)
  · rw [RecordMemory.appendByte_bad hb] at hi
    exact List.mem_of_mem_filter hi
  · rw [RecordMemory.appendByte_bad hb]
    have hne : c.val ≠ b.val := fun h => hc (by rwa [Fin.ext h])
    simp [hne]

/-- Several bytes are written at the end of the payload, in a chain that has places for them. -/
theorem RecordMemory.foldl_appendByte_appends (bytes : List Byte) : ∀ {m : RecordMemory}, Memory.wf m.cells = true →
    (m.desc d).chain.Nodup → (m.desc d).length + bytes.length ≤ 48 * (m.desc d).chain.length →
    m.Appends d bytes (bytes.foldl (fun m v => m.appendByte d v) m) := by
  induction bytes with
  | nil => exact fun hw _ _ => .nil hw
  | cons v bytes ih =>
    intro m hw hn hr
    rw [List.length_cons] at hr
    have hone := RecordMemory.appendByte_appends hw hn (by omega) v
    have hrest := ih hone.wf (by rw [hone.desc]; exact hn) (by rw [hone.desc]; simp only [List.length_singleton]; omega)
    exact hone.append hrest

end

/-! ### The taking of blocks -/

section
variable (m : RecordMemory) (d : DescId) (n : Nat)

theorem RecordMemory.desc_takeBlocks (e : DescId) : (m.takeBlocks d n).desc e =
    if e = d then { m.desc d with chain := (m.desc d).chain ++ m.free.take n } else m.desc e :=
  RecordMemory.desc_modDesc m d e fun x => { x with chain := x.chain ++ m.free.take n }

@[simp] theorem RecordMemory.takeBlocks_free : (m.takeBlocks d n).free = m.free.drop n := rfl
@[simp] theorem RecordMemory.takeBlocks_lowWater : (m.takeBlocks d n).lowWater = min m.lowWater (m.free.length - n) := by
  simp [RecordMemory.takeBlocks]
@[simp] theorem RecordMemory.takeBlocks_threshold : (m.takeBlocks d n).threshold = m.threshold := rfl
@[simp] theorem RecordMemory.takeBlocks_armed : (m.takeBlocks d n).armed = m.armed := rfl
@[simp] theorem RecordMemory.takeBlocks_counters : (m.takeBlocks d n).counters = m.counters := rfl

/-- R30. The bytes of the blocks taken are 0, and no byte of another block changes. -/
theorem RecordMemory.takeBlocks_read (b : BlockId) {k : Nat} (hk : k < 48) :
    Memory.read (m.takeBlocks d n).cells (blockAddress b k) =
      if b ∈ m.free.take n then 0 else Memory.read m.cells (blockAddress b k) := by
  simp only [RecordMemory.takeBlocks]
  generalize m.free.take n = taken
  generalize m.cells = cells
  induction taken generalizing cells with
  | nil => simp
  | cons c taken ih =>
    rw [List.foldl_cons, ih, Memory.read_clear]
    by_cases hb : b ∈ taken
    · simp [hb]
    · simp only [hb, if_false, List.mem_cons, or_false]
      refine if_congr ?_ rfl rfl
      simp only [blockAddress, Fin.ext_iff]
      omega

theorem RecordMemory.takeBlocks_bad (b : BlockId) :
    b.val ∈ (m.takeBlocks d n).bad ↔ b.val ∈ m.bad ∧ b ∉ m.free.take n := by
  simp only [RecordMemory.takeBlocks, List.mem_filter, Bool.not_eq_true', List.any_eq_false, beq_iff_eq]
  refine and_congr_right fun _ => ⟨fun h hb => h b hb rfl, fun h c hc hcb => h ?_⟩
  rwa [← Fin.ext hcb]

end

end Sys2Proof.Machine
end

