-- ==== Sys2Proof/Proofs/Fills.lean ====
section
namespace Sys2Proof.Machine

/-! ### MEMORY_LOW -/

/-- R43. Whether a taking of blocks from a free count of `before` raises MEMORY_LOW. -/
def RecordMemory.fallsLow (m : RecordMemory) (before : Nat) : Bool :=
  m.armed && decide (m.threshold < before) && decide (m.free.length ≤ m.threshold)

theorem State.judgeLow_eq (s : State) (before : Nat) :
    s.judgeLow before = { s with
      memory := { s.memory with armed := s.memory.armed && !s.memory.fallsLow before }
      notices := if s.memory.fallsLow before then
        s.notices.raise .memoryLow 0 (.freeBlocks s.memory.free.length) s.timebase else s.notices } := by
  have hlow : (s.memory.armed && decide (s.memory.threshold < before) &&
      decide (s.memory.freeCount ≤ s.memory.threshold)) = s.memory.fallsLow before := rfl
  simp only [State.judgeLow, hlow]
  cases hl : s.memory.fallsLow before with
  | true => simp [State.raise_eq, State.modMemory, RecordMemory.freeCount]
  | false => simp

/-- R31, R41, R43. One taking of blocks. -/
def RecordMemory.taken (m : RecordMemory) (d : DescId) (n : Nat) : RecordMemory :=
  { m.takeBlocks d n with armed := m.armed && !(m.takeBlocks d n).fallsLow m.free.length }

theorem State.takeBlocks_eq (s : State) (d : DescId) (n : Nat) :
    s.takeBlocks d n = { s with
      memory := s.memory.taken d n
      notices := if (s.memory.takeBlocks d n).fallsLow s.memory.free.length then
        s.notices.raise .memoryLow 0 (.freeBlocks (s.memory.free.drop n).length) s.timebase else s.notices } := by
  rw [State.takeBlocks, State.judgeLow_eq]
  rfl

/-- R30, R31, R41. What the taking of `n` blocks and the writing of bytes into them make of Record Memory. -/
structure RecordMemory.Grows (m : RecordMemory) (d : DescId) (n : Nat) (bytes : List Byte) (m' : RecordMemory) : Prop where
  desc : m'.desc d = { m.desc d with
    chain := (m.desc d).chain ++ m.free.take n, length := (m.desc d).length + bytes.length }
  others : ∀ e, e ≠ d → m'.desc e = m.desc e
  free : m'.free = m.free.drop n
  lowWater : m'.lowWater = min m.lowWater (m.free.length - n)
  threshold : m'.threshold = m.threshold
  armed : m'.armed = (m.armed && !(m.takeBlocks d n).fallsLow m.free.length)
  counters : m'.counters = m.counters
  wf : Memory.wf m'.cells = true
  written : ∀ i < bytes.length, m'.payloadByte d ((m.desc d).length + i) = bytes.getD i 0
  kept : ∀ i, (i < (m.desc d).length ∨ (m.desc d).length + bytes.length ≤ i) → i < 48 * (m.desc d).chain.length →
    m'.payloadByte d i = m.payloadByte d i
  zero : ∀ i, (m.desc d).length + bytes.length ≤ i → 48 * (m.desc d).chain.length ≤ i →
    i < 48 * ((m.desc d).chain.length + n) → m'.payloadByte d i = 0
  blocks : ∀ b ∉ (m.desc d).chain, b ∉ m.free.take n → ∀ k < 48,
    Memory.read m'.cells (blockAddress b k) = Memory.read m.cells (blockAddress b k)
  bad : ∀ b ∉ (m.desc d).chain, b.val ∈ m'.bad ↔ b.val ∈ m.bad ∧ b ∉ m.free.take n

section
variable {m m' : RecordMemory} {d : DescId} {n : Nat} {bytes : List Byte}

theorem RecordMemory.desc_taken (m : RecordMemory) (d : DescId) (n : Nat) (e : DescId) : (m.taken d n).desc e =
    if e = d then { m.desc d with chain := (m.desc d).chain ++ m.free.take n } else m.desc e := m.desc_takeBlocks d n e

theorem RecordMemory.Sound.taken_nodup (h : m.Sound) (d : DescId) (n : Nat) :
    ((m.desc d).chain ++ m.free.take n).Nodup :=
  (h.chain_nodup d).append (h.free_nodup.sublist (List.take_sublist _ _)) fun _ hc hf =>
    h.not_free hc (List.mem_of_mem_take hf)

/-- The bytes of a chain under the taking of blocks that are not in it. -/
theorem RecordMemory.Sound.taken_payloadByte (h : m.Sound) (d : DescId) (hn : n ≤ m.free.length) {i : Nat}
    (hi : i < 48 * ((m.desc d).chain.length + n)) : (m.taken d n).payloadByte d i =
      if i < 48 * (m.desc d).chain.length then m.payloadByte d i else 0 := by
  have hread (b : BlockId) : Memory.read (m.taken d n).cells (blockAddress b (i % 48)) =
      if b ∈ m.free.take n then 0 else Memory.read m.cells (blockAddress b (i % 48)) :=
    m.takeBlocks_read d n b (Nat.mod_lt _ (by decide))
  have hchain : ((m.taken d n).desc d).chain = (m.desc d).chain ++ m.free.take n := by rw [m.desc_taken, if_pos rfl]
  split
  · have hlt : i / 48 < (m.desc d).chain.length := by omega
    have hget : (m.desc d).chain[i / 48]? = some (m.desc d).chain[i / 48] := List.getElem?_eq_getElem hlt
    rw [RecordMemory.payloadByte_of_get hget, RecordMemory.payloadByte_of_get (b := (m.desc d).chain[i / 48]), hread, if_neg]
    · exact fun hf => h.not_free (List.getElem_mem hlt) (List.mem_of_mem_take hf)
    · rw [hchain, List.getElem?_append_left hlt, hget]
  · have hlt : i / 48 - (m.desc d).chain.length < (m.free.take n).length := by rw [List.length_take]; omega
    have hget : ((m.taken d n).desc d).chain[i / 48]? = some (m.free.take n)[i / 48 - (m.desc d).chain.length] := by
      rw [hchain, List.getElem?_append_right (by omega), List.getElem?_eq_getElem hlt]
    rw [RecordMemory.payloadByte_of_get hget, hread, if_pos (List.getElem_mem hlt)]

/-- R31, R36. Blocks are taken, and bytes are written into them. -/
theorem RecordMemory.Sound.grows (h : m.Sound) (hn : n ≤ m.free.length) (ha : (m.taken d n).Appends d bytes m') :
    m.Grows d n bytes m' := by
  have hd : (m.taken d n).desc d = { m.desc d with chain := (m.desc d).chain ++ m.free.take n } := by
    rw [m.desc_taken, if_pos rfl]
  have hlen : ((m.taken d n).desc d).length = (m.desc d).length := by rw [hd]
  have hrest := ha.rest
  have hpay := ha.payload
  simp only [hlen] at hpay
  refine ⟨by rw [ha.desc, hd], fun e he => by rw [ha.others e he, m.desc_taken, if_neg he], ?_, ?_, ?_, ?_, ?_, ha.wf,
    fun i hi => ?_, fun i hi hlt => ?_, fun i hi hge hlt => ?_, fun b hc hf k hk => ?_, fun b hc => ?_⟩
  · rw [hrest]; rfl
  · rw [hrest]; exact m.takeBlocks_lowWater d n
  · rw [hrest]; rfl
  · rw [hrest]; rfl
  · rw [hrest]; rfl
  · rw [hpay, if_pos (by omega), Nat.add_sub_cancel_left]
  · rw [hpay, if_neg (by omega), h.taken_payloadByte d hn (by omega), if_pos hlt]
  · rw [hpay, if_neg (by omega), h.taken_payloadByte d hn hlt, if_neg (by omega)]
  · rw [ha.blocks b (by rw [hd]; simpa using ⟨hc, hf⟩) k hk]
    exact (m.takeBlocks_read d n b hk).trans (if_neg hf)
  · have hbad : b.val ∈ (m.taken d n).bad ↔ b.val ∈ m.bad ∧ b ∉ m.free.take n := m.takeBlocks_bad d n b
    by_cases hf : b ∈ m.free.take n
    · exact ⟨fun hb => hbad.mp (ha.badOf _ hb), fun hb => absurd hf hb.2⟩
    · rw [ha.bad b (by rw [hd]; simpa using ⟨hc, hf⟩), hbad]

/-- R31. Blocks that go from the head of the free list to the tail of a chain stay in one place each. -/
theorem RecordMemory.Grows.partitioned (h : m.Grows d n bytes m') (hs : m.Sound) : m'.Partitioned := by
  refine List.Perm.trans ?_ hs.partitioned
  have hc := RecordMemory.chained_update (m := m) (m' := m') d fun e he => by rw [h.others e he]
  rw [h.desc] at hc
  rw [h.free]
  refine List.perm_iff_count.mpr fun b => ?_
  have hcount := List.perm_iff_count.mp hc b
  have hfree := congrArg (List.count b) (List.take_append_drop n m.free)
  simp only [List.count_append] at hcount hfree ⊢
  omega

/-- R30 to R32. A payload grows by the blocks that its bytes need. -/
theorem RecordMemory.Grows.sound (h : m.Grows d n bytes m') (hs : m.Sound) (hl : (m.desc d).live = true)
    (hn : n ≤ m.free.length) (hfit : (m.desc d).chain.length + n = blocksFor ((m.desc d).length + bytes.length)) :
    m'.Sound where
  cells := h.wf
  partitioned := h.partitioned hs
  tidy e := by
    by_cases he : e = d
    · subst he
      rw [h.desc, Descriptor.Tidy, if_pos hl]
      refine ⟨(hs.of_live hl).1, ?_⟩
      rw [List.length_append, List.length_take, Nat.min_eq_left hn]
      exact hfit
    · rw [h.others e he]
      exact hs.tidy e
  threshold := h.threshold ▸ hs.threshold
  lowWater := by
    rw [h.lowWater, h.free, List.length_drop]
    exact Nat.min_le_right _ _

/-- R31. No byte of another chain changes. -/
theorem RecordMemory.Grows.payloadByte_other (h : m.Grows d n bytes m') (hs : m.Sound) {e : DescId} (he : e ≠ d) (i : Nat) :
    m'.payloadByte e i = m.payloadByte e i :=
  RecordMemory.payloadByte_congr (by rw [h.others e he])
    (fun b hb k hk => h.blocks b (fun hd => he (hs.chain_unique hb hd)) (fun hf => hs.not_free hb (List.mem_of_mem_take hf)) k hk)
    i

end

/-! ### The descriptor of a new payload -/

section
variable {m : RecordMemory} {d : DescId}

theorem RecordMemory.desc_takeDescriptor (m : RecordMemory) (d e : DescId) :
    (m.takeDescriptor d).desc e = if e = d then ⟨true, [], 0, 1, false⟩ else m.desc e :=
  RecordMemory.desc_modDesc m d e fun _ => ⟨true, [], 0, 1, false⟩

/-- A change of one descriptor that leaves its chain, and all else that holds of a sound memory. -/
theorem RecordMemory.Sound.of_desc {m' : RecordMemory} (h : m.Sound) (hc : Memory.wf m'.cells = true) (hf : m'.free = m.free)
    (hd : ∀ e, (m'.desc e).chain = (m.desc e).chain) (ht : ∀ e, (m'.desc e).Tidy) (hth : m'.threshold ≤ 1023)
    (hw : m'.lowWater ≤ m.free.length) : m'.Sound := by
  refine ⟨hc, ?_, ht, hth, hf ▸ hw⟩
  have hch : m'.chained = m.chained := List.flatMap_congr fun e _ => hd e
  rw [RecordMemory.Partitioned, hf, hch]
  exact h.partitioned

theorem RecordMemory.Sound.takeDescriptor (h : m.Sound) (hd : (m.desc d).live = false) : (m.takeDescriptor d).Sound := by
  refine h.of_desc h.cells rfl (fun e => ?_) (fun e => ?_) h.threshold h.lowWater <;> rw [m.desc_takeDescriptor] <;> split
  · rename_i he
    rw [he, h.of_not_live hd]
    rfl
  · rfl
  · exact ⟨Nat.le_refl 1, rfl⟩
  · exact h.tidy e

end

theorem RecordMemory.lowestFree_not_live {m : RecordMemory} {d : DescId} (h : m.lowestFree = some d) :
    (m.desc d).live = false := by
  simpa using List.find?_some h

/-- R36. A fill that finds a descriptor and its blocks. -/
theorem State.fill_eq {s : State} {bytes : List Byte} {d : DescId} (hd : s.memory.lowestFree = some d)
    (hn : blocksFor bytes.length ≤ s.memory.free.length) : s.fill bytes =
      (some d, ((s.modMemory fun m => m.takeDescriptor d).takeBlocks d (blocksFor bytes.length)).modMemory
        fun m => bytes.foldl (fun m v => m.appendByte d v) m) := by
  simp only [State.fill, hd]
  exact if_neg (Nat.not_lt.mpr hn)

/-- R36. What an up-front fill makes of Record Memory. -/
theorem State.fill_grows {s : State} {bytes : List Byte} {d : DescId} (hs : s.memory.Sound) (hd : s.memory.lowestFree = some d)
    (hn : blocksFor bytes.length ≤ s.memory.free.length) :
    (s.memory.takeDescriptor d).Grows d (blocksFor bytes.length) bytes (s.fill bytes).2.memory := by
  have hlive := RecordMemory.lowestFree_not_live hd
  have hts := hs.takeDescriptor hlive
  have htd : (s.memory.takeDescriptor d).desc d = ⟨true, [], 0, 1, false⟩ := by rw [s.memory.desc_takeDescriptor, if_pos rfl]
  have hfits : bytes.length ≤ 48 * blocksFor bytes.length := by simp only [blocksFor]; omega
  have hmem : (s.fill bytes).2.memory = bytes.foldl (fun m v => m.appendByte d v)
      ((s.memory.takeDescriptor d).taken d (blocksFor bytes.length)) := by
    rw [State.fill_eq hd hn, State.takeBlocks_eq]
    rfl
  have htaken : ((s.memory.takeDescriptor d).taken d (blocksFor bytes.length)).desc d =
      { (⟨true, [], 0, 1, false⟩ : Descriptor) with chain := s.memory.free.take (blocksFor bytes.length) } := by
    rw [RecordMemory.desc_taken, if_pos rfl, htd]
    rfl
  rw [hmem]
  refine hts.grows hn (RecordMemory.foldl_appendByte_appends bytes ?_ ?_ ?_)
  · exact RecordMemory.takeBlocks_wf (m := s.memory.takeDescriptor d) hs.cells d _
  · rw [htaken]
    exact hs.free_nodup.sublist (List.take_sublist _ _)
  · rw [htaken]
    simp only [List.length_take, Nat.min_eq_left hn, Nat.zero_add]
    exact hfits

end Sys2Proof.Machine
end

