-- ==== Sys2Proof/Proofs/UpFrontFill.lean ====
section
namespace Sys2Proof.Machine

/-! ### The up-front fill -/

/-- R43. The part of a taking of blocks that is not Record Memory: MEMORY_LOW. -/
theorem State.takeBlocks_raises (s : State) (d : DescId) (n : Nat) (m : RecordMemory) :
    { s.takeBlocks d n with memory := m } =
      if s.memory.armed && decide (s.memory.threshold < s.memory.free.length) &&
        decide (s.memory.free.length - n ≤ s.memory.threshold)
      then ({ s with memory := m } : State).raise .memoryLow 0 (.freeBlocks (s.memory.free.length - n))
      else { s with memory := m } := by
  have hlow : (s.memory.takeBlocks d n).fallsLow s.memory.free.length =
      (s.memory.armed && decide (s.memory.threshold < s.memory.free.length) &&
        decide (s.memory.free.length - n ≤ s.memory.threshold)) := by
    rw [← List.length_drop]
    rfl
  simp only [State.takeBlocks_eq, hlow, List.length_drop]
  split <;> rfl

/-- R43. The part of the fill that is not Record Memory: MEMORY_LOW. -/
theorem State.fill_raises {s : State} {bytes : List Byte} {d : DescId} (hd : s.memory.lowestFree = some d)
    (hn : blocksFor bytes.length ≤ s.memory.free.length) : { (s.fill bytes).2 with memory := s.memory } =
      if s.memory.armed && decide (s.memory.threshold < s.memory.free.length) &&
        decide (s.memory.free.length - blocksFor bytes.length ≤ s.memory.threshold)
      then s.raise .memoryLow 0 (.freeBlocks (s.memory.free.length - blocksFor bytes.length)) else s := by
  rw [State.fill_eq hd hn]
  exact (s.modMemory fun m => m.takeDescriptor d).takeBlocks_raises d (blocksFor bytes.length) s.memory

theorem State.fill_noDescriptor {s : State} (h : ∀ d, (s.memory.desc d).live = true) (bytes : List Byte) :
    s.fill bytes = (none, s.modMemory RecordMemory.countNoDescriptor) := by
  simp only [State.fill, RecordMemory.lowestFree_eq_none h]

theorem State.fill_noBlock {s : State} {bytes : List Byte} (h : ∃ d, (s.memory.desc d).live = false)
    (hn : s.memory.free.length < blocksFor bytes.length) : s.fill bytes = (none, s.modMemory RecordMemory.countNoBlock) := by
  obtain ⟨d, hd⟩ := RecordMemory.lowestFree_isSome h
  simp only [State.fill, hd]
  exact if_pos hn

/-- Settles O35, from what the taking of the blocks and the writing of the bytes make of Record Memory. -/
theorem payloadFilled : Obligations.PayloadFilled := by
  refine ⟨fun s bytes => ⟨fun h => State.fill_noDescriptor h bytes, fun h hn => State.fill_noBlock h hn⟩,
    fun s bytes d hs hlive hlow hn => ?_⟩
  have hd : s.memory.lowestFree = some d := RecordMemory.lowestFree_eq_some hlive hlow
  have hg := State.fill_grows hs hd hn
  have htd : (s.memory.takeDescriptor d).desc d = ⟨true, [], 0, 1, false⟩ := by rw [s.memory.desc_takeDescriptor, if_pos rfl]
  have hother : ∀ e, e ≠ d → (s.memory.takeDescriptor d).desc e = s.memory.desc e := fun e he => by
    rw [s.memory.desc_takeDescriptor, if_neg he]
  intro n low
  have hnb : n = blocksFor bytes.length := rfl
  refine ⟨(s.fill bytes).2, Prod.ext (by rw [State.fill_eq hd hn]) rfl, ?_, ?_, fun i hi hlt => ?_, fun b hb k hk => ?_,
    fun e he => ⟨(hg.others e he).trans (hother e he), fun i _ => ?_⟩, hg.free, hg.lowWater, ?_, hg.threshold,
    fun b => ?_, hg.counters, State.fill_raises hd hn⟩
  · rw [hg.desc, htd]
    simp only [List.nil_append, Nat.zero_add]
    rfl
  · refine List.ext_getElem (by simp [RecordMemory.payload]) fun i h1 h2 => ?_
    have hw := hg.written i h2
    rw [htd] at hw
    simp only [RecordMemory.payload, List.getElem_map, List.getElem_range, hw, List.getD_eq_getElem _ _ h2]
  · exact hg.zero i (by rw [htd]; simpa using hi) (by rw [htd]; simp) (by rw [htd]; simpa [← hnb] using hlt)
  · exact hg.blocks b (by rw [htd]; simp) hb k hk
  · rw [hg.payloadByte_other (hs.takeDescriptor hlive) he]
    exact RecordMemory.payloadByte_congr (m := s.memory) (m' := s.memory.takeDescriptor d) (by rw [hother e he]) (fun _ _ _ _ => rfl) i
  · rw [hg.armed]
    simp only [low, n, ← List.length_drop]
    rfl
  · exact hg.bad b (by rw [htd]; simp)

end Sys2Proof.Machine
end

