-- ==== Sys2Proof/Proofs/FrameBytes.lean ====
section
namespace Sys2Proof.Machine

/-! ### One byte of a frame -/

/-- R41, R43. The taking of no block changes nothing. -/
theorem RecordMemory.Sound.taken_zero {m : RecordMemory} (h : m.Sound) (d : DescId) : m.taken d 0 = m := by
  have hlow : (m.takeBlocks d 0).fallsLow m.free.length = false := by
    simp only [RecordMemory.fallsLow, RecordMemory.takeBlocks_threshold, RecordMemory.takeBlocks_free, List.drop_zero]
    by_cases hlt : m.threshold < m.free.length <;> simp [hlt]
  have hdescs : (m.modDesc d fun x => { x with chain := x.chain ++ m.free.take 0 }).descs = m.descs := by
    refine vector_ext_get fun e => ?_
    have he := RecordMemory.desc_modDesc m d e fun x => { x with chain := x.chain ++ m.free.take 0 }
    simp only [List.take_zero, List.append_nil] at he ⊢
    rw [ite_eq_right_iff.mpr (fun hed => by rw [hed])] at he
    exact he
  have hmin : min m.lowWater m.free.length = m.lowWater := Nat.min_eq_left h.lowWater
  rw [RecordMemory.taken, hlow]
  simp only [List.take_zero] at hdescs
  simp only [RecordMemory.takeBlocks, Bool.not_false, Bool.and_true, List.take_zero, List.drop_zero, List.foldl_nil,
    List.any_nil, List.filter_true, hmin, hdescs]
  rfl

/-- R35. How many blocks the storing of a byte takes. -/
def Descriptor.needs (x : Descriptor) : Nat := if x.length < 48 * x.chain.length then 0 else 1

section
variable {s : State} {d : DescId}

theorem State.storeByte_fits (h : (s.memory.desc d).length < 48 * (s.memory.desc d).chain.length) (v : Byte) :
    s.storeByte d v = (true, s.modMemory fun m => m.appendByte d v) := if_pos h

theorem State.storeByte_takes (h : ¬ (s.memory.desc d).length < 48 * (s.memory.desc d).chain.length)
    (hf : s.memory.free ≠ []) (v : Byte) :
    s.storeByte d v = (true, (s.takeBlocks d 1).modMemory fun m => m.appendByte d v) := by
  simp [State.storeByte, h, hf]

theorem State.storeByte_noBlock (h : ¬ (s.memory.desc d).length < 48 * (s.memory.desc d).chain.length)
    (hf : s.memory.free = []) (v : Byte) : s.storeByte d v = (false, s.modMemory RecordMemory.countNoBlock) := by
  simp [State.storeByte, h, hf]

/-- R35. A byte that finds a block is stored. -/
theorem State.storeByte_memory (hs : s.memory.Sound)
    (h : (s.memory.desc d).length < 48 * (s.memory.desc d).chain.length ∨ s.memory.free ≠ []) (v : Byte) :
    (s.storeByte d v).1 = true ∧
      (s.storeByte d v).2.memory = (s.memory.taken d (s.memory.desc d).needs).appendByte d v := by
  by_cases hfit : (s.memory.desc d).length < 48 * (s.memory.desc d).chain.length
  · rw [State.storeByte_fits hfit, Descriptor.needs, if_pos hfit, hs.taken_zero]
    exact ⟨rfl, rfl⟩
  · rw [State.storeByte_takes hfit (h.resolve_left hfit), Descriptor.needs, if_neg hfit, State.takeBlocks_eq]
    exact ⟨rfl, rfl⟩

theorem Descriptor.needs_le_free {x : Descriptor} {free : List BlockId} (h : x.length < 48 * x.chain.length ∨ free ≠ []) :
    x.needs ≤ free.length := by
  rw [Descriptor.needs]
  split
  · exact Nat.zero_le _
  · exact List.length_pos_iff.mpr (h.resolve_left ‹_›)

/-- R32, R35. A LIVE descriptor takes a block exactly when its payload fills those it has. -/
theorem RecordMemory.Sound.needs_fit {m : RecordMemory} (hs : m.Sound) (hl : (m.desc d).live = true) :
    (m.desc d).chain.length + (m.desc d).needs = blocksFor ((m.desc d).length + 1) := by
  have := (hs.of_live hl).2
  simp only [blocksFor, Descriptor.needs] at this ⊢
  split <;> omega

/-- R35. What the storing of a byte makes of Record Memory. -/
theorem State.storeByte_grows (hs : s.memory.Sound) (hl : (s.memory.desc d).live = true)
    (h : (s.memory.desc d).length < 48 * (s.memory.desc d).chain.length ∨ s.memory.free ≠ []) (v : Byte) :
    s.memory.Grows d (s.memory.desc d).needs [v] (s.storeByte d v).2.memory := by
  have hn := Descriptor.needs_le_free h
  have hfit := hs.needs_fit hl
  have hd := (s.memory.desc_taken d (s.memory.desc d).needs d).trans (if_pos rfl)
  rw [(State.storeByte_memory hs h v).2]
  refine hs.grows hn (RecordMemory.appendByte_appends ?_ ?_ ?_ v)
  · exact RecordMemory.takeBlocks_wf hs.cells d _
  · rw [hd]
    exact hs.taken_nodup d _
  · rw [hd]
    simp only [List.length_append, List.length_take, Nat.min_eq_left hn, hfit, blocksFor]
    omega

/-- R35. The block written is the last of the chain. -/
theorem RecordMemory.Sound.written_block {m : RecordMemory} (hs : m.Sound) (hl : (m.desc d).live = true)
    (h : (m.desc d).length < 48 * (m.desc d).chain.length ∨ m.free ≠ []) :
    ((m.taken d (m.desc d).needs).desc d).chain[(m.desc d).length / 48]? =
      ((m.desc d).chain ++ m.free.take (m.desc d).needs).getLast? := by
  have hn := Descriptor.needs_le_free h
  have hfit := hs.needs_fit hl
  rw [m.desc_taken, if_pos rfl, List.getLast?_eq_getElem?, List.length_append, List.length_take, Nat.min_eq_left hn, hfit]
  congr 1
  simp only [blocksFor]
  omega

/-- R41. A block taken for a byte is the last of the chain. -/
theorem getLast?_of_mem_take {chain free : List BlockId} {n : Nat} (hn : n ≤ 1) {b : BlockId} (h : b ∈ free.take n) :
    (chain ++ free.take n).getLast? = some b := by
  obtain rfl | rfl : n = 0 ∨ n = 1 := by omega
  · simp at h
  · cases free with
    | nil => simp at h
    | cons f free => simp_all

theorem Descriptor.needs_le_one (x : Descriptor) : x.needs ≤ 1 := by
  rw [Descriptor.needs]
  split <;> decide

/-- R30, R35. Only the check code and the bytes of the last block of the chain are touched. -/
theorem State.storeByte_blocks (hs : s.memory.Sound) (hl : (s.memory.desc d).live = true)
    (h : (s.memory.desc d).length < 48 * (s.memory.desc d).chain.length ∨ s.memory.free ≠ []) (v : Byte) (c : BlockId) :
    let last := ((s.memory.desc d).chain ++ s.memory.free.take (s.memory.desc d).needs).getLast?
    (last = some c → c.val ∉ (s.storeByte d v).2.memory.bad) ∧
    (last ≠ some c → (c.val ∈ (s.storeByte d v).2.memory.bad ↔ c.val ∈ s.memory.bad) ∧
      ∀ k < 48, Memory.read (s.storeByte d v).2.memory.cells (blockAddress c k) =
        Memory.read s.memory.cells (blockAddress c k)) := by
  intro last
  have hlast := hs.written_block hl h
  have hlen : ((s.memory.taken d (s.memory.desc d).needs).desc d).length = (s.memory.desc d).length := by
    rw [s.memory.desc_taken, if_pos rfl]
  obtain ⟨b, hb⟩ : ∃ b, last = some b := by
    refine Option.isSome_iff_exists.mp ?_
    have hfit := hs.needs_fit hl
    have hne : 0 < ((s.memory.desc d).chain ++ s.memory.free.take (s.memory.desc d).needs).length := by
      rw [List.length_append, List.length_take, Nat.min_eq_left (Descriptor.needs_le_free h), hfit]
      simp only [blocksFor]
      omega
    exact List.getLast?_isSome.mpr (List.length_pos_iff.mp hne)
  have hget : ((s.memory.taken d (s.memory.desc d).needs).desc d).chain[
      ((s.memory.taken d (s.memory.desc d).needs).desc d).length / 48]? = some b := by
    rw [hlen, hlast]
    exact hb
  have htake : last ≠ some c → c ∉ s.memory.free.take (s.memory.desc d).needs := fun hc hm =>
    hc (getLast?_of_mem_take (Descriptor.needs_le_one _) hm)
  rw [(State.storeByte_memory hs h v).2, RecordMemory.appendByte_bad hget, RecordMemory.appendByte_cells hget]
  have hbad : c.val ∈ (s.memory.taken d (s.memory.desc d).needs).bad ↔ _ := s.memory.takeBlocks_bad d _ c
  refine ⟨fun hc => ?_, fun hc => ?_⟩
  · obtain rfl : b = c := Option.some.inj (hb.symm.trans hc)
    simp
  · have hne : c ≠ b := fun hcb => hc (hcb ▸ hb)
    refine ⟨?_, fun k hk => ?_⟩
    · have hv : c.val ≠ b.val := fun hv => hne (Fin.ext hv)
      simp [hbad, htake hc, hv]
    · have hw : Memory.wf (s.memory.taken d (s.memory.desc d).needs).cells = true := RecordMemory.takeBlocks_wf hs.cells d _
      rw [Memory.read_write_other hw v fun ha =>
        hne (blockAddress_inj hk (Nat.mod_lt _ (by decide)) ha).1]
      exact (s.memory.takeBlocks_read d _ c hk).trans (if_neg (htake hc))

/-- R43. The part of the storing of a byte that is not Record Memory: MEMORY_LOW. -/
theorem State.storeByte_raises
    (h : (s.memory.desc d).length < 48 * (s.memory.desc d).chain.length ∨ s.memory.free ≠ []) (v : Byte) :
    { (s.storeByte d v).2 with memory := s.memory } =
      if decide (¬ (s.memory.desc d).length < 48 * (s.memory.desc d).chain.length) && s.memory.armed &&
        decide (s.memory.threshold < s.memory.free.length) && decide (s.memory.free.length - 1 ≤ s.memory.threshold)
      then s.raise .memoryLow 0 (.freeBlocks (s.memory.free.length - 1)) else s := by
  by_cases hfit : (s.memory.desc d).length < 48 * (s.memory.desc d).chain.length
  · rw [State.storeByte_fits hfit]
    simp [hfit, State.modMemory]
  · rw [State.storeByte_takes hfit (h.resolve_left hfit)]
    simp only [hfit, not_false_eq_true, decide_true, Bool.true_and]
    exact s.takeBlocks_raises d 1 s.memory

end

theorem State.storeInFrame_tooLong {s : State} {p : PortId} {a : Assembly} (hf : (s.port p).framer.frame = some a)
    (h : (s.port p).framer.settings.maxLength ≤ (s.memory.desc a.desc).length) (v : Byte) :
    s.storeInFrame p v = (.tooLong, s) := by
  simp only [State.storeInFrame, State.framer, hf]
  exact if_pos h

theorem State.storeInFrame_eq {s : State} {p : PortId} {a : Assembly} (hf : (s.port p).framer.frame = some a)
    (h : (s.memory.desc a.desc).length < (s.port p).framer.settings.maxLength) (v : Byte) :
    s.storeInFrame p v = (if (s.storeByte a.desc v).1 then .stored else .noBlock, (s.storeByte a.desc v).2) := by
  simp only [State.storeInFrame, State.framer, hf]
  refine (if_neg (Nat.not_le.mpr h)).trans ?_
  split <;> rename_i e <;> rw [e] <;> rfl

/-- Settles O36, by whether the chain has a place, and a block is free. -/
theorem byteStored : Obligations.ByteStored := by
  refine ⟨fun m => ⟨rfl, rfl⟩, fun s p a v hf => ⟨fun h => State.storeInFrame_tooLong hf h v, fun h hfit hnone => ?_,
    fun hs hl h hroom => ?_⟩⟩
  · rw [State.storeInFrame_eq hf h, State.storeByte_noBlock hfit hnone]
    rfl
  intro n low
  have hg := State.storeByte_grows hs hl hroom v
  have hn : n = (s.memory.desc a.desc).needs := rfl
  rw [← hn] at hg
  refine ⟨(s.storeByte a.desc v).2, ?_, hg.desc, ?_, fun e he => ⟨hg.others e he, fun i _ => hg.payloadByte_other hs he i⟩,
    hg.free, ?_, hg.threshold, hg.counters, hg.lowWater, fun i hi hlt => ?_,
    fun b hb => (State.storeByte_blocks hs hl hroom v b).1 hb, fun b hb => (State.storeByte_blocks hs hl hroom v b).2 hb,
    State.storeByte_raises hroom v⟩
  · rw [State.storeInFrame_eq hf h, (State.storeByte_memory hs hroom v).1]
    rfl
  · have hold := (hs.of_live hl).2
    simp only [RecordMemory.payload, Nat.zero_add, List.range_succ, List.map_append, List.map_cons, List.map_nil]
    refine congr (congrArg _ (List.map_congr_left fun i hi => ?_)) (congrArg (· :: []) (hg.written 0 Nat.one_pos))
    have hi := List.mem_range.mp hi
    simp only [blocksFor] at hold
    exact hg.kept i (Or.inl hi) (by omega)
  · rw [hg.armed]
    simp only [low, n, RecordMemory.fallsLow, RecordMemory.takeBlocks_threshold, RecordMemory.takeBlocks_free,
      List.length_drop]
    by_cases hfit : (s.memory.desc a.desc).length < 48 * (s.memory.desc a.desc).chain.length
    · by_cases hlt : s.memory.threshold < s.memory.free.length <;> simp [hfit, hlt]
    · simp only [hfit, if_false, not_false_eq_true, decide_true, Bool.true_and]
      rfl
  · by_cases hfit : (s.memory.desc a.desc).length < 48 * (s.memory.desc a.desc).chain.length
    · rw [if_pos hfit]
      simp only [n, if_pos hfit, Nat.add_zero] at hlt
      exact hg.kept i (Or.inr hi) hlt
    · rw [if_neg hfit]
      exact hg.zero i hi (by omega) hlt

end Sys2Proof.Machine
end

