-- ==== Sys2Proof/Proofs/Releases.lean ====
section
namespace Sys2Proof.Machine

/-! ### A reference released -/

section
variable (m : RecordMemory)

/-- R43. The rise of the free count that arms MEMORY_LOW again. -/
def RecordMemory.rises (before : Nat) : Bool :=
  decide (before < m.free.length) && (decide (m.threshold + 16 < m.free.length)
    || (decide (1024 ≤ m.threshold + 16) && decide (m.free.length = 1024)))

theorem RecordMemory.rearm_eq (before : Nat) : m.rearm before = { m with armed := m.armed || m.rises before } := by
  have hif : m.rearm before = if !m.armed && decide (before < m.free.length) &&
      (decide (m.threshold + 16 < m.free.length) || (decide (1024 ≤ m.threshold + 16) && decide (m.free.length = 1024)))
      then { m with armed := true } else m := rfl
  rw [hif, Bool.and_assoc]
  change (if !m.armed && m.rises before then { m with armed := true } else m) = _
  cases ha : m.armed with
  | true =>
    simp only [Bool.not_true, Bool.false_and, Bool.false_eq_true, if_false, Bool.true_or]
    rw [← ha]
  | false =>
    cases m.rises before with
    | true => rfl
    | false => simp [← ha]

variable {m} {d : DescId}

/-- R34. A release that leaves other parties. -/
theorem RecordMemory.release_shared (hl : (m.desc d).live = true) (h : 1 < (m.desc d).refs) :
    m.release d = m.modDesc d fun x => { x with refs := x.refs - 1 } := by
  simp [RecordMemory.release, hl, h]

/-- R34. The release of the last reference. -/
theorem RecordMemory.release_last (hl : (m.desc d).live = true) (h : (m.desc d).refs ≤ 1) :
    m.release d = ({ m.modDesc d fun _ => .unused with free := m.free ++ (m.desc d).chain }).rearm m.free.length := by
  simp [RecordMemory.release, hl, Nat.not_lt.mpr h, RecordMemory.freeCount]

end

/-- Settles O37, by whether other parties name the descriptor. -/
theorem referenceReleased : Obligations.ReferenceReleased :=
  fun _ _ hl => ⟨fun h => RecordMemory.release_shared hl h,
    fun h => (RecordMemory.release_last hl h).trans (RecordMemory.rearm_eq _ _)⟩

end Sys2Proof.Machine
end

