-- ==== Sys2Proof/Proofs/Books.lean ====
section
namespace Sys2Proof.Machine

/-! ### The parties that name a descriptor -/

/-- R33. The descriptors that the records of a store name. -/
def Store.names (st : Store) : List DescId := st.records.map (·.desc)

/-- R33. The descriptors that the send entries and the frame in assembly of a port name. -/
def Port.names (q : Port) : List DescId := q.queue.map (·.desc) ++ q.framer.frame.toList.map (·.desc)

/-- R33. The descriptors that the pending frames and the frame under classification name. -/
def Classifier.names (c : Classifier) : List DescId :=
  c.queue.map (·.desc) ++ c.current.toList.map fun k => k.frame.desc

/-- R33. The descriptors that the parties name, one for each party. -/
def State.names (s : State) : List DescId :=
  (List.finRange 8).flatMap (fun i => (s.store i).names) ++ (List.finRange 4).flatMap (fun p => (s.port p).names) ++
    s.classifier.names

theorem vector_toList_eq {α : Type} {n : Nat} (v : Vector α n) : v.toList = (List.finRange n).map v.get := by
  refine List.ext_getElem (by simp) fun i h1 h2 => ?_
  simp [Vector.get_eq_getElem]

theorem State.holders_eq (s : State) (d : DescId) : s.holders d = s.names.count d := by
  have hports : s.ports.toList = (List.finRange 4).map s.port := vector_toList_eq s.ports
  have hstores : s.stores.toList = (List.finRange 8).map s.store := vector_toList_eq s.stores
  simp only [State.holders, hports, hstores, State.names, Store.names, Port.names, Classifier.names, naming,
    List.count_append, List.count_flatMap, List.map_map, Function.comp_def, List.sum_map_add]
  omega

section
variable (s : State)

theorem State.names_modPort (p : PortId) (f : Port → Port) :
    ((s.modPort p f).names ++ (s.port p).names).Perm (s.names ++ (f (s.port p)).names) := by
  have h := flatMap_update_perm (ι := PortId) (List.nodup_finRange 4) (List.mem_finRange p) (f := fun x => (s.port x).names)
    (g := fun x => ((s.modPort p f).port x).names) fun x hx => by rw [s.port_modPort_other f hx]
  rw [State.port_modPort_same] at h
  have hs : (s.modPort p f).names = (List.finRange 8).flatMap (fun i => (s.store i).names) ++
    (List.finRange 4).flatMap (fun x => ((s.modPort p f).port x).names) ++ s.classifier.names := rfl
  rw [hs]
  refine List.perm_iff_count.mpr fun d => ?_
  have hd := List.perm_iff_count.mp h d
  simp only [State.names, List.count_append] at hd ⊢
  omega

theorem State.names_modStore (i : StoreId) (f : Store → Store) :
    ((s.modStore i f).names ++ (s.store i).names).Perm (s.names ++ (f (s.store i)).names) := by
  have h := flatMap_update_perm (ι := StoreId) (List.nodup_finRange 8) (List.mem_finRange i) (f := fun x => (s.store x).names)
    (g := fun x => ((s.modStore i f).store x).names) fun x hx => by rw [s.store_modStore_other f hx]
  rw [State.store_modStore_same] at h
  have hs : (s.modStore i f).names = (List.finRange 8).flatMap (fun x => ((s.modStore i f).store x).names) ++
    (List.finRange 4).flatMap (fun p => (s.port p).names) ++ s.classifier.names := rfl
  rw [hs]
  refine List.perm_iff_count.mpr fun d => ?_
  have hd := List.perm_iff_count.mp h d
  simp only [State.names, List.count_append] at hd ⊢
  omega

theorem State.names_modClassifier (f : Classifier → Classifier) :
    ((s.modClassifier f).names ++ s.classifier.names).Perm (s.names ++ (f s.classifier).names) := by
  refine List.perm_iff_count.mpr fun d => ?_
  simp only [State.names, State.port_modClassifier, State.store_modClassifier, State.modClassifier_classifier,
    List.count_append]
  omega

variable {s}

theorem State.names_congr {t : State} (hp : t.ports = s.ports) (hs : t.stores = s.stores)
    (hc : t.classifier.names = s.classifier.names) : t.names = s.names := by
  simp only [State.names, State.port, State.store, hp, hs, hc]

theorem State.mem_names_port {p : PortId} {d : DescId} (h : d ∈ (s.port p).names) : d ∈ s.names := by
  simp only [State.names, List.mem_append, List.mem_flatMap]
  exact .inl (.inr ⟨p, List.mem_finRange p, h⟩)

theorem State.mem_names_store {i : StoreId} {d : DescId} (h : d ∈ (s.store i).names) : d ∈ s.names := by
  simp only [State.names, List.mem_append, List.mem_flatMap]
  exact .inl (.inl ⟨i, List.mem_finRange i, h⟩)

theorem State.mem_names_classifier {d : DescId} (h : d ∈ s.classifier.names) : d ∈ s.names :=
  List.mem_append_right _ h

end

/-! ### Exact reference counts -/

/-- R31 to R33. Record Memory keeps its shape, and its reference counts are those of a list of references. -/
structure RecordMemory.Books (m : RecordMemory) (l : List DescId) : Prop where
  sound : m.Sound
  exact : ∀ d, (m.desc d).refs = l.count d

section
variable {m m' : RecordMemory} {l l' : List DescId} {d : DescId}

theorem RecordMemory.Books.perm (h : m.Books l) (hp : l.Perm l') : m.Books l' :=
  ⟨h.sound, fun d => (h.exact d).trans (hp.count_eq d)⟩

/-- R32. A descriptor with a reference is LIVE. -/
theorem RecordMemory.Books.live (h : m.Books l) (hd : d ∈ l) : (m.desc d).live = true := by
  by_contra hl
  have hx := h.exact d
  rw [h.sound.of_not_live (Bool.not_eq_true _ ▸ hl)] at hx
  exact absurd (List.count_pos_iff.mpr hd) (by rw [← hx]; decide)

/-- A change of Record Memory that moves no block and no reference. -/
theorem RecordMemory.Books.of_desc (h : m.Books l) (hc : Memory.wf m'.cells = true) (hf : m'.free = m.free)
    (hd : ∀ e, m'.desc e = m.desc e) (ht : m'.threshold ≤ 1023) (hw : m'.lowWater ≤ m.free.length) : m'.Books l :=
  ⟨h.sound.of_desc hc hf (fun e => by rw [hd]) (fun e => by rw [hd]; exact h.sound.tidy e) ht hw,
    fun e => by rw [hd]; exact h.exact e⟩

theorem RecordMemory.Books.counters (h : m.Books l) (c : MemoryCounters) : ({ m with counters := c } : RecordMemory).Books l :=
  h.of_desc h.sound.cells rfl (fun _ => rfl) h.sound.threshold h.sound.lowWater

/-- R31, R34. Blocks that go from a chain to the tail of the free list stay in one place each. -/
theorem RecordMemory.Sound.freed (h : m.Sound) (d : DescId) :
    ({ m.modDesc d fun _ => .unused with free := m.free ++ (m.desc d).chain } : RecordMemory).Sound := by
  have hdesc : ∀ e, ({ m.modDesc d fun _ => .unused with free := m.free ++ (m.desc d).chain } : RecordMemory).desc e =
      if e = d then .unused else m.desc e := fun e => m.desc_modDesc d e fun _ => .unused
  refine ⟨h.cells, ?_, fun e => ?_, h.threshold, ?_⟩
  · have hc := RecordMemory.chained_update (m := m)
      (m' := { m.modDesc d fun _ => .unused with free := m.free ++ (m.desc d).chain }) d fun e he => by
        rw [hdesc, if_neg he]
    rw [hdesc, if_pos rfl] at hc
    refine List.Perm.trans (List.perm_iff_count.mpr fun b => ?_) h.partitioned
    have hb := List.perm_iff_count.mp hc b
    simp only [Descriptor.unused, List.append_nil, List.count_append] at hb ⊢
    omega
  · rw [hdesc]
    split
    · rfl
    · exact h.tidy e
  · rw [List.length_append]
    exact h.lowWater.trans (Nat.le_add_right _ _)

theorem RecordMemory.Sound.rearm (h : m.Sound) (before : Nat) : (m.rearm before).Sound := by
  rw [m.rearm_eq]
  exact ⟨h.cells, h.partitioned, h.tidy, h.threshold, h.lowWater⟩

theorem RecordMemory.desc_rearm (m : RecordMemory) (before : Nat) (e : DescId) : (m.rearm before).desc e = m.desc e := by
  rw [m.rearm_eq]
  rfl

/-- R33, R34. A reference is released. -/
theorem RecordMemory.Books.release (h : m.Books (d :: l)) : (m.release d).Books l := by
  have hlive := h.live List.mem_cons_self
  have hrefs : (m.desc d).refs = l.count d + 1 := by rw [h.exact, List.count_cons_self]
  have hother : ∀ e, e ≠ d → (m.desc e).refs = l.count e := fun e he => by
    rw [h.exact, List.count_cons_of_ne (Ne.symm he)]
  by_cases hone : 1 < (m.desc d).refs
  · rw [RecordMemory.release_shared hlive hone]
    have hdesc := m.desc_modDesc d (f := fun x => { x with refs := x.refs - 1 })
    refine ⟨h.sound.of_desc h.sound.cells rfl (fun e => ?_) (fun e => ?_) h.sound.threshold h.sound.lowWater, fun e => ?_⟩ <;>
      rw [hdesc] <;> split
    · rename_i he; rw [he]
    · rfl
    · have := h.sound.of_live hlive
      rw [Descriptor.Tidy, if_pos hlive]
      exact ⟨Nat.le_sub_one_of_lt hone, this.2⟩
    · exact h.sound.tidy e
    · rename_i he; subst he
      exact Nat.sub_eq_of_eq_add hrefs
    · exact hother e ‹_›
  · rw [RecordMemory.release_last hlive (Nat.not_lt.mp hone)]
    refine ⟨(h.sound.freed d).rearm _, fun e => ?_⟩
    rw [RecordMemory.desc_rearm]
    refine (congrArg Descriptor.refs (m.desc_modDesc d e fun _ => .unused)).trans ?_
    split
    · rename_i he; subst he
      simp only [Descriptor.unused]
      omega
    · exact hother e ‹_›

theorem RecordMemory.Books.releases {ds : List DescId} (h : m.Books (ds ++ l)) : (ds.foldl RecordMemory.release m).Books l := by
  induction ds generalizing m with
  | nil => exact h
  | cons d ds ih => exact ih h.release

/-- R33. One party more names a descriptor. -/
theorem RecordMemory.Books.acquire (h : m.Books l) (hd : d ∈ l) :
    (m.modDesc d fun x => { x with refs := x.refs + 1 }).Books (d :: l) := by
  have hlive := h.live hd
  have hdesc := m.desc_modDesc d (f := fun x => { x with refs := x.refs + 1 })
  refine ⟨h.sound.of_desc h.sound.cells rfl (fun e => ?_) (fun e => ?_) h.sound.threshold h.sound.lowWater, fun e => ?_⟩ <;>
    rw [hdesc] <;> split
  · rename_i he; rw [he]
  · rfl
  · rw [Descriptor.Tidy, if_pos hlive]
    exact ⟨Nat.le_add_left _ _, (h.sound.of_live hlive).2⟩
  · exact h.sound.tidy e
  · rename_i he; subst he
    rw [List.count_cons_self, h.exact]
  · rw [List.count_cons_of_ne (Ne.symm ‹_›), h.exact]

/-- R32. A FREE descriptor is taken with one reference. -/
theorem RecordMemory.Books.takeDescriptor (h : m.Books l) (hd : (m.desc d).live = false) : (m.takeDescriptor d).Books (d :: l) := by
  refine ⟨h.sound.takeDescriptor hd, fun e => ?_⟩
  rw [m.desc_takeDescriptor]
  split
  · rename_i he; subst he
    have := h.exact e
    rw [h.sound.of_not_live hd] at this
    simp only [List.count_cons_self, ← this]
    rfl
  · rw [List.count_cons_of_ne (Ne.symm ‹_›), h.exact]

/-- R35, R36. A payload grows. -/
theorem RecordMemory.Books.grows {n : Nat} {bytes : List Byte} (h : m.Books l) (hd : d ∈ l) (hg : m.Grows d n bytes m')
    (hn : n ≤ m.free.length) (hfit : (m.desc d).chain.length + n = blocksFor ((m.desc d).length + bytes.length)) : m'.Books l := by
  refine ⟨hg.sound h.sound (h.live hd) hn hfit, fun e => ?_⟩
  rw [← h.exact]
  by_cases he : e = d
  · rw [he, hg.desc]
  · rw [hg.others e he]

end

section
variable {s : State} {l : List DescId} {d : DescId}

/-- R35. A byte is stored, or none is free for it. -/
theorem RecordMemory.Books.storeByte (h : s.memory.Books l) (hd : d ∈ l) (v : Byte) : (s.storeByte d v).2.memory.Books l := by
  have hl := h.live hd
  by_cases hroom : (s.memory.desc d).length < 48 * (s.memory.desc d).chain.length ∨ s.memory.free ≠ []
  · exact h.grows hd (State.storeByte_grows h.sound hl hroom v) (Descriptor.needs_le_free hroom) (h.sound.needs_fit hl)
  · obtain ⟨hfit, hnone⟩ := not_or.mp hroom
    rw [State.storeByte_noBlock hfit (not_not.mp hnone)]
    exact h.counters _

/-- R36. A fill takes a descriptor with a reference for the filler, or changes no reference. -/
theorem RecordMemory.Books.fill (h : s.memory.Books l) (bytes : List Byte) :
    (s.fill bytes).2.memory.Books ((s.fill bytes).1.toList ++ l) := by
  cases hd : s.memory.lowestFree with
  | none =>
    rw [State.fill_noDescriptor fun e => by
      simpa using List.find?_eq_none.mp hd e (List.mem_finRange e)]
    exact h.counters _
  | some d =>
    have hlive := RecordMemory.lowestFree_not_live hd
    by_cases hn : blocksFor bytes.length ≤ s.memory.free.length
    · rw [State.fill_some hd hn]
      refine (h.takeDescriptor hlive).grows List.mem_cons_self (State.fill_grows h.sound hd hn) hn ?_
      rw [s.memory.desc_takeDescriptor, if_pos rfl]
      simp
    · rw [State.fill_noBlock ⟨d, hlive⟩ (Nat.not_le.mp hn)]
      exact h.counters _

/-- R37. A read of a block damages a LIVE descriptor at most. -/
theorem RecordMemory.Books.checkBlock (h : s.memory.Books l) (hl : (s.memory.desc d).live = true) (b : BlockId) :
    (s.checkBlock d b).memory.Books l := by
  simp only [State.checkBlock]
  split
  · have hdesc : ∀ e, ((s.modMemory fun m => { m.modDesc d fun x => { x with damaged := true } with
        counters := { m.counters with checkFailures := sat32 (m.counters.checkFailures + 1) } }).raise
        .dataCheck b.val .none).memory.desc e = if e = d then { s.memory.desc d with damaged := true } else s.memory.desc e :=
      fun e => s.memory.desc_modDesc d e fun x => { x with damaged := true }
    refine ⟨h.sound.of_desc h.sound.cells rfl (fun e => ?_) (fun e => ?_) h.sound.threshold h.sound.lowWater, fun e => ?_⟩ <;>
      rw [hdesc] <;> split
    · rename_i he; rw [he]
    · rfl
    · rw [Descriptor.Tidy, if_pos hl]
      exact h.sound.of_live hl
    · exact h.sound.tidy e
    · rename_i he; rw [he]; exact h.exact d
    · exact h.exact e
  · exact h

theorem RecordMemory.Books.checkBlocks (h : s.memory.Books l) (hd : d ∈ l) (bs : List BlockId) :
    (s.checkBlocks d bs).memory.Books l := by
  induction bs generalizing s with
  | nil => exact h
  | cons b bs ih => exact ih (h.checkBlock (h.live hd) b)

end

/-- R30. A disturbance of the storage. -/
theorem RecordMemory.Books.tick {m : RecordMemory} {l : List DescId} (h : m.Books l) (now : Nat) : (m.tick now).Books l := by
  have hrest : ∀ us : List Upset, us.foldl RecordMemory.disturb m = { m with
      cells := (us.foldl RecordMemory.disturb m).cells, bad := (us.foldl RecordMemory.disturb m).bad } := fun us => by
    induction us using List.reverseRecOn with
    | nil => rfl
    | append_singleton us u ih =>
      rw [List.foldl_append, ih]
      rfl
  have hwf := RecordMemory.tick_wf h.sound.cells now
  simp only [RecordMemory.tick] at hwf ⊢
  rw [hrest]
  exact h.of_desc hwf rfl (fun _ => rfl) h.sound.threshold h.sound.lowWater

end Sys2Proof.Machine
end

