-- ==== Sys2Proof/Proofs/Conserved.lean ====
section
namespace Sys2Proof.Machine

/-! ### What every step conserves -/

/-- R73, R96, R116, R121. The send queue, the transmitter and the framer of a port. -/
structure Port.Sound (q : Port) : Prop where
  send : q.SendSound
  framer : q.FramerSound

/-- R30 to R33, R73, R116, R118, R121. What every step conserves. -/
structure State.Conserved (s : State) : Prop where
  books : s.memory.Books s.names
  pool : s.PoolSound
  ports : ∀ p, (s.port p).Sound

/-- What every step conserves, while one port is in the middle of an operation. -/
structure State.Held (p : PortId) (P : Port → Prop) (s : State) : Prop where
  books : s.memory.Books s.names
  pool : s.PoolSound
  others : ∀ x, x ≠ p → (s.port x).Sound
  port : P (s.port p)

section
variable {s t : State} {p : PortId} {P Q : Port → Prop}

theorem State.Conserved.held (h : s.Conserved) (p : PortId) (hp : (s.port p).Sound → P (s.port p)) : State.Held p P s :=
  ⟨h.books, h.pool, fun x _ => h.ports x, hp (h.ports p)⟩

theorem State.Held.conserved (h : State.Held p P s) (hp : P (s.port p) → (s.port p).Sound) : s.Conserved := by
  refine ⟨h.books, h.pool, fun x => ?_⟩
  by_cases hx : x = p
  · exact hx ▸ hp h.port
  · exact h.others x hx

theorem State.Held.imp (h : State.Held p P s) (hp : P (s.port p) → Q (s.port p)) : State.Held p Q s :=
  ⟨h.books, h.pool, h.others, hp h.port⟩

theorem State.entries_eq (s : State) : s.entries = (List.finRange 4).flatMap fun p : PortId => (s.port p).queue := by
  have hports : s.ports.toList = (List.finRange 4).map s.port := vector_toList_eq s.ports
  rw [State.entries, hports, List.flatMap_map]

theorem List.Sublist.flatMap_left {ι α : Type} (l : List ι) {f g : ι → List α} (h : ∀ i, (f i).Sublist (g i)) :
    (l.flatMap f).Sublist (l.flatMap g) := by
  induction l with
  | nil => exact .refl _
  | cons i l ih => exact (h i).append ih

/-- R116, R118. Send entries that leave the pool, or change but for their ids. -/
theorem State.PoolSound.of_ids (h : s.PoolSound)
    (hq : ∀ p, ((t.port p).queue.map (·.id)).Sublist ((s.port p).queue.map (·.id))) (hn : t.nextSendId = s.nextSendId) :
    t.PoolSound := by
  have hids : (t.entries.map (·.id)).Sublist (s.entries.map (·.id)) := by
    rw [t.entries_eq, s.entries_eq, List.map_flatMap, List.map_flatMap]
    exact List.Sublist.flatMap_left _ hq
  refine ⟨?_, h.ids.sublist hids, fun e he => ?_, hn ▸ h.next⟩
  · simpa using hids.length_le.trans (by simpa using h.size)
  · obtain ⟨x, hx, hid⟩ := List.mem_map.mp (hids.subset (List.mem_map_of_mem he))
    exact hid ▸ h.nonzero x hx

/-- A change of Record Memory, and of what names no descriptor. -/
theorem State.Held.of_memory (h : State.Held p P s) (hb : t.memory.Books s.names) (hp : t.ports = s.ports)
    (hs : t.stores = s.stores) (hc : t.classifier.names = s.classifier.names) (hn : t.nextSendId = s.nextSendId) :
    State.Held p P t := by
  have hport : ∀ x, t.port x = s.port x := fun x => by rw [State.port, hp, State.port]
  refine ⟨?_, h.pool.of_ids (fun x => by rw [hport x]) hn, fun x hx => ?_, ?_⟩
  · rw [State.names_congr hp hs hc]
    exact hb
  · rw [hport x]
    exact h.others x hx
  · rw [hport p]
    exact h.port

theorem State.Conserved.of_memory (h : s.Conserved) (hb : t.memory.Books s.names) (hp : t.ports = s.ports)
    (hs : t.stores = s.stores) (hc : t.classifier.names = s.classifier.names) (hn : t.nextSendId = s.nextSendId) :
    t.Conserved :=
  ((h.held 0 (P := Port.Sound) id).of_memory hb hp hs hc hn).conserved id

/-- What names no descriptor and is no port. -/
theorem State.Conserved.of_eq (h : s.Conserved) (hm : t.memory = s.memory) (hp : t.ports = s.ports)
    (hs : t.stores = s.stores) (hc : t.classifier.names = s.classifier.names) (hn : t.nextSendId = s.nextSendId) :
    t.Conserved := h.of_memory (hm ▸ h.books) hp hs hc hn

theorem State.names_patched (s : State) (m : RecordMemory) (n : NoticeQueue) (o : OpTable) (p : PortId) (q : Port) :
    ((s.patched m n o p q).names ++ (s.port p).names).Perm (s.names ++ q.names) := s.names_modPort p fun _ => q

/-- An operation of one port, with the references as they then are. -/
theorem State.Held.replace (h : State.Held p P s) (hb : t.memory.Books t.names) (ho : State.OnlyPort p s t)
    (hi : ((t.port p).queue.map (·.id)).Sublist ((s.port p).queue.map (·.id))) (hn : t.nextSendId = s.nextSendId)
    (hq : Q (t.port p)) : State.Held p Q t := by
  refine ⟨hb, h.pool.of_ids (fun x => ?_) hn, fun x hx => ?_, hq⟩
  · by_cases hx : x = p
    · rw [hx]
      exact hi
    · rw [ho x hx]
  · rw [ho x hx]
    exact h.others x hx

/-- R33, R34. A port is replaced, and the references that it then no longer holds are released. -/
theorem State.Held.patched (h : State.Held p P s) {q : Port} {ds : List DescId} (n : NoticeQueue) (o : OpTable)
    (hn : (s.port p).names.Perm (ds ++ q.names)) (hi : (q.queue.map (·.id)).Sublist ((s.port p).queue.map (·.id)))
    (hq : Q q) : State.Held p Q (s.patched (ds.foldl RecordMemory.release s.memory) n o p q) := by
  have hsame := s.patched_port (ds.foldl RecordMemory.release s.memory) n o p q
  refine h.replace (RecordMemory.Books.releases (h.books.perm ?_)) (fun x hx => s.patched_port_other _ n o q hx)
    (by rw [hsame]; exact hi) rfl (by rw [hsame]; exact hq)
  have hnames := s.names_patched (ds.foldl RecordMemory.release s.memory) n o p q
  refine List.perm_iff_count.mpr fun d => ?_
  have h1 := List.perm_iff_count.mp hnames d
  have h2 := List.perm_iff_count.mp hn d
  simp only [List.count_append] at h1 h2 ⊢
  omega

/-- A change of a port that keeps its references. -/
theorem State.Held.modPort (h : State.Held p P s) {f : Port → Port} (hn : (s.port p).names.Perm (f (s.port p)).names)
    (hi : ((f (s.port p)).queue.map (·.id)).Sublist ((s.port p).queue.map (·.id))) (hq : Q (f (s.port p))) :
    State.Held p Q (s.modPort p f) := h.patched (ds := []) s.notices s.ops hn hi hq

/-- R33. A change of a port that ends one of its references. -/
theorem State.Held.detach (h : State.Held p P s) {f : Port → Port} {d : DescId}
    (hn : (s.port p).names.Perm (d :: (f (s.port p)).names))
    (hi : ((f (s.port p)).queue.map (·.id)).Sublist ((s.port p).queue.map (·.id))) (hq : Q (f (s.port p))) :
    State.Held p Q ((s.modPort p f).release d) := h.patched (ds := [d]) s.notices s.ops hn hi hq

end

/-! ### A port that keeps its entries and its frame -/

/-- What the soundness of a port depends on, the same in two ports. -/
structure Port.Alike (q q' : Port) : Prop where
  queue : q'.queue = q.queue
  tx : q'.tx = q.tx
  stopping : q'.stopping = q.stopping
  state : q'.state = q.state
  framer : q'.framer = q.framer

section
variable {q q' : Port}

theorem Port.SendSound.of_eq (h : q.SendSound) (hq : q'.queue = q.queue) (ht : q'.tx = q.tx) (hs : q'.stopping = q.stopping)
    (hc : q'.canSend = q.canSend) : q'.SendSound :=
  ⟨hq ▸ h.length, by rw [hq, ht]; exact h.one, by rw [hc, hq, hs]; exact h.off, by rw [hs, ht]; exact h.stopping⟩

theorem Port.Alike.canSend (h : q.Alike q') : q'.canSend = q.canSend := by rw [Port.canSend, h.state, Port.canSend]

theorem Port.Alike.sound (h : q.Alike q') (hq : q.Sound) : q'.Sound :=
  ⟨hq.send.of_eq h.queue h.tx h.stopping h.canSend, by
    rw [Port.FramerSound, h.framer, h.state]
    exact hq.framer⟩

theorem Port.Alike.names (h : q.Alike q') : q'.names = q.names := by rw [Port.names, h.queue, h.framer, Port.names]

variable {s : State} {p : PortId}

theorem State.Conserved.modPort (h : s.Conserved) {f : Port → Port} (hf : (s.port p).Alike (f (s.port p))) :
    (s.modPort p f).Conserved :=
  ((h.held p (P := Port.Sound) id).modPort (Q := Port.Sound) (.of_eq hf.names.symm) (by rw [hf.queue]) (hf.sound (h.ports p))).conserved id

end

end Sys2Proof.Machine
end

