-- ==== Sys2Proof/Proofs/FramerConserves.lean ====
section
namespace Sys2Proof.Machine

/-! ### The framer under its operations -/

/-- The port is RUNNING, and `P` holds of whether a frame is in assembly and of the framer's state. -/
def Port.Frames (P : Bool → FramerState → Prop) (q : Port) : Prop :=
  q.SendSound ∧ q.state = .running ∧ P q.framer.frame.isSome q.framer.state

/-- No frame is in assembly. -/
def Closed (frame : Bool) (_ : FramerState) : Prop := frame = false

/-- R73. A frame is in assembly, in HEADER or BODY. -/
def Taking (frame : Bool) (st : FramerState) : Prop := frame = true ∧ (st = .header ∨ st = .body)

/-- R73. No frame is in assembly, in HUNT or SKIP. -/
def Resting (frame : Bool) (st : FramerState) : Prop := frame = false ∧ st ≠ .header ∧ st ≠ .body

/-- R73. A frame is in assembly exactly in HEADER and BODY. -/
def Shaped (frame : Bool) (st : FramerState) : Prop := Taking frame st ∨ Resting frame st

/-- What every step conserves, while the framer of a port is in the middle of an operation. -/
abbrev State.Framing (p : PortId) (P : Bool → FramerState → Prop) (s : State) : Prop := State.Held p (Port.Frames P) s

theorem shaped_iff (frame : Bool) (st : FramerState) : Shaped frame st ↔ frame = (st == .header || st == .body) := by
  cases frame <;> cases st <;> simp [Shaped, Taking, Resting]

theorem Port.Frames.sound {q : Port} (h : q.Frames Shaped) : q.Sound :=
  ⟨h.1, (shaped_iff _ _).mp h.2.2, fun hr => absurd h.2.1 hr⟩

theorem Port.Sound.frames {q : Port} (h : q.Sound) (hr : q.state = .running) : q.Frames Shaped :=
  ⟨h.send, hr, (shaped_iff _ _).mpr h.framer.1⟩

section
variable {s : State} {p : PortId} {P Q : Bool → FramerState → Prop}

theorem State.Framing.weaken (h : State.Framing p P s) (hP : ∀ frame st, P frame st → Q frame st) : State.Framing p Q s :=
  h.imp fun hf => ⟨hf.1, hf.2.1, hP _ _ hf.2.2⟩

theorem State.Framing.resting (h : State.Framing p Resting s) : State.Framing p Shaped s := h.weaken fun _ _ => .inr

theorem State.Framing.taking (h : State.Framing p Taking s) : State.Framing p Shaped s := h.weaken fun _ _ => .inl

theorem State.Framing.resting_of_state (h : State.Framing p Shaped s)
    (hs : (s.port p).framer.state = .hunt ∨ (s.port p).framer.state = .skip) : State.Framing p Resting s := by
  refine h.imp fun hf => ⟨hf.1, hf.2.1, hf.2.2.resolve_left fun ht => ?_⟩
  obtain hs | hs := hs <;> simp [Taking, hs] at ht

theorem State.Framing.taking_of_state (h : State.Framing p Shaped s)
    (hs : (s.port p).framer.state = .header ∨ (s.port p).framer.state = .body) : State.Framing p Taking s := by
  refine h.imp fun hf => ⟨hf.1, hf.2.1, hf.2.2.resolve_right fun hr => ?_⟩
  obtain hs | hs := hs <;> simp [Resting, hs] at hr

theorem State.Framing.closed (h : State.Framing p Resting s) : State.Framing p Closed s := h.weaken fun _ _ h => h.1

theorem State.Framing.frame_none (h : State.Framing p Closed s) : (s.port p).framer.frame = none := by
  simpa [Closed] using h.port.2.2

theorem State.Framing.ite {c : Prop} [Decidable c] {t : State} (hs : c → State.Framing p P s) (ht : ¬ c → State.Framing p P t) :
    State.Framing p P (if c then s else t) := by
  split
  · exact hs ‹_›
  · exact ht ‹_›

/-- A change of the framer that keeps the descriptor of its frame. -/
theorem State.Framing.modFramer (h : State.Framing p P s) {f : Framer → Framer}
    (hf : (f (s.port p).framer).frame.map (·.desc) = (s.port p).framer.frame.map (·.desc))
    (hq : P (s.port p).framer.frame.isSome (s.port p).framer.state →
      Q (f (s.port p).framer).frame.isSome (f (s.port p).framer).state) : State.Framing p Q (s.modFramer p f) := by
  refine State.Held.modPort h (.of_eq ?_) (.refl _) ⟨h.port.1.of_eq rfl rfl rfl rfl, h.port.2.1, hq h.port.2.2⟩
  simp only [Port.names, ← Option.toList_map, hf]

theorem State.Framing.keepFramer (h : State.Framing p P s) {f : Framer → Framer}
    (hf : (f (s.port p).framer).frame.map (·.desc) = (s.port p).framer.frame.map (·.desc))
    (hs : (f (s.port p).framer).state = (s.port p).framer.state) : State.Framing p P (s.modFramer p f) := by
  refine h.modFramer hf fun hp => ?_
  have hsome := congrArg Option.isSome hf
  simp only [Option.isSome_map] at hsome
  rwa [hsome, hs]

theorem State.Framing.setState (h : State.Framing p P s) {f : Framer → Framer}
    (hf : (f (s.port p).framer).frame = (s.port p).framer.frame)
    (hq : ∀ frame, P frame (s.port p).framer.state → Q frame (f (s.port p).framer).state) :
    State.Framing p Q (s.modFramer p f) := h.modFramer (by rw [hf]) fun hp => by rw [hf]; exact hq _ hp

theorem State.Framing.modPort (h : State.Framing p P s) {f : Port → Port} (hf : (s.port p).Alike (f (s.port p))) :
    State.Framing p P (s.modPort p f) := by
  refine State.Held.modPort h (.of_eq hf.names.symm) (by rw [hf.queue]) ?_
  exact ⟨h.port.1.of_eq hf.queue hf.tx hf.stopping hf.canSend, hf.state.trans h.port.2.1, by rw [hf.framer]; exact h.port.2.2⟩

theorem State.Framing.count (h : State.Framing p P s) {f : PortCounters → PortCounters} : State.Framing p P (s.count p f) :=
  h.modPort ⟨rfl, rfl, rfl, rfl, rfl⟩

theorem State.Framing.dropFrame (h : State.Framing p P s) : State.Framing p Closed (s.dropFrame p) := by
  simp only [State.dropFrame, State.framer]
  split
  · rename_i a ha
    refine State.Held.detach h ?_ (.refl _) ⟨h.port.1.of_eq rfl rfl rfl rfl, h.port.2.1, rfl⟩
    simp only [Port.names, ha, Option.toList_some, Option.toList_none, List.map_cons, List.map_nil, List.append_nil]
    exact List.perm_append_singleton _ _
  · rename_i hn
    exact h.imp fun hf => ⟨hf.1, hf.2.1, by rw [hn]; rfl⟩

theorem State.Framing.discardFrame (h : State.Framing p P s) (cause : DiscardCause) :
    State.Framing p Closed (s.discardFrame p cause) := h.dropFrame.count

theorem State.Framing.storeInFrame (h : State.Framing p P s) (v : Byte) : State.Framing p P (s.storeInFrame p v).2 := by
  obtain ⟨-, -, -, -, -, hc, hs, hp, hn, -⟩ := s.storeInFrame_frame p v
  refine State.Held.of_memory h ?_ hp hs (by rw [hc]) hn
  cases hf : (s.port p).framer.frame with
  | none => simpa only [State.storeInFrame, State.framer, hf] using h.books
  | some a =>
    by_cases hlen : (s.memory.desc a.desc).length < (s.port p).framer.settings.maxLength
    · rw [State.storeInFrame_eq hf hlen]
      refine h.books.storeByte (State.mem_names_port (p := p) ?_) v
      simp [Port.names, hf]
    · rw [State.storeInFrame_tooLong hf (Nat.not_lt.mp hlen)]
      exact h.books

theorem State.Framing.storeSeq (h : State.Framing p P s) (vs : List Byte) : State.Framing p P (s.storeSeq p vs).2 := by
  induction vs generalizing s with
  | nil => exact h
  | cons v vs ih =>
    have hv := h.storeInFrame v
    simp only [State.storeSeq]
    split
    · rename_i e
      rw [e] at hv
      exact ih hv
    · exact hv

theorem State.Framing.notePart (h : State.Framing p P s) (c : Char) : State.Framing p P (s.notePart p c) :=
  h.keepFramer (by simp [Function.comp_def]) rfl

theorem State.Framing.flagFrame (h : State.Framing p P s) (f : FrameFlags → FrameFlags) : State.Framing p P (s.flagFrame p f) :=
  h.keepFramer (by simp [Function.comp_def]) rfl

theorem State.Framing.truncateFrame (h : State.Framing p P s) : State.Framing p P (s.truncateFrame p) :=
  ((h.flagFrame _).keepFramer rfl rfl).count

/-- R94. What the completion of a frame makes of its port. -/
def Port.frameCompleted (q : Port) : Port := { q with
  framer := { q.framer with frame := none }
  counters := { q.counters with completed := sat32 (q.counters.completed + 1) } }

theorem State.completeFrame_eq (s : State) (p : PortId) (a : Assembly) (close : Word) : s.completeFrame p a close =
    if s.classifier.queue.length < 8 then (s.modPort p Port.frameCompleted).modClassifier fun c => { c with
      queue := c.queue ++ [⟨p, a.desc, (s.memory.desc a.desc).length, a.flags, a.arrival, close⟩] }
    else ((((s.modPort p Port.frameCompleted).release a.desc).count p fun c => { c with lost := sat32 (c.lost + 1) }).raise
      .frameLost p.val .none) := by
  simp only [State.completeFrame, State.modFramer, State.count, State.modPort_modPort]
  rfl

/-- R94. The framer's reference goes to the classification queue, or is released. -/
theorem State.Framing.completeFrame (h : State.Framing p P s) {a : Assembly} (ha : (s.port p).framer.frame = some a)
    (close : Word) : State.Framing p Closed (s.completeFrame p a close) := by
  have hnames : (s.port p).names.Perm (a.desc :: (s.port p).frameCompleted.names) := by
    simp only [Port.names, Port.frameCompleted, ha, Option.toList_some, Option.toList_none, List.map_cons, List.map_nil,
      List.append_nil]
    exact List.perm_append_singleton _ _
  have hport : Port.Frames Closed (s.port p).frameCompleted := ⟨h.port.1.of_eq rfl rfl rfl rfl, h.port.2.1, rfl⟩
  rw [State.completeFrame_eq]
  split
  · refine State.Held.replace h (h.books.perm ?_) (State.OnlyPort.modPort (.refl p s)) ?_ rfl ?_
    · have h1 := s.names_modPort p Port.frameCompleted
      have h2 := (s.modPort p Port.frameCompleted).names_modClassifier fun c => { c with
        queue := c.queue ++ [⟨p, a.desc, (s.memory.desc a.desc).length, a.flags, a.arrival, close⟩] }
      refine List.perm_iff_count.mpr fun d => ?_
      have h1 := List.perm_iff_count.mp h1 d
      have h2 := List.perm_iff_count.mp h2 d
      have h3 := List.perm_iff_count.mp hnames d
      simp only [Classifier.names, List.map_append, List.map_cons, List.map_nil, List.count_append, List.count_cons,
        List.count_nil] at h1 h2 h3 ⊢
      omega
    · rw [State.port_modClassifier, State.port_modPort_same]
      exact .refl _
    · rw [State.port_modClassifier, State.port_modPort_same]
      exact hport
  · have hr := State.Held.detach h (f := Port.frameCompleted) hnames (.refl _) hport
    have hc := State.Framing.count hr (f := fun c => { c with lost := sat32 (c.lost + 1) })
    exact State.Held.of_memory hc hc.books rfl rfl rfl rfl

theorem State.Framing.finishClose (h : State.Framing p P s) (close : Word) : State.Framing p Closed (s.finishClose p close) := by
  simp only [State.finishClose, State.framer]
  split
  · rename_i hn
    exact h.imp fun hf => ⟨hf.1, hf.2.1, by rw [hn]; rfl⟩
  · rename_i a ha
    exact .ite (fun _ => h.discardFrame _) fun _ => .ite (fun _ => h.dropFrame.count) fun _ => h.completeFrame ha close

/-- R93. However a frame closes, none is in assembly then. -/
theorem State.Framing.closeFrame (h : State.Framing p P s) (kind : CloseKind) (close : Word) :
    State.Framing p Closed (s.closeFrame p kind close) := by
  cases kind with
  | truncated => exact h.finishClose close
  | ended brk => exact State.Framing.finishClose (.ite (fun _ => h.flagFrame _) fun _ => h) close
  | incomplete brk =>
    simp only [State.closeFrame]
    split
    · exact h.discardFrame _
    · have hv := h.storeSeq ((s.framer p).held.map (·.value))
      split <;> rename_i e <;> rw [e] at hv
      · exact State.Framing.finishClose (hv.flagFrame _) close
      · exact hv.discardFrame _
      · split
        · exact State.Framing.finishClose (hv.truncateFrame.flagFrame _) close
        · exact hv.discardFrame _

theorem State.Framing.toHunt (h : State.Framing p Closed s) : State.Framing p Resting (s.modFramer p Framer.toHunt) :=
  h.modFramer (by rw [h.frame_none]; rfl) fun _ => ⟨rfl, nofun, nofun⟩

theorem State.Framing.toSkip (h : State.Framing p Closed s) : State.Framing p Resting (s.modFramer p Framer.toSkip) :=
  h.setState rfl fun _ hp => ⟨hp, nofun, nofun⟩

/-- R88, R89. After a byte that could not be stored no frame is in assembly. -/
theorem State.Framing.storeFailed_resting (h : State.Framing p P s) {r : Stored} (hr : r ≠ .stored) (boundary : Bool) (time : Word) :
    State.Framing p Resting (s.storeFailed p r boundary time) := by
  cases r with
  | stored => exact absurd rfl hr
  | noBlock => exact (h.discardFrame _).toSkip
  | tooLong =>
    simp only [State.storeFailed]
    have hc : State.Framing p Closed (match (s.framer p).settings.tooLong with
        | .truncate => (s.truncateFrame p).closeFrame p .truncated time
        | .discard => s.discardFrame p .tooLong) := by
      split
      · exact h.truncateFrame.closeFrame _ _
      · exact h.discardFrame _
    cases boundary
    · exact hc.toSkip
    · exact hc.toHunt

theorem State.Framing.storeFailed (h : State.Framing p Taking s) (r : Stored) (boundary : Bool) (time : Word) :
    State.Framing p Shaped (s.storeFailed p r boundary time) := by
  by_cases hr : r = .stored
  · subst hr
    exact h.taking
  · exact (h.storeFailed_resting hr boundary time).resting

theorem State.Framing.endFrame (h : State.Framing p P s) (brk : Bool) (close : Word) :
    State.Framing p Shaped (s.endFrame p brk close) := (h.closeFrame _ _).toHunt.resting

/-- R88. A frame begins where none is in assembly, or none of the descriptors is FREE. -/
theorem State.Framing.beginFrame (h : State.Framing p Closed s) (arrival last : Word) (marked : Bool) :
    ((s.beginFrame p arrival last marked).1 = true →
      State.Framing p (fun frame _ => frame = true) (s.beginFrame p arrival last marked).2) ∧
    ((s.beginFrame p arrival last marked).1 = false → State.Framing p Closed (s.beginFrame p arrival last marked).2) := by
  have hnone := h.frame_none
  simp only [State.beginFrame]
  split
  · refine ⟨nofun, fun _ => State.Framing.discardFrame (P := Closed) ?_ _⟩
    exact State.Held.of_memory h (h.books.counters _) rfl rfl rfl rfl
  · rename_i d hd
    refine ⟨fun _ => ?_, nofun⟩
    have hb := h.books.takeDescriptor (RecordMemory.lowestFree_not_live hd)
    refine State.Held.replace h (hb.perm ?_) (State.OnlyPort.modPort fun _ _ => rfl) ?_ rfl ?_
    · have hn := (s.modMemory fun m => m.takeDescriptor d).names_modPort p fun q => { q with framer := { q.framer with
        frame := some ⟨d, arrival, { FrameFlags.clear with charError := marked }, last⟩ } }
      refine List.perm_iff_count.mpr fun e => ?_
      have hn := List.perm_iff_count.mp hn e
      have hm : (s.modMemory fun m => m.takeDescriptor d).names = s.names := rfl
      simp only [Port.names, State.port_modMemory, hnone, hm, Option.toList_some, Option.toList_none, List.map_cons, List.map_nil,
        List.append_nil, List.count_append, List.count_cons, List.count_nil] at hn ⊢
      simp only [State.modFramer]
      omega
    · rw [State.modFramer, State.port_modPort_same]
      exact .refl _
    · rw [State.modFramer, State.port_modPort_same]
      exact ⟨h.port.1.of_eq rfl rfl rfl rfl, h.port.2.1, rfl⟩

/-! ### The three framing modes -/

theorem State.Framing.delimitedBody (h : State.Framing p Taking s) (c : Char) : State.Framing p Shaped (s.delimitedBody p c) := by
  have hn := h.notePart c
  simp only [State.delimitedBody]
  refine .ite (fun _ => ?_) fun _ => .ite (fun _ => ?_) fun _ => .ite (fun _ => ?_) fun _ => .ite (fun _ => ?_) fun _ => ?_
  · exact State.Framing.storeFailed (State.Framing.storeInFrame (hn.keepFramer rfl rfl) _) _ _ _
  · exact State.Framing.storeFailed (State.Framing.storeSeq (hn.keepFramer rfl rfl) _) _ _ _
  · split
    · exact .ite (fun _ => State.Framing.endFrame (State.Framing.storeInFrame (hn.keepFramer rfl rfl) _) _ _) fun _ =>
        State.Framing.taking (State.Framing.storeInFrame (hn.keepFramer rfl rfl) _)
    · exact State.Framing.storeFailed (State.Framing.storeInFrame (hn.keepFramer rfl rfl) _) _ _ _
  · exact State.Framing.endFrame (hn.keepFramer rfl rfl) _ _
  · exact State.Framing.storeFailed (State.Framing.storeSeq (hn.keepFramer rfl rfl) _) _ _ _

theorem State.Framing.delimitedHunt (h : State.Framing p Resting s) (c : Char) : State.Framing p Shaped (s.delimitedHunt p c) := by
  simp only [State.delimitedHunt]
  refine .ite (fun _ => ?_) fun _ => .ite (fun _ => ?_) fun _ => ?_
  · obtain ⟨hb, hnone⟩ := h.closed.beginFrame c.time c.time false
    refine .ite (fun hr => ?_) fun hr => ?_
    · refine State.Framing.delimitedBody ((hb hr).setState rfl fun _ hf => ?_) c
      exact ⟨hf, .inr rfl⟩
    · refine ((hnone (by simpa using hr)).setState (Q := Resting) rfl fun _ hf => ?_).resting
      exact ⟨hf, nofun, nofun⟩
  · obtain ⟨hb, hnone⟩ := h.closed.beginFrame (p := p) (((((s.framer p).held ++ [c]).map (·.time)).headD c.time)) c.time
      (((s.framer p).held ++ [c]).any (·.marks.any))
    refine .ite (fun hr => ?_) fun hr => ?_
    · have ht := (hb hr).setState (Q := Taking) (f := fun f =>
        { f with state := .body, startProgress := 0, endProgress := 0, held := [], escapeOpen := false }) rfl
        fun _ hf => ⟨hf, .inr rfl⟩
      exact .ite (fun _ => (ht.storeSeq _).storeFailed _ _ _) fun _ => ht.taking
    · refine ((hnone (by simpa using hr)).setState (Q := Resting) rfl fun _ hf => ?_).resting
      exact ⟨hf, nofun, nofun⟩
  · exact (h.keepFramer rfl rfl).resting

theorem State.Framing.delimitedSkip (h : State.Framing p Resting s) (c : Char) : State.Framing p Shaped (s.delimitedSkip p c) := by
  simp only [State.delimitedSkip]
  exact .ite (fun _ => (h.keepFramer rfl rfl).resting) fun _ => .ite (fun _ => (h.keepFramer rfl rfl).resting) fun _ =>
    .ite (fun _ => h.closed.toHunt.resting) fun _ => (h.keepFramer rfl rfl).resting

theorem State.Framing.judgeHeader (h : State.Framing p Taking s) (time : Word) : State.Framing p Shaped (s.judgeHeader p time) := by
  simp only [State.judgeHeader]
  refine .ite (fun _ => .ite (fun _ => (h.discardFrame _).toHunt.resting) fun _ => .ite (fun _ => h.endFrame _ _) fun _ => ?_)
    fun _ => h.taking
  refine (h.setState (Q := Taking) rfl fun _ hf => ?_).taking
  exact ⟨hf.1, .inr rfl⟩

theorem State.Framing.judgeSkip (h : State.Framing p Resting s) : State.Framing p Shaped (s.judgeSkip p) := by
  simp only [State.judgeSkip]
  refine .ite (fun _ => h.closed.toHunt.resting) fun _ => ?_
  split
  · exact .ite (fun _ => h.closed.toHunt.resting) fun _ => (h.keepFramer rfl rfl).resting
  · exact h.resting

theorem State.Framing.lengthUnstored (h : State.Framing p Closed s) (c : Char) : State.Framing p Shaped (s.lengthUnstored p c) :=
  State.Framing.judgeSkip (h.setState rfl fun _ hf => ⟨hf, nofun, nofun⟩)

theorem State.Framing.lengthStart (h : State.Framing p Resting s) (c : Char) :
    State.Framing p Shaped (State.lengthChar.start p c s) := by
  simp only [State.lengthChar.start]
  obtain ⟨hb, hnone⟩ := h.closed.beginFrame c.time c.time c.marks.any
  refine .ite (fun hr => ?_) fun hr => (hnone (by simpa using hr)).lengthUnstored c
  have hv := ((hb hr).setState (Q := Taking) (f := fun f => { f with state := .header }) rfl
    fun _ hf => ⟨hf, .inl rfl⟩).storeInFrame c.value
  split
  · exact State.Framing.judgeHeader (hv.keepFramer rfl rfl) _
  · exact (hv.storeFailed_resting ‹_› _ _).closed.lengthUnstored c

theorem State.Framing.lengthChar (h : State.Framing p Shaped s) (c : Char) : State.Framing p Shaped (s.lengthChar p c) := by
  simp only [State.lengthChar, State.framer]
  split <;> rename_i hst
  · have hrest := h.resting_of_state (.inl hst)
    split
    · exact .ite (fun _ => hrest.lengthStart c) fun _ => h
    · exact hrest.lengthStart c
  · have hv := ((h.taking_of_state (.inl hst)).notePart c).storeInFrame c.value
    split
    · exact State.Framing.judgeHeader (hv.keepFramer rfl rfl) _
    · exact (hv.storeFailed_resting ‹_› _ _).closed.lengthUnstored c
  · have hv := ((h.taking_of_state (.inr hst)).notePart c).storeInFrame c.value
    split
    · exact .ite (fun _ => State.Framing.endFrame (hv.keepFramer rfl rfl) _ _) fun _ =>
        State.Framing.taking (hv.keepFramer rfl rfl)
    · exact (hv.storeFailed_resting ‹_› _ _).closed.lengthUnstored c
  · exact (h.resting_of_state (.inr hst)).closed.lengthUnstored c

theorem State.Framing.gapStore (h : State.Framing p Taking s) (c : Char) : State.Framing p Shaped (State.gapChar.store p c s) :=
  (h.storeInFrame c.value).storeFailed _ _ _

theorem State.Framing.gapChar (h : State.Framing p Shaped s) (c : Char) : State.Framing p Shaped (s.gapChar p c) := by
  simp only [State.gapChar, State.framer]
  split
  · rename_i hst
    obtain ⟨hb, hnone⟩ := (h.resting_of_state (.inl hst)).closed.beginFrame c.time c.time c.marks.any
    refine .ite (fun hr => ?_) fun hr => (hnone (by simpa using hr)).toSkip.resting
    exact State.Framing.gapStore ((hb hr).setState rfl fun _ hf => ⟨hf, .inr rfl⟩) c
  · exact h
  · rename_i hhunt hskip
    refine State.Framing.gapStore (State.Framing.notePart (h.taking_of_state ?_) c) c
    cases hst : (s.port p).framer.state <;> simp_all

theorem State.Framing.framerChar (h : State.Framing p Shaped s) (c : Char) : State.Framing p Shaped (s.framerChar p c) := by
  simp only [State.framerChar, State.framer]
  split
  · split
    · exact (h.resting_of_state (.inl ‹_›)).delimitedHunt c
    · exact (h.resting_of_state (.inr ‹_›)).delimitedSkip c
    · rename_i hhunt hskip
      refine State.Framing.delimitedBody (h.taking_of_state ?_) c
      cases hst : (s.port p).framer.state <;> simp_all
  · exact h.lengthChar c
  · exact h.gapChar c

theorem State.Framing.framerBoundary (h : State.Framing p Shaped s) (brk : Bool) :
    State.Framing p Shaped (s.framerBoundary p brk) := by
  simp only [State.framerBoundary, State.framer]
  split <;> split
  · exact h
  · exact (h.resting_of_state (.inr ‹_›)).closed.toHunt.resting
  · exact h.endFrame _ _
  · exact h.keepFramer rfl rfl
  · exact (h.resting_of_state (.inr ‹_›)).closed.toHunt.resting
  · exact (h.closeFrame _ _).toHunt.resting

theorem State.Framing.takeExpiries (h : State.Framing p Shaped s) (n : Nat) : State.Framing p Shaped (s.takeExpiries p n) := by
  induction n generalizing s with
  | zero => exact h
  | succ n ih => exact ih (h.framerBoundary false)

theorem State.Framing.takeItem (h : State.Framing p Shaped s) : State.Framing p Shaped (s.takeItem p) := by
  simp only [State.takeItem]
  split
  · exact h
  rename_i item rest hfifo
  have hm := h.modPort (f := fun q => { q with fifo := rest.dropWhile fun i => i == FifoItem.expiry }) ⟨rfl, rfl, rfl, rfl, rfl⟩
  refine State.Framing.takeExpiries ?_ _
  split
  · exact hm.framerChar _
  · exact hm.framerBoundary _
  · exact hm.framerBoundary _

end

section
variable {s : State} {p : PortId}

/-- R74 to R96. What every step conserves goes through the operations of the framer of a RUNNING port. -/
theorem State.Conserved.framing (h : s.Conserved) (hr : (s.port p).state = .running) : State.Framing p Shaped s :=
  h.held p fun hp => hp.frames hr

theorem State.Framing.conserved (h : State.Framing p Shaped s) : s.Conserved := State.Held.conserved h fun hp => hp.sound

theorem State.Conserved.quietExpiry (h : s.Conserved) : (s.quietExpiry p).Conserved := by
  simp only [State.quietExpiry]
  split
  · rename_i hdue
    simp only [Port.quietDue, Bool.and_eq_true, beq_iff_eq] at hdue
    obtain ⟨⟨⟨hr, -⟩, -⟩, -⟩ := hdue
    have hg := (h.framing hr).modPort (f := fun q => { q with quiet := { q.quiet with given := true } }) ⟨rfl, rfl, rfl, rfl, rfl⟩
    split
    · exact (hg.framerBoundary false).conserved
    · exact State.Framing.conserved (hg.modPort ⟨rfl, rfl, rfl, rfl, rfl⟩)
  · exact h

/-- R96. The abort of the receiving releases the frame in assembly. -/
theorem State.Conserved.abortReceiving (h : s.Conserved) : State.Held p (fun q => q.SendSound ∧ q.framer.frame = none ∧
    q.framer.state = .hunt) (s.abortReceiving p) := by
  rw [State.abortReceiving_eq]
  refine State.Held.patched (h.held p (P := Port.Sound) id) _ _ ?_ (.refl _) ⟨(h.ports p).send.of_eq rfl rfl rfl rfl, rfl, rfl⟩
  simp only [Port.names, Port.receivingAborted, Framer.toHunt, Framer.fresh, Option.toList_none, List.map_nil, List.append_nil]
  exact List.perm_append_comm

end

end Sys2Proof.Machine
end

