-- ==== Sys2Proof/Proofs/SendsConserve.lean ====
section
namespace Sys2Proof.Machine

/-! ### A port whose SENDING entry is in the middle of an operation -/

/-- R121. The entry is the one SENDING entry of the port, whatever its transmitter does. -/
structure Port.Sends (e : SendEntry) (q : Port) : Prop where
  length : q.queue.length ≤ 16
  only : q.queue.filter (fun x => x.state == .sending) = [e]
  off : q.canSend = false → q.queue.length ≤ 1
  framer : q.FramerSound

/-- R121. The entry is the one SENDING entry of a port that may send, and no stop waits for it. -/
structure Port.SendsOn (e : SendEntry) (q : Port) : Prop extends q.Sends e where
  stopping : q.stopping = false
  canSend : q.canSend = true

section
variable {q q' : Port} {e : SendEntry}

theorem Port.Sends.mem (h : q.Sends e) : e ∈ q.queue ∧ e.state = .sending := by
  have := List.mem_filter.mp (h.only ▸ List.mem_singleton_self e)
  exact ⟨this.1, by simpa using this.2⟩

theorem Port.Sends.of_eq (h : q.Sends e) (hq : q'.queue = q.queue) (hs : q'.state = q.state) (hf : q'.framer = q.framer) :
    q'.Sends e :=
  ⟨hq ▸ h.length, hq ▸ h.only, fun hc => hq ▸ h.off (by rwa [Port.canSend, hs] at hc), by
    rw [Port.FramerSound, hf, hs]
    exact h.framer⟩

theorem Port.SendsOn.of_eq (h : q.SendsOn e) (hq : q'.queue = q.queue) (hs : q'.state = q.state) (hf : q'.framer = q.framer)
    (ht : q'.stopping = q.stopping) : q'.SendsOn e :=
  ⟨h.toSends.of_eq hq hs hf, ht ▸ h.stopping, by rw [Port.canSend, hs]; exact h.canSend⟩

/-- R121. The transmitter is busy for the entry. -/
theorem Port.SendsOn.sound (h : q.SendsOn e) (hq : q'.queue = q.queue) (hs : q'.state = q.state) (hf : q'.framer = q.framer)
    (ht : q'.stopping = q.stopping) (htx : q'.tx ≠ .idle) : q'.Sound := by
  have h' := h.of_eq hq hs hf ht
  refine ⟨⟨h'.length, ?_, fun hc => ?_, fun hst => ?_⟩, h'.framer⟩
  · rw [h'.only, if_neg htx]
    rfl
  · rw [h'.canSend] at hc
    cases hc
  · rw [h'.stopping] at hst
    cases hst

/-- R121. The SENDING entry of a port whose transmitter is busy. -/
theorem Port.Sound.sends (h : q.Sound) (hc : q.current = some e) : q.Sends e := by
  have hone := h.send.one
  have hm : e ∈ q.queue.filter fun x => x.state == .sending :=
    List.mem_filter.mpr ⟨List.mem_of_find?_eq_some hc, by simpa using List.find?_some hc⟩
  obtain ⟨x, hx⟩ : ∃ x, q.queue.filter (fun x => x.state == .sending) = [x] := by
    refine List.length_eq_one_iff.mp (hone.trans (if_neg fun ht => ?_))
    rw [if_pos ht] at hone
    exact List.ne_nil_of_mem hm (List.length_eq_zero_iff.mp hone)
  obtain rfl : e = x := by simpa [hx] using hm
  exact ⟨h.send.length, hx, fun hoff => (h.send.off hoff).1, h.framer⟩

/-- R121. Nothing is SENDING while the transmitter is idle, and no stop waits. -/
theorem Port.SendSound.idle_of_current (h : q.SendSound) (hc : q.current = none) : q.tx = .idle ∧ q.stopping = false := by
  have htx : q.tx = .idle := by
    by_contra ht
    obtain ⟨e, he, hes⟩ := List.any_eq_true.mp (h.any_sending.mpr ht)
    exact List.find?_eq_none.mp hc e he hes
  refine ⟨htx, ?_⟩
  by_contra hs
  obtain ⟨value, format, block, hv⟩ := h.stopping (by simpa using hs)
  rw [htx] at hv
  cases hv

theorem Port.SendSound.onLine_of_stopping (h : q.SendSound) (hl : q.onLine = false) : q.stopping = false := by
  by_contra hs
  rw [Bool.not_eq_false] at hs
  rw [q.onLine_iff.mpr (h.stopping hs)] at hl
  exact absurd hl (by decide)

end

/-! ### The end of an entry -/

section
variable {q : Port} {e : SendEntry}

theorem Port.ended_queue (q : Port) (e : SendEntry) : (q.ended e).queue = q.queue.eraseP fun x => x.id == e.id := rfl

theorem Port.ended_framer (q : Port) (e : SendEntry) : (q.ended e).framer = q.framer ∧ (q.ended e).state = q.state := by
  simp only [Port.ended, Port.entryEnded]
  split <;> exact ⟨rfl, rfl⟩

/-- R118. An entry leaves a queue of different send ids. -/
theorem Port.queue_ended (hn : (q.queue.map (·.id)).Nodup) (he : e ∈ q.queue) :
    ∃ a b, q.queue = a ++ e :: b ∧ (q.ended e).queue = a ++ b := by
  obtain ⟨a, b, hab⟩ := List.append_of_mem he
  exact ⟨a, b, hab, by rw [Port.ended_queue, hab, eraseP_id_middle (hab ▸ hn)]⟩

theorem Port.names_ended (hn : (q.queue.map (·.id)).Nodup) (he : e ∈ q.queue) : q.names.Perm (e.desc :: (q.ended e).names) := by
  obtain ⟨a, b, hq, hended⟩ := Port.queue_ended hn he
  rw [Port.names, Port.names, hended, (q.ended_framer e).1, hq]
  simp

/-- R122, R128. The end of the SENDING entry leaves the transmitter idle. -/
theorem Port.Sends.ended_sound (h : q.Sends e) (hn : (q.queue.map (·.id)).Nodup) : (q.ended e).Sound := by
  obtain ⟨he, hs⟩ := h.mem
  obtain ⟨a, b, hq, hended⟩ := Port.queue_ended hn he
  have honly := h.only
  have hlength := h.length
  have hoff := h.off
  simp only [hq, List.filter_append, List.filter_cons, hs, beq_self_eq_true, if_true] at honly
  simp only [hq, List.length_append, List.length_cons] at hlength hoff
  obtain ⟨ha, hb⟩ : a.filter (fun x => x.state == .sending) = [] ∧ b.filter (fun x => x.state == .sending) = [] := by
    have hlen := congrArg List.length honly
    simp only [List.length_append, List.length_cons, List.length_nil] at hlen
    exact ⟨List.length_eq_zero_iff.mp (by omega), List.length_eq_zero_iff.mp (by omega)⟩
  obtain ⟨hframer, hstate⟩ := q.ended_framer e
  refine ⟨⟨?_, ?_, fun hc => ?_, fun hstop => ?_⟩, ?_⟩
  · rw [hended, List.length_append]
    omega
  · rw [hended, List.filter_append, ha, hb, Port.ended_sending hs]
    rfl
  · have hz : (a ++ b).length = 0 := by
      have := hoff (by rwa [Port.canSend, hstate] at hc)
      rw [List.length_append]
      omega
    rw [hended, List.length_eq_zero_iff.mp hz]
    exact ⟨Nat.zero_le _, fun hne => absurd rfl hne⟩
  · rw [Port.ended_sending hs] at hstop
    cases hstop
  · rw [Port.FramerSound, hframer, hstate]
    exact h.framer

/-- R127, R129. The end of a QUEUED entry leaves the transmitter. -/
theorem Port.Sound.ended_sound (h : q.Sound) (hn : (q.queue.map (·.id)).Nodup) (he : e ∈ q.queue) (hs : e.state = .queued) :
    (q.ended e).Sound := by
  obtain ⟨a, b, hq, hended⟩ := Port.queue_ended hn he
  obtain ⟨hlength, hone, hoff, hstopping⟩ := h.send
  simp only [hq, List.filter_append, List.filter_cons, hs, SendState.queued_beq_sending, Bool.false_eq_true, if_false] at hone
  simp only [hq, List.length_append, List.length_cons] at hlength hoff
  have hrest : q.ended e = { q with queue := a ++ b } := by
    rw [Port.ended_queued hs, ← hended, Port.ended_queue]
  rw [hrest]
  refine ⟨⟨?_, ?_, fun hc => ⟨?_, fun _ => (hoff hc).2 (by simp)⟩, hstopping⟩, h.framer⟩
  · rw [List.length_append]
    omega
  · rw [List.filter_append]
    exact hone
  · have := (hoff hc).1
    rw [List.length_append]
    omega

end

section
variable {s : State} {p : PortId} {P : Port → Prop} {e : SendEntry} {q : Port}

theorem State.Conserved.modOps (h : s.Conserved) (f : OpTable → OpTable) : (s.modOps f).Conserved :=
  h.of_eq rfl rfl rfl rfl rfl

theorem State.Conserved.raise (h : s.Conserved) (k : NoticeKind) (subject : Nat) (detail : Detail) :
    (s.raise k subject detail).Conserved := h.of_eq rfl rfl rfl rfl rfl

theorem State.Conserved.ite {c : Prop} [Decidable c] {t : State} (hs : c → s.Conserved) (ht : ¬ c → t.Conserved) :
    (if c then s else t).Conserved := by
  split
  · exact hs ‹_›
  · exact ht ‹_›

theorem State.Conserved.count (h : s.Conserved) (f : PortCounters → PortCounters) : (s.count p f).Conserved :=
  h.modPort ⟨rfl, rfl, rfl, rfl, rfl⟩

theorem State.Conserved.completeDrain (h : s.Conserved) (status : OpStatus) (n : Nat) (byRequest : Bool) :
    (s.completeDrain p status n byRequest).Conserved :=
  State.Conserved.modPort (f := fun q => { q with draining := false }) (h.modOps _) ⟨rfl, rfl, rfl, rfl, rfl⟩

/-- R33, R128. The end of an entry releases its reference. -/
theorem State.Held.endEntry (h : State.Held p P s) (he : e ∈ (s.port p).queue) (hs : ((s.port p).ended e).Sound)
    (status : SendStatus) (byRequest judges : Bool) : (s.endEntry p e status byRequest judges).Conserved := by
  unfold State.endEntry
  extract_lets ended released counted raised
  have hreleased : released.Conserved :=
    State.Held.conserved (State.Held.detach (Q := Port.Sound) h (f := fun q => q.ended e)
      (Port.names_ended (h.pool.portIds p) he)
      (List.Sublist.map _ (by rw [Port.ended_queue]; exact List.eraseP_sublist)) hs) id
  have hcounted : counted.Conserved := .ite (fun _ => (hreleased.count _).modOps _) fun _ => hreleased
  have hraised : raised.Conserved := .ite (fun _ => hcounted.raise _ _ _) fun _ => hcounted
  exact .ite (fun _ => hraised.completeDrain _ _ _) fun _ => hraised

theorem State.Held.endSending (h : State.Held p (Port.Sends e) s) (status : SendStatus) (byRequest judges : Bool) :
    (s.endEntry p e status byRequest judges).Conserved :=
  State.Held.endEntry h h.port.mem.1 (h.port.ended_sound (h.pool.portIds p)) status byRequest judges

theorem State.Conserved.endQueued (h : s.Conserved) (he : e ∈ (s.port p).queue) (hq : e.state = .queued)
    (status : SendStatus) (byRequest judges : Bool) : (s.endEntry p e status byRequest judges).Conserved :=
  State.Held.endEntry (h.held p (P := Port.Sound) id) he ((h.ports p).ended_sound (h.pool.portIds p) he hq) status byRequest judges

theorem State.Held.releaseDir (h : State.Held p (Port.Sends e) s) : State.Held p (Port.Sends e) (s.releaseDir p) :=
  h.modPort (.refl _) (.refl _) (h.port.of_eq rfl rfl rfl)

theorem State.Held.sends (h : State.Held p (Port.SendsOn e) s) : State.Held p (Port.Sends e) s := h.imp fun hs => hs.toSends

/-! ### The transmitter -/

theorem State.Held.holdOrEnd (h : State.Held p (Port.SendsOn e) s) (status : SendStatus) :
    (s.holdOrEnd p e status).Conserved := by
  simp only [State.holdOrEnd]
  split
  · exact h.sends.endSending _ _ _
  · refine .ite (fun _ => h.sends.releaseDir.endSending _ _ _) fun _ => ?_
    exact State.Held.conserved (h.modPort (Q := Port.Sound) (.refl _) (.refl _) (h.port.sound rfl rfl rfl rfl nofun)) id

theorem State.Held.putCharacter (h : State.Held p (Port.SendsOn e) s) (block : Port → List Byte) (k : Nat) :
    (s.modPort p fun q => q.putCharacter (block q) k).Conserved :=
  State.Held.conserved (h.modPort (Q := Port.Sound) (.refl _) (.refl _) (h.port.sound rfl rfl rfl rfl nofun)) id

theorem State.Held.checkBlock (h : State.Held p P s) {d : DescId} (hd : d ∈ s.names) (b : BlockId) :
    State.Held p P (s.checkBlock d b) := by
  obtain ⟨-, -, -, -, -, hc, hs, hp, hn, -⟩ := s.checkBlock_frame d b
  exact h.of_memory (h.books.checkBlock (h.books.live hd) b) hp hs (by rw [hc]) hn

theorem Port.Sends.desc_mem (h : (s.port p).Sends e) : e.desc ∈ s.names :=
  State.mem_names_port (p := p) (List.mem_append_left _ (List.mem_map_of_mem h.mem.1))

theorem State.Held.beginCharacter (h : State.Held p (Port.SendsOn e) s) (k : Nat) : (s.beginCharacter p e k).Conserved := by
  simp only [State.beginCharacter]
  refine .ite (fun _ => ?_) fun _ => h.putCharacter (fun q => q.tx.block) k
  split
  · exact h.putCharacter (fun _ => []) k
  · have hc := h.checkBlock h.port.desc_mem ‹BlockId›
    exact .ite (fun _ => .ite (fun _ => hc.sends.releaseDir.endSending _ _ _) fun _ => hc.holdOrEnd _)
      fun _ => h.putCharacter (fun _ => s.memory.blockBytes _) k

theorem State.Held.startEntry (h : State.Held p (Port.SendsOn e) s) : (s.startEntry p e).Conserved := by
  simp only [State.startEntry]
  exact .ite (fun _ => h.sends.endSending _ _ _) fun _ =>
    State.Held.beginCharacter (h.modPort (.refl _) (.refl _) (h.port.of_eq rfl rfl rfl rfl)) 0

/-- R118. In a queue of different send ids one entry has the id of `e`. -/
theorem id_ne_of_middle {a b : List SendEntry} (hn : ((a ++ e :: b).map (·.id)).Nodup) : ∀ y ∈ a ++ b, y.id ≠ e.id := by
  intro y hy hye
  have hperm : (e.id :: (a ++ b).map (·.id)).Nodup := by
    rw [List.map_append, List.map_cons] at hn
    rw [List.map_append]
    exact List.perm_middle.nodup_iff.mp hn
  exact (List.nodup_cons.mp hperm).1 (hye ▸ List.mem_map_of_mem hy)

theorem map_entry_middle {a b : List SendEntry} (hn : ((a ++ e :: b).map (·.id)).Nodup) (x : SendEntry) :
    ((a ++ e :: b).map fun y => if y.id = e.id then x else y) = a ++ x :: b := by
  have hother := id_ne_of_middle hn
  have hmap : ∀ l : List SendEntry, (∀ y ∈ l, y.id ≠ e.id) → (l.map fun y => if y.id = e.id then x else y) = l := fun l hl =>
    (List.map_congr_left fun y hy => if_neg (hl y hy)).trans (List.map_id l)
  rw [List.map_append, List.map_cons, hmap a fun y hy => hother y (by simp [hy]), hmap b fun y hy => hother y (by simp [hy]),
    if_pos rfl]

/-- R121. An entry becomes, or stays, the SENDING one. -/
theorem State.Conserved.modEntry (h : s.Conserved) {x : SendEntry} (he : e ∈ (s.port p).queue)
    (hone : ∀ y ∈ (s.port p).queue, y.state = .sending → y = e) (hid : x.id = e.id) (hd : x.desc = e.desc)
    (hx : x.state = .sending) : State.Held p (Port.Sends x) (s.modEntry p e.id fun _ => x) := by
  obtain ⟨a, b, hq⟩ := List.append_of_mem he
  have hn := h.pool.portIds p
  rw [hq] at hn
  have hqueue : ((s.port p).queue.map fun y => if y.id = e.id then x else y) = a ++ x :: b := by
    rw [hq, map_entry_middle hn]
  have hquiet : ∀ y ∈ a ++ b, ¬ (y.state == .sending) = true := fun y hy hys =>
    id_ne_of_middle hn y hy (by rw [hone y (by rw [hq]; simp at hy ⊢; tauto) (by simpa using hys)])
  have hsound := h.ports p
  refine State.Held.modPort (h.held p (P := Port.Sound) id) (.of_eq ?_) ?_ ⟨?_, ?_, fun hc => ?_, hsound.framer⟩
  · simp only [Port.names, hqueue]
    simp [hq, hd]
  · simp only [hqueue]
    simp [hq, hid]
  · simp only [hqueue]
    simpa [hq] using hsound.send.length
  · simp only [hqueue, List.filter_append, List.filter_cons, hx,
      List.filter_eq_nil_iff.mpr fun y hy => hquiet y (List.mem_append_left b hy),
      List.filter_eq_nil_iff.mpr fun y hy => hquiet y (List.mem_append_right a hy)]
    rfl
  · simp only [hqueue]
    simpa [hq] using (hsound.send.off hc).1

/-! ### The rows of the transmitter -/

theorem Port.Sends.eq_of_sending {q : Port} (h : q.Sends e) {y : SendEntry} (hy : y ∈ q.queue) (hs : y.state = .sending) : y = e := by
  have : y ∈ q.queue.filter fun x => x.state == .sending := List.mem_filter.mpr ⟨hy, by simpa using hs⟩
  rw [h.only] at this
  exact List.mem_singleton.mp this

theorem Port.selectable_canSend {q : Port} (h : q.selectable = some e) : q.canSend = true := by
  simp only [Port.selectable] at h
  split at h
  · rename_i hc
    simp only [Bool.and_eq_true] at hc
    exact hc.1.1
  · cases h

theorem State.Conserved.selection (h : s.Conserved) (he : (s.port p).selectable = some e) :
    State.Held p (Port.SendsOn e.selected) (s.modEntry p e.id fun _ => e.selected) := by
  obtain ⟨hnone, hmem⟩ := Port.selectable_eq_some he
  have hm := h.modEntry hmem (x := e.selected) (fun y hy hys => absurd (by simpa using hys) (List.find?_eq_none.mp hnone y hy))
    rfl rfl rfl
  refine hm.imp fun hs => ⟨hs, ?_, ?_⟩ <;> rw [State.modEntry_port]
  · exact ((h.ports p).send.idle_of_current hnone).2
  · exact Port.selectable_canSend (q := s.port p) he

/-- R104, R121. A port for which no stop waits, and that has an entry, may send. -/
theorem Port.SendSound.canSend_of_entry {q : Port} (h : q.SendSound) (he : e ∈ q.queue) (hs : q.stopping = false) :
    q.canSend = true := by
  by_contra hc
  have := (h.off (by simpa using hc)).2 (List.ne_nil_of_mem he)
  rw [hs] at this
  cases this

theorem State.Conserved.turnaround (h : s.Conserved) (he : (s.port p).turnaroundDue = some e) : State.Held p (Port.SendsOn e) s := by
  obtain ⟨htx, hc⟩ := Port.turnaroundDue_eq_some he
  have hsends := (h.ports p).sends hc
  have hstop : (s.port p).stopping = false := (h.ports p).send.onLine_of_stopping (by simp [Port.onLine, htx])
  exact h.held p fun hp => ⟨hsends, hstop, hp.send.canSend_of_entry hsends.mem.1 hstop⟩

/-- What an outcome is when it is a next state, from a state with what every step conserves. -/
def State.Conserves (s : State) (o : Host.Outcome State Fault Refusal) : Prop := s.Conserved → ∀ t, o = .next t → t.Conserved

theorem State.Conserves.next {t : State} (h : s.Conserved → t.Conserved) : s.Conserves (.next t) :=
  fun hs _ ht => by cases ht; exact h hs

theorem State.Conserves.unlessReset {t : State} (h : s.Conserved → t.Conserved) : s.Conserves (s.unlessReset t) :=
  .next fun hs => .ite (fun _ => hs) fun _ => h hs

theorem State.selection_conserves (s : State) (p : PortId) : s.Conserves (execSelection p s) := by
  refine .unlessReset fun h => ?_
  split
  · exact h
  rename_i e he
  have hm := h.selection he
  dsimp only
  split
  · exact hm.startEntry
  · exact State.Held.conserved (hm.modPort (Q := Port.Sound) (.refl _) (.refl _) (hm.port.sound rfl rfl rfl rfl nofun)) id

theorem State.turnaroundEnd_conserves (s : State) (p : PortId) : s.Conserves (execTurnaroundEnd p s) := by
  refine .unlessReset fun h => ?_
  split
  · exact h
  · exact (h.turnaround ‹_›).startEntry

theorem State.characterSent_conserves (s : State) (p : PortId) : s.Conserves (execCharacterSent p s) := by
  refine .unlessReset fun h => ?_
  split
  · rename_i e htx hc
    have hsends := (h.ports p).sends hc
    set x : SendEntry := { e with charsSent := e.charsSent + 1 } with hx
    have hm := h.modEntry hsends.mem.1 (fun y => hsends.eq_of_sending) (x := x) rfl rfl hsends.mem.2
    dsimp only
    split
    · exact hm.releaseDir.endSending _ _ _
    · rename_i hstop
      have hon : State.Held p (Port.SendsOn x) (s.modEntry p e.id fun _ => x) := by
        refine hm.imp fun hs => ⟨hs, by simpa using hstop, ?_⟩
        rw [State.modEntry_port] at hstop ⊢
        exact (h.ports p).send.canSend_of_entry hsends.mem.1 (by simpa using hstop)
      split
      · exact hon.holdOrEnd _
      · exact hon.beginCharacter _
  · exact h

theorem State.trailingHoldExpiry_conserves (s : State) (p : PortId) : s.Conserves (execTrailingHoldExpiry p s) := by
  refine .unlessReset fun h => ?_
  split
  · exact h
  · rename_i hdue
    simp only [Port.holdDue] at hdue
    split at hdue
    · rename_i hc
      split at hdue
      · cases hdue
        exact State.Held.endSending (State.Held.releaseDir (h.held p fun hp => hp.sends hc)) _ _ _
      · cases hdue
    · cases hdue

/-- R104. The entries that a stop ends, and the one that it leaves. -/
theorem Port.stopEnds_perm (q : Port) : q.queue.Perm (q.stopEnds ++ q.stopped.queue) := by
  simp only [Port.stopEnds, Port.stopped]
  cases q.onLine with
  | true =>
    have hnot : ∀ x : SendEntry, (x.state == SendState.sending) = !(x.state == SendState.queued) := fun x => by
      cases x.state <;> rfl
    simp only [if_true, hnot]
    exact (List.filter_append_perm _ _).symm
  | false => simp

/-- R104. The port after a stop. -/
theorem Port.Sound.stopped (h : q.Sound) : q.stopped.Sound := by
  refine ⟨?_, rfl, fun _ => rfl⟩
  cases hl : q.onLine with
  | true =>
    have htx : q.tx ≠ .idle := fun ht => by simp [Port.onLine, ht] at hl
    have hone := h.send.one
    rw [if_neg htx] at hone
    have hqueue : q.stopped.queue = q.queue.filter fun e => e.state == .sending := by simp [Port.stopped, hl]
    have htx' : q.stopped.tx = q.tx := by simp [Port.stopped, hl]
    refine ⟨?_, ?_, fun _ => ⟨?_, fun _ => hl⟩, fun _ => by rw [htx']; exact q.onLine_iff.mp hl⟩
    · rw [hqueue, hone]
      decide
    · rw [hqueue, List.filter_filter, htx', if_neg htx]
      simpa using hone
    · rw [hqueue, hone]
  | false =>
    have hqueue : q.stopped.queue = [] := by simp [Port.stopped, hl]
    have htx : q.stopped.tx = .idle := by simp [Port.stopped, hl]
    have hstop : q.stopped.stopping = false := hl
    refine ⟨by rw [hqueue]; decide, by rw [hqueue, htx]; rfl, fun _ => ⟨by rw [hqueue]; decide, fun hne => absurd hqueue hne⟩,
      fun hs => ?_⟩
    rw [hstop] at hs
    cases hs

/-- R104. A stop releases the frame in assembly and the entries that it ends. -/
theorem State.Conserved.stopPort (h : s.Conserved) (p : PortId) : (s.stopPort p).Conserved := by
  have hperm := (s.port p).stopEnds_perm
  rw [State.stopPort_eq h.pool (h.ports p).send]
  refine State.Held.conserved (State.Held.patched (Q := Port.Sound) (h.held p (P := Port.Sound) id) _ _ ?_ ?_
    (h.ports p).stopped) id
  · have hnames : (s.port p).stopped.names = (s.port p).stopped.queue.map (·.desc) := by
      simp [Port.names, Port.stopped, Framer.toHunt, Framer.fresh]
    rw [hnames, Port.names]
    refine ((hperm.map _).append_right _).trans (List.perm_append_comm.trans ?_)
    rw [List.map_append, List.append_assoc]
  · simp only [Port.stopped]
    split
    · exact List.filter_sublist.map _
    · exact List.nil_sublist _

end

end Sys2Proof.Machine
end

