-- ==== Sys2Proof/Proofs/StoresConserve.lean ====
section
namespace Sys2Proof.Machine

/-! ### References that leave the stores and the Classifier -/

section
variable {s t : State} {ds : List DescId}

theorem State.names_releaseAll (s : State) (ds : List DescId) : (s.releaseAll ds).names = s.names := by
  rw [State.releaseAll_eq]
  exact State.names_congr rfl rfl rfl

theorem State.Conserved.of_books (h : s.Conserved) (hb : t.memory.Books t.names) (hp : t.ports = s.ports)
    (hn : t.nextSendId = s.nextSendId) : t.Conserved := by
  have hport : ∀ x, t.port x = s.port x := fun x => by rw [State.port, hp, State.port]
  exact ⟨hb, h.pool.of_ids (fun x => by rw [hport x]) hn, fun x => by rw [hport x]; exact h.ports x⟩

/-- R33, R34. The references that no party names any longer are released. -/
theorem State.Conserved.freed (h : s.Conserved) (hn : s.names.Perm (ds ++ t.names))
    (hm : t.memory = ds.foldl RecordMemory.release s.memory) (hp : t.ports = s.ports) (hi : t.nextSendId = s.nextSendId) :
    t.Conserved := h.of_books (hm ▸ RecordMemory.Books.releases (h.books.perm hn)) hp hi

/-- R53. Records leave a store with their references. -/
theorem State.Conserved.storeDetach (h : s.Conserved) {i : StoreId} {f : Store → Store}
    (hn : (s.store i).names.Perm (ds ++ (f (s.store i)).names)) : ((s.modStore i f).releaseAll ds).Conserved := by
  refine h.freed (ds := ds) (List.perm_iff_count.mpr fun d => ?_) (by rw [State.releaseAll_eq]; rfl)
    (by rw [State.releaseAll_eq]; rfl) (by rw [State.releaseAll_eq]; rfl)
  have h1 := List.perm_iff_count.mp (s.names_modStore i f) d
  have h2 := List.perm_iff_count.mp hn d
  rw [State.names_releaseAll]
  simp only [List.count_append] at h1 h2 ⊢
  omega

theorem State.Conserved.modStore (h : s.Conserved) {i : StoreId} {f : Store → Store}
    (hn : (f (s.store i)).names = (s.store i).names) : (s.modStore i f).Conserved :=
  h.storeDetach (ds := []) (.of_eq hn.symm)

/-- R13, R23. Frames leave the Classifier with their references. -/
theorem State.Conserved.classifierDetach (h : s.Conserved) {f : Classifier → Classifier}
    (hn : s.classifier.names.Perm (ds ++ (f s.classifier).names)) : ((s.modClassifier f).releaseAll ds).Conserved := by
  refine h.freed (ds := ds) (List.perm_iff_count.mpr fun d => ?_) (by rw [State.releaseAll_eq]; rfl)
    (by rw [State.releaseAll_eq]; rfl) (by rw [State.releaseAll_eq]; rfl)
  have h1 := List.perm_iff_count.mp (s.names_modClassifier f) d
  have h2 := List.perm_iff_count.mp hn d
  rw [State.names_releaseAll]
  simp only [List.count_append] at h1 h2 ⊢
  omega

theorem State.Conserved.modClassifier (h : s.Conserved) {f : Classifier → Classifier}
    (hn : s.classifier.names.Perm (f s.classifier).names) : (s.modClassifier f).Conserved := h.classifierDetach (ds := []) hn

theorem State.Conserved.keepClassifier (h : s.Conserved) {f : Classifier → Classifier}
    (hq : (f s.classifier).queue = s.classifier.queue) (hc : (f s.classifier).current = s.classifier.current) :
    (s.modClassifier f).Conserved := h.modClassifier (.of_eq (by simp only [Classifier.names, hq, hc]))

theorem State.Conserved.modCurrent (h : s.Conserved) {f : Classification → Classification}
    (hf : ∀ k, (f k).frame.desc = k.frame.desc) : (s.modCurrent f).Conserved := by
  refine h.modClassifier (.of_eq ?_)
  simp only [Classifier.names, Option.toList_map, List.map_map, Function.comp_def, hf]

theorem State.Conserved.checkBlocks (h : s.Conserved) {d : DescId} (hd : d ∈ s.names) (bs : List BlockId) :
    (s.checkBlocks d bs).Conserved := by
  obtain ⟨-, -, -, -, -, hc, hs, hp, hn, -⟩ := s.checkBlocks_frame d bs
  exact h.of_memory (h.books.checkBlocks hd bs) hp hs (by rw [hc]) hn

/-! ### Stores -/

theorem Store.names_rearm (st : Store) : st.rearm.names = st.names := by rw [Store.rearm_eq]; rfl

theorem Store.names_dropHead (st : Store) (k : Nat) : st.names.Perm ((st.records.take k).map (·.desc) ++ (st.dropHead k).names) := by
  refine .of_eq ?_
  rw [Store.names, Store.names, Store.dropHead, ← List.map_append, List.take_append_drop]

theorem Store.names_take (st : Store) (k : Nat) : st.names.Perm ((st.records.take k).map (·.desc) ++ (st.take k).names) := by
  rw [Store.take, Store.names_rearm]
  exact st.names_dropHead k

theorem Store.names_ack (st : Store) (k : Nat) : st.names.Perm ((st.records.take k).map (·.desc) ++ (st.ack k).names) := by
  rw [Store.ack, Store.names_rearm]
  exact st.names_dropHead k

theorem Store.names_purgeHead (st : Store) : st.names.Perm ((st.records.take 1).map (·.desc) ++ st.purgeHead.names) := by
  rw [Store.purgeHead, Store.names_rearm]
  exact st.names_dropHead 1

theorem Store.names_judgeMarks (st : Store) (before : Nat) : (st.judgeMarks before).2.names = st.names := by
  simp only [Store.judgeMarks]
  split
  · exact st.names_rearm
  · exact st.names_rearm

theorem Store.names_append (st : Store) (frame : Frame) (rule : Byte) : (st.append frame rule).names = st.names ++ [frame.desc] := by
  simp [Store.names, Store.append]

/-- R33, R56. A party of the frame's descriptor joins a store. -/
theorem State.Conserved.storeAttach (h : s.Conserved) {d : DescId} (hd : d ∈ s.names) {i : StoreId} {f : Store → Store}
    (hf : (f (s.store i)).names = (s.store i).names ++ [d]) : ((s.acquire d).modStore i f).Conserved := by
  refine State.Conserved.of_books h (t := (s.acquire d).modStore i f) ((h.books.acquire hd).perm ?_) rfl rfl
  refine List.perm_iff_count.mpr fun e => ?_
  have h1 := List.perm_iff_count.mp (s.names_modStore i f) e
  rw [State.names_congr (s := s.modStore i f) (t := (s.acquire d).modStore i f) rfl rfl rfl]
  simp only [hf, List.count_append, List.count_cons, List.count_nil] at h1 ⊢
  omega

/-- R24, R54 to R58. A filing evicts records, and the record made holds the frame's descriptor. -/
theorem State.Conserved.file (h : s.Conserved) {frame : Frame} (hf : frame.desc ∈ s.classifier.names) (i : StoreId) (rule : Byte) :
    (s.file i frame rule).2.Conserved := by
  simp only [State.file]
  split
  · have hr : (s.modStore i fun _ => (s.store i).refuse.2).Conserved := h.modStore rfl
    exact .ite (fun _ => hr.raise _ _ _) fun _ => hr
  · set k := if (s.store i).settings.policy = .evictOldest then
      evictions (s.store i).settings (blocksFor frame.length) (s.store i).blocksUsed (s.store i).records else 0
    set made := (((s.store i).evict k).append frame rule).judgeMarks (s.store i).records.length
    have hevicted : ((s.modStore i fun st => st.evict k).releaseAll (((s.store i).records.take k).map (·.desc))).Conserved :=
      h.storeDetach ((s.store i).names_dropHead k)
    have hfiled : (((s.modStore i fun _ => made.2).releaseAll (((s.store i).records.take k).map (·.desc))).acquire
        frame.desc).Conserved := by
      have heq : ((s.modStore i fun _ => made.2).releaseAll (((s.store i).records.take k).map (·.desc))).acquire frame.desc =
          ((((s.modStore i fun st => st.evict k).releaseAll (((s.store i).records.take k).map (·.desc))).acquire
            frame.desc).modStore i fun _ => made.2) := by
        simp only [State.releaseAll_eq, State.acquire, State.modMemory, State.modStore, Vector.set_set]
      rw [heq]
      refine hevicted.storeAttach (State.mem_names_classifier ?_) ?_
      · obtain ⟨-, -, -, -, -, -, hc, -⟩ := (s.modStore i fun st => st.evict k).releaseAll_frame
          (((s.store i).records.take k).map (·.desc))
        rw [hc]
        exact hf
      · obtain ⟨-, -, -, -, -, -, -, hs, -⟩ := (s.modStore i fun st => st.evict k).releaseAll_frame
          (((s.store i).records.take k).map (·.desc))
        rw [State.store, hs]
        rw [show (s.modStore i fun st => st.evict k).stores.get i = (s.store i).evict k from s.store_modStore_same i _]
        rw [Store.names_judgeMarks, Store.names_append]
    exact .ite (fun _ => hfiled.raise _ _ _) fun _ => hfiled

theorem State.Conserved.endPurge (h : s.Conserved) (i : StoreId) (status : OpStatus) (byRequest : Bool) :
    (s.endPurge i status byRequest).Conserved :=
  State.Conserved.modOps (h.modStore (f := fun st => { st with state := st.prior.getD st.state, prior := none }) rfl) _

theorem State.Conserved.judgePurge (h : s.Conserved) (i : StoreId) (byRequest : Bool) : (s.judgePurge i byRequest).Conserved :=
  .ite (fun _ => h.endPurge _ _ _) fun _ => h

theorem State.Conserved.purgeOne (h : s.Conserved) (i : StoreId) : (s.purgeOne i).Conserved := by
  simp only [State.purgeOne]
  split
  · exact h
  · rename_i r rest hr
    have hn := (s.store i).names_purgeHead
    rw [hr] at hn
    exact State.Conserved.judgePurge ((h.storeDetach (ds := [r.desc]) hn).modOps _) _ _

/-- R37, R63. The reads of records. -/
theorem State.Conserved.readRecords (h : s.Conserved) {rs : List Record} (hr : ∀ r ∈ rs, r.desc ∈ s.names) :
    (s.readRecords rs).2.Conserved := by
  induction rs generalizing s with
  | nil => exact h
  | cons r rs ih =>
    have hone := h.checkBlocks (hr r List.mem_cons_self) (s.memory.span r.desc 0 r.length)
    obtain ⟨-, -, -, -, -, hc, hs, hp, -⟩ := s.checkBlocks_frame r.desc (s.memory.span r.desc 0 r.length)
    refine ih (s := (s.readRecord r).2) hone fun x hx => ?_
    rw [show (s.readRecord r).2.names = s.names from State.names_congr hp hs (congrArg Classifier.names hc)]
    exact hr x (List.mem_cons_of_mem r hx)

theorem chosen_prefix (recordLimit byteLimit size n : Nat) (rs : List Record) :
    chosen recordLimit byteLimit size n rs <+: rs := by
  induction rs generalizing size n with
  | nil => exact List.nil_prefix
  | cons r rs ih =>
    simp only [chosen]
    split
    · exact List.prefix_cons_inj r |>.mpr (ih _ _)
    · exact List.nil_prefix

/-- R61, R62. TAKE releases the records that it returns, and it is made with none delivered. -/
theorem State.Conserved.serveRead (h : s.Conserved) {i : StoreId} {take : Bool} (ht : take = true → (s.store i).delivered = 0)
    (recordLimit byteLimit : Nat) : (s.serveRead i take recordLimit byteLimit).1.Conserved := by
  simp only [State.serveRead, State.grant]
  set rs := chosen recordLimit byteLimit 4 0 ((s.store i).records.drop (s.store i).delivered) with hrs
  have hpre : rs <+: (s.store i).records.drop (s.store i).delivered := chosen_prefix _ _ _ _ _
  have hread := h.readRecords (rs := rs) fun r hr => State.mem_names_store (i := i)
    (List.mem_map_of_mem ((List.drop_sublist _ _).subset (hpre.subset hr)))
  obtain ⟨-, -, -, -, -, -, hstores, -⟩ := s.readRecords_frame rs
  have hstore : (s.readRecords rs).2.store i = s.store i := by rw [State.store, hstores, State.store]
  split
  · refine hread.storeDetach ?_
    rw [hstore]
    rw [ht ‹_›, List.drop_zero] at hpre
    have htake : (s.store i).records.take rs.length = rs := (List.prefix_iff_eq_take.mp hpre).symm
    have hn := (s.store i).names_take rs.length
    rwa [htake] at hn
  · exact hread.modStore rfl

end

end Sys2Proof.Machine
end

