-- ==== Sys2Proof/Proofs/ClassifierConserves.lean ====
section
namespace Sys2Proof.Machine

/-! ### Entries made -/

section
variable {s t : State}

theorem nextId_ne_zero (v : Half) : nextId v ≠ 0 := fun h => by
  have hv := nextId_toNat v
  rw [h] at hv
  simp at hv
  omega

theorem nextId_iterate_ne_zero {v : Half} (hv : v ≠ 0) (n : Nat) : nextId^[n] v ≠ 0 := by
  cases n with
  | zero => exact hv
  | succ n =>
    rw [Function.iterate_succ_apply']
    exact nextId_ne_zero _

theorem State.admissionCause_eq_none {p : PortId} (h : s.admissionCause p = none) :
    (s.port p).canSend = true ∧ (s.port p).queue.length < 16 ∧ s.entries.length < 48 := by
  have hlt := State.entries_lt_of_admissionCause h
  simp only [State.admissionCause] at h
  split at h
  · cases h
  rename_i hc
  split at h
  · cases h
  split at h
  · rename_i hroom
    exact ⟨by simpa using hc, by simpa using (Bool.and_eq_true_iff.mp hroom).1, hlt⟩
  · cases h

/-- R116. A QUEUED entry at the tail leaves the transmitter. -/
theorem Port.Sound.join {q : Port} (h : q.Sound) (hc : q.canSend = true) (hlen : q.queue.length < 16) {e : SendEntry}
    (he : e.state = .queued) : ({ q with queue := q.queue ++ [e] } : Port).Sound := by
  refine ⟨⟨?_, ?_, fun hoff => ?_, h.send.stopping⟩, h.framer⟩
  · rw [List.length_append]
    exact hlen
  · rw [List.filter_append, List.filter_cons, he, List.filter_nil]
    exact (congrArg List.length (List.append_nil _)).trans h.send.one
  · exact absurd (hc.symm.trans hoff) (by decide)

/-- R118, R119. An entry joins the tail of a port's queue. -/
def State.joined (s : State) (p : PortId) (e : SendEntry) (next : Half) : State :=
  { s.modPort p fun q => { q with queue := q.queue ++ [e] } with nextSendId := next }

theorem State.port_joined (s : State) (p : PortId) (e : SendEntry) (next : Half) (x : PortId) :
    (s.joined p e next).port x = if x = p then { s.port p with queue := (s.port p).queue ++ [e] } else s.port x :=
  s.port_modPort p x fun q => { q with queue := q.queue ++ [e] }

theorem State.entries_joined (s : State) (p : PortId) (e : SendEntry) (next : Half) :
    (s.joined p e next).entries.Perm (e :: s.entries) := by
  have hp := flatMap_update_perm (ι := PortId) (List.nodup_finRange 4) (List.mem_finRange p) (f := fun x => (s.port x).queue)
    (g := fun x => ((s.joined p e next).port x).queue) fun x hx => by rw [s.port_joined, if_neg hx]
  rw [State.port_joined, if_pos rfl] at hp
  refine List.perm_iff_count.mpr fun x => ?_
  have hx := List.perm_iff_count.mp hp x
  rw [State.entries_eq, State.entries_eq]
  simp only [List.count_append, List.count_cons, List.count_nil] at hx ⊢
  omega

theorem State.names_joined (s : State) (p : PortId) (e : SendEntry) (next : Half) :
    (s.joined p e next).names.Perm (e.desc :: s.names) := by
  refine List.perm_iff_count.mpr fun x => ?_
  have hx := List.perm_iff_count.mp (s.names_modPort p fun q => { q with queue := q.queue ++ [e] }) x
  rw [show (s.joined p e next).names = (s.modPort p fun q => { q with queue := q.queue ++ [e] }).names from
    State.names_congr rfl rfl rfl]
  simp only [Port.names, List.map_append, List.map_cons, List.map_nil, List.count_append, List.count_cons,
    List.count_nil] at hx ⊢
  omega

/-- R116, R118. The pool with one entry more, whose send id is free and not 0. -/
theorem State.PoolSound.join (h : s.PoolSound) (hlen : s.entries.length < 48) {p : PortId} {e : SendEntry}
    (hfree : e.id ∉ s.entries.map (·.id)) (he : e.id ≠ 0) {next : Half} (hnext : next ≠ 0) : (s.joined p e next).PoolSound := by
  have hperm := s.entries_joined p e next
  refine ⟨?_, ?_, fun x hx => ?_, hnext⟩
  · rw [hperm.length_eq, List.length_cons]
    exact hlen
  · rw [(hperm.map _).nodup_iff, List.map_cons, List.nodup_cons]
    exact ⟨hfree, h.ids⟩
  · obtain rfl | hx := List.mem_cons.mp (hperm.mem_iff.mp hx)
    · exact he
    · exact h.nonzero x hx

/-- R33, R116. A QUEUED entry takes a reference over. -/
theorem State.joined_conserved {p : PortId} {e : SendEntry} (hb : s.memory.Books (e.desc :: s.names)) (hpool : s.PoolSound)
    (hports : ∀ x, (s.port x).Sound) (hc : (s.port p).canSend = true) (hlen : (s.port p).queue.length < 16)
    (hroom : s.entries.length < 48) (he : e.state = .queued) (hfree : e.id ∉ s.entries.map (·.id)) (hid : e.id ≠ 0)
    {next : Half} (hnext : next ≠ 0) : (s.joined p e next).Conserved := by
  refine ⟨hb.perm (s.names_joined p e next).symm, hpool.join hroom hfree hid hnext, fun x => ?_⟩
  rw [State.port_joined]
  split
  · exact (hports p).join hc hlen he
  · exact hports x

/-- R116, R118, R119. An admission hands a reference over to the entry that it makes. -/
theorem State.makeEntry_conserved {p : PortId} {d : DescId} (hb : s.memory.Books (d :: s.names)) (hpool : s.PoolSound)
    (hports : ∀ x, (s.port x).Sound) (ha : s.admissionCause p = none) (origin : SendOrigin) (cls : Fin 4) (ttl : Nat)
    (report : Bool) (tag : Option Byte) : (s.makeEntry p origin cls ttl d report tag).2.Conserved := by
  obtain ⟨hc, hlen, hroom⟩ := State.admissionCause_eq_none ha
  obtain ⟨n, -, -, hfree, he⟩ := State.makeEntry_joins hroom origin cls ttl d report tag
  rw [he]
  exact State.joined_conserved hb hpool hports hc hlen hroom rfl hfree (nextId_iterate_ne_zero hpool.next n) (nextId_ne_zero _)

/-- R36. A fill leaves all but Record Memory and the Notice Queue. -/
theorem State.Conserved.fill_entry (h : s.Conserved) {p : PortId} (ha : s.admissionCause p = none) {bytes : List Byte} {d : DescId}
    (hf : s.fill bytes = (some d, t)) (origin : SendOrigin) (cls : Fin 4) (ttl : Nat) (report : Bool) (tag : Option Byte) :
    (t.makeEntry p origin cls ttl d report tag).2.Conserved := by
  obtain ⟨-, -, -, -, -, hc, hs, hp, hn, -⟩ := s.fill_frame bytes
  have hb := h.books.fill bytes
  rw [hf] at hc hs hp hn hb
  have hport : ∀ x, t.port x = s.port x := fun x => by rw [State.port, hp, State.port]
  refine State.makeEntry_conserved ?_ (h.pool.of_ids (fun x => by rw [hport x]) hn) (fun x => by rw [hport x]; exact h.ports x) ?_
    origin cls ttl report tag
  · rw [State.names_congr hp hs (congrArg Classifier.names hc)]
    exact hb
  · rw [← ha, State.admissionCause, State.admissionCause, hport, State.entries, hp, State.entries]

theorem State.Conserved.fill_none (h : s.Conserved) {bytes : List Byte} (hf : s.fill bytes = (none, t)) : t.Conserved := by
  obtain ⟨-, -, -, -, -, hc, hs, hp, hn, -⟩ := s.fill_frame bytes
  have hb := h.books.fill bytes
  rw [hf] at hc hs hp hn hb
  exact h.of_memory hb hp hs (congrArg Classifier.names hc) hn

theorem State.Conserved.admitSend (h : s.Conserved) (tag : Byte) (p : PortId) (cls : Fin 4) (ttl : Nat) (report : Bool)
    (data : List Byte) : (s.admitSend tag p cls ttl report data).1.Conserved := by
  simp only [State.admitSend]
  split
  · exact h
  · split
    · exact h.fill_none ‹_›
    · exact h.fill_entry ‹_› ‹_› _ _ _ _ _

/-! ### Classification -/

theorem State.Conserved.modRule (h : s.Conserved) (r : RuleId) (f : Rule → Rule) : (s.modRule r f).Conserved :=
  h.keepClassifier rfl rfl

theorem State.Conserved.countMemory (h : s.Conserved) (f : MemoryCounters → MemoryCounters) :
    (s.modMemory fun m => { m with counters := f m.counters }).Conserved := h.of_memory (h.books.counters _) rfl rfl rfl rfl

theorem State.Conserved.dropForward (h : s.Conserved) (r : RuleId) (action : DroppedAction) (cause : Status) :
    (s.dropForward r action cause).Conserved := (h.modRule r _).raise _ _ _

theorem State.Conserved.fileAction (h : s.Conserved) {f : Frame} (hf : f.desc ∈ s.classifier.names) (r : RuleId) (i : StoreId) :
    (s.fileAction r f i).Conserved := by
  have hx := h.file hf i (byte1 r.val)
  simp only [State.fileAction]
  split <;> rename_i e <;> rw [e] at hx
  · exact State.Conserved.modCurrent hx fun _ => rfl
  · exact State.Conserved.modRule hx r _

theorem State.Conserved.forwardAction (h : s.Conserved) {f : Frame} (hf : f.desc ∈ s.classifier.names) (r : RuleId) (p : PortId)
    (cls : Fin 4) (ttl : Nat) : (s.forwardAction r f p cls ttl).Conserved := by
  simp only [State.forwardAction]
  split
  · exact h.dropForward _ _ _
  · exact State.makeEntry_conserved (s := s.acquire f.desc) (h.books.acquire (State.mem_names_classifier hf)) (h.pool.of_ids
      (fun _ => .refl _) rfl) h.ports ‹_› _ _ _ _ _

theorem State.Conserved.buildReply (h : s.Conserved) (v : Template) {f : Frame} (hf : f.desc ∈ s.classifier.names) :
    (s.buildReply v f).2.Conserved := by
  simp only [State.buildReply]
  split
  · exact h
  · exact h.checkBlocks (State.mem_names_classifier hf) _

theorem State.Conserved.replyAction (h : s.Conserved) {f : Frame} (hf : f.desc ∈ s.classifier.names) (r : RuleId) (i : TemplateId)
    (cls : Fin 4) (ttl : Nat) : (s.replyAction r f i cls ttl).Conserved := by
  simp only [State.replyAction]
  split
  · exact h.dropForward _ _ _
  rename_i ha
  refine .ite (fun _ => h.dropForward _ _ _) fun _ => .ite (fun _ => ?_) fun _ => .ite (fun _ => ?_) fun _ => ?_
  · exact (h.countMemory fun c => { c with noDescriptor := sat32 (c.noDescriptor + 1) }).dropForward _ _ _
  · exact (h.countMemory fun c => { c with noBlock := sat32 (c.noBlock + 1) }).dropForward _ _ _
  · have hb := h.buildReply (s.classifier.templates.get i) hf
    obtain ⟨-, -, -, -, -, -, -, hports, -⟩ := s.buildReply_frame (s.classifier.templates.get i) f
    have ha : (s.buildReply (s.classifier.templates.get i) f).2.admissionCause f.port = none := by
      rw [← ha, State.admissionCause, State.admissionCause, State.port, State.port, hports, State.entries, State.entries, hports]
    split
    · exact hb.fill_entry ha ‹_› _ _ _ _ _
    · exact State.Conserved.dropForward (hb.fill_none ‹_›) _ _ _

theorem State.Conserved.spend (h : s.Conserved) (r : RuleId) : (s.spend r).Conserved :=
  .ite (fun _ => (h.modRule r _).raise _ _ _) fun _ => h

theorem State.Conserved.capRecord (h : s.Conserved) (filed : StoreId × Word) : (s.capRecord filed).Conserved := by
  refine h.modStore ?_
  simp only [Store.names, List.map_map]
  refine List.map_congr_left fun r _ => ?_
  rw [Function.comp_apply]
  split <;> rfl

theorem State.Conserved.capActions (h : s.Conserved) (k : Classification) : (s.capActions k).Conserved := by
  refine State.Conserved.modCurrent ?_ fun _ => rfl
  induction k.filed generalizing s with
  | nil => exact h
  | cons x filed ih => exact ih (h.capRecord x)

theorem State.Conserved.act (h : s.Conserved) {k : Classification} (hk : k.frame.desc ∈ s.classifier.names) (r : RuleId)
    (d : RuleDef) : (s.act k r d).Conserved := by
  have hhit : (s.hit r).Conserved := h.modRule r _
  have hk : k.frame.desc ∈ (s.hit r).classifier.names := hk
  have performed {t : State} (ht : t.Conserved) : ((t.performed d.goOn).spend r).Conserved :=
    State.Conserved.spend (ht.modCurrent (f := fun k => { k with performed := k.performed + 1, decided := true, ended := !d.goOn })
      fun _ => rfl) r
  simp only [State.act]
  split
  · exact State.Conserved.spend (hhit.modCurrent (f := fun k => { k with decided := true, ended := true }) fun _ => rfl) r
  · exact hhit.spend r
  · exact .ite (fun _ => h.capActions k) fun _ => performed (hhit.fileAction hk _ _)
  · exact .ite (fun _ => h.capActions k) fun _ => performed (hhit.forwardAction hk _ _ _ _)
  · exact .ite (fun _ => h.capActions k) fun _ => performed (hhit.replyAction hk _ _ _ _)

theorem Classifier.current_mem_names {c : Classifier} {k : Classification} (h : c.current = some k) : k.frame.desc ∈ c.names := by
  simp [Classifier.names, h]

theorem State.Conserved.visit (h : s.Conserved) {k : Classification} (hk : s.classifier.current = some k) (r : RuleId)
    (rest : List RuleId) : (s.visit k r rest).Conserved := by
  have hm : (s.modCurrent fun k => { k with remaining := rest }).Conserved := h.modCurrent fun _ => rfl
  have hd : k.frame.desc ∈ (s.modCurrent fun k => { k with remaining := rest }).classifier.names :=
    Classifier.current_mem_names (k := { k with remaining := rest })
      (by simp [State.modCurrent, State.modClassifier, hk])
  simp only [State.visit, State.ruleMatches]
  split
  · have hc := hm.checkBlocks (State.mem_names_classifier hd) ((s.modCurrent fun k => { k with remaining := rest }).memory.span
      k.frame.desc (s.classifier.rule r).fields.keyOffset (s.classifier.rule r).fields.key.length)
    refine .ite (fun _ => hc.act ?_ r _) fun _ => hc
    obtain ⟨-, -, -, -, -, hcl, -⟩ := (s.modCurrent fun k => { k with remaining := rest }).checkBlocks_frame k.frame.desc
      ((s.modCurrent fun k => { k with remaining := rest }).memory.span
      k.frame.desc (s.classifier.rule r).fields.keyOffset (s.classifier.rule r).fields.key.length)
    rw [hcl]
    exact hd
  · exact .ite (fun _ => hm.act hd r _) fun _ => hm

theorem Classifier.applyEdit_frames (c : Classifier) (e : Edit) :
    (c.applyEdit e).2.queue = c.queue ∧ (c.applyEdit e).2.current = c.current := by
  cases e with
  | ruleWrite r fields => exact ⟨rfl, rfl⟩
  | ruleLink r p position =>
    simp only [Classifier.applyEdit, Classifier.linkRule]
    split
    · exact ⟨rfl, rfl⟩
    · split <;> exact ⟨rfl, rfl⟩
  | ruleUnlink r =>
    simp only [Classifier.applyEdit, Classifier.unlinkRule]
    split <;> exact ⟨rfl, rfl⟩
  | ruleFree r =>
    simp only [Classifier.applyEdit, Classifier.freeRule]
    split <;> exact ⟨rfl, rfl⟩
  | ruleEnable r enabled =>
    simp only [Classifier.applyEdit, Classifier.enableRule]
    split <;> exact ⟨rfl, rfl⟩
  | defaultSet p action => exact ⟨rfl, rfl⟩
  | templateWrite i value => exact ⟨rfl, rfl⟩

theorem State.Conserved.edit (h : s.Conserved) (e : Edit) : (s.edit e).1.Conserved := by
  obtain ⟨hq, hc⟩ := s.classifier.applyEdit_frames e
  simp only [State.edit]
  split
  · exact h.keepClassifier (f := fun c => (c.applyEdit e).2) hq hc
  · exact h.keepClassifier (f := fun c => { c with held := some e }) rfl rfl

theorem State.Conserved.answer (h : s.Conserved) (tag kind : Byte) (status : Status) (fields : List Byte) (role : ReplyRole)
    (after : Executor) : (s.answer tag kind status fields role after).Conserved := h.of_eq rfl rfl rfl rfl rfl

theorem State.Conserved.carryOutHeld (h : s.Conserved) : s.carryOutHeld.Conserved := by
  simp only [State.carryOutHeld]
  split
  · rename_i e _ _ _ _
    obtain ⟨hq, hc⟩ := s.classifier.applyEdit_frames e
    exact State.Conserved.answer (h.keepClassifier (f := fun c => { (c.applyEdit e).2 with held := none }) hq hc) _ _ _ _ _ _
  · exact h

/-- R23. The frame under classification is released. -/
theorem State.Conserved.endClassification (h : s.Conserved) {k : Classification} (hk : s.classifier.current = some k) :
    (s.endClassification k).Conserved := by
  refine State.Conserved.carryOutHeld ?_
  have hd : (s.defaultAction k).Conserved := by
    refine .ite (fun _ => h) fun _ => ?_
    split
    · exact h
    · exact h.file (Classifier.current_mem_names hk) _ _
  obtain ⟨-, -, -, -, -, hc, -⟩ := s.defaultAction_frame k
  refine hd.classifierDetach (f := fun c => { c with current := none }) (ds := [k.frame.desc]) ?_
  rw [hc]
  simp only [Classifier.names, hk, Option.toList_some, Option.toList_none, List.map_cons, List.map_nil, List.append_nil]
  exact List.perm_append_comm

theorem State.Conserved.begin (h : s.Conserved) {f : Frame} {rest : List Frame} (hc : s.classifier.current = none)
    (hq : s.classifier.queue = f :: rest) : (s.modClassifier fun c => c.begin f rest).Conserved := by
  refine h.modClassifier ?_
  simp only [Classifier.names, Classifier.begin, hc, hq, Option.toList_some, Option.toList_none, List.map_cons, List.map_nil,
    List.append_nil]
  exact (List.perm_append_singleton _ _).symm

theorem State.Conserved.removePending (h : s.Conserved) (p : PortId) : (s.removePending p).Conserved := by
  refine h.classifierDetach ?_
  simp only [Classifier.names]
  rw [← List.append_assoc, ← List.map_append]
  refine List.Perm.append_right _ (List.Perm.map _ ?_)
  exact (List.filter_append_perm (fun f : Frame => f.port == p) _).symm

theorem State.Conserved.resetPort (h : s.Conserved) (p : PortId) : (s.resetPort p).Conserved := by
  simp only [State.resetPort]
  set u := if (s.port p).canSend then s.stopPort p else s with hu
  have hstopped : u.Conserved := .ite (fun _ => h.stopPort p) fun _ => h
  have hoff : (u.port p).canSend = false := by
    rw [hu]
    split
    · rw [State.stopPort_eq h.pool (h.ports p).send, State.patched_port]
      rfl
    · rename_i hc
      simpa using hc
  have hr := hstopped.removePending p
  have hport := u.removePending_port p p
  have hsound := hstopped.ports p
  have hframe : (u.port p).framer.frame = none := hsound.framer.2 fun hrun => by simp [Port.canSend, hrun] at hoff
  refine State.Held.conserved (State.Held.modPort (Q := Port.Sound) (hr.held p (P := Port.Sound) id) (.of_eq ?_) (.refl _) ?_) id
  · simp only [hport, Port.names, hframe]
    rfl
  · rw [hport]
    exact ⟨hsound.send.of_eq rfl rfl rfl (hoff ▸ rfl), rfl, fun _ => rfl⟩

end

end Sys2Proof.Machine
end

