-- ==== Sys2Proof/Proofs/RowsConserve.lean ====
section
namespace Sys2Proof.Machine

/-! ### Resets and time -/

theorem State.conserved_iff (s : State) : s.Conserved ↔
    s.memory.Sound ∧ s.Counted ∧ s.PoolSound ∧ (∀ p, (s.port p).SendSound) ∧ ∀ p, (s.port p).FramerSound := by
  have hc : s.Counted ↔ ∀ d, (s.memory.desc d).refs = s.names.count d := by simp only [State.Counted, State.holders_eq]
  constructor
  · exact fun h => ⟨h.books.sound, hc.mpr h.books.exact, h.pool, fun p => (h.ports p).send, fun p => (h.ports p).framer⟩
  · exact fun ⟨hm, hx, hp, hs, hf⟩ => ⟨⟨hm, hc.mp hx⟩, hp, fun p => ⟨hs p, hf p⟩⟩

theorem State.reset_conserved : State.reset.Conserved :=
  State.reset.conserved_iff.mpr ⟨RecordMemory.reset_sound, State.reset_counted, State.reset_poolSound, State.reset_sendSound,
    State.reset_framerSound⟩

theorem State.afterReset_conserved (s : State) (cause : ResetCause) : (s.afterReset cause).Conserved :=
  State.reset_conserved.of_eq rfl rfl rfl rfl rfl

theorem SendEntry.tick_fields (e : SendEntry) : e.tick.id = e.id ∧ e.tick.desc = e.desc ∧ e.tick.state = e.state := by
  simp only [SendEntry.tick]
  split <;> exact ⟨rfl, rfl, rfl⟩

theorem TxPhase.tick_idle (t : TxPhase) : t.tick = .idle ↔ t = .idle := by cases t <;> simp [TxPhase.tick]

/-- R127. Time moves no entry. -/
theorem Port.Sound.tick {q : Port} (h : q.Sound) : q.tick.Sound := by
  have hlen : q.tick.queue.length = q.queue.length := List.length_map ..
  have hnil : q.tick.queue ≠ [] → q.queue ≠ [] := fun hne hq => hne (by simp [Port.tick, hq])
  refine ⟨⟨hlen ▸ h.send.length, ?_, fun hc => ⟨hlen ▸ (h.send.off hc).1, fun hne => (h.send.off hc).2 (hnil hne)⟩, fun hs => ?_⟩,
    h.framer⟩
  · have hone := h.send.one
    simp only [Port.tick, List.filter_map, Function.comp_def, SendEntry.tick_fields, List.length_map, TxPhase.tick_idle]
    exact hone
  · obtain ⟨value, format, block, htx⟩ := h.send.stopping hs
    exact ⟨value, format, block, by simp [Port.tick, htx, TxPhase.tick]⟩

theorem Port.names_tick (q : Port) : q.tick.names = q.names := by
  simp [Port.names, Port.tick, SendEntry.tick_fields, Function.comp_def]

theorem State.Conserved.tick {s : State} (h : s.Conserved) : s.tick.Conserved := by
  cases hr : s.pins.reset with
  | true =>
    rw [State.tick, if_pos hr]
    exact h
  | false =>
    have hport := s.port_tick hr
    have ht : s.tick.classifier = s.classifier ∧ s.tick.stores = s.stores ∧ s.tick.nextSendId = s.nextSendId ∧
        s.tick.memory = s.memory.tick s.ticks := by simp [State.tick, hr]
    obtain ⟨hc, hs, hn, hm⟩ := ht
    refine ⟨?_, h.pool.of_ids (fun p => ?_) hn, fun p => ?_⟩
    · have hnames : s.tick.names = s.names := by simp only [State.names, State.store, hs, hc, hport, Port.names_tick]
      rw [hm, hnames]
      exact h.books.tick _
    · rw [hport]
      simp [Port.tick, SendEntry.tick_fields, Function.comp_def]
    · rw [hport]
      exact (h.ports p).tick

/-! ### Requests -/

section
variable {s t : State}

theorem State.Conserved.modLink (h : s.Conserved) (f : Link → Link) : (s.modLink f).Conserved := h.of_eq rfl rfl rfl rfl rfl

/-- R145. The taking of a request conserves what its execution conserves. -/
theorem State.request_conserved {k : Kind} {run : Byte → List Byte → State → State × Response} (hs : s.Conserved)
    (h : ∀ tag body, (run tag body s).1.Conserved) : (s.request k run).Conserved := by
  obtain he | ⟨r, rest, -, -, -, -, he⟩ := s.request_cases k run
  · rw [he]
    exact hs
  · rw [he]
    have hx := h r.tag r.body
    dsimp only
    split
    · exact (hx.modLink _).answer _ _ _ _ _ _
    · exact (hx.modLink _).answer _ _ _ _ _ _
    · exact hx.modLink _

theorem State.Conserves.request {α : Type} {k : Kind} {parse : List Byte → Except Nat α}
    {act : Byte → α → State → State × Response}
    (h : ∀ tag body a, parse body = .ok a → s.Conserved → (act tag a s).1.Conserved) : s.Conserves (s.execRequest k parse act) := by
  refine .unlessReset fun hs => State.request_conserved hs fun tag body => ?_
  simp only [checked]
  split
  · split
    · exact hs
    · exact h tag body _ ‹_› hs
  · exact hs

/-- R145. A request that reports, and changes nothing. -/
theorem State.Conserves.report {α : Type} {k : Kind} {parse : List Byte → Except Nat α}
    {act : Byte → α → State → State × Response} (h : ∀ tag a, (act tag a s).1 = s) : s.Conserves (s.execRequest k parse act) :=
  .request fun tag _ a _ hs => by rw [h tag a]; exact hs

/-- A request's execution that tests a condition first. -/
theorem State.Conserved.ite_fst {c : Prop} [Decidable c] {a b : State × Response} (ha : c → a.1.Conserved)
    (hb : ¬ c → b.1.Conserved) : (if c then a else b).1.Conserved := by
  split
  · exact ha ‹_›
  · exact hb ‹_›

theorem State.Conserved.pair {response : Response} (h : s.Conserved) : (s, response).1.Conserved := h

theorem State.Conserved.grant (h : s.Conserved) (fields : List Byte) : (s.grant fields).1.Conserved := h

/-- A request that changes no port, no store, no reference and nothing of Record Memory. -/
theorem State.Conserved.grant_of_eq {fields : List Byte} (h : s.Conserved) (hm : t.memory = s.memory) (hp : t.ports = s.ports)
    (hs : t.stores = s.stores) (hc : t.classifier.names = s.classifier.names) (hn : t.nextSendId = s.nextSendId) :
    (t.grant fields).1.Conserved := h.of_eq hm hp hs hc hn

/-- A change of a port that keeps its entries and its frame. -/
theorem State.Held.replacePort {p : PortId} {P : Port → Prop} (h : State.Held p P s) {f : Port → Port}
    (hq : (f (s.port p)).queue = (s.port p).queue) (hf : (f (s.port p)).framer.frame = (s.port p).framer.frame)
    (hs : (f (s.port p)).Sound) : (s.modPort p f).Conserved :=
  State.Held.conserved (h.modPort (Q := Port.Sound) (.of_eq (by simp only [Port.names, hq, hf])) (by rw [hq]) hs) id

/-- R99. The settings of a port that is not in use. -/
theorem State.portConfig_conserves : s.Conserves (exec .portConfig s) := by
  refine .request fun _ _ a _ h => .ite_fst (fun hc => State.Conserved.grant ?_ _) fun _ => h
  have hoff : (s.port a.1).canSend = false ∧ (s.port a.1).state ≠ .running := by
    simp only [Port.configurable, Bool.or_eq_true, beq_iff_eq] at hc
    obtain hc | hc := hc <;> simp [Port.canSend, hc]
  have hsound := h.ports a.1
  refine State.Held.replacePort (h.held a.1 (P := Port.Sound) id) rfl rfl ?_
  exact ⟨hsound.send.of_eq rfl rfl rfl (hoff.1 ▸ rfl), hsound.framer.1, fun _ => hsound.framer.2 hoff.2⟩

theorem State.framerConfig_conserves : s.Conserves (exec .framerConfig s) := by
  refine .request fun _ _ a _ h => .ite_fst (fun _ => State.Conserved.grant ?_ _) fun _ => h
  have hsound := h.ports a.1
  exact State.Held.replacePort (h.held a.1 (P := Port.Sound) id) rfl rfl ⟨hsound.send.of_eq rfl rfl rfl rfl, hsound.framer⟩

/-- R75, R96. The receiver is switched on or off with no frame in assembly. -/
theorem Port.SendSound.switched {q q' : Port} (h : q.SendSound) (hq : q'.queue = q.queue) (ht : q'.tx = q.tx)
    (hs : q'.stopping = q.stopping) (hc : q'.canSend = true) (hf : q'.framer.frame = none)
    (hst : q'.framer.state = .hunt ∨ q'.framer.state = .skip) : q'.Sound := by
  refine ⟨⟨hq ▸ h.length, by rw [hq, ht]; exact h.one, fun hoff => absurd (hc.symm.trans hoff) (by decide),
    by rw [hs, ht]; exact h.stopping⟩, ?_, fun _ => hf⟩
  rw [hf]
  obtain hst | hst := hst <;> rw [hst] <;> rfl

theorem Framer.switchOn_fields (f : Framer) : f.switchOn.frame = none ∧ (f.switchOn.state = .hunt ∨ f.switchOn.state = .skip) := by
  simp only [Framer.switchOn]
  split
  · exact ⟨rfl, .inr rfl⟩
  · exact ⟨rfl, .inl rfl⟩

theorem State.portStart_conserves : s.Conserves (exec .portStart s) := by
  refine .request fun _ _ p _ h => .ite_fst (fun hr => State.Conserved.grant ?_ _) fun _ => h
  obtain ⟨hf, hst⟩ := (s.port p).framer.switchOn_fields
  have hnone := (h.ports p).framer.2 (by rw [hr]; decide)
  exact State.Held.replacePort (h.held p (P := Port.Sound) id) rfl (hf.trans hnone.symm)
    ((h.ports p).send.switched rfl rfl rfl rfl hf hst)

theorem State.portResume_conserves : s.Conserves (exec .portResume s) := by
  refine .request fun _ _ p _ h => .ite_fst (fun hr => State.Conserved.grant ?_ _) fun _ => h
  obtain ⟨hf, hst⟩ := (s.port p).framer.switchOn_fields
  have hnone := (h.ports p).framer.2 (by rw [hr]; decide)
  exact State.Held.replacePort (h.held p (P := Port.Sound) id) rfl (hf.trans hnone.symm)
    ((h.ports p).send.switched rfl rfl rfl rfl hf hst)

theorem State.portPause_conserves : s.Conserves (exec .portPause s) := by
  refine .request fun _ _ p _ h => .ite_fst (fun _ => State.Conserved.grant ?_ _) fun _ => h
  have ha := h.abortReceiving (p := p)
  obtain ⟨hsend, hf, hst⟩ := ha.port
  exact State.Held.replacePort ha rfl rfl (hsend.switched rfl rfl rfl rfl hf (.inl hst))

theorem State.portStop_conserves : s.Conserves (exec .portStop s) :=
  .request fun _ _ p _ h => .ite_fst (fun _ => (h.stopPort p).grant _) fun _ => h

/-! Stores -/

/-- R49. A request that changes a store but for its records. -/
theorem State.Conserved.grantStore (h : s.Conserved) {i : StoreId} {f : Store → Store} {fields : List Byte}
    (hn : (f (s.store i)).names = (s.store i).names) : ((s.modStore i f).grant fields).1.Conserved := h.modStore hn

theorem State.storeConfig_conserves : s.Conserves (exec .storeConfig s) := by
  refine .request fun _ _ a _ h => ?_
  split
  · exact h.grantStore rfl
  · exact h
  · exact h

theorem State.storeOpen_conserves : s.Conserves (exec .storeOpen s) := by
  refine .request fun _ _ i _ h => ?_
  split
  · exact h.grantStore rfl
  · exact h.grantStore rfl
  · exact h
  · exact h

theorem State.storePause_conserves : s.Conserves (exec .storePause s) := by
  refine .request fun _ _ i _ h => ?_
  split
  · exact h.grantStore rfl
  · exact h
  · exact h
  · exact h

theorem State.storeClose_conserves : s.Conserves (exec .storeClose s) := by
  refine .request fun _ _ i _ h => ?_
  split
  · exact .ite_fst (fun _ => h.grantStore rfl) fun _ => h
  · exact .ite_fst (fun _ => h.grantStore rfl) fun _ => h
  · exact h
  · exact h

theorem State.storeRead_conserves : s.Conserves (exec .storeRead s) := by
  refine .request fun _ _ a _ h => .ite_fst (fun _ => h) fun _ => .ite_fst (fun _ => h) fun hd => h.serveRead (fun ht => ?_) _ _
  by_contra hne
  exact hd ⟨ht, hne⟩

theorem State.storeAck_conserves : s.Conserves (exec .storeAck s) := by
  refine .request fun _ _ a _ h => .ite_fst (fun _ => h) fun _ => ?_
  split
  · exact h
  · exact State.Conserved.grant (h.storeDetach ((s.store a.1).names_ack _)) _

theorem State.storePurge_conserves : s.Conserves (exec .storePurge s) :=
  .request fun tag _ i _ h => .ite_fst (fun _ => h) fun _ => .ite_fst (fun _ => h) fun _ => .ite_fst (fun _ => h) fun _ =>
    State.Conserved.judgePurge ((h.modOps fun t => t.accept tag (.purge i 0) s.timebase).modStore
      (f := fun st => { st with prior := some st.state, state := .purging }) rfl) i true

/-! Sending, Record Memory and long operations -/

theorem State.sendCancel_conserves : s.Conserves (exec .sendCancel s) := by
  refine .request fun _ _ id _ h => ?_
  split
  · exact h
  · rename_i p e he
    exact .ite_fst (fun hq => (h.endQueued (State.findEntry_eq_some he) hq _ _ _).grant _) fun _ => h

theorem State.portDrain_conserves : s.Conserves (exec .portDrain s) := by
  refine .request fun tag _ a _ h => .ite_fst (fun _ => h) fun _ => .ite_fst (fun _ => h) fun _ => .ite_fst (fun _ => h) fun _ => ?_
  have hd := State.Conserved.modPort (p := a.1) (f := fun q => { q with draining := true })
    (h.modOps fun t => t.accept tag (.drain a.1 a.2 (1000 * a.2) 0 0) s.timebase) ⟨rfl, rfl, rfl, rfl, rfl⟩
  exact State.Conserved.ite (fun _ => hd.completeDrain _ _ _) fun _ => hd

/-- R44. A walk is accepted with no effect on Record Memory. -/
theorem State.memoryCheck_conserves : s.Conserves (exec .memoryCheck s) :=
  .request fun _ _ _ _ h => .ite_fst (fun _ => h) fun _ => .ite_fst (fun _ => h) fun _ => State.Conserved.pair (h.modOps _)

theorem State.Conserved.setThreshold (h : s.Conserved) {n : Nat} (hn : n ≤ 1023) :
    (s.modMemory fun m => { m with threshold := n, armed := decide (n < m.freeCount) }).Conserved :=
  h.of_memory (h.books.of_desc h.books.sound.cells rfl (fun _ => rfl) hn h.books.sound.lowWater) rfl rfl rfl rfl

theorem State.memoryLowSet_conserves : s.Conserves (exec .memoryLowSet s) := by
  refine .request fun _ _ n hp h => ?_
  simp only [parseMemoryLowSet, except_bind_eq_ok, need_eq_ok, decide_eq_true_eq] at hp
  obtain ⟨-, hle, hn⟩ := hp
  cases hn
  exact (h.setThreshold hle).grant _

theorem State.Conserved.clearGroup (h : s.Conserved) (g : CounterGroup) : (s.clearGroup g).Conserved := by
  cases g <;> simp only [State.clearGroup]
  case port p => exact h.count _
  case store i => exact h.modStore rfl
  case rule r => exact h.keepClassifier rfl rfl
  case link => exact h.modLink _
  case memory =>
    exact h.of_memory (h.books.of_desc h.books.sound.cells rfl (fun _ => rfl) h.books.sound.threshold (Nat.le_refl _)) rfl rfl rfl rfl

theorem State.countersRead_conserves : s.Conserves (exec .countersRead s) :=
  .request fun _ _ a _ h => State.Conserved.grant (.ite (fun _ => h.clearGroup a.1) fun _ => h) _

theorem State.Conserved.cancelOp (h : s.Conserved) (w : OpWork) : (s.cancelOp w).Conserved := by
  cases w <;> simp only [State.cancelOp]
  case purge => exact h.endPurge _ _ _
  case drain => exact h.completeDrain _ _ _
  case check => exact h.modOps _

theorem State.opCancel_conserves : s.Conserves (exec .opCancel s) := by
  refine .request fun _ _ tag _ h => ?_
  split
  · exact h
  · exact .ite_fst (fun _ => (h.cancelOp _).grant _) fun _ => h

theorem RecordMemory.owner_live {m : RecordMemory} {b : BlockId} {d : DescId} (h : m.owner b = some d) :
    (m.desc d).live = true := by
  have := List.find?_some h
  exact (Bool.and_eq_true_iff.mp this).1

/-- R45. The owner of the block examined is LIVE. -/
theorem State.Conserved.examine (h : s.Conserved) (b : BlockId) : (s.examine b).Conserved := by
  simp only [State.examine]
  have hread : (match s.memory.owner b with
      | some d => s.checkBlock d b
      | none => s).Conserved := by
    split
    · rename_i d hd
      obtain ⟨-, -, -, -, -, hc, hs, hp, hn, -⟩ := s.checkBlock_frame d b
      exact h.of_memory (h.books.checkBlock (RecordMemory.owner_live hd) b) hp hs (congrArg Classifier.names hc) hn
    · exact h
  exact .ite (fun _ => (hread.modOps _).modOps _) fun _ => hread.modOps _

theorem State.memoryCheckExamine_conserves : s.Conserves (exec .memoryCheckExamine s) := by
  refine .unlessReset fun h => ?_
  split
  · split
    · exact h.examine _
    · exact h
  · exact h

/-! The other rows -/

/-- R107 to R111. A row of the receive line. -/
theorem State.Conserves.listens {p : PortId} {f : Port → Port} (hf : (s.port p).Alike (f (s.port p))) :
    s.Conserves (s.unlessReset (s.modPort p f)) := .unlessReset fun h => h.modPort hf

theorem Port.receive_alike (q : Port) (c : LowStopChar) (framing : Bool) : q.Alike (q.receive c framing) := by
  simp only [Port.receive]
  (repeat' split) <;> exact ⟨rfl, rfl, rfl, rfl, rfl⟩

theorem Port.Alike.withLine {q q' : Port} (h : q.Alike q') (line : LineState) (quiet : Quiet) :
    q.Alike { q' with line := line, quiet := quiet } := ⟨h.queue, h.tx, h.stopping, h.state, h.framer⟩

theorem Port.Alike.refl (q : Port) : q.Alike q := ⟨rfl, rfl, rfl, rfl, rfl⟩

theorem Port.Alike.ite {c : Prop} [Decidable c] {q a b : Port} (ha : q.Alike a) (hb : q.Alike b) : q.Alike (if c then a else b) := by
  split
  · exact ha
  · exact hb

theorem Port.characterReceived_alike (q : Port) (now : Word) (data : Byte) (parityBit stopHigh : Bool) :
    q.Alike (q.characterReceived now data parityBit stopHigh) := by
  simp only [Port.characterReceived]
  exact .ite (.refl q) (.ite (.withLine (.ite (q.receive_alike _ false) (.refl q)) _ _) (.withLine (.refl q) _ _))

theorem Port.breakDetected_alike (q : Port) (now : Word) : q.Alike (q.breakDetected now) := by
  simp only [Port.breakDetected]
  refine .ite (.refl q) (.ite (.withLine (.refl q) _ _) (.ite ?_ (.ite ?_ ?_))) <;> exact ⟨rfl, rfl, rfl, rfl, rfl⟩

theorem Port.framingErrorEnd_alike (q : Port) : q.Alike q.framingErrorEnd := by
  simp only [Port.framingErrorEnd, Port.enterHeld]
  split
  · refine .ite (.withLine ?_ _ _) (.refl q)
    split
    · exact .ite (q.receive_alike _ true) (.refl q)
    · exact .refl q
  · exact .refl q

theorem Port.breakEnd_alike (q : Port) : q.Alike q.breakEnd := .ite (.withLine (.refl q) _ _) (.refl q)

theorem Port.startBit_alike (q : Port) : q.Alike q.startBit := .ite (.withLine (.refl q) _ _) (.refl q)

theorem State.classificationStart_conserves : s.Conserves (exec .classificationStart s) := by
  refine .unlessReset fun h => ?_
  split
  · exact h.begin ‹_› ‹_›
  · exact h

theorem State.walkVisit_conserves : s.Conserves (exec .walkVisit s) := by
  refine .unlessReset fun h => ?_
  split
  · split
    · exact h.visit ‹_› _ _
    · exact h
  · exact h

theorem State.classificationEnd_conserves : s.Conserves (exec .classificationEnd s) := by
  refine .unlessReset fun h => ?_
  split
  · exact .ite (fun _ => h.endClassification ‹_›) fun _ => h
  · exact h

theorem State.ttlExpiry_conserves (id : Half) : s.Conserves (exec (.ttlExpiry id) s) := by
  refine .unlessReset fun h => ?_
  split
  · exact h
  · rename_i p e he
    refine .ite (fun hx => ?_) fun _ => h
    simp only [SendEntry.expired, Bool.and_eq_true, beq_iff_eq] at hx
    exact h.endQueued (State.findEntry_eq_some he) hx.1 _ _ _

/-- A row of the host link. -/
theorem State.Conserves.links (h : t.memory = s.memory ∧ t.classifier = s.classifier ∧ t.stores = s.stores ∧ t.ports = s.ports ∧
    t.nextSendId = s.nextSendId) : s.Conserves (s.unlessReset t) := by
  obtain ⟨hm, hc, hs, hp, hn⟩ := h
  exact .unlessReset fun hk => hk.of_eq hm hp hs (congrArg Classifier.names hc) hn

theorem State.withPins_conserves (pins : Pins) : s.Conserves (.next { s with pins := pins }) :=
  .next fun h => h.of_eq rfl rfl rfl rfl rfl

theorem State.messageArrival_conserves (items : List HrxItem) : s.Conserves (exec (.messageArrival items) s) := by
  refine .links ?_
  split <;> simp

theorem State.badHeader_conserves (items : List HrxItem) : s.Conserves (exec (.badHeader items) s) := by
  refine .links ?_
  split <;> simp

theorem State.badCrc_conserves (items : List HrxItem) : s.Conserves (exec (.badCrc items) s) := by
  refine .links ?_
  split <;> simp

theorem State.endReply_conserves : s.Conserves (exec .replyEnd s) := by
  refine .unlessReset fun h => ?_
  simp only [State.endReply]
  split
  · split
    · exact h.modLink _
    · exact (h.modLink _).modLink _
    · exact (h.modLink _).modOps _
    · exact s.afterReset_conserved _
  · exact h

end

/-- Every row conserves Record Memory. -/
theorem exec_conserves (i : Instr) (s : State) : s.Conserves (exec i s) := by
  cases i with
  | powerUp rate1 rate0 => exact .next fun _ => State.afterReset_conserved _ _
  | resetAssert => exact State.withPins_conserves _
  | resetRelease => exact .next fun h => .ite (fun _ => State.afterReset_conserved _ _) fun _ => h
  | holdAssert => exact State.withPins_conserves _
  | holdRelease => exact State.withPins_conserves _
  | messageArrival items => exact State.messageArrival_conserves items
  | badHeader items => exact State.badHeader_conserves items
  | badCrc items => exact State.badCrc_conserves items
  | interByteTimeout => exact .links (by split <;> simp)
  | unknownKind => exact .links (by simp)
  | hello => exact .report fun _ _ => rfl
  | ping => exact .report fun _ _ => rfl
  | restart => exact .report fun _ _ => rfl
  | timeGet => exact .report fun _ _ => rfl
  | timeSet => exact .request fun _ _ _ _ h => h.grant_of_eq rfl rfl rfl rfl rfl
  | portConfig => exact State.portConfig_conserves
  | framerConfig => exact State.framerConfig_conserves
  | portStart => exact State.portStart_conserves
  | portPause => exact State.portPause_conserves
  | portResume => exact State.portResume_conserves
  | portStop => exact State.portStop_conserves
  | portReset => exact .request fun _ _ p _ h => (h.resetPort p).grant _
  | portStatus => exact .report fun _ _ => rfl
  | ruleWrite => exact .request fun _ _ _ _ h => h.edit _
  | ruleLink => exact .request fun _ _ _ _ h => h.edit _
  | ruleUnlink => exact .request fun _ _ _ _ h => h.edit _
  | ruleFree => exact .request fun _ _ _ _ h => h.edit _
  | ruleEnable => exact .request fun _ _ _ _ h => h.edit _
  | ruleRead => exact .report fun _ _ => rfl
  | chainList => exact .report fun _ _ => rfl
  | defaultSet => exact .request fun _ _ _ _ h => h.edit _
  | templateWrite => exact .request fun _ _ _ _ h => h.edit _
  | storeConfig => exact State.storeConfig_conserves
  | storeOpen => exact State.storeOpen_conserves
  | storePause => exact State.storePause_conserves
  | storeClose => exact State.storeClose_conserves
  | storeRead => exact State.storeRead_conserves
  | storeAck => exact State.storeAck_conserves
  | storeRewind => exact .request fun _ _ _ _ h => .ite_fst (fun _ => h) fun _ => h.grantStore rfl
  | storeStatus => exact .report fun _ _ => rfl
  | storePurge => exact State.storePurge_conserves
  | purgeRemoval i => exact .unlessReset fun h => .ite (fun _ => h.purgeOne i) fun _ => h
  | send => exact .request fun _ _ _ _ h => h.admitSend _ _ _ _ _ _
  | sendCancel => exact State.sendCancel_conserves
  | sendStatus => exact .report fun _ id => by split <;> rfl
  | portDrain => exact State.portDrain_conserves
  | memoryStatus => exact .report fun _ _ => rfl
  | memoryCheck => exact State.memoryCheck_conserves
  | memoryCheckExamine => exact State.memoryCheckExamine_conserves
  | memoryLowSet => exact State.memoryLowSet_conserves
  | noticeCredit => exact .request fun _ _ _ _ h => h.grant_of_eq rfl rfl rfl rfl rfl
  | noticeMask => exact .request fun _ _ _ _ h => h.grant_of_eq rfl rfl rfl rfl rfl
  | countersRead => exact State.countersRead_conserves
  | countersClear => exact .request fun _ _ g _ h => (h.clearGroup g).grant _
  | opList => exact .report fun _ _ => rfl
  | opCancel => exact State.opCancel_conserves
  | replyBegin => exact .links (by simp)
  | replyEnd => exact State.endReply_conserves
  | completionReportBegin => exact .links (by simp)
  | completionReportEnd => exact .links (by simp)
  | noticeSend => exact .links (by simp)
  | characterReceived p data parityBit stopHigh => exact .listens ((s.port p).characterReceived_alike _ data parityBit stopHigh)
  | breakDetected p => exact .listens ((s.port p).breakDetected_alike _)
  | breakEnd p => exact .listens (s.port p).breakEnd_alike
  | framerTakeItem p => exact .unlessReset fun h => .ite (fun hr => (h.framing hr).takeItem.conserved) fun _ => h
  | quietTimeExpiry p => exact .unlessReset fun h => h.quietExpiry
  | classificationStart => exact State.classificationStart_conserves
  | walkVisit => exact State.walkVisit_conserves
  | classificationEnd => exact State.classificationEnd_conserves
  | selection p => exact s.selection_conserves p
  | sendGapExpiry p => exact .unlessReset fun h => .ite (fun _ => h.modPort ⟨rfl, rfl, rfl, rfl, rfl⟩) fun _ => h
  | turnaroundEnd p => exact s.turnaroundEnd_conserves p
  | characterSent p => exact s.characterSent_conserves p
  | trailingHoldExpiry p => exact s.trailingHoldExpiry_conserves p
  | ttlExpiry id => exact State.ttlExpiry_conserves id
  | drainDeadline p => exact .unlessReset fun h => .ite (fun _ => h.completeDrain _ _ _) fun _ => h
  | startBit p => exact .listens (s.port p).startBit_alike
  | framingErrorEnd p => exact .listens (s.port p).framingErrorEnd_alike

theorem step_conserves (s : State) : s.Conserves (step s) := by
  intro h t ht
  simp only [step] at ht
  split at ht
  · rename_i c rest _
    exact exec_conserves c { s with pending := rest } (h.of_eq rfl rfl rfl rfl rfl) t ht
  · split at ht
    · exact exec_conserves _ s h t ht
    · cases ht
      exact h.tick

/-- Settles O58, from what each row conserves. -/
theorem memoryConserved : Obligations.MemoryConserved := fun s t ht hm hx hp hs hf =>
  t.conserved_iff.mp (step_conserves s (s.conserved_iff.mpr ⟨hm, hx, hp, hs, hf⟩) t ht)

end Sys2Proof.Machine
end

