-- ==== Sys2Proof/Proofs/ValuesAndCounters.lean ====
section
namespace Sys2Proof.Machine

/-! The request bodies that are numbers are read back as the numbers they were written from. -/

theorem num2_le2 {n : Nat} (h : n ≤ 65535) : num2 (le2 n) 0 = n := le2_number h

theorem num4_le4 {n : Nat} (h : n < 4294967296) : num4 (le4 n) 0 = n := by
  have bytes : num4 (le4 n) 0 = (byte1 n).toNat + 256 * (byte1 (n / 256)).toNat
      + 65536 * ((byte1 (n / 65536)).toNat + 256 * (byte1 (n / 16777216)).toNat) := rfl
  simp only [bytes, byte1_toNat]
  omega

theorem parseTimeSet_le4 (v : Word) : parseTimeSet (le4 v.toNat) = .ok v := by
  simp [parseTimeSet, num4_le4 v.isLt]

theorem parseMemoryLowSet_le2 {n : Nat} (h : n ≤ 65535) :
    parseMemoryLowSet (le2 n) = if n ≤ 1023 then .ok n else .error 1 := by
  by_cases hn : n ≤ 1023 <;> simp [parseMemoryLowSet, num2_le2 h, hn, need, bind, Except.bind]

theorem parseNoticeCredit_body (n : Byte) :
    parseNoticeCredit [n] = if n.toNat ≤ 64 then .ok n.toNat else .error 1 := by
  by_cases hn : n.toNat ≤ 64 <;> simp [parseNoticeCredit, hn, need, bind, Except.bind]

theorem parseNoticeMask_le2 (v : Half) :
    parseNoticeMask (le2 v.toNat) = if v.toNat < 512 then .ok v else .error 1 := by
  have hv : v.toNat ≤ 65535 := Nat.le_of_lt_succ v.isLt
  by_cases hn : v.toNat < 512 <;> simp [parseNoticeMask, num2_le2 hv, hn, need, bind, Except.bind]

/-- Settles O15: each body is read back as its number, which the request sets when it is in range. -/
theorem valueRequestsSet : Obligations.ValueRequestsSet := by
  intro s tag rest
  refine ⟨fun v hw => ?_, fun n hn hw => ⟨fun h => ?_, fun h => ?_⟩, fun n hw => ⟨fun h => ?_, fun h => ?_⟩,
    fun v hw => ⟨fun h => ?_, fun h => ?_⟩⟩
  · exact State.execRequest_ok hw rfl (parseTimeSet_le4 v) rfl
  · exact State.execRequest_ok hw rfl ((parseMemoryLowSet_le2 hn).trans (if_pos h)) rfl
  · exact State.execRequest_badParam hw rfl ((parseMemoryLowSet_le2 hn).trans (if_neg (by omega)))
  · exact State.execRequest_ok hw rfl ((parseNoticeCredit_body n).trans (if_pos h)) rfl
  · exact State.execRequest_badParam hw rfl ((parseNoticeCredit_body n).trans (if_neg (by omega)))
  · exact State.execRequest_ok hw rfl ((parseNoticeMask_le2 v).trans (if_pos h)) rfl
  · exact State.execRequest_badParam hw rfl ((parseNoticeMask_le2 v).trans (if_neg (by omega)))

/-! The counter groups. -/

theorem CounterGroup.body_eq (g : CounterGroup) : g.body = [g.code, g.index] := by cases g <;> rfl

theorem parseGroup_codes (g : CounterGroup) : parseGroup g.code.toNat g.index.toNat = .ok g := by
  cases g <;> simp [CounterGroup.code, CounterGroup.index, parseGroup, need]

theorem parseCountersClear_body (g : CounterGroup) : parseCountersClear g.body = .ok g := by
  rw [g.body_eq]
  exact parseGroup_codes g

theorem parseCountersRead_body (g : CounterGroup) (clear : Bool) :
    parseCountersRead (g.body ++ [yesNo clear]) = .ok (g, clear) := by
  have parsed : parseCountersRead (g.body ++ [yesNo clear])
      = (do let g ← parseGroup g.code.toNat g.index.toNat; let c ← fieldYesNo 3 (yesNo clear); .ok (g, c)) := by
    rw [g.body_eq]; rfl
  rw [parsed, parseGroup_codes, fieldYesNo_yesNo]; rfl

theorem State.execCountersRead_waiting {s : State} {tag : Byte} {rest : List Message} {g : CounterGroup} (clear : Bool)
    (hw : s.Waiting .countersRead tag (g.body ++ [yesNo clear]) rest) :
    execCountersRead s = .next ((if clear then s.clearGroup g else s).replied .countersRead tag rest .ok
      (g.body ++ s.groupBytes g)) := by
  refine State.execRequest_ok hw ?_ (parseCountersRead_body g clear) (by rw [g.body_eq]; rfl)
  rw [g.body_eq]; rfl

theorem State.execCountersClear_waiting {s : State} {tag : Byte} {rest : List Message} {g : CounterGroup}
    (hw : s.Waiting .countersClear tag g.body rest) :
    execCountersClear s = .next ((s.clearGroup g).replied .countersClear tag rest .ok []) := by
  refine State.execRequest_ok hw ?_ (parseCountersClear_body g) rfl
  rw [g.body_eq]; rfl

/-- Settles O46: a group is read as the bytes of its counters in the order of its table, and cleared as a whole. -/
theorem countersReadAndCleared : Obligations.CountersReadAndCleared := by
  intro s tag rest g values cleared
  have hvalues : s.groupBytes g = values := by cases g <;> rfl
  have hcleared : s.clearGroup g = cleared := by cases g <;> rfl
  rw [← hvalues, ← hcleared]
  exact ⟨State.execCountersRead_waiting false, State.execCountersRead_waiting true, State.execCountersClear_waiting⟩

end Sys2Proof.Machine
end

