-- ==== Sys2Proof/Proofs/Cancelled.lean ====
section
namespace Sys2Proof.Machine

/-! ### One operation of the table -/

/-- R163. The tag tells an operation from the others. -/
theorem OpTable.Sound.eq_of_tag {t : OpTable} (h : t.Sound) {x e : OpEntry} (hx : x ∈ t.entries) (he : e ∈ t.entries)
    (ht : x.tag = e.tag) : x = e := List.inj_on_of_nodup_map h.tags hx he ht

/-- R163. So does what it works on. -/
theorem OpTable.Sound.eq_of_target {t : OpTable} (h : t.Sound) {x e : OpEntry} (hx : x ∈ t.entries) (he : e ∈ t.entries)
    (hw : (x.work.code, x.work.target) = (e.work.code, e.work.target)) : x = e :=
  List.inj_on_of_nodup_map h.targets hx he hw

theorem OpTable.Sound.find_tag {t : OpTable} (h : t.Sound) {e : OpEntry} (he : e ∈ t.entries) :
    (t.entries.find? fun x => x.tag == e.tag) = some e := by
  obtain ⟨x, hx⟩ := Option.isSome_iff_exists.mp
    (List.find?_isSome.mpr ⟨e, he, beq_self_eq_true e.tag⟩ : (t.entries.find? fun x => x.tag == e.tag).isSome = true)
  rw [hx, h.eq_of_tag (List.mem_of_find?_eq_some hx) he (by simpa using List.find?_some hx)]

theorem OpTable.find_tag_none {t : OpTable} {tag : Byte} (h : tag ∉ t.entries.map (·.tag)) :
    (t.entries.find? fun x => x.tag == tag) = none := by
  refine List.find?_eq_none.mpr fun x hx hxt => h (List.mem_map.mpr ⟨x, hx, by simpa using hxt⟩)

/-- `sel` picks the work of the entry `e`, and of what works on the same target alone. -/
structure OpEntry.PickedBy (e : OpEntry) (sel : OpWork → Bool) : Prop where
  running : e.status = none
  picked : sel e.work = true
  target : ∀ w, sel w = true → (w.code, w.target) = (e.work.code, e.work.target)

theorem OpEntry.PickedBy.running_eq {e : OpEntry} {sel : OpWork → Bool} (hp : e.PickedBy sel) :
    (e.running && sel e.work) = true := by
  simp [OpEntry.running, hp.running, hp.picked]

/-- R163. A pick of one target picks, of the RUNNING operations, the one with its tag. -/
theorem OpTable.Sound.picks {t : OpTable} (h : t.Sound) {e x : OpEntry} {sel : OpWork → Bool} (he : e ∈ t.entries)
    (hp : e.PickedBy sel) (hx : x ∈ t.entries) : (x.running && sel x.work) = true ↔ x.tag = e.tag := by
  refine ⟨fun hsel => ?_, fun ht => ?_⟩
  · rw [h.eq_of_target hx he (hp.target _ (Bool.and_eq_true_iff.mp hsel).2)]
  · rw [h.eq_of_tag hx he ht]
    exact hp.running_eq

theorem OpTable.Sound.picked_tags {t : OpTable} (h : t.Sound) {e : OpEntry} {sel : OpWork → Bool} (he : e ∈ t.entries)
    (hp : e.PickedBy sel) : (t.entries.filter fun x => x.running && sel x.work).map (·.tag) = [e.tag] := by
  have bytag : (t.entries.filter fun x => x.running && sel x.work) = t.entries.filter fun x => x.tag == e.tag :=
    List.filter_congr fun x hx => Bool.eq_iff_iff.mpr ((h.picks he hp hx).trans beq_iff_eq.symm)
  rw [bytag, show (fun x : OpEntry => x.tag == e.tag) = (· == e.tag) ∘ (·.tag) from rfl, ← List.filter_map,
    List.filter_beq, List.count_eq_one_of_mem h.tags (List.mem_map_of_mem he)]
  rfl

/-- R164. The one operation that is picked ends, its work left as `work`. -/
def OpTable.ended (t : OpTable) (tag : Byte) (work : OpWork) (status : OpStatus) (byRequest : Bool) : OpTable where
  entries := t.entries.map fun x =>
    if x.tag = tag then { x with work := work, status := some status, replyPending := byRequest } else x
  completed := t.completed ++ [tag]

theorem OpTable.Sound.complete_progress {t : OpTable} (h : t.Sound) {e : OpEntry} {sel : OpWork → Bool}
    (he : e ∈ t.entries) (hp : e.PickedBy sel) {f : OpWork → OpWork} (hf : ∀ w, sel (f w) = sel w) (status : OpStatus)
    (byRequest : Bool) :
    (t.progress sel f).complete sel status byRequest = t.ended e.tag (f e.work) status byRequest := by
  have hentries : ((t.progress sel f).complete sel status byRequest).entries
      = (t.ended e.tag (f e.work) status byRequest).entries := by
    rw [OpTable.complete_progress_entries t hf]
    refine List.map_congr_left fun x hx => ?_
    by_cases ht : x.tag = e.tag
    · rw [if_pos ((h.picks he hp hx).mpr ht), if_pos ht, h.eq_of_tag hx he ht]
    · rw [if_neg (mt (h.picks he hp hx).mp ht), if_neg ht]
  have hcompleted : ((t.progress sel f).complete sel status byRequest).completed = t.completed ++ [e.tag] := by
    rw [OpTable.complete_progress_completed t hf, h.picked_tags he hp]
  exact congrArg₂ OpTable.mk hentries hcompleted

theorem OpTable.progress_id (t : OpTable) (sel : OpWork → Bool) : t.progress sel (fun w => w) = t := by
  simp [OpTable.progress]

theorem OpTable.Sound.complete {t : OpTable} (h : t.Sound) {e : OpEntry} {sel : OpWork → Bool}
    (he : e ∈ t.entries) (hp : e.PickedBy sel) (status : OpStatus) (byRequest : Bool) :
    t.complete sel status byRequest = t.ended e.tag e.work status byRequest := by
  simpa only [OpTable.progress_id] using h.complete_progress he hp (f := fun w => w) (fun _ => rfl) status byRequest

/-- R164. The reply clears the reply pending marks, so that which of them were set makes no difference. -/
theorem State.replied_ended (u : State) (t : OpTable) (k : Kind) (tag : Byte) (rest : List Message) (status : Status)
    (fields : List Byte) (e : Byte) (work : OpWork) (x : OpStatus) :
    ({ u with ops := t.ended e work x true }).replied k tag rest status fields
      = ({ u with ops := t.ended e work x false }).replied k tag rest status fields := by
  simp only [State.replied, OpTable.ended, List.map_map, Function.comp_def, apply_ite OpEntry.tag]
  congr 2
  refine List.map_congr_left fun y _ => ?_
  split <;> rfl

theorem State.execOpCancel_waiting {s u : State} {tag t : Byte} {rest : List Message} {status : Status} (ht : t ≠ 0)
    (hw : s.Waiting .opCancel tag [t] rest)
    (ha : (match s.ops.entries.find? fun e => e.tag == t with
      | none => s.deny .notFound
      | some e => if e.running then (s.cancelOp e.work).grant [] else s.deny .tooLate) = (u, .reply status [])) :
    execOpCancel s = .next (u.replied .opCancel tag rest status []) := by
  refine State.execRequest_ok hw rfl (a := t) ?_ ha
  have hb : (t != 0) = true := bne_iff_ne.mpr ht
  rw [parseOpCancel, byteAt_cons_zero, hb]; rfl

/-- R168. OP_CANCEL of a RUNNING operation. -/
theorem State.execOpCancel_running {s : State} {tag : Byte} {rest : List Message} {e : OpEntry} (h : s.ops.Sound)
    (he : e ∈ s.ops.entries) (hr : e.status = none) (ht : e.tag ≠ 0) (hw : s.Waiting .opCancel tag [e.tag] rest) :
    execOpCancel s = .next ((s.cancelOp e.work).replied .opCancel tag rest .ok []) := by
  refine State.execOpCancel_waiting ht hw ?_
  rw [h.find_tag he]
  exact if_pos (by simp [OpEntry.running, hr])

/-- Settles O47: a RUNNING operation is the only one that works on its target, so it alone ends CANCELLED. -/
theorem operationCancelled : Obligations.OperationCancelled := by
  intro s tag t rest h ht hw
  refine ⟨fun hn => ?_, fun e he het hs => ?_, fun e he het hs => ⟨fun i n hwork => ?_,
    fun p deadline micros n remaining hwork => ?_, fun next checked failing hwork => ?_⟩⟩
  · refine State.execOpCancel_waiting ht hw ?_
    rw [OpTable.find_tag_none hn]
    rfl
  · subst het
    refine State.execOpCancel_waiting ht hw ?_
    rw [h.find_tag he]
    exact if_neg (by simpa [OpEntry.running] using hs)
  all_goals subst het; refine (State.execOpCancel_running h he hs ht hw).trans (congrArg Host.Outcome.next ?_)
  · have hp : e.PickedBy (·.isPurgeOf i) := ⟨hs, by simp [hwork, OpWork.isPurgeOf], fun w hsel => by
      cases w <;> simp_all [OpWork.isPurgeOf, OpWork.code, OpWork.target]⟩
    have hc : s.cancelOp e.work = { s.modStore i fun st => { st with state := st.prior.getD st.state, prior := none } with
        ops := s.ops.ended e.tag e.work .cancelled true } := by
      rw [← h.complete he hp, hwork]; rfl
    rw [hc, State.replied_ended]
    rfl
  · have hp : e.PickedBy (·.isDrainOf p) := ⟨hs, by simp [hwork, OpWork.isDrainOf], fun w hsel => by
      cases w <;> simp_all [OpWork.isDrainOf, OpWork.code, OpWork.target]⟩
    have hc : s.cancelOp e.work = { s.modPort p fun q => { q with draining := false } with
        ops := s.ops.ended e.tag (.drain p deadline micros n (s.port p).queue.length) .cancelled true } := by
      have hd := h.complete_progress he hp (f := fun w => match w with
        | .drain port deadline left sent _ => .drain port deadline left sent (s.port p).queue.length
        | w => w) (fun w => by cases w <;> rfl) .cancelled true
      rw [hwork] at hd ⊢
      rw [← hd]; rfl
    rw [hc, State.replied_ended]
    rfl
  · have hp : e.PickedBy (·.isCheck) := ⟨hs, by simp [hwork, OpWork.isCheck], fun w hsel => by
      cases w <;> simp_all [OpWork.isCheck, OpWork.code, OpWork.target]⟩
    have hc : s.cancelOp e.work = { s with ops := s.ops.ended e.tag e.work .cancelled true } := by
      rw [← h.complete he hp, hwork]; rfl
    rw [hc, State.replied_ended]
    rfl

end Sys2Proof.Machine
end

