-- ==== Sys2Proof/Proofs/MemoryWalk.lean ====
section
namespace Sys2Proof.Machine

/-! ### The owner of a block -/

/-- R31. The owner of a block is the descriptor with the block in its chain. -/
theorem RecordMemory.Sound.owner_eq {m : RecordMemory} (h : m.Sound) {d : DescId} {b : BlockId}
    (hb : b ∈ (m.desc d).chain) : m.owner b = some d := by
  have hlive : (m.desc d).live = true := by
    by_contra hn
    rw [h.of_not_live (by simpa using hn)] at hb
    exact absurd hb List.not_mem_nil
  have hsome : (m.owner b).isSome = true :=
    List.find?_isSome.mpr ⟨d, List.mem_finRange d, by simp [hlive, hb]⟩
  obtain ⟨e, he⟩ := Option.isSome_iff_exists.mp hsome
  have howns := List.find?_some he
  have hc : (m.desc e).chain.contains b = true := (Bool.and_eq_true_iff.mp howns).2
  rw [he, h.chain_unique (List.contains_iff_mem.mp hc) hb]

theorem RecordMemory.owner_free {m : RecordMemory} {b : BlockId} (hb : ∀ d, b ∉ (m.desc d).chain) : m.owner b = none :=
  List.find?_eq_none.mpr fun d _ => by simp [hb d]

/-! ### The walk of MEMORY_CHECK -/

/-- The one operation of the table that `sel` picks stands between the others and is RUNNING. -/
structure OpTable.Picks (t : OpTable) (sel : OpWork → Bool) (before : List OpEntry) (e : OpEntry)
    (after : List OpEntry) : Prop where
  entries : t.entries = before ++ e :: after
  running : e.status = none
  picked : sel e.work = true
  others : ∀ x ∈ before ++ after, sel x.work = false

section
variable {t : OpTable} {sel : OpWork → Bool} {before after : List OpEntry} {e : OpEntry}

theorem OpTable.Picks.map (h : t.Picks sel before e after) (g : OpEntry → OpEntry) :
    (t.entries.map fun x => if x.running && sel x.work then g x else x) = before ++ g e :: after := by
  have keep : ∀ l : List OpEntry, (∀ x ∈ l, sel x.work = false) →
      (l.map fun x => if x.running && sel x.work then g x else x) = l := fun l hl =>
    (List.map_congr_left fun x hx => by simp [hl x hx]).trans (List.map_id l)
  rw [h.entries, List.map_append, List.map_cons, keep before fun x hx => h.others x (List.mem_append_left _ hx),
    keep after fun x hx => h.others x (List.mem_append_right _ hx), if_pos (by simp [OpEntry.running, h.running, h.picked])]

theorem OpTable.Picks.filter (h : t.Picks sel before e after) :
    (t.entries.filter fun x => x.running && sel x.work) = [e] := by
  have none : ∀ l : List OpEntry, (∀ x ∈ l, sel x.work = false) → (l.filter fun x => x.running && sel x.work) = [] :=
    fun l hl => List.filter_eq_nil_iff.mpr fun x hx => by simp [hl x hx]
  rw [h.entries, List.filter_append, List.filter_cons_of_pos (by simp [OpEntry.running, h.running, h.picked]),
    none before fun x hx => h.others x (List.mem_append_left _ hx),
    none after fun x hx => h.others x (List.mem_append_right _ hx)]
  rfl

theorem OpTable.Picks.progress (h : t.Picks sel before e after) (f : OpWork → OpWork) :
    t.progress sel f = { t with entries := before ++ { e with work := f e.work } :: after } :=
  congrArg (OpTable.mk · t.completed) (h.map fun x => { x with work := f x.work })

theorem OpTable.Picks.complete_progress (h : t.Picks sel before e after) {f : OpWork → OpWork}
    (hf : ∀ w, sel (f w) = sel w) (status : OpStatus) (byRequest : Bool) :
    (t.progress sel f).complete sel status byRequest =
      ⟨before ++ { e with work := f e.work, status := some status, replyPending := byRequest } :: after,
        t.completed ++ [e.tag]⟩ := by
  have hcompleted := OpTable.complete_progress_completed t hf status byRequest
  rw [h.filter] at hcompleted
  exact congrArg₂ OpTable.mk ((OpTable.complete_progress_entries t hf status byRequest).trans (h.map _)) hcompleted

end

theorem OpWork.isCheck_advanceWalk (w : OpWork) (inUse failed : Bool) : (w.advanceWalk inUse failed).isCheck = w.isCheck := by
  cases w <;> rfl

/-- R45. Without a RUNNING walk there is no index to examine. -/
theorem OpTable.walkIndex_none {t : OpTable} (h : ∀ e ∈ t.entries, e.status = none → e.work.isCheck = false) :
    t.walkIndex = none := by
  refine List.findSome?_eq_none_iff.mpr fun e he => ?_
  have hc := h e he
  obtain ⟨tag, work, _ | status, start, acceptedSent, replyPending⟩ := e
  · cases work with
    | purge | drain => rfl
    | check => exact absurd (hc rfl) (by simp [OpWork.isCheck])
  · rfl

theorem OpTable.Picks.walkIndex {t : OpTable} {before after : List OpEntry} {e : OpEntry}
    (h : t.Picks (·.isCheck) before e after) {next checked failing : Nat} (hw : e.work = .check next checked failing) :
    t.walkIndex = some next := by
  have hbefore : OpTable.walkIndex ⟨before, []⟩ = none := OpTable.walkIndex_none fun x hx _ =>
    h.others x (List.mem_append_left _ hx)
  have happend : t.walkIndex = (OpTable.walkIndex ⟨before, []⟩).or (OpTable.walkIndex ⟨e :: after, []⟩) := by
    rw [OpTable.walkIndex, h.entries, List.findSome?_append]
    rfl
  rw [happend, hbefore, Option.none_or, OpTable.walkIndex, List.findSome?_cons]
  simp [OpEntry.running, h.running, hw]

/-- R45. The table after an examination: the walk has moved on, and is DONE after the last index. -/
def OpTable.examined (t : OpTable) (before : List OpEntry) (e : OpEntry) (after : List OpEntry) (last inUse failed : Bool) :
    OpTable where
  entries := before ++ { e with
    work := e.work.advanceWalk inUse failed
    status := if last then some .done else none
    replyPending := if last then false else e.replyPending } :: after
  completed := t.completed ++ if last then [e.tag] else []

/-- R45. The read of the block examined, by its owner. -/
def State.readOwned (s : State) (owner : Option DescId) (b : BlockId) : State :=
  match owner with
  | some d => s.checkBlock d b
  | none => s

theorem State.readOwned_ops (s : State) (owner : Option DescId) (b : BlockId) : (s.readOwned owner b).ops = s.ops := by
  cases owner <;> simp [State.readOwned]

/-- R45, R46. What an examination does: the read of the block by its owner, and the step of the walk. -/
theorem State.examine_eq {s : State} {before after : List OpEntry} {e : OpEntry}
    (h : s.ops.Picks (·.isCheck) before e after) (b : BlockId) :
    let owner := s.memory.owner b
    s.examine b = { s.readOwned owner b with
      ops := s.ops.examined before e after (decide (b.val = 1023)) owner.isSome
        (owner.isSome && s.memory.bad.contains b.val) } := by
  intro owner
  let walk := s.ops.progress (·.isCheck) fun w => w.advanceWalk owner.isSome (owner.isSome && s.memory.bad.contains b.val)
  have hx : s.examine b = if b.val + 1 = 1024 then { s.readOwned owner b with ops := walk.complete (·.isCheck) .done false }
      else { s.readOwned owner b with ops := walk } := by
    simp only [walk, ← s.readOwned_ops owner b]
    rfl
  by_cases hl : b.val = 1023
  · rw [hx, if_pos (by omega), h.complete_progress (OpWork.isCheck_advanceWalk · _ _)]
    simp [OpTable.examined, hl]
  · rw [hx, if_neg (by omega), show walk = _ from h.progress _]
    simp [OpTable.examined, hl, h.running]

/-- Settles O38: the checks of MEMORY_CHECK in their order, and the walk's one step for a free block and for one in use. -/
theorem memoryCheckWalks : Obligations.MemoryCheckWalks := by
  intro s
  refine ⟨?_, fun hr hn => ?_, ?_⟩
  · intro tag rest hw inUse
    refine ⟨fun hin => ?_, fun hin hfull => ?_, fun hin hroom => ?_⟩
    · have hholds : s.ops.holds (·.isCheck) = true := by simpa [OpTable.holds] using hin
      exact State.execRequest_ok hw rfl rfl (if_pos hholds)
    · have hholds : ¬ s.ops.holds (·.isCheck) = true := by simpa [OpTable.holds, inUse] using hin
      exact State.execRequest_ok hw rfl rfl ((if_neg hholds).trans (if_pos (by simpa [OpTable.full] using hfull)))
    · have hholds : ¬ s.ops.holds (·.isCheck) = true := by simpa [OpTable.holds, inUse] using hin
      have hfull : ¬ s.ops.full = true := by simpa [OpTable.full] using hroom
      exact State.execRequest_ok hw rfl rfl ((if_neg hholds).trans (if_neg hfull))
  · simp only [exec, execMemoryCheckExamine, State.unlessReset_running hr, OpTable.walkIndex_none hn]
  · intro before after e next checked failing hr hentries hothers hstatus hwork b hb last walked
    have h : s.ops.Picks (·.isCheck) before e after := ⟨hentries, hstatus, by simp [hwork, OpWork.isCheck], hothers⟩
    have hx : exec .memoryCheckExamine s = .next (s.examine b) := by
      simp only [exec, execMemoryCheckExamine, State.unlessReset_running hr, h.walkIndex hwork]
      subst hb
      rw [dif_pos b.isLt]
    have hwalked : ∀ inUse failed, s.ops.examined before e after (decide (b.val = 1023)) inUse failed
        = walked inUse failed := fun inUse failed => by
      simp only [OpTable.examined, hwork, OpWork.advanceWalk, hb]
      rfl
    refine ⟨fun hfree => ?_, fun d hs hd => ?_⟩
    · rw [hx, State.examine_eq h, RecordMemory.owner_free hfree, hwalked]
      rfl
    · rw [hx, State.examine_eq h, hs.owner_eq hd, hwalked]
      simp [List.contains_eq_mem, State.readOwned]

end Sys2Proof.Machine
end

