-- ==== Sys2Proof/Proofs/SendAdmission.lean ====
section
namespace Sys2Proof.Machine

theorem le2_bytes (n : Nat) : le2 n = [byte1 n, byte1 (n / 256)] := rfl

theorem parseSend_body (p : PortId) (cls : Fin 4) {ttl : Nat} (h : ttl ≤ 65535) (report : Bool) (data : List Byte) :
    parseSend (sendBody p cls ttl report data) = .ok (p, cls, ttl, report, data) := by
  simp [parseSend, sendBody, le2_bytes, fieldBelow_idByte, fieldYesNo_yesNo, num2, le2_number h]

/-- R120. What SEND does with its fields in range. -/
theorem State.execSend_waiting {s u : State} {tag : Byte} {rest : List Message} {p : PortId} {cls : Fin 4} {ttl : Nat}
    {report : Bool} {data : List Byte} {status : Status} {fields : List Byte} (hd : 1 ≤ data.length) (hn : data.length ≤ 1024)
    (ht : ttl ≤ 65535) (hw : s.Waiting .send tag (sendBody p cls ttl report data) rest)
    (ha : s.admitSend tag p cls ttl report data = (u, .reply status fields)) :
    execSend s = .next (u.replied .send tag rest status fields) := by
  refine State.execRequest_ok hw ?_ (parseSend_body p cls ht report data) ha
  simp [lengthAllowed, sendBody, le2_bytes]
  omega

theorem State.admitSend_refused {s : State} {p : PortId} {cause : Status} (h : s.admissionCause p = some cause)
    (tag : Byte) (cls : Fin 4) (ttl : Nat) (report : Bool) (data : List Byte) :
    s.admitSend tag p cls ttl report data = s.deny cause := by
  simp only [State.admitSend, h]

theorem State.admitSend_noMemory {s t : State} {p : PortId} {data : List Byte} (h : s.admissionCause p = none)
    (hf : s.fill data = (none, t)) (tag : Byte) (cls : Fin 4) (ttl : Nat) (report : Bool) :
    s.admitSend tag p cls ttl report data = t.deny .noMemory := by
  simp only [State.admitSend, h, hf]

/-- R118, R119. The entry of an admitted SEND joins the queue of the state that the fill has left. -/
theorem State.admitSend_joins {s t : State} {p : PortId} {d : DescId} {data : List Byte} (h : s.admissionCause p = none)
    (hf : s.fill data = (some d, t)) (tag : Byte) (cls : Fin 4) (ttl : Nat) (report : Bool) :
    ∃ n ≤ 47, (∀ m < n, nextId^[m] s.nextSendId ∈ s.entries.map (·.id)) ∧
      nextId^[n] s.nextSendId ∉ s.entries.map (·.id) ∧
      s.admitSend tag p cls ttl report data =
        ({ t.modPort p fun q => { q with queue := q.queue ++ [⟨nextId^[n] s.nextSendId, .host, cls, d,
            if ttl = 0 then none else some (1000 * ttl), s.timebase, report, some tag, .queued, 0⟩] } with
          nextSendId := nextId (nextId^[n] s.nextSendId) }, .reply .ok (le2 (nextId^[n] s.nextSendId).toNat)) := by
  obtain ⟨-, -, htime, -, -, -, -, hports, hid, -⟩ := s.fill_frame data
  rw [hf] at htime hports hid
  have hentries : t.entries = s.entries := congrArg (fun v => v.toList.flatMap (·.queue)) hports
  obtain ⟨n, hn, hlive, hfree, he⟩ := State.makeEntry_joins (s := t) (p := p)
    (hentries ▸ State.entries_lt_of_admissionCause h) .host cls ttl d report (some tag)
  rw [hentries, hid] at hlive hfree
  rw [hid, htime] at he
  refine ⟨n, hn, hlive, hfree, ?_⟩
  simp only [State.admitSend, h, hf, he]
  rfl

/-- Settles O39: the admission checks, then the fill, then the entry made. -/
theorem sendAdmitted : Obligations.SendAdmitted := by
  intro s tag rest p cls ttl report data hd hn ht hw q refused canSend room next
  have done {u : State} {status : Status} {fields : List Byte}
      (ha : s.admitSend tag p cls ttl report data = (u, .reply status fields)) :
      exec .send s = .next (u.replied .send tag rest status fields) := State.execSend_waiting hd hn ht hw ha
  have hcause := s.admissionCause_eq p
  have admitted (hc : canSend) (hdr : q.draining = false) (hr : room) : s.admissionCause p = none := by
    rw [hcause, if_neg (by simpa [canSend, or_iff_not_imp_left] using hc), if_neg (by simpa using hdr),
      if_neg (by obtain ⟨h1, h2⟩ := hr; simp only [q] at h1; omega)]
  refine ⟨fun hc => ?_, fun hc hdr => ?_, fun hc hdr hr => ?_, fun hc hdr hr hlive => ?_, fun hc hdr hr hfree hb => ?_,
    fun hc hdr hr hfree hb => ?_⟩
  · refine done (State.admitSend_refused ?_ ..)
    rw [hcause, if_pos (by simpa [canSend, not_or] using hc)]
  · refine done (State.admitSend_refused ?_ ..)
    rw [hcause, if_neg (by simpa [canSend, or_iff_not_imp_left] using hc), if_pos hdr]
  · refine done (State.admitSend_refused ?_ ..)
    rw [hcause, if_neg (by simpa [canSend, or_iff_not_imp_left] using hc), if_neg (by simpa using hdr),
      if_pos (by by_contra hx; exact hr ⟨by simp only [q]; omega, by omega⟩)]
  · exact done (State.admitSend_noMemory (admitted hc hdr hr) (State.fill_noDescriptor hlive data) ..)
  · exact done (State.admitSend_noMemory (admitted hc hdr hr) (State.fill_noBlock hfree hb) ..)
  · obtain ⟨d, hlow⟩ := RecordMemory.lowestFree_isSome hfree
    have hf : s.fill data = (some d, (s.fill data).2) := Prod.ext (State.fill_some hlow hb) rfl
    obtain ⟨n, hn, hlive, hnot, ha⟩ := State.admitSend_joins (admitted hc hdr hr) hf tag cls ttl report
    exact ⟨d, _, n, hf, hn, hlive, hnot, done ha⟩

end Sys2Proof.Machine
end

