-- ==== Sys2Proof/Proofs/FrameClose.lean ====
section
namespace Sys2Proof.Machine

section
variable {s : State} {p : PortId} {a : Assembly}

theorem State.finishClose_rejected (h : (s.port p).framer.frame = some a)
    (hr : a.flags.charError = true ∧ (s.port p).framer.settings.charError = .discard) (close : Word) :
    s.finishClose p close = s.discardFrame p .charError := by
  simp only [State.finishClose, State.framer, h]
  exact if_pos hr

theorem State.finishClose_empty (h : (s.port p).framer.frame = some a)
    (hr : ¬ (a.flags.charError = true ∧ (s.port p).framer.settings.charError = .discard))
    (hn : (s.memory.desc a.desc).length = 0) (close : Word) :
    s.finishClose p close = (s.modPort p fun q => { q with
      framer := { q.framer with frame := none }
      counters := { q.counters with empty := sat32 (q.counters.empty + 1) } }).release a.desc := by
  simp only [State.finishClose, State.framer, h, if_neg hr, if_pos hn, State.dropFrame, State.count, State.modFramer,
    State.modPort_release, State.modPort_modPort]

theorem State.finishClose_completes (h : (s.port p).framer.frame = some a)
    (hr : ¬ (a.flags.charError = true ∧ (s.port p).framer.settings.charError = .discard))
    (hn : (s.memory.desc a.desc).length ≠ 0) (close : Word) : s.finishClose p close = s.completeFrame p a close := by
  simp only [State.finishClose, State.framer, h, if_neg hr, if_neg hn]

theorem State.completeFrame_joins (hq : s.classifier.queue.length < 8) (close : Word) :
    s.completeFrame p a close = (s.modPort p (·.frameCompleted)).modClassifier fun c => { c with
      queue := c.queue ++ [⟨p, a.desc, (s.memory.desc a.desc).length, a.flags, a.arrival, close⟩] } :=
  (s.completeFrame_eq p a close).trans (if_pos hq)

theorem State.completeFrame_lost (hq : 8 ≤ s.classifier.queue.length) (close : Word) :
    s.completeFrame p a close = ((s.modPort p fun q => { q.frameCompleted with
      counters := { q.frameCompleted.counters with lost := sat32 (q.counters.lost + 1) } }).release a.desc).raise
        .frameLost p.val .none := by
  rw [State.completeFrame_eq, if_neg (Nat.not_lt.mpr hq), State.count, State.modPort_release, State.modPort_modPort]
  rfl

/-- R93. The truncation of a frame by a held character, as one change of the port. -/
theorem State.truncateFrame_eq (s : State) (p : PortId) : s.truncateFrame p = s.modPort p fun q => { q with
      framer := { q.framer with
        held := []
        frame := q.framer.frame.map fun a => { a with flags := { a.flags with truncated := true } } }
      counters := { q.counters with truncated := sat32 (q.counters.truncated + 1) } } := by
  simp only [State.truncateFrame, State.flagFrame, State.modFramer, State.count, State.modPort_modPort]

/-! R93, step 2. The close of an incomplete frame that is kept, by what became of its held characters. -/

theorem State.closeFrame_heldStored {u : State} (hk : (s.port p).framer.settings.incomplete = .keep)
    (hr : s.storeSeq p ((s.port p).framer.held.map (·.value)) = (.stored, u)) (brk : Bool) (close : Word) :
    s.closeFrame p (.incomplete brk) close = (u.flagIncomplete p brk).finishClose p close := by
  simp only [State.closeFrame, State.framer, hk, hr]

theorem State.closeFrame_heldNoBlock {u : State} (hk : (s.port p).framer.settings.incomplete = .keep)
    (hr : s.storeSeq p ((s.port p).framer.held.map (·.value)) = (.noBlock, u)) (brk : Bool) (close : Word) :
    s.closeFrame p (.incomplete brk) close = u.discardFrame p .noMemory := by
  simp only [State.closeFrame, State.framer, hk, hr]

theorem State.closeFrame_heldTooLong {u : State} (hk : (s.port p).framer.settings.incomplete = .keep)
    (hr : s.storeSeq p ((s.port p).framer.held.map (·.value)) = (.tooLong, u)) (brk : Bool) (close : Word) :
    s.closeFrame p (.incomplete brk) close =
      if (s.port p).framer.settings.tooLong = .truncate then
        ((u.truncateFrame p).flagIncomplete p brk).finishClose p close
      else u.discardFrame p .tooLong := by
  have hport : u.port p = s.port p := by
    obtain ⟨-, -, -, -, -, -, -, hports, -⟩ := s.storeSeq_frame p ((s.port p).framer.held.map (·.value))
    rw [hr] at hports
    exact congrArg (fun v => v.get p) hports
  simp only [State.closeFrame, State.framer, hk, hr, hport]
  cases (s.port p).framer.settings.tooLong <;> rfl

end

/-- Settles O53: the discards, the four ends of the close, and the storing of the held characters before it. -/
theorem frameCloses : Obligations.FrameCloses := by
  intro s p a h q fs with' gone flagged n completed rejected
  refine ⟨State.discardFrame_eq h .tooLong, State.discardFrame_eq h .noMemory, State.discardFrame_eq h .badLength,
    fun close => ⟨fun hr => ?_, fun hr hn => State.finishClose_empty h hr hn close, fun hr hn hq => ?_,
    fun hr hn hq => ?_, rfl, ?_, fun b hd => ?_, ?_⟩⟩
  · exact (State.finishClose_rejected h hr close).trans (State.discardFrame_eq h .charError)
  · exact (State.finishClose_completes h hr hn close).trans (State.completeFrame_joins hq close)
  · exact (State.finishClose_completes h hr hn close).trans (State.completeFrame_lost hq close)
  · have hb : (s.flagFrame p fun f => { f with brk := true }) = flagged { a.flags with brk := true } := by
      simp only [State.flagFrame, State.modFramer, State.modPort, flagged, with', h, Option.map_some, q]
    exact congrArg (·.finishClose p close) hb
  · simp only [State.closeFrame, State.framer, show (s.port p).framer.settings.incomplete = .discard from hd]
    exact State.discardFrame_eq h .incomplete
  · intro b hk r caused
    refine ⟨fun hr => ?_, fun hr => ?_, fun hr ht => ?_, fun hr ht => ?_⟩
    · exact State.closeFrame_heldStored hk (Prod.ext hr rfl) b close
    · exact State.closeFrame_heldNoBlock hk (Prod.ext hr rfl) b close
    · exact (State.closeFrame_heldTooLong hk (Prod.ext hr rfl) b close).trans
        (if_neg (by rw [show (s.port p).framer.settings.tooLong = _ from ht]; decide))
    · refine (State.closeFrame_heldTooLong hk (Prod.ext hr rfl) b close).trans ((if_pos ht).trans ?_)
      rw [State.truncateFrame_eq]
      rfl

end Sys2Proof.Machine
end

