-- ==== Sys2Proof/Proofs/Transmission.lean ====
section
namespace Sys2Proof.Machine

/-! ### The entries of a queue -/

/-- R121. The SENDING entry with none before it is the port's current one. -/
theorem Port.current_eq {q : Port} {before after : List SendEntry} {e : SendEntry} (hq : q.queue = before ++ e :: after)
    (he : e.state = .sending) (hb : ∀ x ∈ before, x.state ≠ .sending) : q.current = some e := by
  have hnone : (before.find? fun x => x.state == .sending) = none :=
    List.find?_eq_none.mpr fun x hx => by simpa using hb x hx
  rw [Port.current, hq, List.find?_append, hnone, Option.none_or, List.find?_cons_of_pos (by simpa using he)]

theorem Port.current_none {q : Port} : q.current = none ↔ ∀ x ∈ q.queue, x.state ≠ .sending := by
  simp [Port.current]

/-- The change of the one entry with its id. -/
theorem State.modEntry_eq {s : State} {p : PortId} {before after : List SendEntry} {e : SendEntry}
    (hq : (s.port p).queue = before ++ e :: after) (hid : ∀ x ∈ before ++ after, x.id ≠ e.id) (x : SendEntry) :
    (s.modEntry p e.id fun _ => x) = s.modPort p fun q => { q with queue := before ++ x :: after } := by
  have keep : ∀ l : List SendEntry, (∀ y ∈ l, y.id ≠ e.id) → (l.map fun y => if y.id = e.id then x else y) = l :=
    fun l hl => (List.map_congr_left fun y hy => if_neg (hl y hy)).trans (List.map_id l)
  have hmap : ((s.port p).queue.map fun y => if y.id = e.id then x else y) = before ++ x :: after := by
    rw [hq, List.map_append, List.map_cons, if_pos rfl, keep before fun y hy => hid y (List.mem_append_left _ hy),
      keep after fun y hy => hid y (List.mem_append_right _ hy)]
  exact s.modPort_congr p (congrArg (fun l => { s.port p with queue := l }) hmap)

/-- The least index with an answer gives the answer. -/
theorem findSome?_finRange {n : Nat} {α : Type} {f : Fin n → Option α} {i : Fin n} {a : α} (h : f i = some a)
    (hlt : ∀ j < i, f j = none) : (List.finRange n).findSome? f = some a := by
  have hsplit : List.finRange n = (List.finRange n).take i.val ++ i :: (List.finRange n).drop (i.val + 1) := by
    have hi := List.getElem_cons_drop (as := List.finRange n) (i := i.val) (by simp)
    rw [show (List.finRange n)[i.val]'(by simp) = i by simp] at hi
    rw [hi, List.take_append_drop]
  refine List.findSome?_eq_some_iff.mpr ⟨_, i, _, hsplit, h, fun j hj => hlt j ?_⟩
  obtain ⟨k, hk, rfl⟩ := List.mem_take_iff_getElem.mp hj
  simp only [List.getElem_finRange, Fin.lt_def]
  simp at hk ⊢
  omega

/-- R117. The first QUEUED entry in selection order: of the lowest class, and the oldest of that class. -/
theorem Port.firstQueued_eq {q : Port} {before after : List SendEntry} {e : SendEntry}
    (hq : q.queue = before ++ e :: after) (he : e.state = .queued) (hb : ∀ x ∈ before, x.state = .queued → e.cls < x.cls)
    (ha : ∀ x ∈ after, x.state = .queued → e.cls ≤ x.cls) : q.firstQueued = some e := by
  have hnone (c : Fin 4) (l : List SendEntry) (hl : ∀ x ∈ l, x.state = .queued → c < x.cls) :
      (l.find? fun x => x.state == .queued && x.cls == c) = none :=
    List.find?_eq_none.mpr fun x hx hc => by
      simp only [Bool.and_eq_true, beq_iff_eq] at hc
      exact absurd (hl x hx hc.1) (by simp [hc.2])
  refine findSome?_finRange (i := e.cls) ?_ fun c hc => ?_
  · rw [hq, List.find?_append, hnone e.cls before hb, Option.none_or, List.find?_cons_of_pos (by simp [he])]
  · rw [hq]
    refine hnone c _ fun x hx hs => ?_
    rcases List.mem_append.mp hx with hx | hx
    · exact hc.trans (hb x hx hs)
    · rcases List.mem_cons.mp hx with rfl | hx
      · exact hc
      · exact lt_of_lt_of_le hc (ha x hx hs)

theorem Port.firstQueued_none {q : Port} (h : ∀ x ∈ q.queue, x.state ≠ .queued) : q.firstQueued = none := by
  simp only [Port.firstQueued, List.findSome?_eq_none_iff, List.find?_eq_none]
  exact fun c _ x hx hc => h x hx (by simpa using (Bool.and_eq_true_iff.mp hc).1)

theorem Port.canSend_iff (q : Port) : q.canSend = true ↔ q.state = .running ∨ q.state = .paused := by
  simp [Port.canSend]

/-! ### Selection, the send gap and the turnaround wait -/

/-- R121. What a selection waits for. -/
def Port.Ready (q : Port) : Prop :=
  (q.state = .running ∨ q.state = .paused) ∧ (∀ x ∈ q.queue, x.state ≠ .sending) ∧ (q.settings.sendGap = 0 ∨ q.gap = none)

theorem Port.ready_iff (q : Port) : (q.canSend && q.current.isNone && q.gapPassed) = true ↔ q.Ready := by
  simp only [Bool.and_eq_true, Port.canSend_iff, Option.isNone_iff_eq_none, Port.current_none, Port.gapPassed,
    Bool.or_eq_true, beq_iff_eq, and_assoc, Port.Ready]

theorem Port.selectable_of_ready {q : Port} (h : q.Ready) : q.selectable = q.firstQueued := if_pos (q.ready_iff.mpr h)

theorem Port.selectable_none {q : Port} (h : ¬ q.Ready ∨ ∀ x ∈ q.queue, x.state ≠ .queued) : q.selectable = none := by
  rcases h with h | h
  · exact if_neg (mt q.ready_iff.mp h)
  · rw [Port.selectable, Port.firstQueued_none h, ite_self]

/-- R124. What the turnaround wait ends on. -/
def Port.Waited (q : Port) : Prop :=
  (q.state = .running ∨ q.state = .paused) ∧ q.tx = .turnaround ∧ q.quiet.running = true ∧
    q.settings.turnaround * q.settings.charBits * 1000000 ≤ q.quiet.micros * q.settings.baud ∧
    q.framer.state ≠ .header ∧ q.framer.state ≠ .body

theorem Port.turnaroundDue_of_waited {q : Port} (h : q.Waited) : q.turnaroundDue = q.current := by
  obtain ⟨hs, ht, hr, hm, hh, hb⟩ := h
  simp only [Port.turnaroundDue, ht]
  refine if_pos ?_
  simp [Port.canSend, hs, Port.quietFor, hr, LineSettings.reached, hm, hh, hb]

theorem Port.turnaroundDue_none {q : Port} (h : ¬ q.Waited) : q.turnaroundDue = none := by
  simp only [Port.turnaroundDue]
  split
  · rename_i ht
    refine if_neg fun hc => h ?_
    simp only [Bool.and_eq_true, Port.canSend_iff, Port.quietFor, LineSettings.reached_iff, bne_iff_ne] at hc
    obtain ⟨⟨⟨hs, hr, hm⟩, hh⟩, hb⟩ := hc
    exact ⟨hs, ht, hr, hm, hh, hb⟩
  · rfl

/-! ### The start of an entry -/

section
variable {s : State} {p : PortId} {e : SendEntry}

/-- R113, R126. The character of the first byte of a sound block. -/
theorem State.beginCharacter_sound {b : BlockId} {k : Nat} (hk : k % 48 = 0)
    (hb : (s.memory.desc e.desc).chain[k / 48]? = some b) (hs : b.val ∉ s.memory.bad) :
    s.beginCharacter p e k = s.modPort p fun q => { q with
      tx := .sending (q.settings.value (Memory.read s.memory.cells (48 * b.val + 0))) q.settings
        ((List.range 48).map fun i => Memory.read s.memory.cells (48 * b.val + i)) } := by
  have hbad : ¬ s.memory.bad.contains b.val = true := by simpa using hs
  simp only [State.beginCharacter, hb, if_neg hbad, Port.putCharacter, hk]
  rfl

/-- R37, R126. A block that fails its check ends the entry. -/
theorem State.beginCharacter_failing {b : BlockId} {k : Nat} (hk : k % 48 = 0)
    (hb : (s.memory.desc e.desc).chain[k / 48]? = some b) (hs : b.val ∈ s.memory.bad) :
    s.beginCharacter p e k = if k = 0 then ((s.checkBlock e.desc b).releaseDir p).endEntry p e .dataCheck false true
      else (s.checkBlock e.desc b).holdOrEnd p e .dataCheck := by
  have hbad : s.memory.bad.contains b.val = true := by simpa using hs
  simp only [State.beginCharacter, if_pos hk, hb, if_pos hbad]

/-- R113. The character of a byte of the block last read. -/
theorem State.beginCharacter_inside {k : Nat} (hk : k % 48 ≠ 0) :
    s.beginCharacter p e k = s.modPort p fun q => q.putCharacter q.tx.block k := if_neg hk

theorem State.startEntry_damaged (h : (s.memory.desc e.desc).damaged = true) :
    s.startEntry p e = s.endEntry p e .dataCheck false true := if_pos h

theorem State.startEntry_undamaged (h : (s.memory.desc e.desc).damaged = false) :
    s.startEntry p e = (s.modPort p fun q => { q with dir := decide (q.settings.duplex = .half) }).beginCharacter p e 0 :=
  if_neg (by simp [h])

end

/-- Settles O43: the conditions of each row, and the start of an entry by its first block. -/
theorem transmissionBegins : Obligations.TransmissionBegins := by
  refine ⟨fun s p hr => ?_, fun s p e => ?_⟩
  · intro q bits reached canSend ready waited
    have hready : ready ↔ (s.port p).Ready := Iff.rfl
    have hwaited : waited ↔ (s.port p).Waited := Iff.rfl
    refine ⟨?_, fun h => ?_, fun micros hg hm => ?_, fun hm => ?_, fun before e after hw hq he hb => ?_, fun hw => ?_⟩
    · intro before e after hrd hq he hb ha hid chosen u
      have hsel : (s.port p).selectable = some e :=
        (Port.selectable_of_ready (hready.mp hrd)).trans (Port.firstQueued_eq hq he hb ha)
      have hu : (s.modEntry p e.id fun _ => e.selected) = u := State.modEntry_eq hq hid e.selected
      have hduplex : (u.port p).settings.duplex = (s.port p).settings.duplex := by rw [State.port_modPort_same]
      refine ⟨fun hd => ?_, fun hd => ?_⟩ <;>
        simp only [exec, execSelection, State.unlessReset_running hr, hsel, hu, hduplex,
          show (s.port p).settings.duplex = _ from hd]
      rfl
    · simp only [exec, execSelection, State.unlessReset_running hr, Port.selectable_none (h.imp_left (mt hready.mpr))]
    · have hdue : (s.port p).gapDue = true := by
        simp only [Port.gapDue, show (s.port p).gap = some micros from hg, LineSettings.reached_iff]
        exact hm
      simp only [exec, execSendGapExpiry, State.unlessReset_running hr, hdue, if_true]
    · have hdue : ¬ (s.port p).gapDue = true := by
        simp only [Port.gapDue]
        split
        · rename_i micros hg
          rw [LineSettings.reached_iff]
          exact hm micros hg
        · decide
      simp only [exec, execSendGapExpiry, State.unlessReset_running hr, if_neg hdue]
    · have hdue : (s.port p).turnaroundDue = some e :=
        (Port.turnaroundDue_of_waited (hwaited.mp hw)).trans (Port.current_eq hq he hb)
      simp only [exec, execTurnaroundEnd, State.unlessReset_running hr, hdue]
    · simp only [exec, execTurnaroundEnd, State.unlessReset_running hr, Port.turnaroundDue_none (mt hwaited.mpr hw)]
  · intro x byte dir
    refine ⟨State.startEntry_damaged, fun b hx hb => ?_⟩
    have hfirst : ((s.modPort p dir).memory.desc e.desc).chain[0 / 48]? = some b :=
      (List.head?_eq_getElem? (l := x.chain)).symm.trans hb
    refine ⟨fun hs => ?_, fun hs => ?_⟩
    · refine (State.startEntry_undamaged hx).trans ((State.beginCharacter_sound rfl hfirst hs).trans ?_)
      rw [State.modPort_modPort]
      rfl
    · exact (State.startEntry_undamaged hx).trans ((State.beginCharacter_failing rfl hfirst hs).trans (if_pos rfl))

end Sys2Proof.Machine
end

