-- ==== Sys2Proof/Proofs/Characters.lean ====
section
namespace Sys2Proof.Machine

/-! ### The bits of a character -/

/-- R98. The exclusive or of bits is the parity of the number of those that are high. -/
theorem foldl_bne_eq_parity {α : Type} (f : α → Bool) (l : List α) (b : Bool) :
    l.foldl (fun acc i => acc != f i) b = decide ((((l.map f).count true) + b.toNat) % 2 = 1) := by
  induction l generalizing b with
  | nil => cases b <;> rfl
  | cons x l ih =>
    rw [List.foldl_cons, ih, List.map_cons, List.count_cons]
    refine decide_eq_decide.mpr ?_
    cases b <;> cases f x <;> simp
    all_goals omega

/-- R98, R107. A character's value has an odd number of high bits exactly when its data bits have. -/
theorem LineSettings.oddOnes_value (ls : LineSettings) (h : ls.dataBits = 7 ∨ ls.dataBits = 8) (value : Byte) :
    oddOnes (ls.value value) = decide (((List.range ls.dataBits).map value.getLsbD).count true % 2 = 1) := by
  rw [oddOnes, foldl_bne_eq_parity]
  rcases h with h | h
  · have hbits : (List.range 8).map (value &&& 0x7F).getLsbD = (List.range 7).map value.getLsbD ++ [false] := by
      simp [List.range_succ]
    rw [LineSettings.value, if_pos h, hbits, h, List.count_append, List.count_singleton]
    simp only [beq_iff_eq, Bool.false_eq_true, if_false, Bool.toNat_false, Nat.add_zero]
  · simp [LineSettings.value, h]

/-- R98. The bits of a character: the start bit, the data bits, a parity bit that makes their number of high bits even or
odd, and the stop bits. -/
theorem LineSettings.characterBits_eq (ls : LineSettings) (h : ls.dataBits = 7 ∨ ls.dataBits = 8) (value : Byte) :
    let data := (List.range ls.dataBits).map value.getLsbD
    ∃ middle : List Bool, middle.length = (if ls.parity = .none then 0 else 1) ∧
      ls.characterBits value = [false] ++ data ++ middle ++ List.replicate ls.stopBits true ∧
      (ls.parity = .even → (data ++ middle).count true % 2 = 0) ∧
      (ls.parity = .odd → (data ++ middle).count true % 2 = 1) := by
  intro data
  have hodd : oddOnes (ls.value value) = decide (data.count true % 2 = 1) := ls.oddOnes_value h value
  refine ⟨if ls.parity = .none then [] else [ls.parityBit (ls.value value)], ?_, rfl, fun hp => ?_, fun hp => ?_⟩
  · split <;> rfl
  all_goals
    simp only [hp, reduceCtorEq, if_false, LineSettings.parityBit, hodd, List.count_append]
    by_cases hc : data.count true % 2 = 1 <;> simp [hc] <;> omega

/-! ### The end of a character -/

section
variable {s : State} {p : PortId} {e : SendEntry}

theorem State.holdOrEnd_eq (s : State) (p : PortId) (e : SendEntry) (status : SendStatus) : s.holdOrEnd p e status =
    if (s.port p).settings.duplex = .full then s.endEntry p e status false true
    else if (s.port p).settings.trailingHold = 0 then (s.releaseDir p).endEntry p e status false true
    else s.modPort p fun q => { q with tx := .holding status 0 } := by
  simp only [State.holdOrEnd]
  cases (s.port p).settings.duplex <;> rfl

/-- R104, R125, R126. What follows the end of a character of the entry `sent`, which counts it. -/
def State.characterEnded (u : State) (p : PortId) (sent : SendEntry) : State :=
  if (u.port p).stopping then (u.releaseDir p).endEntry p sent .aborted false true
  else if (u.memory.desc sent.desc).length ≤ sent.charsSent then u.holdOrEnd p sent .sent
  else u.beginCharacter p sent sent.charsSent

theorem State.characterSent_sending {value : Byte} {format : LineSettings} {block : List Byte}
    (hr : s.pins.reset = false) (ht : (s.port p).tx = .sending value format block) (hc : (s.port p).current = some e) :
    exec (.characterSent p) s = .next
      ((s.modEntry p e.id fun _ => { e with charsSent := e.charsSent + 1 }).characterEnded p
        { e with charsSent := e.charsSent + 1 }) := by
  simp only [exec, execCharacterSent, State.unlessReset_running hr, ht, hc]
  rfl

theorem State.characterSent_idle (hr : s.pins.reset = false)
    (ht : ∀ value format block, (s.port p).tx ≠ .sending value format block) : exec (.characterSent p) s = .next s := by
  simp only [exec, execCharacterSent, State.unlessReset_running hr]
  split
  · rename_i h _
    exact absurd h (ht _ _ _)
  · rfl

theorem State.trailingHoldExpiry_idle (hr : s.pins.reset = false)
    (ht : ∀ status micros, (s.port p).tx ≠ .holding status micros) : exec (.trailingHoldExpiry p) s = .next s := by
  have hdue : (s.port p).holdDue = none := by
    simp only [Port.holdDue]
    split
    · rename_i h _
      exact absurd h (ht _ _)
    · rfl
  simp only [exec, execTrailingHoldExpiry, State.unlessReset_running hr, hdue]

theorem State.trailingHoldExpiry_due {status : SendStatus} {micros : Nat} (hr : s.pins.reset = false)
    (ht : (s.port p).tx = .holding status micros) (hc : (s.port p).current = some e)
    (hm : (s.port p).settings.reached micros (s.port p).settings.trailingHold = true) :
    exec (.trailingHoldExpiry p) s = .next ((s.releaseDir p).endEntry p e status false true) := by
  have hdue : (s.port p).holdDue = some (status, e) := by simp only [Port.holdDue, ht, hc, hm, if_true]
  simp only [exec, execTrailingHoldExpiry, State.unlessReset_running hr, hdue]

theorem State.trailingHoldExpiry_runs {status : SendStatus} {micros : Nat} (hr : s.pins.reset = false)
    (ht : (s.port p).tx = .holding status micros) (hc : (s.port p).current = some e)
    (hm : ¬ (s.port p).settings.reached micros (s.port p).settings.trailingHold = true) :
    exec (.trailingHoldExpiry p) s = .next s := by
  have hdue : (s.port p).holdDue = none := by
    simp only [Port.holdDue, ht, hc, if_neg hm]
  simp only [exec, execTrailingHoldExpiry, State.unlessReset_running hr, hdue]

end

/-- Settles O44: the three ends of a character, the block read for the next, and the character's bits. -/
theorem charactersSent : Obligations.CharactersSent := by
  refine ⟨fun s p hr => ?_, fun q value ls block ht hbits => ?_, fun q ht => ?_⟩
  · intro q bits off
    refine ⟨?_, State.characterSent_idle hr, State.trailingHoldExpiry_idle hr⟩
    intro before e after hq he hb hid k sent x u ended begins read
    have hc : (s.port p).current = some e := Port.current_eq hq he hb
    have hu : (s.modEntry p e.id fun _ => sent) = u := State.modEntry_eq hq hid sent
    have huport : u.port p = { s.port p with queue := before ++ sent :: after } := by rw [State.port_modPort_same]
    have hold (v : State) (hv : (v.port p).settings = (s.port p).settings) (status : SendStatus) :
        v.holdOrEnd p sent status = ended v status := by
      rw [State.holdOrEnd_eq, hv]
      rfl
    refine ⟨fun value format block ht => ?_, fun status micros ht => ?_⟩
    · have hx : exec (.characterSent p) s = .next (u.characterEnded p sent) := by
        rw [State.characterSent_sending hr ht hc, hu]
      have hstop : (u.port p).stopping = (s.port p).stopping := by rw [huport]
      have htx : (u.port p).tx = .sending value format block := by rw [huport]; exact ht
      have next (hs : q.stopping = false) (hk : k < x.length) : u.characterEnded p sent = u.beginCharacter p sent k :=
        (if_neg (by rw [hstop, show (s.port p).stopping = false from hs]; decide)).trans (if_neg (Nat.not_le.mpr hk))
      have stays (hs : q.stopping = false) : ¬ (u.port p).stopping = true := by
        rw [hstop, show (s.port p).stopping = false from hs]; decide
      rw [hx]
      refine ⟨fun hs => congrArg _ (if_pos (hstop.trans hs)), fun hs hk => congrArg _ ?_, fun hs hk hin => congrArg _ ?_,
        fun b hs hk hfirst hb => ⟨fun hbad => congrArg _ ?_, fun hbad => congrArg _ ?_⟩⟩
      · exact (if_neg (stays hs)).trans ((if_pos hk).trans (hold u (by rw [huport]) .sent))
      · refine (next hs hk).trans ((State.beginCharacter_inside hin).trans (u.modPort_congr p ?_))
        rw [htx]
        rfl
      · exact (next hs hk).trans (State.beginCharacter_sound (s := u) (e := sent) hfirst hb hbad)
      · have hfails : u.beginCharacter p sent k = (u.checkBlock e.desc b).holdOrEnd p sent .dataCheck :=
          (State.beginCharacter_failing (s := u) (e := sent) hfirst hb hbad).trans (if_neg (Nat.succ_ne_zero _))
        exact (next hs hk).trans (hfails.trans (hold _ (by rw [State.checkBlock_port, huport]) .dataCheck))
    · exact ⟨fun hm => State.trailingHoldExpiry_due hr ht hc ((LineSettings.reached_iff _ _ _).mpr hm),
        fun hm => State.trailingHoldExpiry_runs hr ht hc (mt (LineSettings.reached_iff _ _ _).mp (Nat.not_le.mpr hm))⟩
  · have htx : q.txBits = ls.characterBits value := by simp only [Port.txBits, ht]
    rw [htx]
    exact ls.characterBits_eq hbits value
  · cases htx : q.tx with
    | sending value format block => exact absurd htx (ht _ _ _)
    | idle | turnaround | holding => simp only [Port.txBits, htx]

end Sys2Proof.Machine
end

