-- ==== Sys2Proof/Proofs/IdleStep.lean ====
section
namespace Sys2Proof.Machine

/-! ### Which timed event is due -/

theorem Receiver.timedOut_iff (r : Receiver) : r.timedOut = true ↔ r.state ≠ .hunt ∧ 20000 ≤ r.silence := by
  simp [Receiver.timedOut]

theorem SendEntry.expired_iff (e : SendEntry) : e.expired = true ↔ e.state = .queued ∧ e.ttl = some 0 := by
  simp [SendEntry.expired]

theorem State.mem_entries {s : State} {e : SendEntry} : e ∈ s.entries ↔ ∃ p, e ∈ (s.port p).queue := by
  simp [State.entries_eq]

theorem OpEntry.deadlineReached_iff (e : OpEntry) (p : PortId) : e.deadlineReached p = true ↔
    e.status = none ∧ ∃ deadline sent remaining, e.work = .drain p deadline 0 sent remaining := by
  obtain ⟨tag, work, status, start, acceptedSent, replyPending⟩ := e
  cases work <;> simp [OpEntry.deadlineReached, OpEntry.running]

theorem State.deadlineDue_iff (s : State) (p : PortId) : s.deadlineDue p = true ↔ (s.port p).queue ≠ [] ∧
    ∃ e ∈ s.ops.entries, e.status = none ∧ ∃ deadline sent remaining, e.work = .drain p deadline 0 sent remaining := by
  simp only [State.deadlineDue, Bool.and_eq_true, List.any_eq_true, OpEntry.deadlineReached_iff, Bool.not_eq_true',
    List.isEmpty_eq_false_iff]

theorem FramerSettings.quietLimit_eq (fs : FramerSettings) :
    fs.quietLimit = if fs.mode = .gap then fs.gapThreshold else fs.idleLimit := by
  cases h : fs.mode <;> simp [FramerSettings.quietLimit, h]

theorem Port.quietDue_iff (q : Port) : q.quietDue = true ↔ q.state = .running ∧ q.quiet.running = true ∧
    q.quiet.given = false ∧ q.framer.settings.quietLimit ≠ 0 ∧
    q.settings.Reached q.quiet.micros q.framer.settings.quietLimit := by
  simp only [Port.quietDue, Port.quietFor, Bool.and_eq_true, beq_iff_eq, Bool.not_eq_true', bne_iff_ne, ne_eq,
    LineSettings.reached_iff]
  exact ⟨fun ⟨⟨⟨hs, hg⟩, hl⟩, hr, hm⟩ => ⟨hs, hr, hg, hl, hm⟩, fun ⟨hs, hr, hg, hl, hm⟩ => ⟨⟨⟨hs, hg⟩, hl⟩, hr, hm⟩⟩

theorem Port.gapDue_iff (q : Port) : q.gapDue = true ↔
    ∃ micros, q.gap = some micros ∧ q.settings.Reached micros q.settings.sendGap := by
  cases h : q.gap with
  | none => simp [Port.gapDue, h]
  | some micros =>
    simp only [Port.gapDue, h, LineSettings.reached_iff]
    exact ⟨fun hm => ⟨micros, rfl, hm⟩, fun ⟨_, he, hm⟩ => (Option.some.inj he) ▸ hm⟩

theorem Port.turnaroundDue_isSome_iff (q : Port) : q.turnaroundDue.isSome = true ↔
    q.Waited ∧ ∃ e ∈ q.queue, e.state = .sending := by
  by_cases h : q.Waited
  · rw [Port.turnaroundDue_of_waited h, Port.current_isSome_iff, and_iff_right h]
  · simp [Port.turnaroundDue_none h, h]

theorem Port.holdDue_isSome_iff (q : Port) : q.holdDue.isSome = true ↔ ∃ status micros, q.tx = .holding status micros ∧
    q.settings.Reached micros q.settings.trailingHold ∧ ∃ e ∈ q.queue, e.state = .sending := by
  cases ht : q.tx with
  | idle | turnaround | sending => simp [Port.holdDue, ht]
  | holding status micros =>
    have hreached : q.settings.reached micros q.settings.trailingHold = true ↔
        q.settings.Reached micros q.settings.trailingHold := LineSettings.reached_iff _ _ _
    rw [← Port.current_isSome_iff]
    cases hc : q.current with
    | none => simp [Port.holdDue, ht, hc]
    | some e => by_cases hm : q.settings.reached micros q.settings.trailingHold = true <;>
        simp [Port.holdDue, ht, hc, hm, ← hreached]

theorem firstPort_some {test : PortId → Bool} {row : PortId → Instr} {c : Instr}
    (h : (firstPort test).map row = some c) : ∃ p, test p = true ∧ c = row p := by
  obtain ⟨p, hp, rfl⟩ := Option.map_eq_some_iff.mp h
  exact ⟨p, List.find?_some hp, rfl⟩

theorem firstPort_none {test : PortId → Bool} {row : PortId → Instr} (h : (firstPort test).map row = none) (p : PortId) :
    ¬ test p = true := by
  rw [Option.map_eq_none_iff] at h
  simpa using List.find?_eq_none.mp h p (List.mem_finRange p)

section
variable {s : State}

/-- Log entry 2. The event that is taken is one of those that are due. -/
theorem State.dueNow_of_due {c : Instr} (h : s.due = some c) : s.DueNow c := by
  simp only [State.due] at h
  split at h
  · cases h
  split at h
  · obtain rfl := Option.some.inj h
    obtain ⟨hs, hm⟩ := (Receiver.timedOut_iff _).mp ‹_›
    exact .interByteTimeout hs hm
  split at h
  · rename_i e he
    obtain rfl := Option.some.inj h
    obtain ⟨p, hp⟩ := State.mem_entries.mp (List.mem_of_find?_eq_some he)
    obtain ⟨hs, ht⟩ := e.expired_iff.mp (List.find?_some he)
    exact .ttlExpiry p e hp hs ht
  · simp only [Option.orElse_eq_orElse, Option.orElse_eq_or, Option.or_eq_some_iff] at h
    rcases h with ((h | ⟨-, h⟩) | ⟨-, h⟩) | ⟨-, h | ⟨-, h⟩⟩
    all_goals obtain ⟨p, hp, rfl⟩ := firstPort_some h
    · obtain ⟨hq, e, he, hs, deadline, sent, remaining, hw⟩ := (s.deadlineDue_iff p).mp hp
      exact .drainDeadline p e deadline sent remaining hq he hs hw
    · obtain ⟨hs, hrun, hg, h0, hm⟩ := (s.port p).quietDue_iff.mp hp
      exact .quietTimeExpiry p _ hs hrun hg (FramerSettings.quietLimit_eq _) h0 hm
    · obtain ⟨micros, hg, hm⟩ := (s.port p).gapDue_iff.mp hp
      exact .sendGapExpiry p micros hg hm
    · obtain ⟨⟨hs, ht, hrun, hm, hh, hb⟩, e, he, hse⟩ := (s.port p).turnaroundDue_isSome_iff.mp hp
      exact .turnaroundEnd p e ht hs hrun hm hh hb he hse
    · obtain ⟨status, micros, ht, hm, e, he, hse⟩ := (s.port p).holdDue_isSome_iff.mp hp
      exact .trailingHoldExpiry p e status micros ht hm he hse

/-- Log entry 2. With none taken there is none due. -/
theorem State.not_dueNow_of_due {c : Instr} (hr : s.pins.reset = false) (h : s.due = none) : ¬ s.DueNow c := by
  have hreset : ¬ s.pins.reset = true := by simp [hr]
  simp only [State.due, if_neg hreset] at h
  split at h
  · cases h
  split at h
  · cases h
  · rename_i hrx _ hexp
    simp only [Option.orElse_eq_orElse, Option.orElse_eq_or, Option.or_eq_none_iff] at h
    obtain ⟨⟨⟨hdeadline, hquiet⟩, hgap⟩, hturn, hhold⟩ := h
    intro hc
    cases hc with
    | interByteTimeout hs hm => exact hrx ((Receiver.timedOut_iff _).mpr ⟨hs, hm⟩)
    | ttlExpiry p e he hs ht =>
      exact List.find?_eq_none.mp hexp e (State.mem_entries.mpr ⟨p, he⟩) (e.expired_iff.mpr ⟨hs, ht⟩)
    | drainDeadline p e deadline sent remaining hq he hs hw =>
      exact firstPort_none hdeadline p ((s.deadlineDue_iff p).mpr ⟨hq, e, he, hs, deadline, sent, remaining, hw⟩)
    | quietTimeExpiry p limit hs hrun hg hl h0 hm =>
      rw [← FramerSettings.quietLimit_eq] at hl
      subst hl
      exact firstPort_none hquiet p ((s.port p).quietDue_iff.mpr ⟨hs, hrun, hg, h0, hm⟩)
    | sendGapExpiry p micros hg hm => exact firstPort_none hgap p ((s.port p).gapDue_iff.mpr ⟨micros, hg, hm⟩)
    | turnaroundEnd p e ht hs hrun hm hh hb he hse =>
      exact firstPort_none hturn p
        ((s.port p).turnaroundDue_isSome_iff.mpr ⟨⟨hs, ht, hrun, hm, hh, hb⟩, e, he, hse⟩)
    | trailingHoldExpiry p e status micros ht hm he hse =>
      exact firstPort_none hhold p ((s.port p).holdDue_isSome_iff.mpr ⟨status, micros, ht, hm, e, he, hse⟩)

end

/-! ### One microsecond -/

theorem Receiver.tick_eq (r : Receiver) :
    r.tick = { r with silence := if r.state = .hunt then r.silence else r.silence + 1 } := by
  by_cases h : r.state = .hunt
  · rw [Receiver.tick, if_pos h, if_pos h]
  · rw [Receiver.tick, if_neg h, if_neg h]

theorem Quiet.tick_eq (t : Quiet) : t.tick = { t with micros := if t.running then t.micros + 1 else t.micros } := by
  by_cases h : t.running = true
  · rw [Quiet.tick, if_pos h, if_pos h]
  · rw [Quiet.tick, if_neg h, if_neg h]

theorem SendEntry.tick_eq (e : SendEntry) :
    e.tick = { e with ttl := if e.state = .queued then e.ttl.map fun n => n - 1 else e.ttl } := by
  by_cases h : e.state = .queued <;> simp [SendEntry.tick, h]

/-- What a microsecond changes, part by part. -/
theorem State.tick_of_parts {s : State} (hr : s.pins.reset = false) {receiver : Receiver} {htx : Option Outgoing}
    {entries : List OpEntry} {ports : Vector Port 4} (hreceiver : s.link.receiver.tick = receiver)
    (hhtx : s.link.htx.bind (Outgoing.tick s.link.rate) = htx) (hentries : s.ops.entries.map OpEntry.tick = entries)
    (hports : s.ports.map Port.tick = ports) : s.tick = { s with
      timebase := s.timebase + 1
      ticks := s.ticks + 1
      link := { s.link with receiver := receiver, htx := htx }
      ops := { s.ops with entries := entries }
      memory := (Config.upsets s.ticks).foldl RecordMemory.disturb s.memory
      ports := ports } := by
  subst hreceiver hhtx hentries hports
  exact if_neg (by simp [hr])

/-! ### A disturbance -/

theorem mem_insertRising (l : List Nat) (a i : Nat) : i ∈ insertRising l a ↔ i = a ∨ i ∈ l := by
  induction l with
  | nil => simp [insertRising]
  | cons k rest ih =>
    rw [insertRising]
    split
    · simp
    · split
      · rename_i h
        simp [h]
      · simp only [List.mem_cons, ih]
        tauto

/-- R30. Whether the stored check code of a block fails after a disturbance. -/
theorem RecordMemory.mem_disturb_bad (m : RecordMemory) (u : Upset) (i : Nat) :
    i ∈ (m.disturb u).bad ↔ if i = u.block.val then u.agrees = false else i ∈ m.bad := by
  by_cases hi : i = u.block.val <;> cases hu : u.agrees <;>
    simp [RecordMemory.disturb, hu, hi, mem_insertRising]

/-- Settles O2: the row taken is due, none is due when none is taken, and the microsecond part by part. -/
theorem idleStepPassesTime : Obligations.IdleStepPassesTime := by
  refine ⟨fun s hp => ⟨fun c hc => ⟨State.dueNow_of_due hc, ?_⟩, fun hr => ?_, fun hr hd =>
    ⟨fun c => State.not_dueNow_of_due hr hd, ?_⟩⟩, fun m u hm => ?_⟩
  · simp only [step, hp, hc]
  · have hdue : s.due = none := if_pos hr
    have htick : s.tick = s := if_pos hr
    simp only [step, hp, hdue, htick]
  · have hstep : step s = .next s.tick := by simp only [step, hp, hd]
    refine hstep.trans (congrArg Host.Outcome.next (State.tick_of_parts hr s.link.receiver.tick_eq ?_ ?_ ?_))
    · rcases s.link.htx with _ | m | m | ⟨m, n⟩ <;> rfl
    · refine List.map_congr_left fun e _ => ?_
      obtain ⟨tag, work, _ | status, start, acceptedSent, replyPending⟩ := e <;> cases work <;> rfl
    · refine congrArg (s.ports.map ·) (funext fun q => ?_)
      simp only [Port.tick, Quiet.tick_eq, funext SendEntry.tick_eq]
      rfl
  · exact ⟨rfl, fun a => Memory.read_write hm _ a _, m.mem_disturb_bad u⟩

end Sys2Proof.Machine
end

