-- ==== Sys2Proof/Proofs/StoreSound.lean ====
section
namespace Sys2Proof.Machine

/-! ### Records and their blocks -/

theorem blocksOf_append (rs rs' : List Record) : blocksOf (rs ++ rs') = blocksOf rs + blocksOf rs' := by
  simp [blocksOf]

theorem blocksOf_take_drop (rs : List Record) (k : Nat) :
    blocksOf (rs.take k) + blocksOf (rs.drop k) = blocksOf rs := by
  rw [← blocksOf_append, List.take_append_drop]

/-- R52. The records that are left when the oldest have gone are numbered on. -/
theorem consecutive_drop {next : Word} {rs : List Record} (h : consecutive next rs) (k : Nat) :
    consecutive next (rs.drop k) := by
  induction rs generalizing k with
  | nil => simpa using h
  | cons r rs ih =>
    cases k with
    | zero => exact h
    | succ k => exact ih h.2 k

/-- R52, R56. The record at the tail takes the next number. -/
theorem consecutive_append {next : Word} {rs : List Record} (h : consecutive next rs) {r : Record} (hr : r.seq = next) :
    consecutive (next + 1) (rs ++ [r]) := by
  induction rs with
  | nil => exact ⟨by simp [hr], trivial⟩
  | cons x rs ih =>
    obtain ⟨hx, hrest⟩ := h
    refine ⟨?_, ih hrest⟩
    have hlen : (rs ++ [r]).length = rs.length + 1 := List.length_append
    rw [← hx, List.append_eq, hlen, BitVec.ofNat_add, ← BitVec.add_assoc]
    rfl

theorem consecutive_map {next : Word} {rs : List Record} (h : consecutive next rs) {f : Record → Record}
    (hf : ∀ r, (f r).seq = r.seq) : consecutive next (rs.map f) := by
  induction rs with
  | nil => exact h
  | cons r rs ih => exact ⟨by simpa [hf] using h.1, ih h.2⟩

/-! ### The room for one more record -/

/-- R54, R57. There is room exactly when neither limit would be passed. -/
theorem StoreSettings.room_iff (ss : StoreSettings) (count used n : Nat) :
    ss.room count used n = true ↔ count < ss.capacity ∧ (ss.quota ≠ 0 → used + n ≤ ss.quota) := by
  simp [StoreSettings.room, or_iff_not_imp_left]

/-- R57. The records evicted are the fewest whose removal leaves room. -/
theorem evictions_append {ss : StoreSettings} {n : Nat} {gone kept : List Record}
    (hkept : ss.room kept.length (blocksOf kept) n = true)
    (hgone : ∀ before after, gone = before ++ after → after ≠ [] →
      ¬ ss.room (after ++ kept).length (blocksOf (after ++ kept)) n = true) :
    evictions ss n (blocksOf (gone ++ kept)) (gone ++ kept) = gone.length := by
  induction gone with
  | nil =>
    cases kept with
    | nil => rfl
    | cons r kept => exact if_pos hkept
  | cons r gone ih =>
    have hrest := ih fun before after h => hgone (r :: before) after (congrArg (r :: ·) h)
    have hused : blocksOf (r :: gone ++ kept) - r.blocks = blocksOf (gone ++ kept) := by simp [blocksOf]
    refine (if_neg (hgone [] (r :: gone) rfl (List.cons_ne_nil _ _))).trans ?_
    rw [hused, List.append_eq, hrest, List.length_cons]

/-- R54, R57. A record that alone passes no limit finds room once enough others have gone. -/
theorem exists_room {ss : StoreSettings} {n : Nat} (hcap : 0 < ss.capacity) (hn : ss.quota ≠ 0 → n ≤ ss.quota)
    (rs : List Record) : ∃ gone kept, rs = gone ++ kept ∧ ss.room kept.length (blocksOf kept) n = true ∧
      ∀ before after, gone = before ++ after → after ≠ [] →
        ¬ ss.room (after ++ kept).length (blocksOf (after ++ kept)) n = true := by
  induction rs with
  | nil =>
    refine ⟨[], [], rfl, (ss.room_iff _ _ _).mpr ⟨hcap, by simpa [blocksOf] using hn⟩, fun before after h hne => ?_⟩
    exact absurd (List.append_eq_nil_iff.mp h.symm).2 hne
  | cons r rs ih =>
    by_cases hroom : ss.room (r :: rs).length (blocksOf (r :: rs)) n = true
    · exact ⟨[], r :: rs, rfl, hroom, fun before after h hne => absurd (List.append_eq_nil_iff.mp h.symm).2 hne⟩
    · obtain ⟨gone, kept, rfl, hkept, hgone⟩ := ih
      refine ⟨r :: gone, kept, rfl, hkept, fun before after h hne => ?_⟩
      cases before with
      | nil => exact (show r :: gone = after from h) ▸ hroom
      | cons x before => exact hgone before after (List.cons.inj h).2 hne

/-! ### A store under its operations -/

section
variable {st st' : Store}

/-- R48 to R53. The marks of notices and the counters are no part of a store's soundness. -/
theorem Store.Sound.of_eq (h : st.Sound) (hs : st'.settings = st.settings) (hstate : st'.state = st.state)
    (hp : st'.prior = st.prior) (hr : st'.records = st.records) (hd : st'.delivered = st.delivered)
    (hb : st'.blocksUsed = st.blocksUsed) (hn : st'.nextSeq = st.nextSeq) : st'.Sound where
  delivered := by rw [hd, hr]; exact h.delivered
  capacity := by rw [hr, hs]; exact h.capacity
  used := by rw [hb, hr]; exact h.used
  quota := by rw [hs, hb]; exact h.quota
  marks := by rw [hs]; exact h.marks
  limits := by rw [hs]; exact h.limits
  numbered := by rw [hn, hr]; exact h.numbered
  closed := by rw [hstate, hr]; exact h.closed
  prior := by rw [hp, hstate]; exact h.prior
  priorOpen := by rw [hp]; exact h.priorOpen

/-- R49, R69. Another state, with the prior state that goes with it. -/
theorem Store.Sound.withState (h : st.Sound) {x : StoreState} {prior : Option StoreState}
    (hc : x = .closed → st.records = []) (hp : prior.isSome = true ↔ x = .purging)
    (ho : prior ≠ some .closed ∧ prior ≠ some .purging) : ({ st with state := x, prior := prior } : Store).Sound :=
  ⟨h.delivered, h.capacity, h.used, h.quota, h.marks, h.limits, h.numbered, hc, hp, ho⟩

/-- R61, R66. Other records are delivered. -/
theorem Store.Sound.withDelivered (h : st.Sound) {n : Nat} (hn : n ≤ st.records.length) :
    ({ st with delivered := n } : Store).Sound :=
  ⟨hn, h.capacity, h.used, h.quota, h.marks, h.limits, h.numbered, h.closed, h.prior, h.priorOpen⟩

/-- R53. The oldest records leave. -/
theorem Store.Sound.dropHead (h : st.Sound) (k : Nat) : (st.dropHead k).Sound := by
  have hblocks := blocksOf_take_drop st.records k
  have hlen : (st.records.drop k).length = st.records.length - k := List.length_drop
  have hdelivered := h.delivered
  have hcapacity := h.capacity
  have hused := h.used
  have hquota := h.quota
  refine ⟨?_, ?_, ?_, fun hq => ?_, h.marks, h.limits, consecutive_drop h.numbered k, fun hc => ?_, h.prior, h.priorOpen⟩
    <;> simp only [Store.dropHead]
  · omega
  · omega
  · omega
  · exact (Nat.sub_le _ _).trans (hquota hq)
  · rw [h.closed hc, List.drop_nil]

theorem Store.Sound.rearm (h : st.Sound) : st.rearm.Sound := by
  rw [Store.rearm_eq]
  exact h.of_eq rfl rfl rfl rfl rfl rfl rfl

theorem Store.Sound.evict (h : st.Sound) (k : Nat) : (st.evict k).Sound := (h.dropHead k).of_eq rfl rfl rfl rfl rfl rfl rfl

theorem Store.Sound.take (h : st.Sound) (k : Nat) : (st.take k).Sound :=
  Store.Sound.rearm ((h.dropHead k).of_eq rfl rfl rfl rfl rfl rfl rfl)

theorem Store.Sound.ack (h : st.Sound) (k : Nat) : (st.ack k).Sound :=
  Store.Sound.rearm ((h.dropHead k).of_eq rfl rfl rfl rfl rfl rfl rfl)

theorem Store.Sound.purgeHead (h : st.Sound) : st.purgeHead.Sound :=
  Store.Sound.rearm ((h.dropHead 1).of_eq rfl rfl rfl rfl rfl rfl rfl)

theorem Store.Sound.peek (h : st.Sound) {k : Nat} (hk : st.delivered + k ≤ st.records.length) : (st.peek k).Sound :=
  (h.withDelivered hk).of_eq rfl rfl rfl rfl rfl rfl rfl

theorem Store.Sound.refuse (h : st.Sound) : st.refuse.2.Sound := h.of_eq rfl rfl rfl rfl rfl rfl rfl

/-- R56. A frame joins an OPEN store that has room for it. -/
theorem Store.Sound.append (h : st.Sound) {frame : Frame} (hs : st.state ≠ .closed)
    (hr : st.settings.room st.records.length st.blocksUsed (blocksFor frame.length) = true) (rule : Byte) :
    (st.append frame rule).Sound := by
  obtain ⟨hcap, hquota⟩ := (st.settings.room_iff _ _ _).mp hr
  have hdelivered := h.delivered
  refine ⟨?_, ?_, ?_, hquota, h.marks, h.limits, consecutive_append h.numbered rfl, fun hc => absurd hc hs, h.prior, h.priorOpen⟩
    <;> simp only [Store.append]
  · rw [List.length_append]; omega
  · rw [List.length_append, List.length_singleton]; omega
  · rw [blocksOf_append, h.used]; rfl

theorem Store.Sound.judgeMarks (h : st.Sound) (before : Nat) : (st.judgeMarks before).2.Sound := by
  simp only [Store.judgeMarks]
  split
  · exact h.rearm.of_eq rfl rfl rfl rfl rfl rfl rfl
  · exact h.rearm

/-- R20. The flags of records are no part of a store's soundness. -/
theorem Store.Sound.flag (h : st.Sound) {f : Record → Record} (hs : ∀ r, (f r).seq = r.seq)
    (hl : ∀ r, (f r).length = r.length) : ({ st with records := st.records.map f } : Store).Sound := by
  have hblocks : blocksOf (st.records.map f) = blocksOf st.records := by
    simp only [blocksOf, List.map_map, Function.comp_def, Record.blocks, hl]
    rfl
  refine ⟨?_, ?_, h.used.trans hblocks.symm, h.quota, h.marks, h.limits, consecutive_map h.numbered hs, fun hc => ?_, h.prior,
    h.priorOpen⟩
  · simpa using h.delivered
  · simpa using h.capacity
  · simp [h.closed hc]

/-- R50. New settings for a CLOSED store, which holds no record. -/
theorem Store.Sound.configure (h : st.Sound) (hc : st.state = .closed) {ss : StoreSettings} (hv : ss.Valid) :
    ({ st with settings := ss, highArmed := true } : Store).Sound := by
  obtain ⟨⟨-, hcap⟩, hquota, ⟨-, hhigh⟩, hlow⟩ := hv
  have hr := h.closed hc
  have hused : st.blocksUsed = 0 := by rw [h.used, hr]; rfl
  exact ⟨h.delivered, by simp [hr], h.used, fun _ => by simp [hused], ⟨hlow, hhigh⟩, ⟨hcap, hquota⟩, h.numbered, h.closed, h.prior,
    h.priorOpen⟩

end

end Sys2Proof.Machine
end

