-- ==== Sys2Proof/Proofs/StoreRequests.lean ====
section
namespace Sys2Proof.Machine

/-! ### The bodies of the store requests -/

theorem parseStoreConfig_body (i : StoreId) {ss : StoreSettings} (h : ss.Valid) :
    parseStoreConfig (ss.body i) = .ok (i, ss) := by
  obtain ⟨⟨hcap1, hcap⟩, hquota, ⟨hhigh1, hhigh⟩, hlow⟩ := h
  have hc : (byte1 ss.capacity).toNat = ss.capacity := by rw [byte1_toNat]; omega
  have hh : (byte1 ss.highMark).toNat = ss.highMark := by rw [byte1_toNat]; omega
  have hl : (byte1 ss.lowMark).toNat = ss.lowMark := by rw [byte1_toNat]; omega
  have hq := le2_number (n := ss.quota) (by omega)
  have hp : fieldCode [FullPolicy.refuse, .evictOldest] 4 ss.policy.code.toNat = .ok ss.policy := by
    cases ss.policy <;> rfl
  simp [parseStoreConfig, StoreSettings.body, le2_bytes, num2, fieldBelow_idByte, hc, hh, hl, hq, hp, hcap1, hquota, hhigh1,
    hhigh, hlow]

theorem parseStoreAck_body (i : StoreId) (seq : Word) : parseStoreAck (idByte i :: le4 seq.toNat) = .ok (i, seq) := by
  have hseq : num4 (idByte i :: le4 seq.toNat) 1 = seq.toNat := num4_le4 seq.isLt
  simp [parseStoreAck, fieldBelow_idByte, hseq]

theorem parseStore_outOfRange {n : Byte} (h : 7 < n.toNat) : parseStore [n] = .error 1 := dif_neg (by simp; omega)

/-- A change of a store that changes nothing. -/
theorem State.modStore_self {s : State} {i : StoreId} {f : Store → Store} (h : f (s.store i) = s.store i) :
    s.modStore i f = s := by
  rw [State.modStore, h, State.store, vector_set_get]

theorem State.modStore_congr (s : State) (i : StoreId) {f g : Store → Store} (h : f (s.store i) = g (s.store i)) :
    s.modStore i f = s.modStore i g := by rw [State.modStore, State.modStore, h]

/-! ### The states of a store -/

/-- Settles O28: each row in the four states of the store. -/
theorem storeStatesChange : Obligations.StoreStatesChange := by
  intro s tag rest i st becomes refused
  refine ⟨fun ss hv hw => ?_, fun hw => ?_, fun hw => ?_, fun hw => ?_⟩
  · cases hs : st.state <;> simp only [st] at hs <;>
      exact State.execRequest_ok hw rfl (parseStoreConfig_body i hv) (by simp only [hs]; rfl)
  · cases hs : st.state <;> simp only [st] at hs <;>
      exact State.execRequest_ok hw rfl (parseStore_body i) (by simp only [hs]; rfl)
  · cases hs : st.state <;> simp only [st] at hs <;>
      exact State.execRequest_ok hw rfl (parseStore_body i) (by simp only [hs]; rfl)
  · cases hs : st.state <;> simp only [st] at hs
    case opened | paused =>
      by_cases hr : (s.store i).records = []
      · simp only [st, if_pos hr]
        exact State.execRequest_ok hw rfl (parseStore_body i) (by simp only [hs, hr]; rfl)
      · simp only [st, if_neg hr]
        exact State.execRequest_ok hw rfl (parseStore_body i) (by simp only [hs, List.isEmpty_iff, if_neg hr]; rfl)
    case closed | purging => exact State.execRequest_ok hw rfl (parseStore_body i) (by simp only [hs]; rfl)

/-! ### Acknowledging and rewinding -/

theorem Store.ackCount_none {st : Store} {seq : Word} (h : ∀ r ∈ st.records.head?, st.delivered ≤ (seq - r.seq).toNat) :
    st.ackCount seq = none := by
  simp only [Store.ackCount]
  split
  · rfl
  · rename_i r rest hr
    exact if_neg (Nat.not_lt.mpr (h r (by simp [hr])))

theorem Store.ackCount_some {st : Store} {seq : Word} {r : Record} {rest : List Record} (hr : st.records = r :: rest)
    (h : (seq - r.seq).toNat < st.delivered) : st.ackCount seq = some ((seq - r.seq).toNat + 1) := by
  simp only [Store.ackCount, hr, if_pos h]

/-- Settles O32: the count of the records acknowledged, and their removal. -/
theorem storeAckRemoves : Obligations.StoreAckRemoves := by
  intro s tag rest i seq hw st
  have done {u : State} {status : Status} {fields : List Byte} (ha : _ = (u, Response.reply status fields)) :
      exec .storeAck s = .next (u.replied .storeAck tag rest status fields) :=
    State.execRequest_ok hw rfl (parseStoreAck_body i seq) ha
  refine ⟨fun hs => done (if_pos hs), fun hs hr => done ?_, fun r left hs hr hlt => ?_⟩
  · refine (if_neg hs).trans ?_
    rw [show (s.store i).ackCount seq = none from Store.ackCount_none hr]
    rfl
  · refine done ((if_neg hs).trans ?_)
    rw [show (s.store i).ackCount seq = some _ from Store.ackCount_some hr hlt]
    simp only [State.releaseAll_eq, Store.ack_eq]
    rfl

/-- Settles O33: of a store with no record, and so with none delivered, the rewind changes nothing. -/
theorem storeRewindClearsTheMarks : Obligations.StoreRewindClearsTheMarks := by
  intro s tag rest n hw
  refine ⟨fun hn => ?_, fun i hi => ?_⟩
  · exact State.execRequest_badParam hw rfl (parseStore_outOfRange hn)
  · subst hi
    have done {u : State} {status : Status} {fields : List Byte} (ha : _ = (u, Response.reply status fields)) :
        exec .storeRewind s = .next (u.replied .storeRewind tag rest status fields) :=
      State.execRequest_ok hw rfl (parseStore_body i) ha
    refine ⟨fun hs => done (if_pos hs), fun hs => done (if_neg hs), fun hs hsound hr => ?_⟩
    have hd : (s.store i).delivered = 0 := by simpa [hr] using hsound.delivered
    have hself : s.modStore i (fun st => { st with delivered := 0 }) = s := State.modStore_self (by rw [← hd])
    refine done ((if_neg hs).trans ?_)
    rw [hself, hd]
    rfl

end Sys2Proof.Machine
end

