-- ==== Sys2Proof/Proofs/StoreReads.lean ====
section
namespace Sys2Proof.Machine

/-! ### The records that a read returns -/

/-- R60. The size of a STORE_READ reply's body with these records. -/
def readSize (rs : List Record) : Nat := 4 + (rs.map fun r => 18 + r.length).sum

theorem readSize_append (rs : List Record) (r : Record) : readSize (rs ++ [r]) = readSize rs + 18 + r.length := by
  simp [readSize]
  omega

/-- R60. After the first record the read goes on as long as both limits hold; `seen` are those returned before. -/
theorem chosen_from {recordLimit byteLimit : Nat} {seen rs more : List Record} (hs : seen ≠ [])
    (hn : (seen ++ rs).length ≤ recordLimit) (hb : rs ≠ [] → readSize (seen ++ rs) ≤ byteLimit)
    (hstop : ∀ r left, more = r :: left →
      (seen ++ rs).length = recordLimit ∨ byteLimit < readSize (seen ++ rs ++ [r])) :
    chosen recordLimit byteLimit (readSize seen) seen.length (rs ++ more) = rs := by
  have hpos : seen.length ≠ 0 := by simpa using hs
  induction rs generalizing seen with
  | nil =>
    cases more with
    | nil => rfl
    | cons r left =>
      refine if_neg ?_
      have := hstop r left rfl
      simp only [List.append_nil, readSize_append] at this
      omega
  | cons r rs ih =>
    have hsize : readSize (seen ++ [r]) ≤ byteLimit := by
      refine Nat.le_trans ?_ (hb (List.cons_ne_nil _ _))
      simp only [readSize, List.map_append, List.map_cons, List.map_nil, List.sum_append, List.sum_cons, List.sum_nil]
      omega
    have hgoes : seen.length < recordLimit := by
      simp only [List.length_append, List.length_cons] at hn
      omega
    have hsplit : seen ++ r :: rs = seen ++ [r] ++ rs := by simp
    have hrest := ih (seen := seen ++ [r]) (by simp) (by rwa [← hsplit]) (fun _ => hsplit ▸ hb (List.cons_ne_nil _ _))
      (by rwa [← hsplit]) (by simp)
    rw [readSize_append] at hsize hrest
    rw [List.length_append, List.length_singleton] at hrest
    exact (if_pos (.inr ⟨hgoes, hsize⟩)).trans (congrArg (r :: ·) hrest)

/-- R60. The records returned are the only ones that both limits allow and after which one of them stops the read. -/
theorem chosen_eq {recordLimit byteLimit : Nat} {rs more : List Record} (hn : rs.length ≤ recordLimit)
    (hb : readSize rs ≤ byteLimit ∨ rs.length = 1) (hnil : rs = [] → more = [])
    (hstop : ∀ r left, more = r :: left → rs.length = recordLimit ∨ byteLimit < readSize (rs ++ [r])) :
    chosen recordLimit byteLimit 4 0 (rs ++ more) = rs := by
  cases rs with
  | nil => rw [hnil rfl]; rfl
  | cons r rs =>
    have hrest : chosen recordLimit byteLimit (readSize [r]) 1 (rs ++ more) = rs := by
      refine chosen_from (seen := [r]) (List.cons_ne_nil _ _) hn (fun hne => hb.resolve_right fun h1 => hne ?_) hstop
      simpa using h1
    have hsize : readSize [r] = 4 + 18 + r.length := readSize_append [] r
    rw [hsize] at hrest
    exact (if_pos (.inl rfl)).trans (congrArg (r :: ·) hrest)

/-! ### What a read does to the store -/

theorem State.readRecords_store (s : State) (rs : List Record) (i : StoreId) : (s.readRecords rs).2.store i = s.store i := by
  obtain ⟨-, -, -, -, -, -, hs, -⟩ := s.readRecords_frame rs
  rw [State.store, hs, State.store]

theorem State.store_withMemory (s : State) (m : RecordMemory) (i : StoreId) :
    ({ s with memory := m } : State).store i = s.store i := rfl

section
variable {s : State} {i : StoreId} {recordLimit byteLimit : Nat} {rs more : List Record}

theorem decide_lt_length_append (n : Nat) (more : List Record) : decide (n < n + more.length) = !more.isEmpty := by
  cases more <;> simp

/-- R61. PEEK marks the records that it returns delivered. -/
theorem State.serveRead_peek (hd : (s.store i).delivered ≤ (s.store i).records.length)
    (hrs : (s.store i).records.drop (s.store i).delivered = rs ++ more)
    (hc : chosen recordLimit byteLimit 4 0 (rs ++ more) = rs) :
    s.serveRead i false recordLimit byteLimit = State.grant ((s.readRecords rs).2.modStore i fun st => { st with
      delivered := st.delivered + rs.length
      counters := { st.counters with delivered := sat32 (st.counters.delivered + rs.length) } })
      ([idByte i, byte1 rs.length, yesNo (!more.isEmpty)] ++ (s.readRecords rs).1) := by
  have hlen : (s.store i).records.length = (s.store i).delivered + rs.length + more.length := by
    have := congrArg List.length hrs
    simp only [List.length_drop, List.length_append] at this
    omega
  simp only [State.serveRead, hrs, hc, Bool.false_eq_true, if_false, State.store_modStore_same, State.readRecords_store,
    Store.peek, hlen, decide_lt_length_append]
  rfl

/-- R62. TAKE removes the records that it returns, and releases their references. -/
theorem State.serveRead_take (hd : (s.store i).delivered = 0) (hrs : (s.store i).records = rs ++ more)
    (hc : chosen recordLimit byteLimit 4 0 (rs ++ more) = rs) :
    s.serveRead i true recordLimit byteLimit = State.grant { (s.readRecords rs).2.modStore i fun st => { st with
        records := more
        blocksUsed := st.blocksUsed - blocksOf rs
        highArmed := st.highArmed || decide (more.length ≤ st.settings.lowMark)
        counters := { st.counters with taken := sat32 (st.counters.taken + rs.length) } } with
      memory := (rs.map Record.desc).foldl RecordMemory.release (s.readRecords rs).2.memory }
      ([idByte i, byte1 rs.length, yesNo (!more.isEmpty)] ++ (s.readRecords rs).1) := by
  have hmore : decide (0 < more.length) = !more.isEmpty := by simpa using decide_lt_length_append 0 more
  have htaken : (s.store i).take rs.length = { s.store i with
      records := more
      blocksUsed := (s.store i).blocksUsed - blocksOf rs
      highArmed := (s.store i).highArmed || decide (more.length ≤ (s.store i).settings.lowMark)
      counters := { (s.store i).counters with taken := sat32 ((s.store i).counters.taken + rs.length) } } := by
    rw [Store.take_eq, hrs]
    simp [hd]
  simp only [State.serveRead, hrs, hd, List.drop_zero, hc, if_true, State.releaseAll_eq, State.store_withMemory,
    State.store_modStore_same, State.readRecords_store, htaken, hmore]
  refine congrArg (fun t : State => State.grant { t with memory := _ } _) (State.modStore_congr _ _ ?_)
  rw [State.readRecords_store, htaken]

end

theorem parseStoreRead_body (i : StoreId) (take : Bool) {recordLimit byteLimit : Nat} (h1 : 1 ≤ recordLimit)
    (h2 : recordLimit ≤ 16) (h3 : 64 ≤ byteLimit) (h4 : byteLimit ≤ 1100) :
    parseStoreRead ([idByte i, yesNo take, byte1 recordLimit] ++ le2 byteLimit) = .ok (i, take, recordLimit, byteLimit) := by
  have hr : (byte1 recordLimit).toNat = recordLimit := by rw [byte1_toNat]; omega
  have hb := le2_number (n := byteLimit) (by omega)
  have ht : fieldCode [false, true] 2 (yesNo take).toNat = .ok take := by cases take <;> rfl
  simp [parseStoreRead, le2_bytes, num2, fieldBelow_idByte, hr, hb, ht, h1, h2, h3, h4]

/-- Settles O30: the records are those that `chosen` takes, and the two modes are `serveRead_peek` and `serveRead_take`. -/
theorem storeReadServed : Obligations.StoreReadServed := by
  intro s tag rest i take recordLimit byteLimit h1 h2 h3 h4 hw st size
  have done {u : State} {status : Status} {fields : List Byte} (ha : _ = (u, Response.reply status fields)) :
      exec .storeRead s = .next (u.replied .storeRead tag rest status fields) :=
    State.execRequest_ok hw rfl (parseStoreRead_body i take h1 h2 h3 h4) ha
  refine ⟨fun hs => done (if_pos hs), fun hs ht hd => done ((if_neg hs).trans (if_pos ⟨ht, hd⟩)), ?_⟩
  intro hs ht hd rs more hrs hn hb hnil hstop read fields
  have hc := chosen_eq hn hb hnil hstop
  refine ⟨fun hmode => done ((if_neg hs).trans ((if_neg ?_).trans ?_)), fun hmode => done ((if_neg hs).trans ((if_neg ?_).trans ?_))⟩
  · simp [hmode]
  · simp only [hmode]
    exact State.serveRead_peek hd hrs hc
  · have hd0 := ht.resolve_left (by simp [hmode])
    exact fun h => h.2 hd0
  · have hd0 := ht.resolve_left (by simp [hmode])
    simp only [hmode]
    refine State.serveRead_take hd0 ?_ hc
    rwa [hd0, List.drop_zero] at hrs

end Sys2Proof.Machine
end

