-- ==== Sys2Proof/Proofs/StoreFiling.lean ====
section
namespace Sys2Proof.Machine

/-! ### Filing -/

/-- R54. A filing is refused by the state of the store, by the quota that its blocks alone pass, or under REFUSE by a limit
that it would pass. -/
theorem Store.refuses_iff (st : Store) (n : Nat) : st.refuses n = true ↔ st.state ≠ .opened ∨
    (st.settings.quota ≠ 0 ∧ st.settings.quota < n) ∨
    (st.settings.policy = .refuse ∧ (st.settings.capacity ≤ st.records.length ∨
      (st.settings.quota ≠ 0 ∧ st.settings.quota < st.blocksUsed + n))) := by
  simp only [Store.refuses, Bool.or_eq_true, Bool.and_eq_true, bne_iff_ne, beq_iff_eq, decide_eq_true_eq]
  tauto

/-- R57. A store is full for one more record exactly when it has no room for it. -/
theorem StoreSettings.not_room_iff (ss : StoreSettings) (count used n : Nat) : ¬ ss.room count used n = true ↔
    ss.capacity ≤ count ∨ (ss.quota ≠ 0 ∧ ss.quota < used + n) := by
  rw [StoreSettings.room_iff]
  omega

/-- R54, R57. How many records a filing that is not refused evicts. -/
def Store.evictionsFor (st : Store) (n : Nat) : Nat :=
  if st.settings.policy = .evictOldest then evictions st.settings n st.blocksUsed st.records else 0

/-- R57. They are the fewest that make room: none under REFUSE, where a filing without room is refused. -/
theorem Store.evictionsFor_eq {st : Store} {n : Nat} {gone kept : List Record} (hused : st.blocksUsed = blocksOf st.records)
    (hn : ¬ st.refuses n = true) (hsplit : st.records = gone ++ kept)
    (hkept : st.settings.room kept.length (blocksOf kept) n = true)
    (hgone : ∀ before after, gone = before ++ after → after ≠ [] →
      ¬ st.settings.room (after ++ kept).length (blocksOf (after ++ kept)) n = true) :
    st.evictionsFor n = gone.length := by
  cases hp : st.settings.policy with
  | evictOldest =>
    refine (if_pos hp).trans ?_
    rw [hused, hsplit]
    exact evictions_append hkept hgone
  | refuse =>
    refine (if_neg (by simp [hp])).trans ?_
    have hroom : st.settings.room st.records.length (blocksOf st.records) n = true := by
      by_contra hfull
      rw [StoreSettings.not_room_iff, ← hused] at hfull
      exact hn ((st.refuses_iff n).mpr (.inr (.inr ⟨hp, hfull⟩)))
    cases gone with
    | nil => rfl
    | cons r gone => exact absurd (hsplit ▸ hroom) (hgone [] (r :: gone) rfl (List.cons_ne_nil _ _))

/-- R58. The high mark's notice and its arming are one decision. -/
theorem Store.judgeMarks_eq (st : Store) (before : Nat) :
    let armed : Bool := st.highArmed || decide (st.records.length ≤ st.settings.lowMark)
    let raises : Bool := armed && decide (before < st.settings.highMark) && decide (st.settings.highMark ≤ st.records.length)
    st.judgeMarks before = (raises, { st with highArmed := armed && !raises }) := by
  intro armed raises
  have hraises : (st.rearm.highArmed && decide (before < st.rearm.settings.highMark) &&
      decide (st.rearm.settings.highMark ≤ st.rearm.records.length)) = raises := by rw [Store.rearm_eq]
  simp only [Store.judgeMarks, hraises]
  cases hr : raises <;> simp [Store.rearm_eq, armed]

theorem State.file_refused {s : State} {i : StoreId} {f : Frame} (h : (s.store i).refuses (blocksFor f.length) = true)
    (rule : Byte) :
    let u := s.modStore i fun st => st.refuse.2
    s.file i f rule = (none, if (s.store i).refusingArmed then u.raise .storeRefusing i.val .none else u) := by
  simp only [State.file, if_pos h]
  rfl

/-- R24, R56. A filing that is not refused: the store `made`, the records evicted released, and a reference of the record's
own. -/
theorem State.file_filed {s : State} {i : StoreId} {f : Frame} {rule : Byte} {gone kept : List Record} {raises : Bool}
    {made : Store} (h : ¬ (s.store i).refuses (blocksFor f.length) = true) (hsplit : (s.store i).records = gone ++ kept)
    (hk : (s.store i).evictionsFor (blocksFor f.length) = gone.length)
    (hmade : (((s.store i).evict gone.length).append f rule).judgeMarks (s.store i).records.length = (raises, made)) :
    let u := { s.modStore i fun _ => made with
      memory := ((gone.map Record.desc).foldl RecordMemory.release s.memory).modDesc f.desc fun x =>
        { x with refs := x.refs + 1 } }
    s.file i f rule = (some (s.store i).nextSeq, if raises then u.raise .storeHigh i.val .none else u) := by
  have htake : (s.store i).records.take gone.length = gone := by rw [hsplit, List.take_left]
  have hfile : s.file i f rule = (some (s.store i).nextSeq,
      let k := (s.store i).evictionsFor (blocksFor f.length)
      let r := (((s.store i).evict k).append f rule).judgeMarks (s.store i).records.length
      let u := ((s.modStore i fun _ => r.2).releaseAll (((s.store i).records.take k).map (·.desc))).acquire f.desc
      if r.1 then u.raise .storeHigh i.val .none else u) := by
    simp only [State.file, if_neg h]
    rfl
  simp only [hk, hmade, htake, State.releaseAll_eq] at hfile
  exact hfile

/-- R56, R57. The store once the records `gone` have been evicted and the frame has become the record at the tail. -/
theorem Store.append_evict {st : Store} {gone kept : List Record} (hused : st.blocksUsed = blocksOf st.records)
    (hsplit : st.records = gone ++ kept) (f : Frame) (rule : Byte) :
    let records := kept ++ [⟨st.nextSeq, f.port, rule, f.flags, f.arrival, f.close, f.length, f.desc⟩]
    (st.evict gone.length).append f rule = { st with
      records := records
      delivered := st.delivered - gone.length
      blocksUsed := blocksOf records
      nextSeq := st.nextSeq + 1
      refusingArmed := true
      counters := { st.counters with
        filed := sat32 (st.counters.filed + 1)
        evicted := sat32 (st.counters.evicted + gone.length)
        evictedDelivered := sat32 (st.counters.evictedDelivered + min gone.length st.delivered) } } := by
  intro records
  have hblocks : st.blocksUsed - blocksOf gone + blocksFor f.length = blocksOf records := by
    have hrecords : blocksOf records = blocksOf kept + blocksFor f.length := blocksOf_append _ _
    rw [hused, hsplit, blocksOf_append, hrecords, Nat.add_sub_cancel_left]
  simp only [Store.append, Store.evict, Store.dropHead, hsplit, List.take_left, List.drop_left, hblocks]
  rfl

/-- Settles O29: the records gone are those that `evictionsFor` counts. -/
theorem filingJudged : Obligations.FilingJudged := by
  intro s i f rule st ss n blocksOf' full refused hused
  have hrefuses : st.refuses n = true ↔ refused := by
    rw [Store.refuses_iff, hused]
  have hroom (rs : List Record) : ¬ ss.room rs.length (blocksOf rs) n = true ↔ full rs := ss.not_room_iff _ _ _
  refine ⟨fun hr => State.file_refused (hrefuses.mpr hr) rule, fun hr gone kept hsplit hkept hgone => ?_⟩
  have hk : st.evictionsFor n = gone.length := Store.evictionsFor_eq hused (mt hrefuses.mp hr) hsplit
    (not_not.mp (mt (hroom kept).mp hkept)) fun before after h hne => (hroom _).mpr (hgone before after h hne)
  refine State.file_filed (mt hrefuses.mp hr) hsplit hk ?_
  rw [Store.append_evict hused hsplit f rule]
  exact Store.judgeMarks_eq _ _

end Sys2Proof.Machine
end

