-- ==== Sys2Proof/Proofs/StorePurges.lean ====
section
namespace Sys2Proof.Machine

/-! ### STORE_PURGE -/

theorem OpTable.holds_iff (t : OpTable) (sel : OpWork → Bool) :
    t.holds sel = true ↔ ∃ e ∈ t.entries, sel e.work = true := by
  simp [OpTable.holds]

theorem OpTable.full_iff (t : OpTable) : t.full = true ↔ 4 ≤ t.entries.length := decide_eq_true_iff

/-- R164. An operation that is the only one of its target ends as it is accepted. -/
theorem OpTable.complete_accept {t : OpTable} {sel : OpWork → Bool} {work : OpWork} (h : ¬ t.holds sel = true)
    (hw : sel work = true) (tag : Byte) (now : Word) (status : OpStatus) (byRequest : Bool) :
    (t.accept tag work now).complete sel status byRequest =
      ⟨t.entries ++ [⟨tag, work, some status, now, false, byRequest⟩], t.completed ++ [tag]⟩ := by
  have hpicks : (t.accept tag work now).Picks sel t.entries ⟨tag, work, none, now, false, false⟩ [] := by
    refine ⟨rfl, rfl, hw, fun x hx => ?_⟩
    rw [List.append_nil] at hx
    by_contra hsel
    exact h ((t.holds_iff sel).mpr ⟨x, hx, by simpa using hsel⟩)
  have hdone := hpicks.complete_progress (f := fun w => w) (fun _ => rfl) status byRequest
  rwa [OpTable.progress_id] at hdone

/-- The reply to a request clears the reply pending marks, so that one set before makes no difference. -/
theorem State.replied_replyPending (u : State) (entries : List OpEntry) (e : OpEntry) (completed : List Byte) (mark : Bool)
    (k : Kind) (tag : Byte) (rest : List Message) (status : Status) (fields : List Byte) :
    ({ u with ops := ⟨entries ++ [{ e with replyPending := mark }], completed⟩ } : State).replied k tag rest status fields
      = ({ u with ops := ⟨entries ++ [e], completed⟩ } : State).replied k tag rest status fields := by
  simp only [State.replied, List.map_append, List.map_cons, List.map_nil]

/-- Two changes of one store are one. -/
theorem State.modStore_modStore (s : State) (i : StoreId) (f g : Store → Store) :
    (s.modStore i f).modStore i g = s.modStore i fun st => g (f st) := by
  have h : (s.modStore i f).store i = f (s.store i) := s.store_modStore_same i f
  simp only [State.modStore] at h ⊢
  rw [h]
  simp [Vector.set]

/-- R69. A purge that is accepted, and whether its store is then empty. -/
theorem State.purgeAccepted_eq {s : State} {i : StoreId} (h : ¬ s.ops.holds (·.isPurgeOf i) = true) (tag : Byte) :
    ((s.modOps fun t => t.accept tag (.purge i 0) s.timebase).modStore i fun st =>
        { st with prior := some st.state, state := .purging }).judgePurge i true =
      if (s.store i).records = [] then { s.modStore i fun st => { st with prior := none } with
        ops := ⟨s.ops.entries ++ [⟨tag, .purge i 0, some .done, s.timebase, false, true⟩], s.ops.completed ++ [tag]⟩ }
      else { s.modStore i fun st => { st with state := .purging, prior := some st.state } with
        ops := s.ops.accept tag (.purge i 0) s.timebase } := by
  have hdone := OpTable.complete_accept h (work := .purge i 0) (by simp [OpWork.isPurgeOf]) tag s.timebase .done true
  simp only [State.judgePurge, State.store_modStore_same, State.store_modOps, List.isEmpty_iff]
  by_cases hr : (s.store i).records = []
  · rw [if_pos hr, if_pos hr, ← hdone, State.endPurge, State.modStore_modStore]
    rfl
  · rw [if_neg hr, if_neg hr]
    rfl

/-! ### PURGE_REMOVAL -/

/-- R69. The count of a purge rises. -/
def OpWork.purgeCounted (w : OpWork) : OpWork :=
  match w with
  | .purge store removed => .purge store (removed + 1)
  | w => w

theorem OpWork.isPurgeOf_purgeCounted (w : OpWork) (i : StoreId) : w.purgeCounted.isPurgeOf i = w.isPurgeOf i := by
  cases w <;> rfl

/-- R69. The head record goes, and with the last one the purge ends. -/
theorem State.purgeOne_eq {s : State} {i : StoreId} {r : Record} {left : List Record} (hst : (s.store i).state = .purging)
    (hr : (s.store i).records = r :: left) :
    let counted := s.ops.progress (·.isPurgeOf i) OpWork.purgeCounted
    s.purgeOne i = { s.modStore i fun st => { st with
        records := left
        delivered := st.delivered - 1
        blocksUsed := st.blocksUsed - (r.length + 47) / 48
        highArmed := st.highArmed || decide (left.length ≤ st.settings.lowMark)
        counters := { st.counters with purged := min (st.counters.purged + 1) 4294967295 }
        state := if left = [] then st.prior.getD .purging else .purging
        prior := if left = [] then none else st.prior } with
      memory := s.memory.release r.desc
      ops := if left = [] then counted.complete (·.isPurgeOf i) .done false else counted } := by
  intro counted
  have hafter : ((s.modStore i Store.purgeHead).store i).records = left := by
    rw [State.store_modStore_same, Store.purgeHead_eq, hr]
    rfl
  have hone : s.purgeOne i = (((s.modStore i Store.purgeHead).release r.desc).modOps fun _ => counted).judgePurge i false := by
    rw [State.purgeOne, hr]
    rfl
  have hleft : ((((s.modStore i Store.purgeHead).release r.desc).modOps fun _ => counted).store i).records = left := hafter
  rw [hone, State.judgePurge, hleft]
  cases left with
  | nil =>
    refine congrArg (fun u : State => { u with
      memory := s.memory.release r.desc, ops := counted.complete (·.isPurgeOf i) .done false })
      ((s.modStore_modStore i Store.purgeHead fun st => { st with state := st.prior.getD st.state, prior := none }).trans
        (s.modStore_congr i ?_))
    rw [Store.purgeHead_eq]
    simp [hr, hst, blocksOf, Record.blocks, blocksFor, sat32]
  | cons r' left' =>
    refine congrArg (fun u : State => { u with memory := s.memory.release r.desc, ops := counted }) (s.modStore_congr i ?_)
    rw [Store.purgeHead_eq]
    simp [hr, hst, blocksOf, Record.blocks, blocksFor, sat32]

/-- R69. What a removal makes of an entry of the long-operation table. -/
theorem OpEntry.purgeCounted_eq (e : OpEntry) (i : StoreId) (done : Prop) [Decidable done] :
    (match e.status.isNone && e.work.isPurgeOf i, e.work with
      | true, .purge store removed => { e with
        work := .purge store (removed + 1)
        status := if done then some .done else none
        replyPending := if done then false else e.replyPending }
      | _, _ => e) =
    if e.status.isNone && e.work.isPurgeOf i then { e with
      work := e.work.purgeCounted
      status := if done then some .done else e.status
      replyPending := if done then false else e.replyPending } else e := by
  obtain ⟨tag, work, status, start, acceptedSent, replyPending⟩ := e
  cases status with
  | some x => rfl
  | none =>
    cases work with
    | purge store removed => by_cases h : store = i <;> simp [OpWork.isPurgeOf, OpWork.purgeCounted, h]
    | drain | check => rfl

/-- R69, R164. The long-operation table after a removal. -/
theorem OpTable.purgeCounted_eq (t : OpTable) (i : StoreId) (done : Prop) [Decidable done] :
    (if done then (t.progress (·.isPurgeOf i) OpWork.purgeCounted).complete (·.isPurgeOf i) .done false
      else t.progress (·.isPurgeOf i) OpWork.purgeCounted) =
    ⟨t.entries.map fun e => if e.status.isNone && e.work.isPurgeOf i then { e with
        work := e.work.purgeCounted
        status := if done then some .done else e.status
        replyPending := if done then false else e.replyPending } else e,
      t.completed ++ if done then (t.entries.filter fun e => e.status.isNone && e.work.isPurgeOf i).map (·.tag) else []⟩ := by
  have hsel (w : OpWork) : w.purgeCounted.isPurgeOf i = w.isPurgeOf i := w.isPurgeOf_purgeCounted i
  by_cases h : done
  · simp only [if_pos h]
    have hentries := t.complete_progress_entries (sel := (·.isPurgeOf i)) hsel .done false
    have hcompleted := t.complete_progress_completed (sel := (·.isPurgeOf i)) hsel .done false
    exact congrArg₂ OpTable.mk hentries hcompleted
  · simp only [if_neg h, List.append_nil]
    rfl

/-- Settles O34: the request by the outcome of each check, and the removal by whether a record is left. -/
theorem storePurged : Obligations.StorePurged := by
  constructor
  · intro s tag rest i hw st inUse
    have hin : (s.ops.holds (·.isPurgeOf i) = true) = inUse := propext (s.ops.holds_iff _)
    have hfull : (s.ops.full = true) = (4 ≤ s.ops.entries.length) := propext s.ops.full_iff
    refine ⟨fun hu => ?_, fun hu hc => ?_, fun hu hc hf => ?_, fun hu hc hf => ?_⟩
    · exact State.execRequest_ok hw rfl (parseStore_body i) (if_pos (hin ▸ hu))
    · exact State.execRequest_ok hw rfl (parseStore_body i) ((if_neg (hin ▸ hu)).trans (if_pos hc))
    · exact State.execRequest_ok hw rfl (parseStore_body i)
        (((if_neg (hin ▸ hu)).trans (if_neg hc)).trans (if_pos (hfull ▸ hf)))
    · have hu : ¬ s.ops.holds (·.isPurgeOf i) = true := hin ▸ hu
      have hf : ¬ s.ops.full = true := hfull ▸ hf.not_ge
      have hrun (u : State) (he : u = if st.records = [] then _ else _) :
          exec .storePurge s = .next (u.replied .storePurge tag rest .accepted []) :=
        State.execRequest_ok hw rfl (parseStore_body i) (((if_neg hu).trans (if_neg hc)).trans
          ((if_neg hf).trans (Prod.ext ((State.purgeAccepted_eq hu tag).trans he.symm) rfl)))
      refine ⟨fun hrs => hrun _ (if_neg hrs).symm, fun hrs => ?_⟩
      rw [hrun _ (if_pos hrs).symm]
      exact congrArg _ (State.replied_replyPending (s.modStore i fun st => { st with prior := none }) s.ops.entries
        ⟨tag, .purge i 0, some .done, s.timebase, false, false⟩ (s.ops.completed ++ [tag]) true ..)
  · intro s i hr st
    constructor
    · intro hst
      rw [exec, execPurgeRemoval, if_neg hst]
      exact State.unlessReset_running hr s
    · intro r left hst hrs purge
      rw [exec, execPurgeRemoval, if_pos hst, State.purgeOne_eq hst hrs, State.unlessReset_running hr, OpTable.purgeCounted_eq]
      simp only [← OpEntry.purgeCounted_eq]
      rfl

end Sys2Proof.Machine
end

