-- ==== Sys2Proof/Proofs/Draining.lean ====
section
namespace Sys2Proof.Machine

/-! ### Which ports are draining, under the operations of the framer -/

/-- R131. Which ports are draining. -/
def State.drains (s : State) (p : PortId) : Bool := (s.port p).draining

theorem State.drains_of_ports {s t : State} (h : t.ports = s.ports) : t.drains = s.drains := by
  funext p
  rw [State.drains, State.port, h]
  rfl

@[simp] theorem State.drains_modPort {s : State} {p : PortId} {f : Port → Port}
    (h : (f (s.port p)).draining = (s.port p).draining) : (s.modPort p f).drains = s.drains := by
  funext x
  simp only [State.drains, State.port_modPort]
  split
  · subst x
    exact h
  · rfl

@[simp] theorem State.drains_modMemory (s : State) (f : RecordMemory → RecordMemory) : (s.modMemory f).drains = s.drains := rfl
@[simp] theorem State.drains_modClassifier (s : State) (f : Classifier → Classifier) :
    (s.modClassifier f).drains = s.drains := rfl
@[simp] theorem State.drains_raise (s : State) (k : NoticeKind) (n : Nat) (d : Detail) : (s.raise k n d).drains = s.drains := rfl
@[simp] theorem State.drains_release (s : State) (d : DescId) : (s.release d).drains = s.drains := rfl
@[simp] theorem State.drains_releaseAll (s : State) (ds : List DescId) : (s.releaseAll ds).drains = s.drains :=
  State.drains_of_ports (by simp)
@[simp] theorem State.drains_checkBlock (s : State) (d : DescId) (b : BlockId) : (s.checkBlock d b).drains = s.drains :=
  State.drains_of_ports (by simp)
@[simp] theorem State.drains_storeInFrame (s : State) (p : PortId) (v : Byte) : (s.storeInFrame p v).2.drains = s.drains :=
  State.drains_of_ports (by simp)
@[simp] theorem State.drains_storeSeq (s : State) (p : PortId) (vs : List Byte) : (s.storeSeq p vs).2.drains = s.drains :=
  State.drains_of_ports (by simp)

@[simp] theorem State.drains_count (s : State) (p : PortId) (f : PortCounters → PortCounters) : (s.count p f).drains = s.drains :=
  State.drains_modPort rfl

@[simp] theorem State.drains_modFramer (s : State) (p : PortId) (f : Framer → Framer) : (s.modFramer p f).drains = s.drains :=
  State.drains_modPort rfl

@[simp] theorem State.drains_dropFrame (s : State) (p : PortId) : (s.dropFrame p).drains = s.drains := by
  simp only [State.dropFrame]
  split <;> simp

@[simp] theorem State.drains_discardFrame (s : State) (p : PortId) (c : DiscardCause) : (s.discardFrame p c).drains = s.drains := by
  simp [State.discardFrame]

@[simp] theorem State.drains_beginFrame (s : State) (p : PortId) (a l : Word) (m : Bool) :
    (s.beginFrame p a l m).2.drains = s.drains := by
  simp only [State.beginFrame]
  split <;> simp

@[simp] theorem State.drains_notePart (s : State) (p : PortId) (c : Char) : (s.notePart p c).drains = s.drains := by
  simp [State.notePart]

@[simp] theorem State.drains_flagFrame (s : State) (p : PortId) (f : FrameFlags → FrameFlags) :
    (s.flagFrame p f).drains = s.drains := by
  simp [State.flagFrame]

@[simp] theorem State.drains_flagIncomplete (s : State) (p : PortId) (b : Bool) : (s.flagIncomplete p b).drains = s.drains := by
  simp [State.flagIncomplete]

@[simp] theorem State.drains_truncateFrame (s : State) (p : PortId) : (s.truncateFrame p).drains = s.drains := by
  simp [State.truncateFrame]

@[simp] theorem State.drains_completeFrame (s : State) (p : PortId) (a : Assembly) (t : Word) :
    (s.completeFrame p a t).drains = s.drains := by
  simp only [State.completeFrame]
  split <;> simp

@[simp] theorem State.drains_finishClose (s : State) (p : PortId) (t : Word) : (s.finishClose p t).drains = s.drains := by
  simp only [State.finishClose]
  (repeat' split) <;> simp

@[simp] theorem State.drains_closeFrame (s : State) (p : PortId) (k : CloseKind) (t : Word) :
    (s.closeFrame p k t).drains = s.drains := by
  cases k with
  | truncated => simp [State.closeFrame]
  | ended b => cases b <;> simp [State.closeFrame]
  | incomplete b =>
    simp only [State.closeFrame]
    split
    · simp
    · have h := s.drains_storeSeq p ((s.framer p).held.map (·.value))
      split <;> rename_i t e <;> rw [e] at h
      · simpa using h
      · simpa using h
      · split <;> simpa using h

@[simp] theorem State.drains_storeFailed (s : State) (p : PortId) (r : Stored) (b : Bool) (t : Word) :
    (s.storeFailed p r b t).drains = s.drains := by
  cases r <;> simp only [State.storeFailed]
  · split <;> simp
  · simp

@[simp] theorem State.drains_endFrame (s : State) (p : PortId) (b : Bool) (t : Word) : (s.endFrame p b t).drains = s.drains := by
  simp [State.endFrame]

@[simp] theorem State.drains_delimitedBody (s : State) (p : PortId) (c : Char) : (s.delimitedBody p c).drains = s.drains := by
  simp only [State.delimitedBody]
  (repeat' split) <;> simp

@[simp] theorem State.drains_delimitedHunt (s : State) (p : PortId) (c : Char) : (s.delimitedHunt p c).drains = s.drains := by
  simp only [State.delimitedHunt]
  (repeat' split) <;> simp

@[simp] theorem State.drains_delimitedSkip (s : State) (p : PortId) (c : Char) : (s.delimitedSkip p c).drains = s.drains := by
  simp only [State.delimitedSkip]
  (repeat' split) <;> simp

@[simp] theorem State.drains_judgeHeader (s : State) (p : PortId) (t : Word) : (s.judgeHeader p t).drains = s.drains := by
  simp only [State.judgeHeader]
  (repeat' split) <;> simp

@[simp] theorem State.drains_judgeSkip (s : State) (p : PortId) : (s.judgeSkip p).drains = s.drains := by
  simp only [State.judgeSkip]
  (repeat' split) <;> simp

@[simp] theorem State.drains_lengthUnstored (s : State) (p : PortId) (c : Char) : (s.lengthUnstored p c).drains = s.drains := by
  simp [State.lengthUnstored]

@[simp] theorem State.drains_lengthStart (s : State) (p : PortId) (c : Char) :
    (State.lengthChar.start p c s).drains = s.drains := by
  simp only [State.lengthChar.start]
  (repeat' split) <;> simp

@[simp] theorem State.drains_lengthChar (s : State) (p : PortId) (c : Char) : (s.lengthChar p c).drains = s.drains := by
  simp only [State.lengthChar]
  (repeat' split) <;> simp

@[simp] theorem State.drains_gapStore (s : State) (p : PortId) (c : Char) : (State.gapChar.store p c s).drains = s.drains := by
  simp [State.gapChar.store]

@[simp] theorem State.drains_gapChar (s : State) (p : PortId) (c : Char) : (s.gapChar p c).drains = s.drains := by
  simp only [State.gapChar]
  (repeat' split) <;> simp

@[simp] theorem State.drains_framerChar (s : State) (p : PortId) (c : Char) : (s.framerChar p c).drains = s.drains := by
  simp only [State.framerChar]
  (repeat' split) <;> simp

@[simp] theorem State.drains_framerBoundary (s : State) (p : PortId) (b : Bool) : (s.framerBoundary p b).drains = s.drains := by
  simp only [State.framerBoundary, State.closeIncomplete]
  (repeat' split) <;> simp

@[simp] theorem State.drains_takeExpiries (s : State) (p : PortId) (n : Nat) : (s.takeExpiries p n).drains = s.drains := by
  induction n generalizing s with
  | zero => rfl
  | succ n ih => exact (ih _).trans (s.drains_framerBoundary p false)

theorem State.drains_takeItem (s : State) (p : PortId) : (s.takeItem p).drains = s.drains := by
  simp only [State.takeItem]
  (repeat' split) <;> simp

theorem State.drains_quietExpiry (s : State) (p : PortId) : (s.quietExpiry p).drains = s.drains := by
  simp only [State.quietExpiry]
  (repeat' split) <;> simp

theorem State.drains_abortReceiving (s : State) (p : PortId) : (s.abortReceiving p).drains = s.drains := by
  simp only [State.abortReceiving, State.abortFraming]
  split <;> simp

end Sys2Proof.Machine
end

