-- ==== Sys2Proof/Proofs/OpTables.lean ====
section
namespace Sys2Proof.Machine

/-! ### The long-operation table -/

/-- R163. The table holds a RUNNING operation that `sel` picks. -/
def OpTable.runs (t : OpTable) (sel : OpWork → Bool) : Bool := t.entries.any fun e => e.running && sel e.work

theorem OpTable.runs_iff (t : OpTable) (sel : OpWork → Bool) :
    t.runs sel = true ↔ ∃ e ∈ t.entries, e.running = true ∧ sel e.work = true := by
  simp [OpTable.runs]

/-- R163. The kind and target of an operation, by which the table holds at most one. -/
def OpWork.key (w : OpWork) : Byte × Byte := (w.code, w.target)

theorem byte1_eq_iff {n : Nat} (h : n ≤ 256) (i j : Fin n) : byte1 i.val = byte1 j.val ↔ i = j := by
  refine ⟨fun he => Fin.ext ?_, fun he => he ▸ rfl⟩
  have hnat := congrArg BitVec.toNat he
  rwa [byte1_toNat, byte1_toNat, Nat.mod_eq_of_lt (i.isLt.trans_le h), Nat.mod_eq_of_lt (j.isLt.trans_le h)] at hnat

theorem OpWork.isPurgeOf_iff (w : OpWork) (i : StoreId) : w.isPurgeOf i = true ↔ w.key = (0x38, byte1 i.val) := by
  cases w with
  | purge store removed =>
    simp [OpWork.isPurgeOf, OpWork.key, OpWork.code, OpWork.target, byte1_eq_iff (by decide : 8 ≤ 256)]
  | drain port deadline left sent remaining => simp [OpWork.isPurgeOf, OpWork.key, OpWork.code]
  | check next checked failing => simp [OpWork.isPurgeOf, OpWork.key, OpWork.code]

theorem OpWork.isDrainOf_iff (w : OpWork) (p : PortId) : w.isDrainOf p = true ↔ w.key = (0x43, byte1 p.val) := by
  cases w with
  | purge store removed => simp [OpWork.isDrainOf, OpWork.key, OpWork.code]
  | drain port deadline left sent remaining =>
    simp [OpWork.isDrainOf, OpWork.key, OpWork.code, OpWork.target, byte1_eq_iff (by decide : 4 ≤ 256)]
  | check next checked failing => simp [OpWork.isDrainOf, OpWork.key, OpWork.code]

theorem OpWork.isCheck_iff (w : OpWork) : w.isCheck = true ↔ w.key = (0x51, 0xFF) := by
  cases w <;> simp [OpWork.isCheck, OpWork.key, OpWork.code, OpWork.target]

/-- A selection of operations by kind and target. -/
def OpWork.Selects (sel : OpWork → Bool) : Prop := ∀ w w', w'.key = w.key → sel w' = sel w

theorem OpWork.selects_of_iff {sel : OpWork → Bool} {k : Byte × Byte} (h : ∀ w, sel w = true ↔ w.key = k) :
    OpWork.Selects sel := fun w w' hkey => by rw [Bool.eq_iff_iff, h, h, hkey]

/-- What the table's invariants say of an entry, the same in two entries. -/
structure OpEntry.Alike (e e' : OpEntry) : Prop where
  tag : e'.tag = e.tag
  running : e'.running = e.running
  key : e'.work.key = e.work.key

/-- R164. The entry after the operations that `sel` picks have completed. -/
def OpEntry.completed (sel : OpWork → Bool) (status : OpStatus) (byRequest : Bool) (e : OpEntry) : OpEntry :=
  if e.running && sel e.work then { e with status := some status, replyPending := byRequest } else e

section
variable {t : OpTable} {f : OpEntry → OpEntry} {sel sel' : OpWork → Bool}

theorem OpTable.tags_map (h : ∀ e ∈ t.entries, e.Alike (f e)) : (t.entries.map f).map (·.tag) = t.entries.map (·.tag) := by
  rw [List.map_map]
  exact List.map_congr_left fun e he => (h e he).tag

theorem OpTable.runs_map (h : ∀ e ∈ t.entries, e.Alike (f e)) (hs : OpWork.Selects sel) :
    ({ t with entries := t.entries.map f } : OpTable).runs sel = t.runs sel := by
  simp only [OpTable.runs, List.any_map]
  rw [Bool.eq_iff_iff, List.any_eq_true, List.any_eq_true]
  refine exists_congr fun e => and_congr_right fun he => ?_
  rw [Function.comp_apply, (h e he).running, hs _ _ (h e he).key]

/-- R163. Working counts and the marks of replies are no part of the table's soundness. -/
theorem OpTable.Sound.map (hs : t.Sound) (h : ∀ e ∈ t.entries, e.Alike (f e)) :
    ({ t with entries := t.entries.map f } : OpTable).Sound where
  length := by simpa using hs.length
  tags := by
    rw [OpTable.tags_map h]
    exact hs.tags
  targets := by
    have hkeys : (t.entries.map f).map (fun e => e.work.key) = t.entries.map fun e => e.work.key := by
      rw [List.map_map]
      exact List.map_congr_left fun e he => (h e he).key
    exact hkeys ▸ hs.targets
  completed := by
    have hdone : ((t.entries.map f).filter fun e => !e.running).map (·.tag) =
        (t.entries.filter fun e => !e.running).map (·.tag) := by
      rw [List.filter_map, List.map_map]
      have hfilter : t.entries.filter ((fun e => !e.running) ∘ f) = t.entries.filter fun e => !e.running :=
        List.filter_congr fun e he => by rw [Function.comp_apply, (h e he).running]
      rw [hfilter]
      exact List.map_congr_left fun e he => (h e (List.mem_filter.mp he).1).tag
    exact hdone ▸ hs.completed

theorem OpEntry.alike_progress {g : OpWork → OpWork} (h : ∀ w, (g w).key = w.key) (e : OpEntry) :
    e.Alike (if e.running && sel e.work then { e with work := g e.work } else e) := by
  split
  · exact ⟨rfl, rfl, h e.work⟩
  · exact ⟨rfl, rfl, rfl⟩

theorem OpEntry.completed_fields (e : OpEntry) (status : OpStatus) (byRequest : Bool) :
    (e.completed sel status byRequest).tag = e.tag ∧ (e.completed sel status byRequest).work = e.work ∧
      (e.completed sel status byRequest).running = (e.running && !sel e.work) := by
  simp only [OpEntry.completed]
  cases hr : e.running <;> cases hs : sel e.work <;> simp [OpEntry.running] <;> simpa [OpEntry.running] using hr

theorem OpTable.complete_entries (t : OpTable) (sel : OpWork → Bool) (status : OpStatus) (byRequest : Bool) :
    (t.complete sel status byRequest).entries = t.entries.map (OpEntry.completed sel status byRequest) := rfl

theorem OpTable.runs_complete (t : OpTable) (sel sel' : OpWork → Bool) (status : OpStatus) (byRequest : Bool) :
    (t.complete sel status byRequest).runs sel' = t.runs fun w => sel' w && !sel w := by
  simp only [OpTable.runs, OpTable.complete_entries, List.any_map, Function.comp_def, OpEntry.completed_fields]
  congr 1
  funext e
  cases e.running <;> cases sel e.work <;> cases sel' e.work <;> rfl

/-- R164. The completion order gains the tags of the operations that complete. -/
theorem completed_perm (l : List OpEntry) (status : OpStatus) (byRequest : Bool) :
    ((l.filter fun e => !e.running).map (·.tag) ++ (l.filter fun e => e.running && sel e.work).map (·.tag)).Perm
      (((l.map (OpEntry.completed sel status byRequest)).filter fun e => !e.running).map (·.tag)) := by
  induction l with
  | nil => rfl
  | cons e l ih =>
    obtain ⟨htag, -, hrun⟩ := e.completed_fields (sel := sel) status byRequest
    simp only [List.map_cons, List.filter_cons, hrun]
    cases hr : e.running with
    | false => simpa [htag] using ih
    | true =>
      cases hs : sel e.work with
      | false => simpa using ih
      | true => simpa [htag] using List.perm_middle.trans (ih.cons e.tag)

theorem OpTable.Sound.completes (hs : t.Sound) (sel : OpWork → Bool) (status : OpStatus) (byRequest : Bool) :
    (t.complete sel status byRequest).Sound where
  length := by simpa [OpTable.complete_entries] using hs.length
  tags := by simpa [OpTable.complete_entries, Function.comp_def, OpEntry.completed_fields] using hs.tags
  targets := by simpa [OpTable.complete_entries, Function.comp_def, OpEntry.completed_fields] using hs.targets
  completed := (hs.completed.append_right _).trans (completed_perm t.entries status byRequest)

/-- R163. One more operation, of a tag and a target that the table does not hold. -/
theorem OpTable.Sound.accept (hs : t.Sound) {tag : Byte} {work : OpWork} (hf : ¬ t.full = true)
    (ht : tag ∉ t.entries.map (·.tag)) (hw : ∀ e ∈ t.entries, e.work.key ≠ work.key) (now : Word) :
    (t.accept tag work now).Sound where
  length := by
    have := (t.full_iff).not.mp hf
    simp only [OpTable.accept, List.length_append, List.length_singleton]
    omega
  tags := by
    simp only [OpTable.accept, List.map_append, List.map_cons, List.map_nil]
    exact List.concat_eq_append ▸ List.Nodup.concat ht hs.tags
  targets := by
    have htargets := hs.targets
    simp only [OpTable.accept, List.map_append, List.map_cons, List.map_nil]
    refine List.concat_eq_append ▸ List.Nodup.concat (fun hm => ?_) htargets
    obtain ⟨e, he, hkey⟩ := List.mem_map.mp hm
    exact hw e he hkey
  completed := by simpa [OpTable.accept, OpEntry.running] using hs.completed

theorem OpTable.runs_accept (t : OpTable) (sel : OpWork → Bool) (tag : Byte) (work : OpWork) (now : Word) :
    (t.accept tag work now).runs sel = (t.runs sel || sel work) := by
  simp [OpTable.runs, OpTable.accept, OpEntry.running]

theorem OpTable.Sound.remove (hs : t.Sound) (tag : Byte) : (t.remove tag).Sound where
  length := (List.length_filter_le _ _).trans hs.length
  tags := hs.tags.sublist (List.filter_sublist.map _)
  targets := hs.targets.sublist (List.filter_sublist.map _)
  completed := by
    have hswap : (t.remove tag).entries.filter (fun e => !e.running) =
        (t.entries.filter fun e => !e.running).filter fun e => e.tag != tag := by
      simp only [OpTable.remove, List.filter_filter, Bool.and_comm]
    have htags : (((t.entries.filter fun e => !e.running).filter fun e => e.tag != tag).map (·.tag)) =
        ((t.entries.filter fun e => !e.running).map (·.tag)).filter fun u => u != tag := by
      rw [List.filter_map]
      rfl
    rw [hswap, htags]
    exact hs.completed.filter _

/-- R165. The entry that leaves is COMPLETE, so that the RUNNING operations stay. -/
theorem OpTable.runs_remove (hs : t.Sound) {e : OpEntry} (he : e ∈ t.entries) (hr : e.running = false) (sel : OpWork → Bool) :
    (t.remove e.tag).runs sel = t.runs sel := by
  rw [Bool.eq_iff_iff, OpTable.runs_iff, OpTable.runs_iff]
  constructor
  · rintro ⟨x, hx, hrun⟩
    exact ⟨x, (List.mem_filter.mp hx).1, hrun⟩
  · rintro ⟨x, hx, hrun, hsel⟩
    refine ⟨x, List.mem_filter.mpr ⟨hx, ?_⟩, hrun, hsel⟩
    rw [bne_iff_ne]
    intro htag
    rw [hs.eq_of_tag hx he htag, hr] at hrun
    cases hrun

end

end Sys2Proof.Machine
end

