-- ==== Sys2Proof/Proofs/Accounts.lean ====
section
namespace Sys2Proof.Machine

/-! ### The table from one state to a later one -/

/-- The table keeps its entries in order and those that are COMPLETE stay so; the operations of `new` join it. -/
structure OpTable.Follows (new : List Byte) (o o' : OpTable) : Prop where
  tags : o'.entries.map (·.tag) = o.entries.map (·.tag) ++ new
  complete : ∀ e ∈ o.entries, e.running = false → ∃ x ∈ o'.entries, x.tag = e.tag ∧ x.running = false

section
variable {o o' o'' : OpTable} {new : List Byte} {sel sel' : OpWork → Bool}

theorem OpTable.Follows.refl (o : OpTable) : OpTable.Follows [] o o :=
  ⟨(List.append_nil _).symm, fun e he hr => ⟨e, he, rfl, hr⟩⟩

theorem OpTable.Follows.trans (h : OpTable.Follows new o o') (h' : OpTable.Follows [] o' o'') : OpTable.Follows new o o'' where
  tags := by rw [h'.tags, h.tags, List.append_nil]
  complete e he hr := by
    obtain ⟨x, hx, htag, hrun⟩ := h.complete e he hr
    obtain ⟨y, hy, htag', hrun'⟩ := h'.complete x hx hrun
    exact ⟨y, hy, htag'.trans htag, hrun'⟩

theorem OpTable.follows_map (o : OpTable) {f : OpEntry → OpEntry} (completed : List Byte)
    (h : ∀ e, (f e).tag = e.tag ∧ (e.running = false → (f e).running = false)) :
    OpTable.Follows [] o ⟨o.entries.map f, completed⟩ where
  tags := by
    rw [List.map_map, List.append_nil]
    exact List.map_congr_left fun e _ => (h e).1
  complete e he hr := ⟨f e, List.mem_map_of_mem he, (h e).1, (h e).2 hr⟩

theorem OpTable.follows_complete (o : OpTable) (sel : OpWork → Bool) (status : OpStatus) (byRequest : Bool) :
    OpTable.Follows [] o (o.complete sel status byRequest) := by
  refine o.follows_map (f := OpEntry.completed sel status byRequest) _ fun e => ?_
  obtain ⟨htag, -, hrun⟩ := e.completed_fields (sel := sel) status byRequest
  exact ⟨htag, fun hr => by rw [hrun, hr, Bool.false_and]⟩

theorem OpTable.follows_alike (o : OpTable) {f : OpEntry → OpEntry} (h : ∀ e : OpEntry, e.Alike (f e)) :
    OpTable.Follows [] o { o with entries := o.entries.map f } :=
  o.follows_map o.completed fun e => ⟨(h e).tag, fun hr => (h e).running.trans hr⟩

theorem OpTable.follows_accept (o : OpTable) (tag : Byte) (work : OpWork) (now : Word) :
    OpTable.Follows [tag] o (o.accept tag work now) where
  tags := by rw [OpTable.accept, List.map_append]; rfl
  complete e he hr := ⟨e, List.mem_append_left _ he, rfl, hr⟩

theorem OpTable.runs_complete_self (o : OpTable) (sel : OpWork → Bool) (status : OpStatus) (byRequest : Bool) :
    (o.complete sel status byRequest).runs sel = false := by
  rw [OpTable.runs_complete]
  simp [OpTable.runs]

theorem OpTable.runs_complete_other (o : OpTable) (h : ∀ w, sel' w = true → sel w = false) (status : OpStatus)
    (byRequest : Bool) : (o.complete sel status byRequest).runs sel' = o.runs sel' := by
  rw [OpTable.runs_complete]
  congr 1
  funext w
  cases hw : sel' w with
  | true => simp [h w hw]
  | false => rfl

/-- R163. An operation of a target that no entry has. -/
theorem OpTable.key_ne_of_not_holds {k : Byte × Byte} (hk : ∀ w, sel w = true ↔ w.key = k) (h : ¬ o.holds sel = true)
    {work : OpWork} (hw : work.key = k) : ∀ e ∈ o.entries, e.work.key ≠ work.key := fun e he hkey =>
  h ((o.holds_iff sel).mpr ⟨e, he, (hk _).mpr (hkey.trans hw)⟩)

theorem OpTable.not_runs_of_not_holds (h : ¬ o.holds sel = true) : ¬ o.runs sel = true := fun hr => by
  obtain ⟨e, he, -, hsel⟩ := (o.runs_iff sel).mp hr
  exact h ((o.holds_iff sel).mpr ⟨e, he, hsel⟩)

end

theorem OpWork.selects_purge (i : StoreId) : OpWork.Selects (·.isPurgeOf i) := OpWork.selects_of_iff fun w => w.isPurgeOf_iff i

theorem OpWork.selects_drain (p : PortId) : OpWork.Selects (·.isDrainOf p) := OpWork.selects_of_iff fun w => w.isDrainOf_iff p

/-! ### Stores, drains and the table together -/

/-- The long-operation table, the stores and the draining marks, each sound and in agreement. -/
structure State.Accounts (s : State) : Prop where
  table : s.ops.Sound
  agree : s.OpsAgree
  stores : ∀ i, (s.store i).Sound

theorem State.Accounts.purging {s : State} (h : s.Accounts) (i : StoreId) :
    (s.store i).state = .purging ↔ s.ops.runs (·.isPurgeOf i) = true := h.agree.purging i

theorem State.Accounts.draining {s : State} (h : s.Accounts) (p : PortId) :
    s.drains p = true ↔ s.ops.runs (·.isDrainOf p) = true := h.agree.draining p

theorem State.accounts_iff (s : State) : s.Accounts ↔ s.ops.Sound ∧
    (∀ i, (s.store i).Sound ∧ ((s.store i).state = .purging ↔ s.ops.runs (·.isPurgeOf i) = true)) ∧
    ∀ p, s.drains p = true ↔ s.ops.runs (·.isDrainOf p) = true :=
  ⟨fun h => ⟨h.table, fun i => ⟨h.stores i, h.purging i⟩, h.draining⟩,
    fun ⟨ht, hs, hd⟩ => ⟨ht, ⟨fun i => (hs i).2, hd⟩, fun i => (hs i).1⟩⟩

/-- An operation of the machine that takes no request and begins no message: of the link it changes the counters alone, the
operations of `new` join the table, and the accounts stay in order. -/
structure State.Settles (new : List Byte) (s t : State) : Prop where
  link : ∃ counters, t.link = { s.link with counters := counters }
  table : OpTable.Follows new s.ops t.ops
  accounts : s.Accounts → (s.ops.entries.map (·.tag) ++ new).Nodup → t.Accounts

section
variable {s t u : State} {new : List Byte}

theorem State.Settles.refl (s : State) : State.Settles [] s s := ⟨⟨s.link.counters, rfl⟩, .refl _, fun h _ => h⟩

theorem State.Settles.trans (h : State.Settles new s t) (h' : State.Settles [] t u) : State.Settles new s u where
  link := by
    obtain ⟨c, hc⟩ := h.link
    obtain ⟨c', hc'⟩ := h'.link
    exact ⟨c', by rw [hc', hc]⟩
  table := h.table.trans h'.table
  accounts hs hn := h'.accounts (h.accounts hs hn) (by rwa [List.append_nil, h.table.tags])

theorem State.Settles.ite {c : Prop} [Decidable c] (ht : State.Settles new s t) (hu : State.Settles new s u) :
    State.Settles new s (if c then t else u) := by
  split
  · exact ht
  · exact hu

/-- An operation that changes none of what the accounts are of. -/
theorem State.Settles.same (h : State.Settles new s t) (hl : u.link = t.link) (ho : u.ops = t.ops) (hs : u.stores = t.stores)
    (hd : u.drains = t.drains) : State.Settles new s u := by
  have hstore : ∀ i, u.store i = t.store i := fun i => by rw [State.store, hs, State.store]
  refine h.trans ⟨⟨t.link.counters, hl⟩, ho ▸ .refl _, fun ha _ => ?_⟩
  rw [State.accounts_iff] at ha ⊢
  simpa only [ho, hd, hstore] using ha

theorem State.Settles.countLink {f : LinkCounters → LinkCounters} (h : State.Settles new s t) :
    State.Settles new s (t.countLink f) :=
  h.trans ⟨⟨f t.link.counters, rfl⟩, .refl _, fun ha _ => ⟨ha.table, ⟨ha.agree.purging, ha.agree.draining⟩, ha.stores⟩⟩

/-- A change of one store that leaves whether it is PURGING. -/
theorem State.Settles.modStore {i : StoreId} {f : Store → Store} (h : State.Settles new s t)
    (hf : (t.store i).Sound → (f (t.store i)).Sound)
    (hp : (f (t.store i)).state = .purging ↔ (t.store i).state = .purging) : State.Settles new s (t.modStore i f) := by
  refine h.trans ⟨⟨t.link.counters, rfl⟩, .refl _, fun ha _ => ?_⟩
  rw [State.accounts_iff] at ha ⊢
  obtain ⟨ht, hs, hd⟩ := ha
  refine ⟨ht, fun x => ?_, hd⟩
  rw [State.store_modStore]
  split
  · subst x
    exact ⟨hf (hs i).1, hp.trans (hs i).2⟩
  · exact hs x

/-- A change of the entries of the table that leaves their tags, their targets and which of them are RUNNING. -/
theorem State.Settles.modEntries {f : OpEntry → OpEntry} (h : State.Settles new s t) (hf : ∀ e : OpEntry, e.Alike (f e)) :
    State.Settles new s (t.modOps fun o => { o with entries := o.entries.map f }) := by
  refine h.trans ⟨⟨t.link.counters, rfl⟩, t.ops.follows_alike hf, fun ha _ => ?_⟩
  rw [State.accounts_iff] at ha ⊢
  obtain ⟨ht, hs, hd⟩ := ha
  have hruns {sel : OpWork → Bool} (hsel : OpWork.Selects sel) := OpTable.runs_map (t := t.ops) (fun e _ => hf e) hsel
  refine ⟨ht.map fun e _ => hf e, fun i => ?_, fun p => ?_⟩
  · exact ⟨(hs i).1, (hs i).2.trans (Bool.eq_iff_iff.mp (hruns (OpWork.selects_purge i))).symm⟩
  · exact (hd p).trans (Bool.eq_iff_iff.mp (hruns (OpWork.selects_drain p))).symm

/-- R165. The working counts of operations. -/
theorem State.Settles.progress {sel : OpWork → Bool} {g : OpWork → OpWork} (h : State.Settles new s t)
    (hg : ∀ w, (g w).key = w.key) : State.Settles new s (t.modOps fun o => o.progress sel g) :=
  h.modEntries (OpEntry.alike_progress hg)

/-! ### The ends of operations -/

/-- R69, R70. The end of a purge: the store returns to its prior state with the end of its operation. -/
theorem Store.Sound.endPurge {st : Store} (h : st.Sound) :
    ({ st with state := st.prior.getD st.state, prior := none } : Store).Sound ∧ st.prior.getD st.state ≠ .purging := by
  obtain ⟨hclosed, hpurging⟩ := h.priorOpen
  cases hp : st.prior with
  | none =>
    have hst : st.state ≠ .purging := fun hst => by simpa [hp] using h.prior.mpr hst
    exact ⟨h.withState h.closed (by simp [hst]) (by simp), hst⟩
  | some x =>
    have hx : x ≠ .closed ∧ x ≠ .purging := ⟨fun hx => hclosed (by rw [hp, hx]), fun hx => hpurging (by rw [hp, hx])⟩
    exact ⟨h.withState (fun hc => absurd hc hx.1) (by simp [hx.2]) (by simp), hx.2⟩

theorem State.Settles.endPurge {i : StoreId} {status : OpStatus} {byRequest : Bool} (h : State.Settles new s t) :
    State.Settles new s (t.endPurge i status byRequest) := by
  refine h.trans ⟨⟨t.link.counters, rfl⟩, t.ops.follows_complete (·.isPurgeOf i) status byRequest, fun ha _ => ?_⟩
  obtain ⟨ht, hs, hd⟩ := t.accounts_iff.mp ha
  rw [State.accounts_iff]
  refine ⟨ht.completes (·.isPurgeOf i) status byRequest, fun x => ?_, fun p => ?_⟩
  · rw [State.endPurge, State.store_modOps, State.store_modStore]
    by_cases hx : x = i
    · subst x
      obtain ⟨hsound, hstate⟩ := (hs i).1.endPurge
      rw [if_pos rfl]
      exact ⟨hsound, iff_of_false hstate (by simp [OpTable.runs_complete_self])⟩
    · have hruns := t.ops.runs_complete_other (sel := (·.isPurgeOf i)) (sel' := (·.isPurgeOf x))
        (fun w hw => by
          by_contra hi
          exact hx (by cases w <;> simp_all [OpWork.isPurgeOf])) status byRequest
      rw [if_neg hx]
      exact ⟨(hs x).1, (hs x).2.trans (Bool.eq_iff_iff.mp hruns).symm⟩
  · have hruns := t.ops.runs_complete_other (sel := (·.isPurgeOf i)) (sel' := (·.isDrainOf p))
      (fun w hw => by cases w <;> simp_all [OpWork.isPurgeOf, OpWork.isDrainOf]) status byRequest
    exact (hd p).trans (Bool.eq_iff_iff.mp hruns).symm

theorem State.Settles.judgePurge {i : StoreId} {byRequest : Bool} (h : State.Settles new s t) :
    State.Settles new s (t.judgePurge i byRequest) := .ite h.endPurge h

theorem State.Settles.endCheck {status : OpStatus} {byRequest : Bool} (h : State.Settles new s t) :
    State.Settles new s (t.modOps fun o => o.complete (·.isCheck) status byRequest) := by
  refine h.trans ⟨⟨t.link.counters, rfl⟩, t.ops.follows_complete (·.isCheck) status byRequest, fun ha _ => ?_⟩
  obtain ⟨ht, hs, hd⟩ := t.accounts_iff.mp ha
  have hruns {sel : OpWork → Bool} (hsel : ∀ w, sel w = true → w.isCheck = false) :=
    t.ops.runs_complete_other hsel status byRequest
  rw [State.accounts_iff]
  refine ⟨ht.completes (·.isCheck) status byRequest, fun i => ?_, fun p => ?_⟩
  · refine ⟨(hs i).1, (hs i).2.trans (Bool.eq_iff_iff.mp (hruns fun w hw => ?_)).symm⟩
    cases w <;> simp_all [OpWork.isPurgeOf, OpWork.isCheck]
  · refine (hd p).trans (Bool.eq_iff_iff.mp (hruns fun w hw => ?_)).symm
    cases w <;> simp_all [OpWork.isDrainOf, OpWork.isCheck]

end

end Sys2Proof.Machine
end

