-- ==== Sys2Proof/Proofs/AccountsOfPorts.lean ====
section
namespace Sys2Proof.Machine

/-! ### Drains -/

section
variable {s t : State} {new : List Byte}

theorem OpWork.isDrainOf_eq {w : OpWork} {p q : PortId} (hp : w.isDrainOf p = true) (hq : w.isDrainOf q = true) : p = q := by
  cases w with
  | drain port deadline left sent remaining => exact (beq_iff_eq.mp hp).symm.trans (beq_iff_eq.mp hq)
  | purge | check => cases hp

theorem OpWork.not_isPurgeOf_of_isDrainOf {w : OpWork} {i : StoreId} {p : PortId} (h : w.isDrainOf p = true) :
    w.isPurgeOf i = false := by
  cases w with
  | drain => rfl
  | purge | check => cases h

theorem State.drains_withDraining (s : State) (p x : PortId) (b : Bool) :
    (s.modPort p fun q => { q with draining := b }).drains x = if x = p then b else s.drains x := by
  rw [State.drains, State.port_modPort]
  split
  · rfl
  · rfl

/-- R133. The draining mark is cleared with the end of the port's operation. -/
theorem State.Settles.endDrain {p : PortId} {status : OpStatus} {byRequest : Bool} (h : State.Settles new s t) :
    State.Settles new s ((t.modOps fun o => o.complete (·.isDrainOf p) status byRequest).modPort p
      fun q => { q with draining := false }) := by
  refine h.trans ⟨⟨t.link.counters, rfl⟩, t.ops.follows_complete (·.isDrainOf p) status byRequest, fun ha _ => ?_⟩
  obtain ⟨ht, hs, hd⟩ := t.accounts_iff.mp ha
  have hother {sel : OpWork → Bool} (hsel : ∀ w, sel w = true → w.isDrainOf p = false) :=
    Bool.eq_iff_iff.mp (t.ops.runs_complete_other hsel status byRequest)
  rw [State.accounts_iff]
  refine ⟨ht.completes (·.isDrainOf p) status byRequest, fun i => ⟨(hs i).1, (hs i).2.trans (hother fun w hw => ?_).symm⟩,
    fun x => ?_⟩
  · by_contra hdrain
    rw [OpWork.not_isPurgeOf_of_isDrainOf (by simpa using hdrain)] at hw
    cases hw
  · rw [State.drains_withDraining]
    by_cases hx : x = p
    · subst x
      rw [if_pos rfl]
      exact (Bool.eq_iff_iff.mp (t.ops.runs_complete_self (·.isDrainOf p) status byRequest)).symm
    · rw [if_neg hx]
      refine (hd x).trans (hother fun w hw => ?_).symm
      by_contra hdrain
      exact hx (OpWork.isDrainOf_eq hw (by simpa using hdrain))

theorem State.Settles.completeDrain {p : PortId} {status : OpStatus} {n : Nat} {byRequest : Bool} (h : State.Settles new s t) :
    State.Settles new s (t.completeDrain p status n byRequest) :=
  .endDrain (h.progress fun w => by cases w <;> rfl)

theorem State.Settles.countDrained {p : PortId} (h : State.Settles new s t) : State.Settles new s (t.countDrained p) :=
  h.progress fun w => by cases w <;> rfl

/-- R163. The tag of an operation that joins the table is a new one. -/
theorem OpTable.tag_new {o : OpTable} {tag : Byte} (h : (o.entries.map (·.tag) ++ [tag]).Nodup) :
    tag ∉ o.entries.map (·.tag) := fun hm => List.disjoint_of_nodup_append h hm (List.mem_singleton_self tag)

/-- R131. The draining mark is set with the acceptance of the port's operation. -/
theorem State.settles_startDrain {p : PortId} (hu : ¬ s.ops.holds (·.isDrainOf p) = true) (hf : ¬ s.ops.full = true)
    (tag : Byte) (deadline left : Nat) (now : Word) :
    State.Settles [tag] s ((s.modOps fun o => o.accept tag (.drain p deadline left 0 0) now).modPort p
      fun q => { q with draining := true }) := by
  refine ⟨⟨s.link.counters, rfl⟩, s.ops.follows_accept tag _ now, fun ha hn => ?_⟩
  obtain ⟨ht, hs, hd⟩ := s.accounts_iff.mp ha
  have hself : (OpWork.drain p deadline left 0 0).isDrainOf p = true := beq_self_eq_true p
  have hruns (sel : OpWork → Bool) := s.ops.runs_accept sel tag (.drain p deadline left 0 0) now
  rw [State.accounts_iff]
  refine ⟨ht.accept hf (OpTable.tag_new hn) (OpTable.key_ne_of_not_holds (fun w => w.isDrainOf_iff p) hu
    (((OpWork.isDrainOf_iff _ p).mp hself))) now, fun i => ⟨(hs i).1, (hs i).2.trans ?_⟩, fun x => ?_⟩
  · refine Bool.eq_iff_iff.mp ((hruns _).trans ?_).symm
    rw [OpWork.not_isPurgeOf_of_isDrainOf hself, Bool.or_false]
  · rw [State.drains_withDraining]
    by_cases hx : x = p
    · subst x
      rw [if_pos rfl]
      refine Bool.eq_iff_iff.mp ((hruns _).trans ?_).symm
      rw [hself, Bool.or_true]
    · rw [if_neg hx]
      refine (hd x).trans (Bool.eq_iff_iff.mp ((hruns _).trans ?_).symm)
      rw [show (OpWork.drain p deadline left 0 0).isDrainOf x = false from beq_eq_false_iff_ne.mpr (Ne.symm hx), Bool.or_false]

/-! ### The transmitter -/

/-- A change of a port that leaves its draining mark. -/
theorem State.Settles.modPort {p : PortId} {f : Port → Port} (h : State.Settles new s t)
    (hf : (f (t.port p)).draining = (t.port p).draining) : State.Settles new s (t.modPort p f) :=
  h.same rfl rfl rfl (State.drains_modPort hf)

theorem Port.draining_entryEnded (q : Port) (e : SendEntry) : (q.entryEnded e).draining = q.draining := by
  simp only [Port.entryEnded]
  split <;> rfl

theorem State.Settles.endEntry {p : PortId} {e : SendEntry} {status : SendStatus} {byRequest judges : Bool}
    (h : State.Settles new s t) : State.Settles new s (t.endEntry p e status byRequest judges) := by
  unfold State.endEntry
  extract_lets ended released counted raised
  have hended : State.Settles new s ended := h.modPort ((t.port p).draining_entryEnded e)
  have hreleased : State.Settles new s released := hended.same rfl rfl rfl rfl
  have hcounted : State.Settles new s counted := .ite (.countDrained (hreleased.modPort rfl)) hreleased
  have hraised : State.Settles new s raised := .ite (hcounted.same rfl rfl rfl rfl) hcounted
  exact .ite hraised.completeDrain hraised

theorem State.Settles.releaseDir {p : PortId} (h : State.Settles new s t) : State.Settles new s (t.releaseDir p) :=
  h.modPort rfl

theorem State.Settles.holdOrEnd {p : PortId} {e : SendEntry} {status : SendStatus} (h : State.Settles new s t) :
    State.Settles new s (t.holdOrEnd p e status) := by
  simp only [State.holdOrEnd]
  split
  · exact h.endEntry
  · exact .ite h.releaseDir.endEntry (h.modPort rfl)

theorem State.Settles.checkBlock {d : DescId} {b : BlockId} (h : State.Settles new s t) :
    State.Settles new s (t.checkBlock d b) := h.same (by simp) (by simp) (by simp) (by simp)

theorem State.Settles.beginCharacter {p : PortId} {e : SendEntry} {k : Nat} (h : State.Settles new s t) :
    State.Settles new s (t.beginCharacter p e k) := by
  simp only [State.beginCharacter]
  refine .ite ?_ (h.modPort rfl)
  split
  · exact h.modPort rfl
  · exact .ite (.ite h.checkBlock.releaseDir.endEntry h.checkBlock.holdOrEnd) (h.modPort rfl)

theorem State.Settles.startEntry {p : PortId} {e : SendEntry} (h : State.Settles new s t) :
    State.Settles new s (t.startEntry p e) := by
  simp only [State.startEntry]
  exact .ite h.endEntry (.beginCharacter (h.modPort rfl))

theorem State.Settles.modEntry {p : PortId} {id : Half} {f : SendEntry → SendEntry} (h : State.Settles new s t) :
    State.Settles new s (t.modEntry p id f) := h.modPort rfl

theorem State.Settles.stopEntry {p : PortId} {e : SendEntry} (h : State.Settles new s t) :
    State.Settles new s (State.stopEntry p t e) := by
  simp only [State.stopEntry]
  refine .ite h.endEntry ?_
  split
  · exact h.modPort rfl
  · exact h.releaseDir.endEntry

theorem State.Settles.stopEntries {p : PortId} {es : List SendEntry} (h : State.Settles new s t) :
    State.Settles new s (es.foldl (State.stopEntry p) t) := by
  induction es generalizing t with
  | nil => exact h
  | cons e es ih => exact ih h.stopEntry

theorem State.Settles.abortReceiving {p : PortId} (h : State.Settles new s t) : State.Settles new s (t.abortReceiving p) :=
  h.same (by simp) (by simp) (by simp) (t.drains_abortReceiving p)

theorem State.Settles.stopPort {p : PortId} (h : State.Settles new s t) : State.Settles new s (t.stopPort p) := by
  simp only [State.stopPort]
  exact .modPort (.ite h.abortReceiving.stopEntries.completeDrain h.abortReceiving.stopEntries) rfl

theorem State.Settles.resetPort {p : PortId} (h : State.Settles new s t) : State.Settles new s (t.resetPort p) := by
  have hremoved {u : State} (hu : State.Settles new s u) : State.Settles new s (u.removePending p) :=
    hu.same (by simp) (by simp) (by simp) (State.drains_of_ports (by simp))
  simp only [State.resetPort]
  exact .modPort (hremoved (.ite h.stopPort h)) rfl

/-! ### The receive line -/

theorem Port.draining_receive (q : Port) (c : LowStopChar) (framing : Bool) : (q.receive c framing).draining = q.draining := by
  simp only [Port.receive]
  (repeat' split) <;> rfl

theorem Port.draining_characterReceived (q : Port) (now : Word) (data : Byte) (parityBit stopHigh : Bool) :
    (q.characterReceived now data parityBit stopHigh).draining = q.draining := by
  simp only [Port.characterReceived]
  (repeat' split) <;> simp [Port.draining_receive]

theorem Port.draining_breakDetected (q : Port) (now : Word) : (q.breakDetected now).draining = q.draining := by
  simp only [Port.breakDetected]
  (repeat' split) <;> rfl

theorem Port.draining_breakEnd (q : Port) : q.breakEnd.draining = q.draining := by
  simp only [Port.breakEnd]
  split <;> rfl

theorem Port.draining_startBit (q : Port) : q.startBit.draining = q.draining := by
  simp only [Port.startBit]
  split <;> rfl

theorem Port.draining_framingErrorEnd (q : Port) : q.framingErrorEnd.draining = q.draining := by
  simp only [Port.framingErrorEnd, Port.enterHeld]
  (repeat' split) <;> simp [Port.draining_receive]

end

end Sys2Proof.Machine
end

