-- ==== Sys2Proof/Proofs/AccountsOfStores.lean ====
section
namespace Sys2Proof.Machine

/-! ### Stores -/

section
variable {s t u : State} {new : List Byte}

/-- An operation that changes none of the link, the table, the stores and the ports. -/
theorem State.Settles.apart (h : State.Settles new s t) (hl : u.link = t.link) (ho : u.ops = t.ops) (hs : u.stores = t.stores)
    (hp : u.ports = t.ports) : State.Settles new s u := h.same hl ho hs (State.drains_of_ports hp)

theorem State.Settles.releaseAll {ds : List DescId} (h : State.Settles new s t) : State.Settles new s (t.releaseAll ds) :=
  h.apart (by simp) (by simp) (by simp) (by simp)

theorem State.Settles.raise {k : NoticeKind} {subject : Nat} {detail : Detail} (h : State.Settles new s t) :
    State.Settles new s (t.raise k subject detail) := h.apart rfl rfl rfl rfl

theorem State.Settles.acquire {d : DescId} (h : State.Settles new s t) : State.Settles new s (t.acquire d) :=
  h.apart rfl rfl rfl rfl

theorem State.Settles.modClassifier {f : Classifier → Classifier} (h : State.Settles new s t) :
    State.Settles new s (t.modClassifier f) := h.apart rfl rfl rfl rfl

theorem Store.judgeMarks_state (st : Store) (before : Nat) : (st.judgeMarks before).2.state = st.state := by
  rw [Store.judgeMarks_eq]

/-- R54 to R57. What a filing that is not refused makes of its store. -/
theorem Store.Sound.filed {st : Store} (h : st.Sound) {frame : Frame} (hn : ¬ st.refuses (blocksFor frame.length) = true)
    (rule : Byte) :
    ((((st.evict (st.evictionsFor (blocksFor frame.length))).append frame rule).judgeMarks st.records.length).2).Sound := by
  have hopen : st.state = .opened := by
    by_contra hs
    exact hn ((st.refuses_iff _).mpr (.inl hs))
  have hfits : st.settings.quota ≠ 0 → blocksFor frame.length ≤ st.settings.quota := fun hq => by
    by_contra hlt
    exact hn ((st.refuses_iff _).mpr (.inr (.inl ⟨hq, not_le.mp hlt⟩)))
  have hcap : 0 < st.settings.capacity := (Nat.zero_le _).trans_lt (h.marks.1.trans_le h.marks.2)
  obtain ⟨gone, kept, hsplit, hkept, hgone⟩ := exists_room hcap hfits st.records
  rw [Store.evictionsFor_eq h.used hn hsplit hkept hgone]
  refine Store.Sound.judgeMarks ((h.evict _).append (hopen ▸ nofun) ?_ rule) _
  have hrecords : (st.evict gone.length).records = kept := by
    rw [Store.evict, Store.dropHead, hsplit, List.drop_left]
  rw [(h.evict gone.length).used, hrecords]
  exact hkept

theorem State.Settles.file {i : StoreId} {frame : Frame} {rule : Byte} (h : State.Settles new s t) :
    State.Settles new s (t.file i frame rule).2 := by
  simp only [State.file]
  split <;> dsimp only
  · have hr : State.Settles new s (t.modStore i fun _ => (t.store i).refuse.2) := h.modStore Store.Sound.refuse Iff.rfl
    exact .ite hr.raise hr
  · rename_i hn
    have hm : State.Settles new s (t.modStore i fun _ => ((((t.store i).evict ((t.store i).evictionsFor
        (blocksFor frame.length))).append frame rule).judgeMarks (t.store i).records.length).2) :=
      h.modStore (fun hs => hs.filed hn rule) (by rw [Store.judgeMarks_state]; rfl)
    exact .ite hm.releaseAll.acquire.raise hm.releaseAll.acquire

theorem Store.rearm_state (st : Store) : st.rearm.state = st.state := by rw [Store.rearm_eq]

/-- R60. A read returns no more records than there are candidates. -/
theorem chosen_length_le (recordLimit byteLimit size n : Nat) (rs : List Record) :
    (chosen recordLimit byteLimit size n rs).length ≤ rs.length := by
  induction rs generalizing size n with
  | nil => exact Nat.le_refl 0
  | cons r rs ih =>
    rw [chosen]
    split
    · exact Nat.succ_le_succ (ih _ _)
    · exact Nat.zero_le _

/-- R60 to R62. The records read are undelivered ones. -/
theorem State.Settles.serveRead {i : StoreId} {take : Bool} {n m : Nat} (h : State.Settles new s t) :
    State.Settles new s (t.serveRead i take n m).1 := by
  have hread (rs : List Record) : State.Settles new s (t.readRecords rs).2 :=
    h.apart (by simp) (by simp) (by simp) (by simp)
  simp only [State.serveRead, State.grant]
  refine .ite (.releaseAll ((hread _).modStore (fun hs => hs.take _) ?_)) ((hread _).modStore (fun hs => hs.peek ?_) Iff.rfl)
  · rw [Store.take, Store.rearm_state]
    rfl
  · have hlen := chosen_length_le n m 4 0 ((t.store i).records.drop (t.store i).delivered)
    have hdelivered := hs.delivered
    rw [State.readRecords_store] at hdelivered ⊢
    rw [List.length_drop] at hlen
    omega

theorem State.Settles.purgeOne {i : StoreId} (h : State.Settles new s t) : State.Settles new s (t.purgeOne i) := by
  simp only [State.purgeOne]
  split
  · exact h
  · refine .judgePurge (.progress (.apart (h.modStore Store.Sound.purgeHead ?_) rfl rfl rfl rfl) fun w => by cases w <;> rfl)
    rw [Store.purgeHead, Store.rearm_state]
    rfl

/-- R69. The store becomes PURGING with the acceptance of its operation. -/
theorem State.settles_startPurge {i : StoreId} (hu : ¬ s.ops.holds (·.isPurgeOf i) = true) (hc : (s.store i).state ≠ .closed)
    (hf : ¬ s.ops.full = true) (tag : Byte) (now : Word) :
    State.Settles [tag] s ((s.modOps fun o => o.accept tag (.purge i 0) now).modStore i fun st =>
      { st with prior := some st.state, state := .purging }) := by
  refine ⟨⟨s.link.counters, rfl⟩, s.ops.follows_accept tag _ now, fun ha hn => ?_⟩
  obtain ⟨ht, hs, hd⟩ := s.accounts_iff.mp ha
  have hself : (OpWork.purge i 0).isPurgeOf i = true := beq_self_eq_true i
  have hruns (sel : OpWork → Bool) := s.ops.runs_accept sel tag (.purge i 0) now
  have hp : (s.store i).state ≠ .purging := mt (hs i).2.mp (OpTable.not_runs_of_not_holds hu)
  rw [State.accounts_iff]
  refine ⟨ht.accept hf (OpTable.tag_new hn) (OpTable.key_ne_of_not_holds (fun w => w.isPurgeOf_iff i) hu
    ((OpWork.isPurgeOf_iff _ i).mp hself)) now, fun x => ?_, fun p => (hd p).trans ?_⟩
  · rw [State.store_modStore]
    by_cases hx : x = i
    · subst x
      rw [if_pos rfl]
      refine ⟨(hs i).1.withState nofun (by simp) (by simp [hc, hp]), iff_of_true rfl ?_⟩
      exact (hruns _).trans (by rw [hself, Bool.or_true])
    · rw [if_neg hx]
      refine ⟨(hs x).1, (hs x).2.trans (Bool.eq_iff_iff.mp ((hruns _).trans ?_).symm)⟩
      rw [show (OpWork.purge i 0).isPurgeOf x = false from beq_eq_false_iff_ne.mpr (Ne.symm hx), Bool.or_false]
  · exact Bool.eq_iff_iff.mp ((hruns _).trans (Bool.or_false _)).symm

/-! ### Record Memory -/

theorem State.settles_startCheck (hu : ¬ s.ops.holds (·.isCheck) = true) (hf : ¬ s.ops.full = true) (tag : Byte) (now : Word) :
    State.Settles [tag] s (s.modOps fun o => o.accept tag (.check 0 0 0) now) := by
  refine ⟨⟨s.link.counters, rfl⟩, s.ops.follows_accept tag _ now, fun ha hn => ?_⟩
  obtain ⟨ht, hs, hd⟩ := s.accounts_iff.mp ha
  have hruns (sel : OpWork → Bool) := s.ops.runs_accept sel tag (.check 0 0 0) now
  rw [State.accounts_iff]
  refine ⟨ht.accept hf (OpTable.tag_new hn) (OpTable.key_ne_of_not_holds OpWork.isCheck_iff hu rfl) now,
    fun i => ⟨(hs i).1, (hs i).2.trans ?_⟩, fun p => (hd p).trans ?_⟩
  · exact Bool.eq_iff_iff.mp ((hruns _).trans (Bool.or_false _)).symm
  · exact Bool.eq_iff_iff.mp ((hruns _).trans (Bool.or_false _)).symm

theorem State.Settles.examine {b : BlockId} (h : State.Settles new s t) : State.Settles new s (t.examine b) := by
  have hwalk {u : State} (hu : State.Settles new s u) (held failed : Bool) :
      State.Settles new s (u.modOps fun o => o.progress (·.isCheck) fun w => w.advanceWalk held failed) :=
    hu.progress fun w => by cases w <;> rfl
  simp only [State.examine]
  refine .ite (.endCheck (hwalk ?_ _ _)) (hwalk ?_ _ _) <;> split
  · exact h.checkBlock
  · exact h
  · exact h.checkBlock
  · exact h

/-- R168. -/
theorem State.Settles.cancelOp {w : OpWork} (h : State.Settles new s t) : State.Settles new s (t.cancelOp w) := by
  cases w with
  | purge => exact h.endPurge
  | drain => exact h.completeDrain
  | check => exact h.endCheck

theorem State.Settles.clearGroup {g : CounterGroup} (h : State.Settles new s t) : State.Settles new s (t.clearGroup g) := by
  cases g with
  | port p => exact h.same rfl rfl rfl (t.drains_count p _)
  | store i =>
    exact h.modStore (f := fun st => { st with counters := .zero }) (fun hs => hs.of_eq rfl rfl rfl rfl rfl rfl rfl) Iff.rfl
  | rule r => exact h.apart rfl rfl rfl rfl
  | link => exact h.countLink (f := fun _ => ⟨0, 0, 0, 0, 0⟩)
  | memory => exact h.apart rfl rfl rfl rfl

/-! ### The Classifier -/

theorem State.Settles.capRecords {l : List (StoreId × Word)} (h : State.Settles new s t) :
    State.Settles new s (l.foldl State.capRecord t) := by
  induction l generalizing t with
  | nil => exact h
  | cons x l ih =>
    refine ih (h.modStore (fun hs => hs.flag (fun r => ?_) fun r => ?_) Iff.rfl)
    · split <;> rfl
    · split <;> rfl

theorem State.Settles.capActions {k : Classification} (h : State.Settles new s t) : State.Settles new s (t.capActions k) :=
  h.capRecords.apart rfl rfl rfl rfl

theorem State.Settles.hit {r : RuleId} (h : State.Settles new s t) : State.Settles new s (t.hit r) := h.apart rfl rfl rfl rfl

theorem State.Settles.performed {goOn : Bool} (h : State.Settles new s t) : State.Settles new s (t.performed goOn) :=
  h.apart rfl rfl rfl rfl

theorem State.Settles.spend {r : RuleId} (h : State.Settles new s t) : State.Settles new s (t.spend r) :=
  .ite (h.apart rfl rfl rfl rfl) h

theorem State.Settles.fileAction {r : RuleId} {f : Frame} {i : StoreId} (h : State.Settles new s t) :
    State.Settles new s (t.fileAction r f i) := by
  have hf := h.file (i := i) (frame := f) (rule := byte1 r.val)
  simp only [State.fileAction]
  split <;> rename_i e <;> rw [e] at hf
  · exact hf.apart rfl rfl rfl rfl
  · exact hf.apart rfl rfl rfl rfl

theorem State.Settles.makeEntry {p : PortId} {origin : SendOrigin} {cls : Fin 4} {ttl : Nat} {desc : DescId} {report : Bool}
    {tag : Option Byte} (h : State.Settles new s t) :
    State.Settles new s (t.makeEntry p origin cls ttl desc report tag).2 :=
  h.same rfl rfl rfl (State.drains_modPort (s := t) (p := p) (f := fun q => { q with queue := q.queue ++
    [⟨freshId (t.entries.map (·.id)) 48 t.nextSendId, origin, cls, desc, if ttl = 0 then none else some (1000 * ttl),
      t.timebase, report, tag, .queued, 0⟩] }) rfl)

theorem State.Settles.dropForward {r : RuleId} {action : DroppedAction} {cause : Status} (h : State.Settles new s t) :
    State.Settles new s (t.dropForward r action cause) := h.apart rfl rfl rfl rfl

theorem State.Settles.forwardAction {r : RuleId} {f : Frame} {p : PortId} {cls : Fin 4} {ttl : Nat}
    (h : State.Settles new s t) : State.Settles new s (t.forwardAction r f p cls ttl) := by
  simp only [State.forwardAction]
  split
  · exact h.dropForward
  · exact h.makeEntry.acquire

theorem State.Settles.fill {bytes : List Byte} (h : State.Settles new s t) : State.Settles new s (t.fill bytes).2 :=
  h.apart (by simp) (by simp) (by simp) (by simp)

theorem State.Settles.replyAction {r : RuleId} {f : Frame} {i : TemplateId} {cls : Fin 4} {ttl : Nat}
    (h : State.Settles new s t) : State.Settles new s (t.replyAction r f i cls ttl) := by
  have hbuilt : State.Settles new s (t.buildReply (t.classifier.templates.get i) f).2 :=
    h.apart (by simp) (by simp) (by simp) (by simp)
  have hf := hbuilt.fill (bytes := (t.buildReply (t.classifier.templates.get i) f).1)
  have hmemory (g : RecordMemory → RecordMemory) : State.Settles new s (t.modMemory g) := h.apart rfl rfl rfl rfl
  simp only [State.replyAction]
  split
  · exact h.dropForward
  refine .ite h.dropForward (.ite (hmemory _).dropForward (.ite (hmemory _).dropForward ?_))
  split <;> rename_i e <;> rw [e] at hf
  · exact hf.makeEntry
  · exact hf.dropForward

theorem State.Settles.act {k : Classification} {r : RuleId} {d : RuleDef} (h : State.Settles new s t) :
    State.Settles new s (t.act k r d) := by
  simp only [State.act]
  split
  · exact State.Settles.spend ((h.hit (r := r)).apart rfl rfl rfl rfl)
  · exact h.hit.spend
  · exact .ite h.capActions h.hit.fileAction.performed.spend
  · exact .ite h.capActions h.hit.forwardAction.performed.spend
  · exact .ite h.capActions h.hit.replyAction.performed.spend

theorem State.Settles.visit {k : Classification} {r : RuleId} {rest : List RuleId} (h : State.Settles new s t) :
    State.Settles new s (t.visit k r rest) := by
  have hm : State.Settles new s ((t.modCurrent fun k => { k with remaining := rest }).ruleMatches
      (t.classifier.rule r).fields k.frame).2 :=
    State.Settles.apart (t := t.modCurrent fun k => { k with remaining := rest }) (h.apart rfl rfl rfl rfl) (by simp) (by simp)
      (by simp) (by simp)
  exact .ite hm.act hm

theorem State.Settles.classified {k : Classification} (h : State.Settles new s t) :
    State.Settles new s (((t.defaultAction k).release k.frame.desc).modClassifier fun c => { c with current := none }) := by
  refine .modClassifier (.apart (t := t.defaultAction k) (.ite h ?_) rfl rfl rfl rfl)
  split
  · exact h
  · exact h.file

end

end Sys2Proof.Machine
end

