-- ==== Sys2Proof/Proofs/OutstandingTags.lean ====
section
namespace Sys2Proof.Machine

/-! ### The outstanding tags -/

/-- R144. The tags of the message on HTX. -/
def Outgoing.holds (o : Option Outgoing) : List Byte :=
  match o with
  | some (.reply r) => r.holds
  | _ => []

/-- R144. The tag of the request that is executed. -/
def Executor.holds (e : Executor) : List Byte :=
  match e with
  | .executing tag _ => [tag]
  | _ => []

theorem Executor.holds_idle : Executor.idle.holds = [] := rfl

/-- R144. The tags of the requests that the link has not fully answered, those of long operations apart. -/
def Link.unanswered (l : Link) : List Byte :=
  l.requests.map (·.tag) ++ l.executor.holds ++ l.replies.flatMap Reply.holds ++ Outgoing.holds l.htx

theorem State.unanswered_eq (s : State) : s.unanswered = s.link.unanswered ++ s.ops.entries.map (·.tag) := rfl

/-- What every step keeps exact: the outstanding tags, the long-operation table, the stores and the draining marks. -/
structure State.Exact (s : State) : Prop where
  tags : s.TagsSound
  accounts : s.Accounts

section
variable {s t u : State} {new : List Byte}

theorem State.Accounts.of_eq (h : s.Accounts) (ho : t.ops = s.ops) (hs : t.stores = s.stores) (hd : t.drains = s.drains) :
    t.Accounts := by
  have hstore : ∀ i, t.store i = s.store i := fun i => by rw [State.store, hs, State.store]
  rw [State.accounts_iff] at h ⊢
  simpa only [ho, hd, hstore] using h

theorem State.TagsSound.nodup (h : s.TagsSound) : s.unanswered.Nodup := h.exact.nodup_iff.mp h.different

/-- The same tags stay outstanding when the same requests are not yet fully answered. -/
theorem State.TagsSound.of_perm (h : s.TagsSound) (ho : t.link.outstanding = s.link.outstanding)
    (hp : s.unanswered.Perm t.unanswered)
    (hr : ∀ m, t.link.htx = some (.report m) → ∃ e ∈ t.ops.entries, e.tag = m.tag ∧ e.running = false) : t.TagsSound :=
  ⟨ho ▸ h.exact.trans hp, ho ▸ h.different, ho ▸ h.nonzero, hr⟩

/-- A tag that is no longer outstanding goes where it was held. -/
theorem State.TagsSound.filter (h : s.TagsSound) {tag : Byte} (ho : t.link.outstanding = s.link.outstanding.filter (· != tag))
    (hp : (s.unanswered.filter (· != tag)).Perm t.unanswered)
    (hr : ∀ m, t.link.htx = some (.report m) → ∃ e ∈ t.ops.entries, e.tag = m.tag ∧ e.running = false) : t.TagsSound :=
  ⟨ho ▸ (h.exact.filter _).trans hp, ho ▸ h.different.filter _, fun h0 => h.nonzero (List.mem_filter.mp (ho ▸ h0)).1, hr⟩

/-- R165. The entry of the report on HTX stays COMPLETE. -/
theorem State.TagsSound.report_of_follows (h : s.TagsSound) (hf : OpTable.Follows new s.ops t.ops)
    (hx : t.link.htx = s.link.htx) :
    ∀ m, t.link.htx = some (.report m) → ∃ e ∈ t.ops.entries, e.tag = m.tag ∧ e.running = false :=
  fun m hm => by
    obtain ⟨e, he, htag, hrun⟩ := h.report m (hx ▸ hm)
    obtain ⟨x, hx, hxt, hxr⟩ := hf.complete e he hrun
    exact ⟨x, hx, hxt.trans htag, hxr⟩

/-- R144. The tags of the operations that join the table pass to it from the link. -/
theorem State.Exact.relink (hs : s.Exact) (h : State.Settles new s u) {l : Link} (ho : l.outstanding = s.link.outstanding)
    (hx : l.htx = s.link.htx) (hp : s.link.unanswered.Perm (l.unanswered ++ new)) : ({ u with link := l } : State).Exact := by
  have hall : s.unanswered.Perm (l.unanswered ++ u.ops.entries.map (·.tag)) := by
    rw [State.unanswered_eq, h.table.tags]
    refine (hp.append_right _).trans ?_
    rw [List.append_assoc]
    exact List.perm_append_comm.append_left _
  have htags : (s.ops.entries.map (·.tag) ++ new).Nodup := by
    rw [← h.table.tags]
    exact (List.nodup_append.mp (hall.nodup_iff.mp hs.tags.nodup)).2.1
  exact ⟨hs.tags.of_perm ho hall (hs.tags.report_of_follows h.table hx), (h.accounts hs.accounts htags).of_eq rfl rfl rfl⟩

theorem State.Settles.exact (h : State.Settles [] s t) (hs : s.Exact) : t.Exact := by
  obtain ⟨counters, hl⟩ := h.link
  refine hs.relink h (l := t.link) (by rw [hl]) (by rw [hl]) (.of_eq ?_)
  rw [hl, List.append_nil]
  rfl

/-! ### Requests -/

/-- R144. The tag of an operation that a response says has been accepted. -/
def Response.joins (tag : Byte) (r : Response) : List Byte :=
  match r with
  | .reply .accepted _ => [tag]
  | _ => []

/-- R144, R163. A request's execution adds an operation of the request's tag exactly when it answers ACCEPTED. -/
def State.Executed (s : State) (tag : Byte) (out : State × Response) : Prop := State.Settles (out.2.joins tag) s out.1

/-- R164. A reply clears the reply pending marks. -/
theorem State.Settles.clearReplyPending (h : State.Settles new s t) : State.Settles new s (t.modOps fun o =>
    { o with entries := o.entries.map fun e => { e with replyPending := false } }) := h.modEntries fun _ => ⟨rfl, rfl, rfl⟩

/-- R145. A request that has been taken is answered. -/
theorem State.Exact.answered (hs : s.Exact) {r : Message} {rest : List Message} (hidle : s.link.executor = .idle)
    (hreq : s.link.requests = r :: rest) (h : State.Settles new s u) {l : Link} (hrequests : l.requests = rest)
    (ho : l.outstanding = u.link.outstanding) (hreplies : l.replies = u.link.replies) (hx : l.htx = u.link.htx)
    {status : Status} {fields : List Byte} {role : ReplyRole} {after : Executor} (hafter : after.holds = [])
    (hholds : Reply.holds ⟨⟨replyKind r.kind, r.tag, replyBody status fields⟩, role⟩ ++ new = [r.tag]) :
    (({ u with link := l } : State).answer r.tag r.kind status fields role after).Exact := by
  obtain ⟨counters, hl⟩ := h.link
  have hmarks := h.clearReplyPending
  rw [hl] at ho hreplies hx
  refine hs.relink hmarks ho hx (List.perm_iff_count.mpr fun a => ?_)
  have hreply := congrArg (List.count a) hholds
  simp only [Link.unanswered, hidle, hreq, hafter, hrequests, hreplies, hx, Executor.holds_idle, List.map_cons, List.flatMap_append,
    List.flatMap_cons, List.flatMap_nil, List.append_nil, List.count_append, List.count_cons, List.count_nil] at hreply ⊢
  omega

/-- R11. A request that has been taken is held. -/
theorem State.Exact.held (hs : s.Exact) {r : Message} {rest : List Message} (hidle : s.link.executor = .idle)
    (hreq : s.link.requests = r :: rest) (h : State.Settles [] s u) (k : Kind) :
    (u.modLink fun l => l.takeRequest r k rest).Exact := by
  obtain ⟨counters, hl⟩ := h.link
  refine hs.relink h (l := u.link.takeRequest r k rest) (by rw [hl]; rfl) (by rw [hl]; rfl) (List.perm_iff_count.mpr fun a => ?_)
  simp only [Link.unanswered, Link.takeRequest, hl, hidle, hreq, Executor.holds, List.map_cons, List.append_nil,
    List.count_append, List.count_cons, List.count_nil]
  omega

theorem State.request_exact {k : Kind} {run : Byte → List Byte → State → State × Response} (hs : s.Exact)
    (h : ∀ tag body, s.Executed tag (run tag body s)) : (s.request k run).Exact := by
  obtain he | ⟨r, rest, hidle, hreq, -, -, he⟩ := s.request_cases k run
  · rw [he]
    exact hs
  rw [he]
  have hx : s.Executed r.tag (run r.tag r.body s) := h r.tag r.body
  dsimp only
  generalize run r.tag r.body s = out at hx
  obtain ⟨u, response⟩ := out
  cases response with
  | reply status fields =>
    refine hs.answered hidle hreq hx (l := u.link.takeRequest r k rest) rfl rfl rfl rfl rfl ?_
    cases status <;> rfl
  | restart => exact hs.answered hidle hreq hx (l := u.link.takeRequest r k rest) rfl rfl rfl rfl rfl rfl
  | held => exact hs.held hidle hreq hx k

end

end Sys2Proof.Machine
end

