-- ==== Sys2Proof/Proofs/TagRows.lean ====
section
namespace Sys2Proof.Machine

/-! ### The rows of the link -/

section
variable {s t : State}

/-- R146. Any answer but ACCEPTED keeps the tag until it has been sent. -/
theorem Reply.holds_roleOf {status : Status} (h : status ≠ .accepted) (m : Message) :
    Reply.holds ⟨m, roleOf status⟩ = [m.tag] := by
  cases status with
  | accepted => exact absurd rfl h
  | _ => rfl

/-- A change of the link that leaves the requests not yet answered. -/
theorem State.Exact.modLink (hs : s.Exact) {f : Link → Link} (ho : (f s.link).outstanding = s.link.outstanding)
    (hx : (f s.link).htx = s.link.htx) (hp : s.link.unanswered.Perm (f s.link).unanswered) : (s.modLink f).Exact :=
  hs.relink (.refl s) ho hx (by rwa [List.append_nil])

theorem State.Exact.setReceiver (hs : s.Exact) (r : Receiver) : (s.setReceiver r).Exact := hs.modLink rfl rfl (.refl _)

theorem State.Exact.countLink (hs : s.Exact) (f : LinkCounters → LinkCounters) : (s.countLink f).Exact :=
  hs.modLink rfl rfl (.refl _)

/-- R143. An arrival refusal keeps no tag outstanding. -/
theorem State.Exact.refuseArrival (hs : s.Exact) (tag kind : Byte) (status : Status) (fields : List Byte) :
    (s.refuseArrival tag kind status fields).Exact := by
  simp only [State.refuseArrival]
  split
  · refine hs.modLink rfl rfl (.of_eq ?_)
    simp [Link.unanswered, Reply.holds]
  · exact hs.modLink rfl rfl (.refl _)

/-- R142. The tag of a request that is taken becomes outstanding. -/
theorem State.Exact.arrive (hs : s.Exact) (m : Message) : (s.arrive m).Exact := by
  simp only [State.arrive]
  split
  · exact hs.refuseArrival _ _ _ _
  rename_i hzero
  split
  · exact hs.refuseArrival _ _ _ _
  rename_i hfree
  split
  · exact hs.refuseArrival _ _ _ _
  have hnew : m.tag ∉ s.link.outstanding := by simpa using hfree
  refine ⟨⟨List.perm_iff_count.mpr fun a => ?_, ?_, ?_, hs.tags.report⟩, hs.accounts.of_eq rfl rfl rfl⟩
  · have hcount := List.perm_iff_count.mp hs.tags.exact a
    simp only [State.unanswered_eq, Link.unanswered, State.modLink_link, State.modLink_ops, List.map_append, List.map_cons,
      List.map_nil, List.count_append] at hcount ⊢
    omega
  · exact hs.tags.different.append (List.nodup_singleton _) (List.disjoint_singleton.mpr hnew)
  · exact fun h => (List.mem_append.mp h).elim hs.tags.nonzero fun h => hzero (List.mem_singleton.mp h).symm

theorem State.Exact.unknownRequest (hs : s.Exact) : s.unknownRequest.Exact := by
  simp only [State.unknownRequest]
  split
  · rename_i r rest hidle hreq
    split
    · refine hs.answered hidle hreq (.refl s) (l := { s.link with requests := rest, reserved := s.link.reserved + 1 })
        rfl rfl rfl rfl rfl ?_
      rfl
    · exact hs
  · exact hs

/-- R23. The held request is answered. -/
theorem State.Exact.carryOutHeld (hs : s.Exact) : s.carryOutHeld.Exact := by
  simp only [State.carryOutHeld]
  split
  · rename_i e tag kind _ hex
    have hreply := Reply.holds_roleOf (s.classifier.applyEdit_ne_accepted e)
      ⟨replyKind kind.code, tag, replyBody (s.classifier.applyEdit e).1 []⟩
    have hedited : State.Settles [] s { s with classifier := { (s.classifier.applyEdit e).2 with held := none } } :=
      .apart (.refl s) rfl rfl rfl rfl
    refine hs.relink hedited.clearReplyPending rfl rfl (List.perm_iff_count.mpr fun a => ?_)
    have hcount := congrArg (List.count a) hreply
    simp only [Link.unanswered, hex, Executor.holds, List.flatMap_append, List.flatMap_cons, List.flatMap_nil,
      List.append_nil, List.count_append, List.count_cons, List.count_nil] at hcount ⊢
    omega
  · exact hs

theorem State.Exact.endClassification (hs : s.Exact) (k : Classification) : (s.endClassification k).Exact :=
  State.Exact.carryOutHeld (State.Settles.exact (.classified (.refl s)) hs)

/-! ### The rows of the arbiter -/

theorem State.mayBegin_htx (h : s.mayBegin = true) : s.link.htx = none := by
  simp only [State.mayBegin, Bool.and_eq_true, Option.isNone_iff_eq_none] at h
  exact h.2

theorem State.Exact.beginReply (hs : s.Exact) : s.beginReply.Exact := by
  simp only [State.beginReply]
  split
  · rename_i r rest hreplies
    split
    · rename_i hbegin
      have hx := State.mayBegin_htx hbegin
      refine ⟨hs.tags.of_perm rfl (List.perm_iff_count.mpr fun a => ?_) nofun, hs.accounts.of_eq rfl rfl rfl⟩
      simp only [State.unanswered_eq, Link.unanswered, State.modLink_link, State.modLink_ops, hreplies, hx, Outgoing.holds,
        List.flatMap_cons, List.count_append, List.count_nil]
      omega
    · exact hs
  · exact hs

/-- R164. The report that may be sent is that of a COMPLETE entry. -/
theorem OpTable.nextReport_complete {o : OpTable} {e : OpEntry} (h : o.nextReport = some e) :
    e ∈ o.entries ∧ e.running = false := by
  have hm := List.mem_of_head? h
  obtain ⟨tag, -, hfind⟩ := List.mem_filterMap.mp hm
  have heligible := List.find?_some hfind
  simp only [OpEntry.eligible, Bool.and_eq_true, Bool.not_eq_true'] at heligible
  exact ⟨List.mem_of_find?_eq_some hfind, heligible.2.1.1⟩

theorem State.Exact.beginReport (hs : s.Exact) : s.beginReport.Exact := by
  simp only [State.beginReport]
  split
  · rename_i e _ hnext
    split
    · rename_i hbegin
      obtain ⟨he, hrun⟩ := OpTable.nextReport_complete hnext
      refine ⟨hs.tags.of_perm rfl (.of_eq ?_) fun m hm => ⟨e, he, ?_, hrun⟩, hs.accounts.of_eq rfl rfl rfl⟩
      · simp [State.unanswered_eq, Link.unanswered, State.mayBegin_htx hbegin, Outgoing.holds]
      · cases hm
        rfl
    · exact hs
  · exact hs

theorem State.Exact.beginNotice (hs : s.Exact) : s.beginNotice.Exact := by
  simp only [State.beginNotice]
  split
  · split
    · rename_i hbegin
      have hx := State.mayBegin_htx (Bool.and_eq_true_iff.mp hbegin).1
      refine ⟨hs.tags.of_perm rfl (.of_eq ?_) nofun, hs.accounts.of_eq rfl rfl rfl⟩
      simp [State.unanswered_eq, Link.unanswered, hx, Outgoing.holds]
    · exact hs
  · exact hs

theorem State.exact_afterReset (s : State) (cause : ResetCause) : (s.afterReset cause).Exact :=
  ⟨⟨.refl _, List.nodup_nil, List.not_mem_nil, nofun⟩,
    State.Accounts.of_eq (s := .reset) ⟨State.reset_opsSound, State.reset_opsAgree, State.reset_storeSound⟩ rfl rfl rfl⟩

/-- What occurs once, and in the second of two lists, is filtered out there. -/
theorem filter_ne_append {α : Type} [DecidableEq α] {l₁ l₂ : List α} {a : α} (h : (l₁ ++ l₂).Nodup) (ha : a ∈ l₂) :
    (l₁ ++ l₂).filter (· != a) = l₁ ++ l₂.filter (· != a) := by
  rw [List.filter_append, List.filter_eq_self.mpr fun x hx => ?_]
  rw [bne_iff_ne]
  exact fun hxa => List.disjoint_of_nodup_append h hx (hxa ▸ ha)

theorem filter_ne_cons {α : Type} [DecidableEq α] {l : List α} {a : α} (h : (a :: l).Nodup) :
    (a :: l).filter (· != a) = l := by
  rw [List.filter_cons_of_neg (by simp)]
  refine List.filter_eq_self.mpr fun x hx => ?_
  rw [bne_iff_ne]
  exact fun hxa => (List.nodup_cons.mp h).1 (hxa ▸ hx)

/-- R144. The end of an ordinary reply ends the tag's being outstanding. -/
theorem State.Exact.endOrdinary (hs : s.Exact) {r : Reply} (hx : s.link.htx = some (.reply r)) (hrole : r.role = .ordinary) :
    (s.modLink fun l => { l with
      htx := none
      outstanding := l.outstanding.filter fun t => t != r.message.tag }).Exact := by
  set before := s.link.requests.map (·.tag) ++ s.link.executor.holds ++ s.link.replies.flatMap Reply.holds with hbefore
  have hall : s.unanswered = before ++ r.message.tag :: s.ops.entries.map (·.tag) := by
    simp [State.unanswered_eq, Link.unanswered, hx, Outgoing.holds, Reply.holds, hrole, hbefore]
  have hnodup := hs.tags.nodup
  rw [hall] at hnodup
  refine ⟨hs.tags.filter rfl (.of_eq ?_) nofun, hs.accounts.of_eq rfl rfl rfl⟩
  rw [hall, filter_ne_append hnodup (List.mem_cons_self ..), filter_ne_cons (List.nodup_append.mp hnodup).2.1]
  simp [State.unanswered_eq, Link.unanswered, Outgoing.holds, hbefore]

/-- R144. The end of an ACCEPTED reply leaves the tag to its operation. -/
theorem State.Exact.endAccepted (hs : s.Exact) {r : Reply} (hx : s.link.htx = some (.reply r)) (hrole : r.role = .accepted) :
    ((s.modLink fun l => { l with htx := none }).modOps fun o => { o with entries := o.entries.map fun e =>
      if e.tag = r.message.tag then { e with acceptedSent := true } else e }).Exact := by
  have hmarks : State.Settles [] s (s.modOps fun o => { o with entries := o.entries.map fun e =>
      if e.tag = r.message.tag then { e with acceptedSent := true } else e }) :=
    .modEntries (.refl s) fun e => by split <;> exact ⟨rfl, rfl, rfl⟩
  have hex := hmarks.exact hs
  refine ⟨hex.tags.of_perm rfl (.of_eq ?_) nofun, hex.accounts.of_eq rfl rfl rfl⟩
  simp [State.unanswered_eq, Link.unanswered, hx, Outgoing.holds, Reply.holds, hrole]

/-- R143. The end of an arrival refusal. -/
theorem State.Exact.endRefusal (hs : s.Exact) {r : Reply} (hx : s.link.htx = some (.reply r)) (hrole : r.role = .refusal) :
    (s.modLink fun l => { l with htx := none }).Exact := by
  refine ⟨hs.tags.of_perm rfl (.of_eq ?_) nofun, hs.accounts.of_eq rfl rfl rfl⟩
  simp [State.unanswered_eq, Link.unanswered, hx, Outgoing.holds, Reply.holds, hrole]

theorem State.Exact.endReply (hs : s.Exact) : s.endReply.Exact := by
  simp only [State.endReply]
  split
  · rename_i r hx
    split
    · exact hs.endRefusal hx ‹_›
    · exact hs.endOrdinary hx ‹_›
    · exact hs.endAccepted hx ‹_›
    · exact State.exact_afterReset _ _
  · exact hs

/-- R165. The entry of the report leaves the table with its tag. -/
theorem State.Exact.endReport (hs : s.Exact) : s.endReport.Exact := by
  simp only [State.endReport]
  split
  · rename_i m hx
    obtain ⟨e, he, htag, hrun⟩ := hs.tags.report m hx
    have hmem : m.tag ∈ s.ops.entries.map (·.tag) := List.mem_map.mpr ⟨e, he, htag⟩
    have htags : (s.ops.remove m.tag).entries.map (·.tag) = (s.ops.entries.map (·.tag)).filter (· != m.tag) := by
      rw [List.filter_map]
      rfl
    obtain ⟨ht, hstores, hdrains⟩ := s.accounts_iff.mp hs.accounts
    have hruns (sel : OpWork → Bool) := Bool.eq_iff_iff.mp (htag ▸ OpTable.runs_remove ht he hrun sel)
    refine ⟨hs.tags.filter rfl (.of_eq ?_) nofun, (State.accounts_iff _).mpr ⟨ht.remove m.tag, fun i => ?_, fun p => ?_⟩⟩
    · rw [State.unanswered_eq, filter_ne_append (l₁ := s.link.unanswered) hs.tags.nodup hmem, ← htags]
      simp [State.unanswered_eq, Link.unanswered, hx, Outgoing.holds]
    · exact ⟨(hstores i).1, (hstores i).2.trans (hruns _).symm⟩
    · exact (hdrains p).trans (hruns _).symm
  · exact hs

/-! ### Time -/

theorem OpEntry.alike_tick (e : OpEntry) : e.Alike e.tick := by
  obtain ⟨tag, work, status, start, acceptedSent, replyPending⟩ := e
  cases status with
  | some x => exact ⟨rfl, rfl, rfl⟩
  | none => cases work <;> exact ⟨rfl, rfl, rfl⟩

/-- R165. Time ends no reply and no report. -/
theorem Outgoing.tick_holds (rate : LinkRate) (htx : Option Outgoing) :
    Outgoing.holds (htx.bind (Outgoing.tick rate)) = Outgoing.holds htx ∧
      ∀ m, htx.bind (Outgoing.tick rate) = some (.report m) → htx = some (.report m) := by
  cases htx with
  | none => exact ⟨rfl, nofun⟩
  | some o =>
    cases o with
    | reply | report => exact ⟨rfl, fun _ h => h⟩
    | notice m micros =>
      simp only [Option.bind_some, Outgoing.tick]
      split
      · exact ⟨rfl, nofun⟩
      · exact ⟨rfl, nofun⟩

theorem State.Exact.tick (hs : s.Exact) : s.tick.Exact := by
  cases hr : s.pins.reset with
  | true =>
    rw [State.tick, if_pos hr]
    exact hs
  | false =>
    have hmarks : State.Settles [] s (s.modOps fun o => { o with entries := o.entries.map OpEntry.tick }) :=
      .modEntries (.refl s) OpEntry.alike_tick
    obtain ⟨hholds, hreport⟩ := Outgoing.tick_holds s.link.rate s.link.htx
    have hex := hmarks.exact hs
    have ht : s.tick.ops = { s.ops with entries := s.ops.entries.map OpEntry.tick } ∧ s.tick.stores = s.stores ∧
        s.tick.link = { s.link with
          receiver := s.link.receiver.tick
          htx := s.link.htx.bind (Outgoing.tick s.link.rate) } := by simp [State.tick, hr]
    obtain ⟨hops, hstores, hl⟩ := ht
    have hdrains : s.tick.drains = s.drains := funext fun p => (congrArg Port.draining (s.port_tick hr p)).trans rfl
    refine ⟨hex.tags.of_perm (by rw [hl]; rfl) (.of_eq ?_) fun m hm => ?_, hex.accounts.of_eq hops hstores hdrains⟩
    · rw [State.unanswered_eq, State.unanswered_eq, hl, hops]
      simp only [Link.unanswered, hholds]
      rfl
    · rw [hl] at hm
      rw [hops]
      exact hex.tags.report m (hreport m hm)

end

end Sys2Proof.Machine
end

