-- ==== Sys2Proof/Proofs/TagsExact.lean ====
section
namespace Sys2Proof.Machine

/-! ### Every row -/

section
variable {s t : State} {tag : Byte}

/-- What an outcome is when it is a next state, from a state whose accounts are exact. -/
def State.KeepsExact (s : State) (o : Host.Outcome State Fault Refusal) : Prop := s.Exact → ∀ t, o = .next t → t.Exact

theorem State.KeepsExact.next (h : s.Exact → t.Exact) : s.KeepsExact (.next t) := fun hs _ ht => by cases ht; exact h hs

theorem State.KeepsExact.unlessReset (h : s.Exact → t.Exact) : s.KeepsExact (s.unlessReset t) := .next fun hs => by
  split
  · exact hs
  · exact h hs

theorem State.KeepsExact.settles (h : State.Settles [] s t) : s.KeepsExact (s.unlessReset t) := .unlessReset h.exact

theorem State.KeepsExact.request {α : Type} {k : Kind} {parse : List Byte → Except Nat α}
    {act : Byte → α → State → State × Response} (h : ∀ tag body a, parse body = .ok a → s.Executed tag (act tag a s)) :
    s.KeepsExact (s.execRequest k parse act) := by
  refine .unlessReset fun hs => State.request_exact hs fun tag body => ?_
  simp only [checked]
  split
  · split
    · exact State.Settles.refl s
    · exact h tag body _ ‹_›
  · exact State.Settles.refl s

theorem State.Settles.takeItem {new : List Byte} {p : PortId} (h : State.Settles new s t) : State.Settles new s (t.takeItem p) :=
  h.same (by simp) (by simp) (by simp) (t.drains_takeItem p)

theorem State.Settles.quietExpiry {new : List Byte} {p : PortId} (h : State.Settles new s t) :
    State.Settles new s (t.quietExpiry p) := h.same (by simp) (by simp) (by simp) (t.drains_quietExpiry p)

theorem State.Executed.ite {c : Prop} [Decidable c] {a b : State × Response} (ha : c → s.Executed tag a)
    (hb : ¬ c → s.Executed tag b) : s.Executed tag (if c then a else b) := by
  split
  · exact ha ‹_›
  · exact hb ‹_›

theorem State.Executed.grant (h : State.Settles [] s t) (fields : List Byte) : s.Executed tag (t.grant fields) := h

theorem Response.joins_reply {status : Status} (h : status ≠ .accepted) (fields : List Byte) :
    (Response.reply status fields).joins tag = [] := by
  cases status with
  | accepted => exact absurd rfl h
  | _ => rfl

theorem State.Executed.reply {status : Status} (h : State.Settles [] s t) (hs : status ≠ .accepted) (fields : List Byte) :
    s.Executed tag (t, .reply status fields) := by
  rw [State.Executed, Response.joins_reply hs]
  exact h

theorem State.Executed.deny {status : Status} (hs : status ≠ .accepted) : s.Executed tag (s.deny status) :=
  .reply (.refl s) hs []

/-! Requests -/

theorem State.edit_executed (s : State) (e : Edit) (tag : Byte) : s.Executed tag (s.edit e) := by
  simp only [State.edit]
  split
  · refine .reply ?_ (s.classifier.applyEdit_ne_accepted e) []
    exact .apart (.refl s) rfl rfl rfl rfl
  · exact (State.Settles.refl s).modClassifier (f := fun c => { c with held := some e })

theorem State.admissionCause_ne_accepted {p : PortId} {cause : Status} (h : s.admissionCause p = some cause) :
    cause ≠ .accepted := by
  rintro rfl
  simp only [State.admissionCause] at h
  (repeat' split at h) <;> cases h

theorem State.admitSend_executed (s : State) (tag : Byte) (p : PortId) (cls : Fin 4) (ttl : Nat) (report : Bool)
    (data : List Byte) : s.Executed tag (s.admitSend tag p cls ttl report data) := by
  have hf := (State.Settles.refl s).fill (bytes := data)
  simp only [State.admitSend]
  split
  · exact .deny (State.admissionCause_ne_accepted ‹_›)
  · split <;> rename_i e <;> rw [e] at hf
    · exact .reply (t := _) (show State.Settles [] s _ from hf) (by decide) []
    · exact .grant hf.makeEntry _

theorem State.sendCancel_keepsExact : s.KeepsExact (exec .sendCancel s) := by
  refine .request fun _ _ id _ => ?_
  split
  · exact .deny (by decide)
  · exact .ite (fun _ => .grant (.endEntry (.refl s)) _) fun _ => .deny (by decide)

theorem State.sendStatus_keepsExact : s.KeepsExact (exec .sendStatus s) := by
  refine .request fun _ _ id _ => ?_
  split
  · exact .deny (by decide)
  · exact .grant (.refl s) _

theorem State.portDrain_keepsExact : s.KeepsExact (exec .portDrain s) := by
  refine .request fun tag _ a _ => .ite (fun _ => .deny (by decide)) fun hu => .ite (fun _ => .deny (by decide)) fun _ =>
    .ite (fun _ => .deny (by decide)) fun hf => ?_
  have hstart := State.settles_startDrain hu hf tag a.2 (1000 * a.2) s.timebase
  exact State.Settles.ite hstart.completeDrain hstart

theorem State.storePurge_keepsExact : s.KeepsExact (exec .storePurge s) :=
  .request fun tag _ i _ => .ite (fun _ => .deny (by decide)) fun hu => .ite (fun _ => .deny (by decide)) fun hc =>
    .ite (fun _ => .deny (by decide)) fun hf => (State.settles_startPurge hu hc hf tag s.timebase).judgePurge

theorem State.memoryCheck_keepsExact : s.KeepsExact (exec .memoryCheck s) :=
  .request fun tag _ _ _ => .ite (fun _ => .deny (by decide)) fun hu => .ite (fun _ => .deny (by decide)) fun hf =>
    State.settles_startCheck hu hf tag s.timebase

theorem State.opCancel_keepsExact : s.KeepsExact (exec .opCancel s) := by
  refine .request fun _ _ _ _ => ?_
  split
  · exact .deny (by decide)
  · exact .ite (fun _ => .grant (.cancelOp (.refl s)) _) fun _ => .deny (by decide)

theorem State.storeConfig_keepsExact : s.KeepsExact (exec .storeConfig s) := by
  refine .request fun _ _ a hp => ?_
  split
  · rename_i hc
    exact .grant (.modStore (.refl s) (fun hs => hs.configure hc (parseStoreConfig_valid hp)) Iff.rfl) _
  · exact .deny (by decide)
  · exact .deny (by decide)

/-- R49. A request that changes the state of a store outside PURGING. -/
theorem State.storeState_executed {i : StoreId} {x : StoreState} (hst : (s.store i).state ≠ .purging) (hx : x ≠ .purging)
    (hc : x = .closed → (s.store i).records = []) :
    s.Executed tag ((s.modStore i fun st => { st with state := x }).grant []) := by
  refine .grant (.modStore (.refl s) (fun hs => ?_) (by simp [hx, hst])) _
  have hprior : (s.store i).prior.isSome ≠ true := mt hs.prior.mp hst
  exact hs.withState hc (by simp [hx, hprior]) hs.priorOpen

theorem State.storeOpen_keepsExact : s.KeepsExact (exec .storeOpen s) := by
  refine .request fun _ _ i _ => ?_
  split <;> rename_i hst
  · exact State.storeState_executed (by simp [hst]) (by decide) nofun
  · exact State.storeState_executed (by simp [hst]) (by decide) nofun
  · exact .deny (by decide)
  · exact .deny (by decide)

theorem State.storePause_keepsExact : s.KeepsExact (exec .storePause s) := by
  refine .request fun _ _ i _ => ?_
  split <;> rename_i hst
  · exact State.storeState_executed (by simp [hst]) (by decide) nofun
  · exact .deny (by decide)
  · exact .deny (by decide)
  · exact .deny (by decide)

theorem State.storeClose_keepsExact : s.KeepsExact (exec .storeClose s) := by
  refine .request fun _ _ i _ => ?_
  split <;> rename_i hst
  · exact .ite (fun he => State.storeState_executed (by simp [hst]) (by decide) fun _ => List.isEmpty_iff.mp he)
      fun _ => .deny (by decide)
  · exact .ite (fun he => State.storeState_executed (by simp [hst]) (by decide) fun _ => List.isEmpty_iff.mp he)
      fun _ => .deny (by decide)
  · exact .deny (by decide)
  · exact .deny (by decide)

theorem State.storeAck_keepsExact : s.KeepsExact (exec .storeAck s) := by
  refine .request fun _ _ a _ => .ite (fun _ => .deny (by decide)) fun _ => ?_
  split
  · exact .deny (by decide)
  · rename_i k _
    refine .grant (.releaseAll (.modStore (.refl s) (fun hs => hs.ack k) ?_)) _
    rw [Store.ack, Store.rearm_state]
    rfl

theorem State.storeRewind_keepsExact : s.KeepsExact (exec .storeRewind s) :=
  .request fun _ _ _ _ => .ite (fun _ => .deny (by decide)) fun _ =>
    .grant (.modStore (.refl s) (fun hs => hs.withDelivered (Nat.zero_le _)) Iff.rfl) _

theorem State.storeRead_keepsExact : s.KeepsExact (exec .storeRead s) :=
  .request fun _ _ _ _ => .ite (fun _ => .deny (by decide)) fun _ => .ite (fun _ => .deny (by decide)) fun _ =>
    State.Settles.serveRead (.refl s)

theorem State.countersRead_keepsExact : s.KeepsExact (exec .countersRead s) :=
  .request fun _ _ _ _ => .grant (.ite (.clearGroup (.refl s)) (.refl s)) _

/-- A request that reports, and changes nothing. -/
theorem State.KeepsExact.report {α : Type} {k : Kind} {parse : List Byte → Except Nat α}
    {act : Byte → α → State → State × Response} (h : ∀ tag a, ∃ fields, act tag a s = s.grant fields) :
    s.KeepsExact (s.execRequest k parse act) := .request fun tag _ a _ => by
  obtain ⟨fields, hact⟩ := h tag a
  rw [hact]
  exact .grant (.refl s) fields

/-- A request that is answered OK, whatever its fields. -/
theorem State.KeepsExact.granted {α : Type} {k : Kind} {parse : List Byte → Except Nat α}
    {act : Byte → α → State → State × Response} (h : ∀ tag a, State.Settles [] s (act tag a s).1)
    (hr : ∀ tag a, ∃ fields, (act tag a s).2 = .reply .ok fields) : s.KeepsExact (s.execRequest k parse act) :=
  .request fun tag _ a _ => by
    obtain ⟨fields, hact⟩ := hr tag a
    rw [State.Executed, hact]
    exact h tag a

/-! The blocks of the part -/

theorem State.resetRelease_keepsExact : s.KeepsExact (exec .resetRelease s) := by
  refine .next fun hs => ?_
  split
  · exact State.exact_afterReset _ _
  · exact hs

theorem State.messageArrival_keepsExact (items : List HrxItem) : s.KeepsExact (exec (.messageArrival items) s) := by
  refine .unlessReset fun hs => ?_
  split
  · exact hs.setReceiver _
  · exact (hs.setReceiver _).arrive _
  · exact hs

theorem State.badHeader_keepsExact (items : List HrxItem) : s.KeepsExact (exec (.badHeader items) s) := by
  refine .unlessReset fun hs => ?_
  split
  · exact (hs.setReceiver _).countLink _
  · exact hs

theorem State.badCrc_keepsExact (items : List HrxItem) : s.KeepsExact (exec (.badCrc items) s) := by
  refine .unlessReset fun hs => ?_
  split
  · exact ((hs.setReceiver _).countLink _).refuseArrival _ _ _ _
  · exact hs

theorem State.interByteTimeout_keepsExact : s.KeepsExact (exec .interByteTimeout s) := by
  refine .unlessReset fun hs => ?_
  split
  · exact (hs.setReceiver _).countLink _
  · exact hs

theorem State.memoryCheckExamine_keepsExact : s.KeepsExact (exec .memoryCheckExamine s) := by
  refine .settles ?_
  split
  · split
    · exact .examine (.refl s)
    · exact .refl s
  · exact .refl s

theorem State.walkVisit_keepsExact : s.KeepsExact (exec .walkVisit s) := by
  refine .settles ?_
  split
  · split
    · exact .visit (.refl s)
    · exact .refl s
  · exact .refl s

theorem State.classificationStart_keepsExact : s.KeepsExact (exec .classificationStart s) := by
  refine .settles ?_
  split
  · exact .modClassifier (.refl s)
  · exact .refl s

theorem State.classificationEnd_keepsExact : s.KeepsExact (exec .classificationEnd s) := by
  refine .unlessReset fun hs => ?_
  split
  · split
    · exact hs.endClassification _
    · exact hs
  · exact hs

theorem State.selection_keepsExact (p : PortId) : s.KeepsExact (exec (.selection p) s) := by
  refine .settles ?_
  split
  · exact .refl s
  · dsimp only
    split
    · exact .startEntry (.modEntry (.refl s))
    · exact .modPort (.modEntry (.refl s)) rfl

theorem State.turnaroundEnd_keepsExact (p : PortId) : s.KeepsExact (exec (.turnaroundEnd p) s) := by
  refine .settles ?_
  split
  · exact .refl s
  · exact .startEntry (.refl s)

theorem State.characterSent_keepsExact (p : PortId) : s.KeepsExact (exec (.characterSent p) s) := by
  refine .settles ?_
  split
  · dsimp only
    exact .ite (.endEntry (.releaseDir (.modEntry (.refl s))))
      (.ite (.holdOrEnd (.modEntry (.refl s))) (.beginCharacter (.modEntry (.refl s))))
  · exact .refl s

theorem State.trailingHoldExpiry_keepsExact (p : PortId) : s.KeepsExact (exec (.trailingHoldExpiry p) s) := by
  refine .settles ?_
  split
  · exact .refl s
  · exact .endEntry (.releaseDir (.refl s))

theorem State.ttlExpiry_keepsExact (id : Half) : s.KeepsExact (exec (.ttlExpiry id) s) := by
  refine .settles ?_
  split
  · exact .refl s
  · exact .ite (.endEntry (.refl s)) (.refl s)

end

/-- Every row keeps the tags, the table, the stores and the draining marks exact. -/
theorem exec_keepsExact (i : Instr) (s : State) : s.KeepsExact (exec i s) := by
  cases i with
  | powerUp rate1 rate0 => exact .next fun _ => State.exact_afterReset _ _
  | resetAssert => exact .next (State.Settles.exact (.apart (.refl s) rfl rfl rfl rfl))
  | resetRelease => exact State.resetRelease_keepsExact
  | holdAssert => exact .next (State.Settles.exact (.apart (.refl s) rfl rfl rfl rfl))
  | holdRelease => exact .next (State.Settles.exact (.apart (.refl s) rfl rfl rfl rfl))
  | messageArrival items => exact State.messageArrival_keepsExact items
  | badHeader items => exact State.badHeader_keepsExact items
  | badCrc items => exact State.badCrc_keepsExact items
  | interByteTimeout => exact State.interByteTimeout_keepsExact
  | unknownKind => exact .unlessReset State.Exact.unknownRequest
  | hello => exact .report fun _ _ => ⟨_, rfl⟩
  | ping => exact .report fun _ _ => ⟨_, rfl⟩
  | restart => exact .request fun _ _ _ _ => State.Settles.refl s
  | timeGet => exact .report fun _ _ => ⟨_, rfl⟩
  | timeSet => exact .granted (fun _ _ => .apart (.refl s) rfl rfl rfl rfl) fun _ _ => ⟨_, rfl⟩
  | portConfig => exact .request fun _ _ _ _ => .ite (fun _ => .grant (.modPort (.refl s) rfl) _) fun _ => .deny (by decide)
  | framerConfig => exact .request fun _ _ _ _ => .ite (fun _ => .grant (.modPort (.refl s) rfl) _) fun _ => .deny (by decide)
  | portStart => exact .request fun _ _ _ _ => .ite (fun _ => .grant (.modPort (.refl s) rfl) _) fun _ => .deny (by decide)
  | portPause =>
    exact .request fun _ _ _ _ => .ite (fun _ => .grant (.modPort (.abortReceiving (.refl s)) rfl) _) fun _ => .deny (by decide)
  | portResume => exact .request fun _ _ _ _ => .ite (fun _ => .grant (.modPort (.refl s) rfl) _) fun _ => .deny (by decide)
  | portStop => exact .request fun _ _ _ _ => .ite (fun _ => .grant (.stopPort (.refl s)) _) fun _ => .deny (by decide)
  | portReset => exact .request fun _ _ _ _ => .grant (.resetPort (.refl s)) _
  | portStatus => exact .report fun _ _ => ⟨_, rfl⟩
  | ruleWrite => exact .request fun _ _ _ _ => s.edit_executed _ _
  | ruleLink => exact .request fun _ _ _ _ => s.edit_executed _ _
  | ruleUnlink => exact .request fun _ _ _ _ => s.edit_executed _ _
  | ruleFree => exact .request fun _ _ _ _ => s.edit_executed _ _
  | ruleEnable => exact .request fun _ _ _ _ => s.edit_executed _ _
  | ruleRead => exact .report fun _ _ => ⟨_, rfl⟩
  | chainList => exact .report fun _ _ => ⟨_, rfl⟩
  | defaultSet => exact .request fun _ _ _ _ => s.edit_executed _ _
  | templateWrite => exact .request fun _ _ _ _ => s.edit_executed _ _
  | storeConfig => exact State.storeConfig_keepsExact
  | storeOpen => exact State.storeOpen_keepsExact
  | storePause => exact State.storePause_keepsExact
  | storeClose => exact State.storeClose_keepsExact
  | storeRead => exact State.storeRead_keepsExact
  | storeAck => exact State.storeAck_keepsExact
  | storeRewind => exact State.storeRewind_keepsExact
  | storeStatus => exact .report fun _ _ => ⟨_, rfl⟩
  | storePurge => exact State.storePurge_keepsExact
  | purgeRemoval store => exact .settles (.ite (.purgeOne (.refl s)) (.refl s))
  | send => exact .request fun _ _ _ _ => s.admitSend_executed _ _ _ _ _ _
  | sendCancel => exact State.sendCancel_keepsExact
  | sendStatus => exact State.sendStatus_keepsExact
  | portDrain => exact State.portDrain_keepsExact
  | memoryStatus => exact .report fun _ _ => ⟨_, rfl⟩
  | memoryCheck => exact State.memoryCheck_keepsExact
  | memoryCheckExamine => exact State.memoryCheckExamine_keepsExact
  | memoryLowSet => exact .granted (fun _ _ => .apart (.refl s) rfl rfl rfl rfl) fun _ _ => ⟨_, rfl⟩
  | noticeCredit => exact .granted (fun _ _ => .apart (.refl s) rfl rfl rfl rfl) fun _ _ => ⟨_, rfl⟩
  | noticeMask => exact .granted (fun _ _ => .apart (.refl s) rfl rfl rfl rfl) fun _ _ => ⟨_, rfl⟩
  | countersRead => exact State.countersRead_keepsExact
  | countersClear => exact .request fun _ _ _ _ => .grant (.clearGroup (.refl s)) _
  | opList => exact .report fun _ _ => ⟨_, rfl⟩
  | opCancel => exact State.opCancel_keepsExact
  | replyBegin => exact .unlessReset State.Exact.beginReply
  | replyEnd => exact .unlessReset State.Exact.endReply
  | completionReportBegin => exact .unlessReset State.Exact.beginReport
  | completionReportEnd => exact .unlessReset State.Exact.endReport
  | noticeSend => exact .unlessReset State.Exact.beginNotice
  | characterReceived p data parityBit stopHigh =>
    exact .settles (.modPort (.refl s) (Port.draining_characterReceived _ _ data parityBit stopHigh))
  | breakDetected p => exact .settles (.modPort (.refl s) (Port.draining_breakDetected _ _))
  | breakEnd p => exact .settles (.modPort (.refl s) (Port.draining_breakEnd _))
  | framerTakeItem p => exact .settles (.ite (.takeItem (.refl s)) (.refl s))
  | quietTimeExpiry p => exact .settles (.quietExpiry (.refl s))
  | classificationStart => exact State.classificationStart_keepsExact
  | walkVisit => exact State.walkVisit_keepsExact
  | classificationEnd => exact State.classificationEnd_keepsExact
  | selection p => exact State.selection_keepsExact p
  | sendGapExpiry p => exact .settles (.ite (.modPort (.refl s) rfl) (.refl s))
  | turnaroundEnd p => exact State.turnaroundEnd_keepsExact p
  | characterSent p => exact State.characterSent_keepsExact p
  | trailingHoldExpiry p => exact State.trailingHoldExpiry_keepsExact p
  | ttlExpiry id => exact State.ttlExpiry_keepsExact id
  | drainDeadline p => exact .settles (.ite (.completeDrain (.refl s)) (.refl s))
  | startBit p => exact .settles (.modPort (.refl s) (Port.draining_startBit _))
  | framingErrorEnd p => exact .settles (.modPort (.refl s) (Port.draining_framingErrorEnd _))

theorem step_keepsExact (s : State) : s.KeepsExact (step s) := by
  intro hs t ht
  simp only [step] at ht
  split at ht
  · rename_i pending _
    have htaken : State.Settles [] s { s with pending := pending } := .apart (.refl s) rfl rfl rfl rfl
    exact exec_keepsExact _ _ (htaken.exact hs) t ht
  · split at ht
    · exact exec_keepsExact _ s hs t ht
    · cases ht
      exact hs.tick

/-- Settles O59, from what a step keeps exact and what it keeps of the queues of the link. -/
theorem tagsStayExact : Obligations.TagsStayExact := by
  intro s t h htags hlink hops hagree hstores
  have hexact := step_keepsExact s ⟨htags, ⟨hops, hagree, hstores⟩⟩ t h
  obtain ⟨hops', hagree', hstores'⟩ := hexact.accounts
  exact ⟨hexact.tags, (step_leads s t h).link hlink, hops', hagree', hstores'⟩

end Sys2Proof.Machine
end

