-- ==== Sys2Proof/Proofs/FramerRules.lean ====
section
namespace Sys2Proof.Machine

/-! ### The framer of a port under the framer's operations -/

section
variable (s : State) (p : PortId)

/-- The framer read through `State.framer` is the port's; the statements read it as the port's. -/
theorem State.framer_eq : s.framer p = (s.port p).framer := rfl

@[simp] theorem State.port_modFramer_same (f : Framer → Framer) :
    (s.modFramer p f).port p = { s.port p with framer := f (s.port p).framer } := s.port_modPort_same p _

/-- Two changes of one framer are one. -/
theorem State.modFramer_modFramer (f g : Framer → Framer) :
    (s.modFramer p f).modFramer p g = s.modFramer p fun x => g (f x) := s.modPort_modPort p _ _

/-- A change of a framer depends on what it makes of that framer alone. -/
theorem State.modFramer_congr {f g : Framer → Framer} (h : f (s.port p).framer = g (s.port p).framer) :
    s.modFramer p f = s.modFramer p g := s.modPort_congr p (congrArg (fun x => { s.port p with framer := x }) h)

@[simp] theorem State.port_storeInFrame (v : Byte) (x : PortId) : (s.storeInFrame p v).2.port x = s.port x := by
  obtain ⟨-, -, -, -, -, -, -, hports, -⟩ := s.storeInFrame_frame p v
  exact congrArg (·.get x) hports

@[simp] theorem State.port_storeSeq (vs : List Byte) (x : PortId) : (s.storeSeq p vs).2.port x = s.port x := by
  obtain ⟨-, -, -, -, -, -, -, hports, -⟩ := s.storeSeq_frame p vs
  exact congrArg (·.get x) hports

/-! R93 to R95. Whatever becomes of the frame in assembly, the framer loses it and nothing else. -/

@[simp] theorem State.framer_dropFrame :
    ((s.dropFrame p).port p).framer = { (s.port p).framer with frame := none } := by
  simp only [State.dropFrame, State.framer_eq]
  split
  · simp
  · rename_i h
    rw [← h]

@[simp] theorem State.framer_count (f : PortCounters → PortCounters) :
    ((s.count p f).port p).framer = (s.port p).framer := by simp [State.count]

@[simp] theorem State.framer_discardFrame (cause : DiscardCause) :
    ((s.discardFrame p cause).port p).framer = { (s.port p).framer with frame := none } := by
  simp [State.discardFrame]

@[simp] theorem State.framer_finishClose (close : Word) :
    ((s.finishClose p close).port p).framer = { (s.port p).framer with frame := none } := by
  simp only [State.finishClose]
  split
  · rename_i h
    rw [State.framer_eq] at h
    rw [← h]
  · rw [State.completeFrame_eq]
    (repeat' split) <;> simp [Port.frameCompleted]

@[simp] theorem State.settings_flagFrame (f : FrameFlags → FrameFlags) :
    ((s.flagFrame p f).port p).framer.settings = (s.port p).framer.settings := by simp [State.flagFrame]

@[simp] theorem State.settings_truncateFrame :
    ((s.truncateFrame p).port p).framer.settings = (s.port p).framer.settings := by simp [State.truncateFrame_eq]

@[simp] theorem State.settings_closeFrame (kind : CloseKind) (close : Word) :
    ((s.closeFrame p kind close).port p).framer.settings = (s.port p).framer.settings := by
  cases kind with
  | truncated => simp [State.closeFrame]
  | ended brk => cases brk <;> simp [State.closeFrame]
  | incomplete brk =>
    have hstored := s.port_storeSeq p ((s.framer p).held.map (·.value)) p
    simp only [State.closeFrame, State.flagIncomplete]
    (repeat' split) <;> simp_all

/-- R80, R85, R87. After a close the framer returns to HUNT with the settings it had. -/
theorem State.closeFrame_toHunt (kind : CloseKind) (close : Word) :
    (s.closeFrame p kind close).modFramer p Framer.toHunt =
      (s.closeFrame p kind close).modFramer p fun _ => .fresh (s.port p).framer.settings :=
  State.modFramer_congr _ p (by rw [Framer.toHunt, State.settings_closeFrame])

end

/-- R80, R85. The end of a frame at its boundary leaves the framer as new, with the settings it had. -/
theorem State.endFrame_eq {s : State} {p : PortId} {fs : FramerSettings} (h : (s.port p).framer.settings = fs) (brk : Bool)
    (close : Word) :
    s.endFrame p brk close = (s.closeFrame p (.ended brk) close).modFramer p fun _ => .fresh fs := by
  rw [State.endFrame, State.closeFrame_toHunt, h]

/-- R92. The framer with a character taken as part of the frame in assembly. -/
def Framer.noted (f : Framer) (c : Char) : Framer :=
  { f with frame := f.frame.map fun a =>
      { a with flags := { a.flags with charError := a.flags.charError || c.marks.any }, last := c.time } }

section
variable {s : State} {p : PortId}

theorem State.framer_modFramer (f : Framer → Framer) : (s.modFramer p f).framer p = f (s.framer p) :=
  congrArg Port.framer (s.port_modFramer_same p f)

theorem Framer.noted_some {f : Framer} {a : Assembly} (ha : f.frame = some a) (c : Char) : f.noted c = { f with
    frame := some { a with
      flags := { a.flags with charError := a.flags.charError || c.marks.any }, last := c.time } } := by
  rw [Framer.noted, ha]
  rfl

theorem State.notePart_eq (c : Char) : s.notePart p c = s.modFramer p fun f => f.noted c := rfl

theorem State.framer_storeInFrame (v : Byte) : (s.storeInFrame p v).2.framer p = s.framer p :=
  congrArg Port.framer (s.port_storeInFrame p v p)

theorem State.framer_notePart {a : Assembly} (ha : (s.framer p).frame = some a) (c : Char) :
    (s.notePart p c).framer p = { s.framer p with frame := some { a with
      flags := { a.flags with charError := a.flags.charError || c.marks.any }, last := c.time } } :=
  (State.framer_modFramer _).trans (Framer.noted_some ha c)

/-- R92. A character taken as part of the frame in assembly, as one change of the framer. -/
theorem State.notePart_some {a : Assembly} (ha : (s.port p).framer.frame = some a) (c : Char) :
    s.notePart p c = s.modFramer p fun _ => { (s.port p).framer with
      frame := some { a with flags := { a.flags with charError := a.flags.charError || c.marks.any }, last := c.time } } :=
  State.modFramer_congr s p (Framer.noted_some ha c)

/-! R88. The beginning of a frame, by whether a descriptor is FREE. -/

theorem State.beginFrame_some {d : DescId} (hd : s.memory.lowestFree = some d) (arrival last : Word) (marked : Bool) :
    s.beginFrame p arrival last marked = (true, (s.modMemory fun m => m.takeDescriptor d).modFramer p fun f =>
      { f with frame := some ⟨d, arrival, ⟨false, marked, false, false, false⟩, last⟩ }) := by
  simp only [State.beginFrame, hd]
  rfl

theorem State.beginFrame_none (hn : s.memory.lowestFree = none) (hf : (s.port p).framer.frame = none)
    (arrival last : Word) (marked : Bool) : s.beginFrame p arrival last marked =
      (false, (s.modMemory RecordMemory.countNoDescriptor).count p fun k => k.discard .noMemory) := by
  have hdrop : (s.modMemory RecordMemory.countNoDescriptor).dropFrame p = s.modMemory RecordMemory.countNoDescriptor := by
    simp only [State.dropFrame, State.framer_eq, State.port_modMemory, hf]
  simp only [State.beginFrame, hn, State.discardFrame, hdrop]

/-! R89. A frame found too long, by the too-long policy. -/

theorem State.storeFailed_truncates (ht : (s.port p).framer.settings.tooLong = .truncate) (boundary : Bool) (time : Word) :
    s.storeFailed p .tooLong boundary time = ((s.truncateFrame p).closeFrame p .truncated time).modFramer p
      (if boundary then Framer.toHunt else Framer.toSkip) := by
  simp only [State.storeFailed, State.framer_eq, ht]

theorem State.storeFailed_discards (ht : (s.port p).framer.settings.tooLong = .discard) (boundary : Bool) (time : Word) :
    s.storeFailed p .tooLong boundary time = (s.discardFrame p .tooLong).modFramer p
      (if boundary then Framer.toHunt else Framer.toSkip) := by
  simp only [State.storeFailed, State.framer_eq, ht]

/-! R74. The event that reaches the framer, by its mode. -/

theorem State.framerChar_hunt (hm : (s.port p).framer.settings.mode = .delimited)
    (hs : (s.port p).framer.state = .hunt) (c : Char) : s.framerChar p c = s.delimitedHunt p c := by
  simp only [State.framerChar, State.framer_eq, hm, hs]

theorem State.framerChar_skip (hm : (s.port p).framer.settings.mode = .delimited)
    (hs : (s.port p).framer.state = .skip) (c : Char) : s.framerChar p c = s.delimitedSkip p c := by
  simp only [State.framerChar, State.framer_eq, hm, hs]

theorem State.framerChar_body (hm : (s.port p).framer.settings.mode = .delimited)
    (hs : (s.port p).framer.state = .body) (c : Char) : s.framerChar p c = s.delimitedBody p c := by
  simp only [State.framerChar, State.framer_eq, hm, hs]

theorem State.framerChar_length (hm : (s.port p).framer.settings.mode = .length) (c : Char) :
    s.framerChar p c = s.lengthChar p c := by
  simp only [State.framerChar, State.framer_eq, hm]

theorem State.framerChar_gap (hm : (s.port p).framer.settings.mode = .gap) (c : Char) :
    s.framerChar p c = s.gapChar p c := by
  simp only [State.framerChar, State.framer_eq, hm]

/-! R90, R91. The idle limit or a break outside GAP mode. -/

section
variable (hm : (s.framer p).settings.mode ≠ .gap)
include hm

theorem State.framerBoundary_hunt (hs : (s.framer p).state = .hunt) (brk : Bool) :
    s.framerBoundary p brk = s.modFramer p fun f => { f with startProgress := 0, held := [] } := by
  simp only [State.framerBoundary, hs]
  rfl

theorem State.framerBoundary_skip (hs : (s.framer p).state = .skip) (brk : Bool) :
    s.framerBoundary p brk = s.modFramer p Framer.toHunt := by
  simp only [State.framerBoundary, hs]

theorem State.framerBoundary_incomplete {a : Assembly} (hs : (s.framer p).state = .header ∨ (s.framer p).state = .body)
    (ha : (s.framer p).frame = some a) (brk : Bool) : s.framerBoundary p brk =
      (s.closeFrame p (.incomplete brk) a.last).modFramer p fun _ => .fresh (s.framer p).settings := by
  have hclose : s.framerBoundary p brk = s.closeIncomplete p brk := by
    rcases hs with hs | hs <;> simp only [State.framerBoundary, hs]
  rw [hclose, State.closeIncomplete, Framer.lastTime, ha]
  exact s.closeFrame_toHunt p _ _

end

end

end Sys2Proof.Machine
end
-- ==== Sys2Proof/Proofs/GapMode.lean ====
section
namespace Sys2Proof.Machine

section
variable {s : State} {p : PortId}

/-! R87. A character in GAP mode, by the state of the framer. -/

theorem State.gapChar_noDescriptor (hs : (s.port p).framer.state = .hunt) (hf : (s.port p).framer.frame = none)
    (hn : s.memory.lowestFree = none) (c : Char) : s.gapChar p c =
      ((s.modMemory RecordMemory.countNoDescriptor).count p fun k => k.discard .noMemory).modFramer p Framer.toSkip := by
  simp only [State.gapChar, State.framer_eq, hs, State.beginFrame_none hn hf]
  exact if_neg (by decide)

theorem State.gapChar_begins {d : DescId} (hs : (s.port p).framer.state = .hunt) (hd : s.memory.lowestFree = some d)
    (c : Char) : s.gapChar p c = State.gapChar.store p c ((s.modMemory fun m => m.takeDescriptor d).modFramer p fun f =>
      { f with state := .body, frame := some ⟨d, c.time, ⟨false, c.marks.any, false, false, false⟩, c.time⟩ }) := by
  simp only [State.gapChar, State.framer_eq, hs, State.beginFrame_some hd, State.modFramer_modFramer, if_true]

theorem State.gapChar_body (hs : (s.port p).framer.state = .body) (c : Char) :
    s.gapChar p c = State.gapChar.store p c (s.notePart p c) := by
  simp only [State.gapChar, State.framer_eq, hs]

theorem State.gapChar_skip (hs : (s.port p).framer.state = .skip) (c : Char) : s.gapChar p c = s := by
  simp only [State.gapChar, State.framer_eq, hs]

/-! R87. The gap or a break in GAP mode, by the state of the framer. -/

theorem State.framerBoundary_gapHunt (hm : (s.port p).framer.settings.mode = .gap) (hs : (s.port p).framer.state = .hunt)
    (brk : Bool) : s.framerBoundary p brk = s := by
  simp only [State.framerBoundary, State.framer_eq, hm, hs]

theorem State.framerBoundary_gapSkip (hm : (s.port p).framer.settings.mode = .gap) (hs : (s.port p).framer.state = .skip)
    (brk : Bool) : s.framerBoundary p brk = s.modFramer p Framer.toHunt := by
  simp only [State.framerBoundary, State.framer_eq, hm, hs]

theorem State.framerBoundary_gapBody {a : Assembly} (hm : (s.port p).framer.settings.mode = .gap)
    (hs : (s.port p).framer.state = .body) (ha : (s.port p).framer.frame = some a) (brk : Bool) :
    s.framerBoundary p brk = (s.closeFrame p (.ended brk) a.last).modFramer p fun _ =>
      .fresh (s.port p).framer.settings := by
  rw [← State.closeFrame_toHunt]
  simp only [State.framerBoundary, State.framer_eq, hm, hs, State.endFrame, Framer.lastTime, ha]

end

/-- Settles O54: the character and the boundary in each state, and what follows a byte that could not be stored. -/
theorem gapFrames : Obligations.GapFrames := by
  intro s p c q f fresh mark becomes stored hmode hshape
  have hchar : s.framerChar p c = s.gapChar p c := State.framerChar_gap hmode c
  refine ⟨fun hs hall => ?_, fun d hs hd he => ?_, fun a hs ha => ⟨?_, State.framerBoundary_gapBody hmode hs ha⟩,
    fun hs => ⟨hchar.trans (State.gapChar_skip hs c), State.framerBoundary_gapSkip hmode hs⟩,
    State.framerBoundary_gapHunt hmode, fun u v w => ⟨rfl, rfl⟩, fun ht => State.storeFailed_discards ht false,
    fun ht w => ?_⟩
  · have hf : f.frame = none := Option.not_isSome_iff_eq_none.mp (by rw [hshape, hs]; decide)
    rw [hchar, State.gapChar_noDescriptor hs hf (RecordMemory.lowestFree_eq_none hall), State.count, State.modFramer,
      State.modPort_modPort]
    rfl
  · exact hchar.trans (State.gapChar_begins hs (RecordMemory.lowestFree_eq_some hd he) c)
  · refine hchar.trans ((State.gapChar_body hs c).trans (congrArg (State.gapChar.store p c) ?_))
    exact State.notePart_some ha c
  · exact (State.storeFailed_truncates ht false w).trans (by rw [State.truncateFrame_eq]; rfl)

end Sys2Proof.Machine
end

