-- ==== Sys2Proof/Proofs/FramerItems.lean ====
section
namespace Sys2Proof.Machine

/-! ### The items of the staging FIFO at the framer -/

theorem State.takeExpiries_eq (s : State) (p : PortId) (n : Nat) :
    s.takeExpiries p n = (fun t => t.framerBoundary p false)^[n] s := by
  induction n generalizing s with
  | zero => rfl
  | succ n ih => exact ih _

section
variable {rest : List FifoItem} (h : rest.head? ≠ some .expiry) (k : Nat)
include h

/-- R74. The expiries right behind an item end where the next item stands. -/
theorem takeWhile_expiries : (List.replicate k FifoItem.expiry ++ rest).takeWhile (fun i => i == FifoItem.expiry) =
    List.replicate k FifoItem.expiry := by
  have hrest : rest.takeWhile (fun i => i == FifoItem.expiry) = [] := by
    cases rest <;> simp_all
  rw [List.takeWhile_append_of_pos (by simp), hrest, List.append_nil]

theorem dropWhile_expiries : (List.replicate k FifoItem.expiry ++ rest).dropWhile (fun i => i == FifoItem.expiry) =
    rest := by
  rw [List.dropWhile_append_of_pos (by simp)]
  cases rest <;> simp_all

end

/-- R74. What the item that is taken makes of the framer. -/
def State.framerItem (s : State) (p : PortId) : FifoItem → State
  | .char c => s.framerChar p c
  | .brk _ => s.framerBoundary p true
  | .expiry => s.framerBoundary p false

section
variable {s : State} {p : PortId}

/-- R74. An item and the `k` expiries right behind it. -/
theorem State.takeItem_cons {item : FifoItem} {k : Nat} {rest : List FifoItem}
    (hf : (s.port p).fifo = item :: (List.replicate k .expiry ++ rest)) (h : rest.head? ≠ some .expiry) :
    s.takeItem p = (fun t => t.framerBoundary p false)^[k] ((s.modPort p fun q => { q with fifo := rest }).framerItem p
      item) := by
  simp only [State.takeItem, hf, takeWhile_expiries h, dropWhile_expiries h, List.length_replicate, State.takeExpiries_eq]
  cases item <;> rfl

theorem State.takeItem_nil (hf : (s.port p).fifo = []) : s.takeItem p = s := by
  simp only [State.takeItem, hf]

/-! R74, R111. A quiet-time expiry that is due. -/

theorem State.quietExpiry_atOnce (hd : (s.port p).quietDue = true) (hf : (s.port p).fifo = []) : s.quietExpiry p =
    (s.modPort p fun q => { q with quiet := { q.quiet with given := true }, fifo := [] }).framerBoundary p false := by
  have hgiven : (s.modPort p fun q => { q with quiet := { q.quiet with given := true } }) =
      s.modPort p fun q => { q with quiet := { q.quiet with given := true }, fifo := [] } :=
    s.modPort_congr p (by rw [← hf])
  simp only [State.quietExpiry, if_pos hd, State.port_modPort_same, hgiven]
  rfl

theorem State.quietExpiry_waits (hd : (s.port p).quietDue = true) (hf : (s.port p).fifo ≠ []) : s.quietExpiry p =
    s.modPort p fun q => { q with
      quiet := { q.quiet with given := true }, fifo := (s.port p).fifo ++ [.expiry] } := by
  simp only [State.quietExpiry, if_pos hd, State.port_modPort_same, State.modPort_modPort]
  exact if_neg (by simpa using hf)

end

/-- Settles O52: the oldest item with the expiries behind it, and the expiry by whether it is due and items wait. -/
theorem framerTakesItems : Obligations.FramerTakesItems := by
  intro s p hr q limit bits due given
  have htake (h : q.state = .running) : exec (.framerTakeItem p) s = .next (s.takeItem p) :=
    (State.unlessReset_running hr _).trans (congrArg Host.Outcome.next (if_pos h))
  have hquiet : exec (.quietTimeExpiry p) s = .next (s.quietExpiry p) := State.unlessReset_running hr _
  have hdue : due ↔ q.quietDue = true := by
    rw [Port.quietDue_iff, FramerSettings.quietLimit_eq]
    rfl
  refine ⟨fun item k rest hs hf hrest => ?_, fun h => ?_, fun hd hf => ?_, fun hd hf => ?_, fun hd => ?_⟩
  · rw [htake hs, State.takeItem_cons hf hrest]
    cases item <;> rfl
  · by_cases hs : q.state = .running
    · rw [htake hs, State.takeItem_nil (h.resolve_left (not_not_intro hs))]
    · exact (State.unlessReset_running hr _).trans (congrArg Host.Outcome.next (if_neg hs))
  · rw [hquiet, State.quietExpiry_atOnce (hdue.mp hd) hf]
  · rw [hquiet, State.quietExpiry_waits (hdue.mp hd) hf]
  · exact hquiet.trans (congrArg Host.Outcome.next (if_neg (mt hdue.mpr hd)))

end Sys2Proof.Machine
end

