-- ==== Sys2Proof/Proofs/PortSwitches.lean ====
section
namespace Sys2Proof.Machine

/-! ### The receiver switched on and off -/

/-- R75. The framer at the switch-on. -/
theorem Framer.switchOn_eq (f : Framer) : f.switchOn =
    ⟨f.settings, if f.settings.mode = .gap then .skip else .hunt, 0, 0, [], false, none, 0, none, []⟩ := by
  cases h : f.settings.mode <;> simp only [Framer.switchOn, h] <;> rfl

section
variable {s : State} {p : PortId}

/-- R96. The abort of the receiving when no frame is in assembly. -/
theorem State.abortReceiving_none (h : (s.port p).framer.frame = none) :
    s.abortReceiving p = s.modPort p fun q => { q with
      framer := q.framer.toHunt, fifo := [], overrunPending := false, line := q.line.abandon } := by
  rw [State.abortReceiving_eq, Port.receivingAborted, h]
  rfl

/-- R96. The abort of the receiving drops the frame in assembly and counts it. -/
theorem State.abortReceiving_some {a : Assembly} (h : (s.port p).framer.frame = some a) :
    s.abortReceiving p = ({ s with memory := s.memory.release a.desc } : State).modPort p fun q => { q with
      framer := q.framer.toHunt, fifo := [], overrunPending := false, line := q.line.abandon
      counters := { q.counters with aborted := sat32 (q.counters.aborted + 1) } } := by
  rw [State.abortReceiving_eq, Port.receivingAborted, h]
  rfl

/-- R102. PORT_PAUSE of a RUNNING port. -/
theorem State.portPause_running {tag : Byte} {rest : List Message} (hw : s.Waiting .portPause tag [idByte p] rest)
    (h : (s.port p).state = .running) : exec .portPause s =
      .next (((s.abortReceiving p).modPort p fun q => { q with state := .paused }).replied .portPause tag rest .ok []) :=
  State.execRequest_ok hw rfl (parsePort_body p) (if_pos h)

end

/-- Settles O17: each request by the state of its port, and PORT_PAUSE by whether a frame is in assembly. -/
theorem portReceiverSwitched : Obligations.PortReceiverSwitched := by
  intro s tag rest p on
  have hon : Framer.switchOn = on := funext Framer.switchOn_eq
  refine ⟨fun hw => ⟨fun h => ?_, fun h => ?_⟩, fun hw => ⟨fun h => ?_, fun h => ?_⟩, fun hw => ?_⟩
  · rw [← hon]
    exact State.execRequest_ok hw rfl (parsePort_body p) (if_pos h)
  · exact State.execRequest_ok hw rfl (parsePort_body p) (if_neg h)
  · rw [← hon]
    exact State.execRequest_ok hw rfl (parsePort_body p) (if_pos h)
  · exact State.execRequest_ok hw rfl (parsePort_body p) (if_neg h)
  · intro paused
    refine ⟨fun h hf => ?_, fun a h hf => ?_, fun h => State.execRequest_ok hw rfl (parsePort_body p) (if_neg h)⟩
    · rw [State.portPause_running hw h, State.abortReceiving_none hf, State.modPort_modPort]
      rfl
    · rw [State.portPause_running hw h, State.abortReceiving_some hf, State.modPort_modPort]
      rfl

end Sys2Proof.Machine
end

