-- ==== Sys2Proof/Proofs/PortSettings.lean ====
section
namespace Sys2Proof.Machine

/-! ### The bodies of PORT_CONFIG and FRAMER_CONFIG are read back as the settings they were written from -/

@[simp] theorem fieldCode_parity (v : Parity) (i : Nat) :
    fieldCode [Parity.none, .even, .odd] i v.code.toNat = .ok v := by cases v <;> rfl
@[simp] theorem fieldCode_duplex (v : Duplex) (i : Nat) :
    fieldCode [Duplex.full, .half] i v.code.toNat = .ok v := by cases v <;> rfl
@[simp] theorem fieldCode_framerMode (v : FramerMode) (i : Nat) :
    fieldCode [FramerMode.delimited, .length, .gap] i v.code.toNat = .ok v := by cases v <;> rfl
@[simp] theorem fieldCode_tooLong (v : TooLongPolicy) (i : Nat) :
    fieldCode [TooLongPolicy.truncate, .discard] i v.code.toNat = .ok v := by cases v <;> rfl
@[simp] theorem fieldCode_keepPolicy (v : KeepPolicy) (i : Nat) :
    fieldCode [KeepPolicy.keep, .discard] i v.code.toNat = .ok v := by cases v <;> rfl
@[simp] theorem fieldCode_byteOrder (v : ByteOrder) (i : Nat) :
    fieldCode [ByteOrder.lowFirst, .highFirst] i v.code.toNat = .ok v := by cases v <;> rfl

/-- R172. A number of one byte is read back. -/
theorem byte1_number {n : Nat} (h : n ≤ 255) : (byte1 n).toNat = n := by
  rw [byte1_toNat]
  omega

theorem byte1_signed {i : Int} (h : -64 ≤ i ∧ i ≤ 64) : (BitVec.ofInt 8 i).toInt = i := by
  rw [BitVec.toInt_ofInt]
  exact Int.bmod_eq_of_le (by omega) (by omega)

theorem parsePortConfig_body (p : PortId) {ls : LineSettings} (h : ls.Valid) :
    parsePortConfig (ls.body p) = .ok (p, ls) := by
  obtain ⟨hbaud, hdata, hstop, hturn, hhold, hgap⟩ := h
  have hb : num4 (ls.body p) 1 = ls.baud := num4_le4 (by omega)
  have hd := byte1_number (n := ls.dataBits) (by omega)
  have hs := byte1_number (n := ls.stopBits) (by omega)
  have ht := byte1_number hturn.2
  have hdata' : (ls.dataBits == 7 || ls.dataBits == 8) = true := by simpa using hdata
  have hstop' : (ls.stopBits == 1 || ls.stopBits == 2) = true := by simpa using hstop
  rw [parsePortConfig, hb]
  simp [LineSettings.body, le4, fieldBelow_idByte, hd, hs, ht, hbaud, hdata', hstop', hturn, byte1_number hhold,
    byte1_number hgap]

/-- R173. A pattern of up to four bytes is read back from its field, whatever follows the field. -/
theorem padTo_four {bs : List Byte} (h : bs.length ≤ 4) :
    ∃ a b c d, padTo 4 bs = [a, b, c, d] ∧ ∀ rest, (a :: b :: c :: d :: rest).take bs.length = bs := by
  have hpad : padTo 4 bs = bs ++ List.replicate (4 - bs.length) 0 := by
    rw [padTo, List.take_append, List.take_of_length_le h, List.take_replicate, Nat.min_eq_left (Nat.sub_le _ _)]
  have hlen : (padTo 4 bs).length = 4 := by simp [padTo]
  have htake (rest : List Byte) : (padTo 4 bs ++ rest).take bs.length = bs := by
    rw [hpad, List.append_assoc, List.take_left]
  match hp : padTo 4 bs, hlen with
  | [a, b, c, d], _ => exact ⟨a, b, c, d, rfl, fun rest => by rw [hp] at htake; exact htake rest⟩

theorem offsetWidthField_none {maxLength offset width : Nat} (ho : offset ≤ 15) (hw : width = 1 ∨ width = 2)
    (h : offset + width ≤ maxLength) : offsetWidthField maxLength offset width = none := by
  rw [offsetWidthField, if_neg (by omega), if_pos hw, if_neg (by omega)]

/-- R76. A byte that may be absent is read back from its presence byte and its value. -/
theorem optionalByte_eq (v : Option Byte) : (if v.isSome = true then some (v.getD 0#8) else none) = v := by
  cases v <;> rfl

theorem parseFramerConfig_body (p : PortId) {fs : FramerSettings} (h : fs.Valid) :
    parseFramerConfig (fs.body p) = .ok (p, fs) := by
  obtain ⟨hmax, hidle, hstart, hend, hesc, hoff, hwidth, hfield, hadj, hgap⟩ := h
  obtain ⟨a, b, c, d, hs, hstart'⟩ := padTo_four hstart
  obtain ⟨e, f, g, i, he, hend'⟩ := padTo_four hend.2
  have hm := le2_number (n := fs.maxLength) (by omega)
  have hsl := byte1_number (n := fs.startPattern.length) (by omega)
  have hel := byte1_number (n := fs.endPattern.length) (by omega)
  have hol := byte1_number (n := fs.fieldOffset) (by omega)
  have hwl := byte1_number (n := fs.fieldWidth) (by omega)
  have hidle' : (fs.idleLimit != 1) = true := by simpa using hidle.1
  have hesc' : (fs.escape.isNone || !decide (fs.escape.getD 0#8 ∈ fs.endPattern)) = true := by
    cases hx : fs.escape with
    | none => rfl
    | some v => simpa using hesc v hx
  simp [parseFramerConfig, FramerSettings.body, le2, hs, he, patternBytes, fieldBelow_idByte, fieldYesNo_yesNo, num2,
    hstart', hend', hm, byte1_number hidle.2, hsl, hel, hol, hwl, byte1_number hgap.2, byte1_signed hadj, hesc',
    optionalByte_eq, signed1, offsetWidthField_none hoff hwidth hfield, hmax, hidle', hstart, hend, hadj, hgap]

theorem FramerSettings.body_lengthAllowed (p : PortId) (fs : FramerSettings) :
    lengthAllowed .framerConfig (fs.body p).length = true := by
  simp [lengthAllowed, FramerSettings.body, le2, padTo]

theorem Port.configurable_iff (q : Port) : q.configurable = true ↔ q.state = .off ∨ q.state = .ready := by
  simp [Port.configurable]

theorem Port.not_configurable {q : Port} (h : q.state = .running ∨ q.state = .paused) : ¬ q.configurable = true := by
  rw [Port.configurable_iff]
  rcases h with h | h <;> rw [h] <;> decide

/-- Settles O16: the bodies are read back as the settings, which replace those of an OFF or READY port. -/
theorem portConfigured : Obligations.PortConfigured := by
  refine fun s tag rest p => ⟨fun ls hv hw => ⟨fun h => ?_, fun h => ?_⟩, fun fs hv hw => ⟨fun h => ?_, fun h => ?_⟩⟩
  · exact State.execRequest_ok hw rfl (parsePortConfig_body p hv) (if_pos ((s.port p).configurable_iff.mpr h))
  · exact State.execRequest_ok hw rfl (parsePortConfig_body p hv) (if_neg (Port.not_configurable h))
  · exact State.execRequest_ok hw (fs.body_lengthAllowed p) (parseFramerConfig_body p hv)
      (if_pos ((s.port p).configurable_iff.mpr h))
  · exact State.execRequest_ok hw (fs.body_lengthAllowed p) (parseFramerConfig_body p hv) (if_neg (Port.not_configurable h))

end Sys2Proof.Machine
end

