-- ==== Sys2Proof/Proofs/DelimitedMode.lean ====
section
namespace Sys2Proof.Machine

/-! ### R78: the progress in a pattern -/

/-- A search downwards from `n` finds the largest number that passes, when 0 does. -/
theorem find_range_reverse_isGreatest (test : Nat → Bool) (h : test 0 = true) (n : Nat) :
    IsGreatest {j | j ≤ n ∧ test j = true} (((List.range (n + 1)).reverse.find? test).getD 0) := by
  induction n with
  | zero => simp [IsGreatest, upperBounds, h]
  | succ n ih =>
    rw [List.range_succ, List.reverse_append]
    cases hn : test (n + 1) with
    | true => simpa [IsGreatest, upperBounds, hn] using fun j hj _ => hj
    | false =>
      have hset : {j | j ≤ n + 1 ∧ test j = true} = {j | j ≤ n ∧ test j = true} := by
        ext j
        refine and_congr_left fun hj => ⟨fun hle => ?_, fun hle => by omega⟩
        have : j ≠ n + 1 := fun he => by simp [he, hn] at hj
        omega
      simpa [hn, hset] using ih

theorem advance_next {pattern : List Byte} {k : Nat} {c : Byte} (h : pattern[k]? = some c) :
    advance pattern k c = k + 1 := if_pos h

/-- R78. The fall-back is the largest progress that the last characters fed agree with. -/
theorem advance_back {pattern : List Byte} {k : Nat} {c : Byte} (hk : k < pattern.length) (h : pattern[k]? ≠ some c) :
    IsGreatest {j | j ≤ k ∧ (pattern.take k ++ [c]).drop (k + 1 - j) = pattern.take j} (advance pattern k c) := by
  have hfound := find_range_reverse_isGreatest
    (fun j => (pattern.take k ++ [c]).drop (k + 1 - j) == pattern.take j) (by simp [Nat.min_eq_left hk.le]) k
  simp only [beq_iff_eq] at hfound
  rw [advance, if_neg h]
  exact hfound

/-! ### DELIMITED mode, a character at a time -/

/-- R80. The characters are stored in order, and the first that fails ends the frame. -/
def State.storeChars (s : State) (p : PortId) (cs : List Char) (time : Word) : State :=
  (s.storeSeq p (cs.map (·.value))).2.storeFailed p (s.storeSeq p (cs.map (·.value))).1 false time

section
variable {s : State} {p : PortId}

/-- R80. The first byte that fails ends the storing. -/
theorem State.storeSeq_cons (v : Byte) (rest : List Byte) : s.storeSeq p (v :: rest) =
    if (s.storeInFrame p v).1 = .stored then (s.storeInFrame p v).2.storeSeq p rest else s.storeInFrame p v := by
  simp only [State.storeSeq]
  split
  · rename_i h
    rw [h, if_pos rfl]
  · rename_i h
    exact (if_neg fun hr => h _ (Prod.ext hr rfl)).symm

theorem State.storeSeq_singleton (v : Byte) : s.storeSeq p [v] = s.storeInFrame p v := by
  rw [State.storeSeq_cons]
  split
  · exact Prod.ext (Eq.symm ‹_›) rfl
  · rfl

/-! R80, R81. A character in BODY. -/

theorem State.delimitedBody_escaped (he : (s.framer p).escapeOpen = true) (c : Char) : s.delimitedBody p c =
    (s.modFramer p fun f => { f.noted c with escapeOpen := false }).storeChars p [c] c.time := by
  simp only [State.delimitedBody, State.notePart_eq, State.framer_modFramer, Framer.noted, he, if_true,
    State.modFramer_modFramer, State.storeChars, List.map_cons, List.map_nil, State.storeSeq_singleton]

section
variable {c : Char} (he : (s.framer p).escapeOpen = false)
include he

theorem State.delimitedBody_escape (hc : (s.framer p).settings.escape = some c.value) : s.delimitedBody p c =
    (s.modFramer p fun f => { f.noted c with held := [], endProgress := 0, escapeOpen := true }).storeChars p
      ((s.framer p).held ++ if (s.framer p).settings.keepEscape then [c] else []) c.time := by
  simp only [State.delimitedBody, State.notePart_eq, State.framer_modFramer, Framer.noted, he, hc, if_true,
    Bool.false_eq_true, if_false, State.modFramer_modFramer, State.storeChars]

variable (hc : (s.framer p).settings.escape ≠ some c.value)
include hc

theorem State.delimitedBody_ends (hk : (s.framer p).settings.keepDelimiters = false)
    (hend : advance (s.framer p).settings.endPattern (s.framer p).endProgress c.value =
      (s.framer p).settings.endPattern.length) : s.delimitedBody p c =
    (s.modFramer p fun f => { f.noted c with held := [], endProgress := 0 }).endFrame p false c.time := by
  simp only [State.delimitedBody, State.notePart_eq, State.framer_modFramer, Framer.noted, he, hc, hk, hend,
    beq_self_eq_true, if_true, Bool.false_eq_true, if_false, State.modFramer_modFramer]

theorem State.delimitedBody_holds {k : Nat} (hk : (s.framer p).settings.keepDelimiters = false)
    (hadvance : advance (s.framer p).settings.endPattern (s.framer p).endProgress c.value = k)
    (hend : k ≠ (s.framer p).settings.endPattern.length) : s.delimitedBody p c =
    (s.modFramer p fun f => { f.noted c with
      held := ((s.framer p).held ++ [c]).drop ((s.framer p).held.length + 1 - k), endProgress := k }).storeChars p
        (((s.framer p).held ++ [c]).take ((s.framer p).held.length + 1 - k)) c.time := by
  simp only [State.delimitedBody, State.notePart_eq, State.framer_modFramer, Framer.noted, he, hc, hk, hadvance,
    beq_eq_false_iff_ne.mpr hend, Bool.false_eq_true, if_false, State.modFramer_modFramer, State.storeChars,
    List.length_append, List.length_singleton]

theorem State.delimitedBody_keeps (hk : (s.framer p).settings.keepDelimiters = true) :
    let k := advance (s.framer p).settings.endPattern (s.framer p).endProgress c.value
    let n := (s.framer p).settings.endPattern.length
    let r := (s.modFramer p fun f => { f.noted c with endProgress := if k = n then 0 else k }).storeInFrame p c.value
    s.delimitedBody p c = if r.1 = .stored ∧ k = n then r.2.endFrame p false c.time
      else r.2.storeFailed p r.1 (decide (k = n)) c.time := by
  intro k n r
  cases hr : r.1
  all_goals
    simp only [r, k, n, Framer.noted] at hr ⊢
    simp [State.delimitedBody, State.notePart_eq, State.framer_modFramer, Framer.noted, he, hc, hk,
      State.modFramer_modFramer, hr, State.storeFailed, beq_eq_decide]

end

/-! R79. A character in HUNT. -/

theorem State.delimitedHunt_partial {i : Nat} (hne : (s.framer p).settings.startPattern ≠ []) {c : Char}
    (hadvance : advance (s.framer p).settings.startPattern (s.framer p).startProgress c.value = i)
    (hi : i ≠ (s.framer p).settings.startPattern.length) : s.delimitedHunt p c = s.modFramer p fun f => { f with
      startProgress := i
      held := ((s.framer p).held ++ [c]).drop ((s.framer p).held.length + 1 - i) } := by
  have hempty : ¬ (s.framer p).settings.startPattern.isEmpty = true := by simpa using hne
  simp only [State.delimitedHunt, hadvance, if_neg hempty, if_neg hi, List.length_append, List.length_singleton]

/-- R79. The frame that the start pattern begins, in BODY. -/
def Framer.begun (f : Framer) (d : DescId) (c : Char) : Framer :=
  { f with
    state := .body, startProgress := 0, endProgress := 0, held := [], escapeOpen := false
    frame := some ⟨d, ((f.held ++ [c]).map (·.time)).headD c.time,
      ⟨false, (f.held ++ [c]).any (·.marks.any), false, false, false⟩, c.time⟩ }

section
variable {c : Char}

theorem State.delimitedHunt_begins {d : DescId} (hd : s.memory.lowestFree = some d)
    (hne : (s.framer p).settings.startPattern ≠ [])
    (hi : advance (s.framer p).settings.startPattern (s.framer p).startProgress c.value =
      (s.framer p).settings.startPattern.length) :
    let t := (s.modMemory fun m => m.takeDescriptor d).modFramer p fun _ => (s.framer p).begun d c
    s.delimitedHunt p c = if (s.framer p).settings.keepDelimiters then t.storeChars p ((s.framer p).held ++ [c]) c.time
      else t := by
  have hempty : ¬ (s.framer p).settings.startPattern.isEmpty = true := by simpa using hne
  simp only [State.delimitedHunt, if_neg hempty, hi, State.beginFrame_some hd, if_true,
    State.modFramer_modFramer]
  rfl

/-- R79. With no start pattern the character that begins the frame is the first one of its BODY. -/
theorem State.delimitedHunt_beginsAtOnce {d : DescId} (hm : (s.framer p).settings.mode = .delimited)
    (hd : s.memory.lowestFree = some d) (he : (s.framer p).settings.startPattern = []) : s.delimitedHunt p c =
    ((s.modMemory fun m => m.takeDescriptor d).modFramer p fun f => { f with
      state := .body, endProgress := 0, escapeOpen := false
      frame := some ⟨d, c.time, ⟨false, false, false, false, false⟩, c.time⟩ }).framerChar p c := by
  rw [State.framerChar_body (by rw [State.port_modFramer_same]; exact hm) (by rw [State.port_modFramer_same])]
  simp only [State.delimitedHunt, he, List.isEmpty_nil, State.beginFrame_some hd, if_true, State.modFramer_modFramer]

/-- R79, R88. A frame that begins without a FREE descriptor. -/
theorem State.delimitedHunt_noDescriptor (hn : s.memory.lowestFree = none) (hf : (s.framer p).frame = none)
    (hi : (s.framer p).settings.startPattern = [] ∨
      advance (s.framer p).settings.startPattern (s.framer p).startProgress c.value =
        (s.framer p).settings.startPattern.length) :
    s.delimitedHunt p c = ((s.modMemory RecordMemory.countNoDescriptor).count p fun k => k.discard .noMemory).modFramer p
      fun f => { f with
        state := .skip, endProgress := 0
        startProgress := if (s.framer p).settings.startPattern = [] then f.startProgress else 0
        held := if (s.framer p).settings.startPattern = [] then f.held else [] } := by
  by_cases he : (s.framer p).settings.startPattern = []
  · simp only [State.delimitedHunt, he, List.isEmpty_nil, State.beginFrame_none hn hf, if_true, Bool.false_eq_true, if_false]
  · have hempty : ¬ (s.framer p).settings.startPattern.isEmpty = true := by simpa using he
    simp only [State.delimitedHunt, if_neg hempty, hi.resolve_left he, State.beginFrame_none hn hf,
      if_true, Bool.false_eq_true, if_neg he, if_false]

/-! R82. A character in SKIP. -/

theorem State.delimitedSkip_escaped (he : (s.framer p).escapeOpen = true) :
    s.delimitedSkip p c = s.modFramer p fun f => { f with escapeOpen := false } := if_pos he

theorem State.delimitedSkip_escape (he : (s.framer p).escapeOpen = false)
    (hc : (s.framer p).settings.escape = some c.value) :
    s.delimitedSkip p c = s.modFramer p fun f => { f with escapeOpen := true, endProgress := 0 } :=
  (if_neg (by simp [he])).trans (if_pos hc)

theorem State.delimitedSkip_ends (he : (s.framer p).escapeOpen = false)
    (hc : (s.framer p).settings.escape ≠ some c.value)
    (hend : advance (s.framer p).settings.endPattern (s.framer p).endProgress c.value =
      (s.framer p).settings.endPattern.length) : s.delimitedSkip p c = s.modFramer p Framer.toHunt :=
  (if_neg (by simp [he])).trans ((if_neg hc).trans (if_pos hend))

theorem State.delimitedSkip_goesOn (he : (s.framer p).escapeOpen = false)
    (hc : (s.framer p).settings.escape ≠ some c.value)
    (hend : advance (s.framer p).settings.endPattern (s.framer p).endProgress c.value ≠
      (s.framer p).settings.endPattern.length) : s.delimitedSkip p c = s.modFramer p fun f => { f with
        endProgress := advance (s.framer p).settings.endPattern (s.framer p).endProgress c.value } :=
  (if_neg (by simp [he])).trans ((if_neg hc).trans (if_neg hend))

end

end

end Sys2Proof.Machine
end

