-- ==== Sys2Proof/Proofs/DelimitedFrames.lean ====
section
namespace Sys2Proof.Machine

/-- Settles O55: the progress in a pattern; then the character and the boundary in each state, and the failed stores. -/
theorem delimitedFrames : Obligations.DelimitedFrames := by
  refine ⟨fun pattern k c hk => ?_, fun s p c => ?_, fun s p boundary time => ?_⟩
  · refine ⟨advance_next, fun h => ?_⟩
    obtain ⟨⟨hle, hagrees⟩, hmax⟩ := advance_back hk h
    exact ⟨hle, hagrees, fun j hj hjk => hmax ⟨hjk, hj⟩⟩
  · intro f fs taken mark fresh becomes stored i k complete hm
    have hgap : fs.mode ≠ .gap := by rw [hm]; decide
    refine ⟨fun hs hne hi => ?_, fun d hs hne hi hd he => ?_, fun d hs he hd hlow => ?_, fun hs hf hi hall => ?_,
      fun a hs ha => ?_, fun hs => ⟨fun he => ?_, fun he hc => ?_, fun he hc => ⟨fun hk => ?_, fun hk => ?_⟩⟩,
      fun b => ⟨fun hs => State.framerBoundary_hunt hgap hs b, fun hs => State.framerBoundary_skip hgap hs b,
        fun a hs ha => State.framerBoundary_incomplete hgap hs ha b⟩⟩
    · exact (State.framerChar_hunt hm hs c).trans (State.delimitedHunt_partial hne rfl hi)
    · exact (State.framerChar_hunt hm hs c).trans
        (State.delimitedHunt_begins (RecordMemory.lowestFree_eq_some hd he) hne hi)
    · exact (State.framerChar_hunt hm hs c).trans
        (State.delimitedHunt_beginsAtOnce hm (RecordMemory.lowestFree_eq_some hd hlow) he)
    · rw [State.framerChar_hunt hm hs c, State.delimitedHunt_noDescriptor (RecordMemory.lowestFree_eq_none hall) hf hi,
        State.count, State.modFramer, State.modPort_modPort]
      rfl
    · intro g
      have hg : f.noted c = g := Framer.noted_some ha c
      rw [← hg, State.framerChar_body hm hs c]
      refine ⟨fun he => State.delimitedBody_escaped he c, fun he hc => State.delimitedBody_escape he hc,
        fun he hc hk => ⟨fun hend => ?_, State.delimitedBody_holds he hc hk rfl⟩, fun he hc hk => ?_⟩
      · exact (State.delimitedBody_ends he hc hk hend).trans
          (State.endFrame_eq (by rw [State.port_modFramer_same]; rfl) _ _)
      · intro r
        have hbody := State.delimitedBody_keeps (c := c) he hc hk
        refine ⟨fun hend hr => ?_, fun hend hr => ?_, fun hend => ?_⟩
        · exact hbody.trans ((if_pos ⟨hr, hend⟩).trans
            (State.endFrame_eq (by rw [State.port_storeInFrame, State.port_modFramer_same]; rfl) _ _))
        · exact hbody.trans ((if_neg fun h => hr h.1).trans
            (congrArg (r.2.storeFailed p r.1 · c.time) (decide_eq_true hend)))
        · exact hbody.trans ((if_neg fun h => hend h.2).trans
            (congrArg (r.2.storeFailed p r.1 · c.time) (decide_eq_false hend)))
    · exact (State.framerChar_skip hm hs c).trans (State.delimitedSkip_escaped he)
    · exact (State.framerChar_skip hm hs c).trans (State.delimitedSkip_escape he hc)
    · exact (State.framerChar_skip hm hs c).trans (State.delimitedSkip_ends he hc hk)
    · exact (State.framerChar_skip hm hs c).trans (State.delimitedSkip_goesOn he hc hk)
  · intro tooLong goes
    refine ⟨rfl, rfl, fun ht => ?_, fun ht => ?_, rfl, fun v rest => ⟨fun hr => ?_, fun hr => ?_⟩⟩
    · rw [State.storeFailed_discards ht]
      cases boundary <;> rfl
    · rw [State.storeFailed_truncates ht, State.truncateFrame_eq]
      cases boundary <;> rfl
    · exact (State.storeSeq_cons v rest).trans (if_pos hr)
    · exact (State.storeSeq_cons v rest).trans (if_neg hr)

end Sys2Proof.Machine
end

