-- ==== Sys2Proof/Proofs/LengthMode.lean ====
section
namespace Sys2Proof.Machine

/-! ### R84: the length field -/

/-- R84. The number that a length field of one or two bytes holds. -/
def fieldNumber (order : ByteOrder) (field : List Byte) : Nat :=
  match order, field with
  | _, [b] => b.toNat
  | .lowFirst, [b, d] => b.toNat + 256 * d.toNat
  | .highFirst, [b, d] => 256 * b.toNat + d.toNat
  | _, _ => 0

theorem Framer.fieldValue_eq {f : Framer} (h : f.lengthField.length = 1 ∨ f.lengthField.length = 2) :
    f.fieldValue = fieldNumber f.settings.byteOrder f.lengthField := by
  rcases h with h | h
  · obtain ⟨b, hb⟩ := List.length_eq_one_iff.mp h
    cases ho : f.settings.byteOrder <;> simp [Framer.fieldValue, fieldNumber, hb, ho]
  · obtain ⟨b, d, hb⟩ := List.length_eq_two.mp h
    cases ho : f.settings.byteOrder <;> simp [Framer.fieldValue, fieldNumber, hb, ho]

/-- R84. The byte that completes the length field gives the field its width. -/
theorem Framer.collect_lengthField_length {f : Framer} (h : f.lengthField.length = f.taken - f.settings.fieldOffset)
    (hw : f.settings.fieldWidth ≠ 0) (hk : f.taken + 1 = f.settings.fieldEnd) (v : Byte) :
    (f.collect v).lengthField.length = f.settings.fieldWidth := by
  rw [FramerSettings.fieldEnd] at hk
  have hin : f.settings.fieldOffset ≤ f.taken ∧ f.taken < f.settings.fieldOffset + f.settings.fieldWidth := by omega
  rw [Framer.collect, if_pos hin, List.length_append, List.length_singleton, h]
  omega

/-! ### LENGTH mode, a character at a time -/

/-- R86. A byte taken in SKIP, by a framer that `f` was before: `total` is the total length if this byte makes it
known. -/
def State.lengthSkipped (v : State) (p : PortId) (f : Framer) (b : Byte) (total : Int) : State :=
  let goesOn (n : Option Int) : State := v.modFramer p fun g => { g with
    state := .skip, taken := f.taken + 1, lengthField := (f.collect b).lengthField, total := n }
  let counted (n : Option Int) : State := match n with
    | some n => if n ≤ f.taken + 1 then v.modFramer p fun _ => .fresh f.settings else goesOn (some n)
    | none => goesOn none
  if decide (f.taken + 1 = f.settings.fieldEnd) then
    (if decide (total < f.settings.fieldEnd) || decide ((f.settings.maxLength : Int) < total) then
      v.modFramer p fun _ => .fresh f.settings
    else counted (some total))
  else counted f.total

section
variable {s v : State} {p : PortId} {c : Char} {f : Framer} {total : Int}

theorem State.lengthUnstored_toSkip : (s.modFramer p Framer.toSkip).lengthUnstored p c = s.lengthUnstored p c := by
  simp only [State.lengthUnstored, State.modFramer_modFramer]
  rfl

/-! R86. What follows a byte taken in SKIP, by what is known of the total length. -/

section
variable {g : Framer} (hg : s.framer p = g)
include hg

theorem State.judgeSkip_known (hk : g.taken = g.settings.fieldEnd) : s.judgeSkip p =
    if g.badTotal then s.modFramer p Framer.toHunt
    else if g.totalLength ≤ g.taken then s.modFramer p Framer.toHunt
    else s.modFramer p fun x => { x with total := some g.totalLength } := by
  simp only [State.judgeSkip, hg, hk, true_and, if_true]

theorem State.judgeSkip_counted {n : Int} (hk : g.taken ≠ g.settings.fieldEnd) (hn : g.total = some n) : s.judgeSkip p =
    if n ≤ g.taken then s.modFramer p Framer.toHunt else s.modFramer p fun x => { x with total := some n } := by
  simp only [State.judgeSkip, hg, hk, false_and, if_false, hn]

theorem State.judgeSkip_unknown (hk : g.taken ≠ g.settings.fieldEnd) (hn : g.total = none) : s.judgeSkip p = s := by
  simp only [State.judgeSkip, hg, hk, false_and, if_false, hn]

end

theorem State.lengthUnstored_eq {st : FramerState} {fr : Option Assembly}
    (hv : v.framer p = { f with state := st, frame := fr })
    (ht : f.taken + 1 = f.settings.fieldEnd → (f.collect c.value).totalLength = total) :
    v.lengthUnstored p c = v.lengthSkipped p f c.value total := by
  have hw : (v.modFramer p fun g => g.toSkip.collect c.value).framer p =
      { f.collect c.value with state := .skip, frame := fr } := by
    rw [State.framer_modFramer, hv]
    rfl
  have hunt : (v.modFramer p fun g => g.toSkip.collect c.value).modFramer p Framer.toHunt =
      v.modFramer p fun _ => .fresh f.settings := by
    rw [State.modFramer_modFramer]
    exact v.modFramer_congr p (by rw [← State.framer_eq, hv]; rfl)
  have goesOn (n : Option Int) : ((v.modFramer p fun g => g.toSkip.collect c.value).modFramer p fun g =>
      { g with total := n }) = v.modFramer p fun g => { g with
        state := .skip, taken := f.taken + 1, lengthField := (f.collect c.value).lengthField, total := n } := by
    rw [State.modFramer_modFramer]
    exact v.modFramer_congr p (by rw [← State.framer_eq, hv]; rfl)
  rw [State.lengthUnstored]
  by_cases hk : f.taken + 1 = f.settings.fieldEnd
  · obtain rfl := ht hk
    rw [State.judgeSkip_known hw hk, hunt, goesOn]
    exact (if_pos (decide_eq_true hk)).symm
  · refine Eq.trans ?_ (if_neg (by simpa using hk)).symm
    cases hn : f.total with
    | some n =>
      rw [State.judgeSkip_counted hw hk hn, hunt, goesOn]
      rfl
    | none =>
      rw [State.judgeSkip_unknown hw hk hn]
      exact v.modFramer_congr p (by rw [← State.framer_eq, hv, ← hn]; rfl)

/-! R84. What follows a byte taken in HEADER, by whether it completes the length field. -/

section
variable {g : Framer} (hg : s.framer p = g)
include hg

theorem State.judgeHeader_known (hk : g.taken = g.settings.fieldEnd) (time : Word) : s.judgeHeader p time =
    if g.badTotal then (s.discardFrame p .badLength).modFramer p fun _ => .fresh g.settings
    else if g.totalLength = g.settings.fieldEnd then
      (s.closeFrame p (.ended false) time).modFramer p fun _ => .fresh g.settings
    else s.modFramer p fun x => { x with state := .body, total := some g.totalLength } := by
  have hbad : (s.discardFrame p .badLength).modFramer p Framer.toHunt =
      (s.discardFrame p .badLength).modFramer p fun _ => .fresh g.settings :=
    State.modFramer_congr _ p (by rw [Framer.toHunt, State.framer_discardFrame, ← State.framer_eq, hg])
  have hbody : (s.modFramer p fun x => { x with state := .body, total := some x.totalLength }) =
      s.modFramer p fun x => { x with state := .body, total := some g.totalLength } :=
    s.modFramer_congr p (by rw [← State.framer_eq, hg])
  rw [← hbad, ← State.endFrame_eq (congrArg Framer.settings hg), ← hbody]
  simp only [State.judgeHeader, hg, hk, if_true]

theorem State.judgeHeader_unknown (hk : g.taken ≠ g.settings.fieldEnd) (time : Word) : s.judgeHeader p time = s := by
  simp only [State.judgeHeader, hg, hk, if_false]

end

/-- R84. A byte taken in HEADER, by a framer that `f` was before: `total` is the total length if this byte makes it
known. -/
def State.lengthJudged (u : State) (p : PortId) (f : Framer) (time : Word) (total : Int) : State :=
  if decide (f.taken + 1 = f.settings.fieldEnd) then
    if decide (total < f.settings.fieldEnd) || decide ((f.settings.maxLength : Int) < total) then
      (u.discardFrame p .badLength).modFramer p fun _ => .fresh f.settings
    else if total = f.settings.fieldEnd then
      (u.closeFrame p (.ended false) time).modFramer p fun _ => .fresh f.settings
    else u.modFramer p fun g => { g with state := .body, total := some total }
  else u

theorem State.judgeHeader_eq {st : FramerState} {fr : Option Assembly}
    (hv : v.framer p = { f.collect c.value with state := st, frame := fr })
    (ht : f.taken + 1 = f.settings.fieldEnd → (f.collect c.value).totalLength = total) (time : Word) :
    v.judgeHeader p time = v.lengthJudged p f time total := by
  by_cases hk : f.taken + 1 = f.settings.fieldEnd
  · obtain rfl := ht hk
    rw [State.judgeHeader_known hv hk]
    exact (if_pos (decide_eq_true hk)).symm
  · exact (State.judgeHeader_unknown hv hk time).trans (if_neg (by simpa using hk)).symm

/-! R83 to R86. A character in LENGTH mode, by the state of the framer and by what became of its byte. -/

theorem State.lengthChar_passes (hs : (s.framer p).state = .hunt)
    (hc : ∃ b, (s.framer p).settings.sync = some b ∧ b ≠ c.value) : s.lengthChar p c = s := by
  obtain ⟨b, hb, hne⟩ := hc
  simp only [State.lengthChar, hs, hb, if_neg hne.symm]

theorem State.lengthChar_starts (hs : (s.framer p).state = .hunt)
    (hc : ∀ b, (s.framer p).settings.sync = some b → b = c.value) : s.lengthChar p c = State.lengthChar.start p c s := by
  cases hb : (s.framer p).settings.sync with
  | none => simp only [State.lengthChar, hs, hb]
  | some b => simp only [State.lengthChar, hs, hb, if_pos (hc b hb).symm]

/-- R83. The state with a frame begun at the character, in HEADER. -/
def State.headerBegun (s : State) (p : PortId) (d : DescId) (c : Char) : State :=
  (s.modMemory fun m => m.takeDescriptor d).modFramer p fun f => { f with
    state := .header, frame := some ⟨d, c.time, ⟨false, c.marks.any, false, false, false⟩, c.time⟩ }

section
variable {d : DescId} (hd : s.memory.lowestFree = some d)
include hd

theorem State.lengthStart_stored (hr : ((s.headerBegun p d c).storeInFrame p c.value).1 = .stored) :
    State.lengthChar.start p c s = (((s.headerBegun p d c).storeInFrame p c.value).2.modFramer p fun f =>
      f.collect c.value).judgeHeader p c.time := by
  rw [State.headerBegun] at hr ⊢
  simp only [State.lengthChar.start, State.beginFrame_some hd, if_true, State.modFramer_modFramer, hr]

theorem State.lengthStart_noBlock (hr : ((s.headerBegun p d c).storeInFrame p c.value).1 = .noBlock) :
    State.lengthChar.start p c s =
      (((s.headerBegun p d c).storeInFrame p c.value).2.discardFrame p .noMemory).lengthUnstored p c := by
  rw [State.headerBegun] at hr ⊢
  simp only [State.lengthChar.start, State.beginFrame_some hd, if_true, State.modFramer_modFramer, hr, State.storeFailed,
    State.lengthUnstored_toSkip]

end

theorem State.lengthStart_noDescriptor (hn : s.memory.lowestFree = none) (hf : (s.framer p).frame = none) :
    State.lengthChar.start p c s = ((s.modMemory RecordMemory.countNoDescriptor).count p fun k =>
      k.discard .noMemory).lengthUnstored p c := by
  simp only [State.lengthChar.start, State.beginFrame_none hn hf, Bool.false_eq_true, if_false]

theorem State.lengthChar_noBlock (hs : (s.framer p).state = .header ∨ (s.framer p).state = .body)
    (hr : ((s.notePart p c).storeInFrame p c.value).1 = .noBlock) : s.lengthChar p c =
      (((s.notePart p c).storeInFrame p c.value).2.discardFrame p .noMemory).lengthUnstored p c := by
  rcases hs with hs | hs <;>
    simp only [State.lengthChar, hs, hr, State.storeFailed, State.lengthUnstored_toSkip]

theorem State.lengthChar_header (hs : (s.framer p).state = .header)
    (hr : ((s.notePart p c).storeInFrame p c.value).1 = .stored) : s.lengthChar p c =
      (((s.notePart p c).storeInFrame p c.value).2.modFramer p fun f => f.collect c.value).judgeHeader p c.time := by
  simp only [State.lengthChar, hs, hr]

theorem State.lengthChar_body (hs : (s.framer p).state = .body)
    (hr : ((s.notePart p c).storeInFrame p c.value).1 = .stored) :
    let u := ((s.notePart p c).storeInFrame p c.value).2.modFramer p fun f => f.collect c.value
    s.lengthChar p c = if (u.framer p).total = some ((u.framer p).taken : Int) then u.endFrame p false c.time else u := by
  simp only [State.lengthChar, hs, hr]

theorem State.lengthChar_skip (hs : (s.framer p).state = .skip) : s.lengthChar p c = s.lengthUnstored p c := by
  simp only [State.lengthChar, hs]

end

end Sys2Proof.Machine
end

