-- ==== Sys2Proof/Proofs/LengthFrames.lean ====
section
namespace Sys2Proof.Machine

section
variable {s : State} {p : PortId} {f : Framer} {st : FramerState} {fr : Option Assembly}

theorem State.framer_headerBegun (d : DescId) (c : Char) : (s.headerBegun p d c).framer p = { s.framer p with
    state := .header, frame := some ⟨d, c.time, ⟨false, c.marks.any, false, false, false⟩, c.time⟩ } :=
  State.framer_modFramer _

/-- R84. A byte taken by a framer that has changed its state and its frame alone. -/
theorem State.modFramer_collect (h : s.framer p = { f with state := st, frame := fr }) (b : Byte) :
    (s.modFramer p fun g => g.collect b) = s.modFramer p fun g => { g with
      taken := f.taken + 1, lengthField := (f.collect b).lengthField } :=
  s.modFramer_congr p (by rw [← State.framer_eq, h]; rfl)

theorem State.framer_collected (h : s.framer p = { f with state := st, frame := fr }) (b : Byte) :
    (s.modFramer p fun g => g.collect b).framer p = { f.collect b with state := st, frame := fr } := by
  rw [State.framer_modFramer, h]
  rfl

end

/-- R84. The total length that the byte completing a sound length field gives. -/
theorem Framer.totalLength_eq {f : Framer} {v : Byte} (hw : f.settings.fieldWidth = 1 ∨ f.settings.fieldWidth = 2)
    (hl : f.lengthField.length = f.taken - f.settings.fieldOffset) (hk : f.taken + 1 = f.settings.fieldEnd) :
    (f.collect v).totalLength = fieldNumber f.settings.byteOrder (f.collect v).lengthField + f.settings.adjust := by
  have hlength := Framer.collect_lengthField_length hl (by omega) hk v
  exact congrArg (fun n : Nat => (n : Int) + f.settings.adjust) (Framer.fieldValue_eq (hlength ▸ hw))

/-- Settles O56: the length field's number, then the character and the boundary in each state. -/
theorem lengthFrames : Obligations.LengthFrames := by
  intro s p c f fs taken mark fresh becomes fieldEnd field value total bad known judged skipped noBlock hm hw hlen
  have hchar : s.framerChar p c = s.lengthChar p c := State.framerChar_length hm c
  have hgap : fs.mode ≠ .gap := by rw [hm]; decide
  have htotal (hk : f.taken + 1 = f.settings.fieldEnd) : (f.collect c.value).totalLength = total :=
    Framer.totalLength_eq hw (hlen (by rw [← show f.taken + 1 = fieldEnd from hk]; omega)) hk
  have hjudged {t : State} {st : FramerState} {fr : Option Assembly}
      (ht : t.framer p = { f with state := st, frame := fr }) :
      (t.modFramer p fun g => g.collect c.value).judgeHeader p c.time =
        judged (t.modFramer p fun g => { g with taken := f.taken + 1, lengthField := field }) := by
    rw [State.judgeHeader_eq (State.framer_collected ht c.value) htotal, State.modFramer_collect ht]
    rfl
  have hskipped {v : State} {st : FramerState} {fr : Option Assembly}
      (hv : v.framer p = { f with state := st, frame := fr }) :
      v.lengthUnstored p c = skipped v := State.lengthUnstored_eq hv htotal
  have hnoBlock {t : State} {st : FramerState} {fr : Option Assembly}
      (ht : t.framer p = { f with state := st, frame := fr }) :
      (t.discardFrame p .noMemory).lengthUnstored p c = noBlock t :=
    hskipped (fr := none) ((t.framer_discardFrame p _).trans (by rw [← State.framer_eq, ht]))
  refine ⟨fun hs hc => hchar.trans (State.lengthChar_passes hs hc), fun d hs hc hf h0 hd hlow => ?_,
    fun hs hc hf h0 hall => ?_, fun a hs ha => ?_, fun hs => hchar.trans ((State.lengthChar_skip hs).trans (hskipped rfl)),
    fun b => ⟨fun hs => State.framerBoundary_hunt hgap hs b, fun hs => State.framerBoundary_skip hgap hs b,
      fun a hs ha => State.framerBoundary_incomplete hgap hs ha b⟩⟩
  · have hfree := RecordMemory.lowestFree_eq_some hd hlow
    intro r
    have hr : r.2.framer p = _ := (State.framer_storeInFrame _).trans (State.framer_headerBegun d c)
    rw [hchar, State.lengthChar_starts hs hc]
    refine ⟨fun hstored => ?_, fun hnone => (State.lengthStart_noBlock hfree hnone).trans (hnoBlock hr)⟩
    rw [State.lengthStart_stored hfree hstored]
    refine (hjudged hr).trans ?_
    rw [h0]
  · rw [hchar, State.lengthChar_starts hs hc, State.lengthStart_noDescriptor (RecordMemory.lowestFree_eq_none hall) hf]
    exact hskipped (State.framer_count _ _ _)
  · intro r u
    have hr' : (s.notePart p c).storeInFrame p c.value = r :=
      congrArg (·.storeInFrame p c.value) (State.notePart_some ha c)
    have hr : r.2.framer p = _ := hr' ▸ (State.framer_storeInFrame _).trans (State.framer_notePart ha c)
    have hu : (r.2.modFramer p fun g => g.collect c.value) = u := State.modFramer_collect hr c.value
    rw [hchar]
    refine ⟨fun hnone => ?_, fun hstored => ⟨fun hb => ?_, fun n hb hn => ?_⟩⟩
    · rw [State.lengthChar_noBlock hs (hr' ▸ hnone), hr']
      exact hnoBlock hr
    · rw [State.lengthChar_header hb (hr' ▸ hstored), hr']
      exact hjudged hr
    · have hbody := State.lengthChar_body hb (hr' ▸ hstored)
      rw [hr', hu] at hbody
      have hcollected := State.framer_collected hr c.value
      rw [hu] at hcollected
      have hlast : (u.framer p).total = some ((u.framer p).taken : Int) ↔ n = f.taken + 1 := by
        rw [hcollected]
        exact (Eq.congr_left hn).trans Option.some_inj
      refine ⟨fun hne => hbody.trans (if_neg (mt hlast.mp hne)), fun he => ?_⟩
      exact hbody.trans ((if_pos (hlast.mpr he)).trans
        (State.endFrame_eq (congrArg Framer.settings hcollected) false c.time))

end Sys2Proof.Machine
end

