-- ==== Sys2Proof/Proofs/LineEvents.lean ====
section
namespace Sys2Proof.Machine

/-! ### What a sampled character says -/

/-- R98. The number of high bits of a byte is odd. -/
theorem oddOnes_eq_filter (b : Byte) :
    oddOnes b = (((List.range 8).filter fun i => b.getLsbD i).length % 2 == 1) := by
  rw [oddOnes, foldl_bne_eq_parity, List.count, List.countP_map, ← List.countP_eq_length_filter]
  simp only [Bool.toNat_false, Nat.add_zero, Function.comp_def, beq_true]
  rfl

/-- R98, R107. The parity bit of a character is wrong when it makes the number of its high bits odd under even parity, or
even under odd parity. -/
theorem LineSettings.parityWrong_eq (ls : LineSettings) (value : Byte) (bit : Bool) :
    let odd : Bool := ((List.range 8).filter fun i => value.getLsbD i).length % 2 == 1
    ls.parityWrong value bit = match ls.parity with
      | .none => false
      | .even => (bit != odd)
      | .odd => (bit == odd) := by
  intro odd
  have hodd : oddOnes value = odd := oddOnes_eq_filter value
  cases h : ls.parity <;> simp only [LineSettings.parityWrong, LineSettings.parityBit, h, hodd]
  case odd => cases bit <;> cases odd <;> rfl

/-! ### Each line event, by what the line monitor sees -/

section
variable {q : Port}

theorem Port.canSend_of_running (h : q.state = .running) : q.canSend = true := by simp [Port.canSend, h]

theorem Port.canSend_of_paused (h : q.state = .paused) : q.canSend = true := by simp [Port.canSend, h]

theorem LineState.awaitsStop_character {l : LineState} {missed : Bool} (h : l = .high ∨ l = .character missed) :
    l.awaitsStop = true := by
  rcases h with rfl | rfl <;> rfl

/-- R100. The receiver takes the character: it was on at its start bit, or the event brings the whole character. -/
theorem Port.hears_running (hl : q.line = .high ∨ q.line = .character false) (hs : q.state = .running) :
    q.hears = true := by
  rcases hl with hl | hl <;> simp [Port.hears, hl, hs]

theorem Port.hears_paused (hs : q.state = .paused) : q.hears = false := by simp [Port.hears, hs]

theorem Port.hears_missed (hl : q.line = .character true) : q.hears = false := by simp [Port.hears, hl]

/-- R107, R111. A high stop bit: the character is received, and the quiet time runs from now. -/
theorem Port.characterReceived_high (hc : q.canSend = true) (hl : q.line.awaitsStop = true) (now : Word) (data : Byte)
    (parityBit : Bool) : q.characterReceived now data parityBit true =
      { (if q.hears then q.receive (q.sampled now data parityBit) false else q) with line := .high, quiet := .fromNow } := by
  simp [Port.characterReceived, Port.monitored, hc, hl]

/-- R107. A low stop bit: the receiver holds the character until the line returns high. -/
theorem Port.characterReceived_low (hc : q.canSend = true) (hl : q.line.awaitsStop = true) (now : Word) (data : Byte)
    (parityBit : Bool) : q.characterReceived now data parityBit false =
      { q with line := .lowStop (if q.hears then some (q.sampled now data parityBit) else none), quiet := .off } := by
  simp [Port.characterReceived, Port.monitored, hc, hl]

theorem Port.startBit_begins (hc : q.canSend = true) (hl : q.line = .high ∨ q.line = .character true) :
    q.startBit = { q with line := .character (decide (q.state = .paused)), quiet := .off } := by
  have hmissed : (q.state != .running) = decide (q.state = .paused) := by
    cases h : q.state <;> simp_all [Port.canSend]
  rcases hl with hl | hl <;> simp [Port.startBit, Port.monitored, hc, hl, hmissed]

theorem Port.framingErrorEnd_lowStop {held : Option LowStopChar} (hc : q.canSend = true) (hl : q.line = .lowStop held) :
    q.framingErrorEnd = { q.enterHeld held with line := .high, quiet := .fromNow } := by
  simp [Port.framingErrorEnd, Port.monitored, hc, hl]

theorem Port.enterHeld_running (hs : q.state = .running) (c : LowStopChar) :
    q.enterHeld (some c) = q.receive c true := if_pos hs

/-- R108, R110, R112. A break of a RUNNING port is echo, or lost at a full FIFO, or enters it. -/
theorem Port.breakDetected_running (hs : q.state = .running) (hl : q.line ≠ .brk) (now : Word) : q.breakDetected now =
    if q.dir then { q with
      line := .brk, quiet := .off, counters := { q.counters with echo := sat32 (q.counters.echo + 1) } }
    else if 64 ≤ q.fill then { q with
      line := .brk, quiet := .off, overrunPending := true
      counters := { q.counters with
        breaks := sat32 (q.counters.breaks + 1), overruns := sat32 (q.counters.overruns + 1) } }
    else { q with
      line := .brk, quiet := .off, fifo := q.fifo ++ [.brk now]
      counters := { q.counters with breaks := sat32 (q.counters.breaks + 1) } } := by
  simp [Port.breakDetected, Port.monitored, Port.canSend_of_running hs, hl, hs, Port.fill]

theorem Port.breakDetected_paused (hs : q.state = .paused) (hl : q.line ≠ .brk) (now : Word) :
    q.breakDetected now = { q with line := .brk, quiet := .off } := by
  simp [Port.breakDetected, Port.monitored, Port.canSend_of_paused hs, hl, hs]

theorem Port.breakDetected_brk (hl : q.line = .brk) (now : Word) : q.breakDetected now = q := by
  simp [Port.breakDetected, hl]

theorem Port.breakEnd_brk (hc : q.canSend = true) (hl : q.line = .brk) :
    q.breakEnd = { q with line := .high, quiet := .fromNow } := by
  simp [Port.breakEnd, Port.monitored, hc, hl]

end

/-! ### A port whose line is not watched (log entry 24) -/

section
variable {q : Port}

theorem Port.characterReceived_unwatched (hc : q.canSend = false) (now : Word) (data : Byte) (parityBit stopHigh : Bool) :
    q.characterReceived now data parityBit stopHigh = q := by simp [Port.characterReceived, Port.monitored, hc]

theorem Port.startBit_unwatched (hc : q.canSend = false) : q.startBit = q := by
  simp [Port.startBit, Port.monitored, hc]

theorem Port.framingErrorEnd_unwatched (hc : q.canSend = false) : q.framingErrorEnd = q := by
  cases hl : q.line <;> simp [Port.framingErrorEnd, Port.monitored, hc, hl]

theorem Port.breakDetected_unwatched (hc : q.canSend = false) (now : Word) : q.breakDetected now = q := by
  simp [Port.breakDetected, Port.monitored, hc]

theorem Port.breakEnd_unwatched (hc : q.canSend = false) : q.breakEnd = q := by
  simp [Port.breakEnd, Port.monitored, hc]

end

/-! ### What becomes of a judged character -/

/-- R107, R110. The counters of a character that is not echo, whether it is then lost or entered. -/
def PortCounters.judged (k : PortCounters) (parity framing : Bool) : PortCounters := { k with
  received := sat32 (k.received + 1)
  parityErrors := if parity then sat32 (k.parityErrors + 1) else k.parityErrors
  framingErrors := if framing then sat32 (k.framingErrors + 1) else k.framingErrors }

section
variable {q : Port} {c : LowStopChar}

theorem Port.receive_echo (he : c.echo = true) (framing : Bool) : q.receive c framing =
    { q with counters := { q.counters with echo := sat32 (q.counters.echo + 1) } } := if_pos he

theorem Port.receive_lost (he : c.echo = false) (hl : c.lost = true) (framing : Bool) : q.receive c framing = { q with
    overrunPending := true
    counters := { q.counters.judged c.parity framing with overruns := sat32 (q.counters.overruns + 1) } } := by
  simp only [Port.receive, he, hl, if_true, if_false, Bool.false_eq_true]
  rfl

theorem Port.receive_entered (he : c.echo = false) (hl : c.lost = false) (framing : Bool) : q.receive c framing = { q with
    fifo := q.fifo ++ [.char ⟨c.value, ⟨c.parity, framing, q.overrunPending⟩, c.time⟩]
    overrunPending := false
    counters := q.counters.judged c.parity framing } := by
  simp only [Port.receive, he, hl, if_false, Bool.false_eq_true]
  rfl

end

/-- R107 to R112. A line event of a part not held in reset changes the port as its row says. -/
theorem State.lineEvent_eq {s : State} {p : PortId} {f g : Port → Port} (hr : s.pins.reset = false)
    (h : g (s.port p) = f (s.port p)) : s.unlessReset (s.modPort p g) = .next (s.modPort p f) :=
  (State.unlessReset_running hr _).trans (congrArg _ (s.modPort_congr p h))

/-- Settles O51: each line event by the state of the line, the port and the staging FIFO. -/
theorem lineReceived : Obligations.LineReceived := by
  refine ⟨fun s p data parityBit hr => ?_, fun s p hr => ?_⟩
  · intro q value odd parity n received lost echoed high becomes
    have hparity : q.settings.parityWrong value parityBit = parity := q.settings.parityWrong_eq value parityBit
    refine ⟨fun hl hs => ?_, fun h => ?_, fun hl hc => State.lineEvent_eq hr (Port.startBit_begins hc hl),
      fun c hl hs => ?_, fun hl hc => State.lineEvent_eq hr (Port.framingErrorEnd_lowStop hc hl), fun hc b =>
      ⟨State.lineEvent_eq hr (Port.characterReceived_unwatched hc ..), State.lineEvent_eq hr (Port.startBit_unwatched hc),
        State.lineEvent_eq hr (Port.framingErrorEnd_unwatched hc)⟩⟩
    · have hc := Port.canSend_of_running hs
      have hstop := LineState.awaitsStop_character hl
      have hsampled : q.sampled s.timebase data parityBit = ⟨value, parity, s.timebase, q.dir, decide (64 ≤ n)⟩ :=
        hparity ▸ rfl
      have hhigh {f : Port → Port}
          (h : q.receive ⟨value, parity, s.timebase, q.dir, decide (64 ≤ n)⟩ false = f q) :
          becomes (.characterReceived p data parityBit true) fun q => high (f q) := by
        refine State.lineEvent_eq hr ((Port.characterReceived_high hc hstop ..).trans ?_)
        rw [if_pos (Port.hears_running hl hs)]
        exact congrArg high (hsampled ▸ h)
      refine ⟨fun hd => hhigh (Port.receive_echo hd _), fun hd hn => hhigh ?_, fun hd hn => hhigh ?_,
        State.lineEvent_eq hr ((Port.characterReceived_low hc hstop ..).trans ?_)⟩
      · exact Port.receive_entered hd (decide_eq_false (Nat.not_le.mpr hn)) _
      · exact Port.receive_lost hd (decide_eq_true hn) _
      · rw [if_pos (Port.hears_running hl hs)]
        exact hsampled ▸ rfl
    · have hc : q.canSend = true := h.elim (fun h => Port.canSend_of_paused h.2) (·.2)
      have hstop : q.line.awaitsStop = true :=
        h.elim (fun h => LineState.awaitsStop_character h.1) fun h => LineState.awaitsStop_character (.inr h.1)
      have hdeaf : ¬ q.hears = true :=
        ne_true_of_eq_false (h.elim (fun h => Port.hears_paused h.2) fun h => Port.hears_missed h.1)
      constructor
      · refine State.lineEvent_eq hr ((Port.characterReceived_high hc hstop ..).trans ?_)
        rw [if_neg hdeaf]
        rfl
      · refine State.lineEvent_eq hr ((Port.characterReceived_low hc hstop ..).trans ?_)
        rw [if_neg hdeaf]
        rfl
    · have hreturn {f : Port → Port} (h : q.receive c true = f q) :
          becomes (.framingErrorEnd p) fun q => high (f q) := by
        refine State.lineEvent_eq hr ((Port.framingErrorEnd_lowStop (Port.canSend_of_running hs) hl).trans ?_)
        rw [Port.enterHeld_running hs]
        exact congrArg high h
      exact ⟨fun he => hreturn (Port.receive_echo he _), fun he hl => hreturn (Port.receive_entered he hl _),
        fun he hl => hreturn (Port.receive_lost he hl _)⟩
  · intro q n low becomes
    refine ⟨fun hl hs => ?_, fun hl hs => State.lineEvent_eq hr (Port.breakDetected_paused hs hl _),
      fun hl hc => ⟨State.lineEvent_eq hr (Port.breakDetected_brk hl _), State.lineEvent_eq hr (Port.breakEnd_brk hc hl)⟩,
      fun hc => ⟨State.lineEvent_eq hr (Port.breakDetected_unwatched hc _),
        State.lineEvent_eq hr (Port.breakEnd_unwatched hc)⟩⟩
    have hbreak := Port.breakDetected_running hs hl s.timebase
    refine ⟨fun hd => ?_, fun hd hn => ?_, fun hd hn => ?_⟩
    · exact State.lineEvent_eq hr (hbreak.trans (if_pos hd))
    · exact State.lineEvent_eq hr (hbreak.trans ((if_neg (ne_true_of_eq_false hd)).trans (if_neg (Nat.not_le.mpr hn))))
    · exact State.lineEvent_eq hr (hbreak.trans ((if_neg (ne_true_of_eq_false hd)).trans (if_pos hn)))

end Sys2Proof.Machine
end

