-- ==== Sys2Proof/Proofs/SendIds.lean ====
section
namespace Sys2Proof.Machine

/-! ### An entry by its send id -/

/-- R118. A send id is held at one port only. -/
theorem State.PoolSound.port_of_id {s : State} (h : s.PoolSound) {p r : PortId} {e x : SendEntry}
    (he : e ∈ (s.port p).queue) (hx : x ∈ (s.port r).queue) (hid : x.id = e.id) : r = p := by
  have hids : ((List.finRange 4).flatMap fun p : PortId => (s.port p).queue.map (·.id)).Nodup := by
    simpa only [State.entries_eq, List.map_flatMap] using h.ids
  have : Std.Symm (Function.onFun List.Disjoint fun p : PortId => (s.port p).queue.map (·.id)) :=
    ⟨fun _ _ => List.Disjoint.symm⟩
  by_contra hne
  exact (List.nodup_flatMap.mp hids).2.forall (List.mem_finRange r) (List.mem_finRange p) hne
    (List.mem_map_of_mem hx) (hid ▸ List.mem_map_of_mem he)

/-- R118. A live entry is found by its send id. -/
theorem State.PoolSound.findEntry_id {s : State} (h : s.PoolSound) {p : PortId} {e : SendEntry}
    (he : e ∈ (s.port p).queue) : s.findEntry e.id = some (p, e) := by
  have hfind : ((s.port p).queue.find? fun x => x.id == e.id) = some e := by
    obtain ⟨x, hx⟩ := Option.isSome_iff_exists.mp (List.find?_isSome.mpr ⟨e, he, beq_self_eq_true e.id⟩ :
      ((s.port p).queue.find? fun x => x.id == e.id).isSome = true)
    rw [hx, List.inj_on_of_nodup_map (h.portIds p) (List.mem_of_find?_eq_some hx) he (by simpa using List.find?_some hx)]
  refine findSome?_finRange (i := p) (by rw [hfind]) fun r hr => ?_
  have hnone : ((s.port r).queue.find? fun x => x.id == e.id) = none :=
    List.find?_eq_none.mpr fun x hx hid => hr.ne (h.port_of_id he hx (by simpa using hid))
  rw [hnone]

theorem State.findEntry_none {s : State} {id : Half} (h : ∀ p, ∀ e ∈ (s.port p).queue, e.id ≠ id) :
    s.findEntry id = none := by
  refine List.findSome?_eq_none_iff.mpr fun p _ => ?_
  have hnone : ((s.port p).queue.find? fun x => x.id == id) = none :=
    List.find?_eq_none.mpr fun x hx => by simpa using h p x hx
  rw [hnone]

/-- R117. The entries before an entry are those up to its send id. -/
theorem takeWhile_id_middle {before after : List SendEntry} {e : SendEntry}
    (h : ((before ++ e :: after).map (·.id)).Nodup) :
    ((before ++ e :: after).takeWhile fun x => x.id != e.id) = before := by
  have hbefore : ∀ x ∈ before, (x.id != e.id) = true := fun x hx => by
    simp only [List.map_append, List.map_cons, List.nodup_append] at h
    exact bne_iff_ne.mpr (h.2.2 x.id (List.mem_map_of_mem hx) e.id (by simp))
  rw [List.takeWhile_append_of_pos hbefore, List.takeWhile_cons_of_neg (by simp), List.append_nil]

theorem Port.position_sending (q : Port) {e : SendEntry} (he : e.state = .sending) : q.position e = 0 := if_pos he

/-- R117. One more than the QUEUED entries of a lower class and the QUEUED ones of its class before it. -/
theorem Port.position_queued {q : Port} {before after : List SendEntry} {e : SendEntry}
    (hq : q.queue = before ++ e :: after) (h : (q.queue.map (·.id)).Nodup) (he : e.state = .queued) :
    q.position e = 1 + (q.queue.filter fun x => x.state == .queued && decide (x.cls < e.cls)).length
      + (before.filter fun x => x.state == .queued && x.cls == e.cls).length := by
  have hbefore : (q.queue.takeWhile fun x => x.id != e.id) = before := by
    rw [hq]
    exact takeWhile_id_middle (hq ▸ h)
  rw [Port.position, if_neg (by simp [he]), hbefore]
  omega

/-! ### SEND_STATUS and SEND_CANCEL -/

theorem parseSendId_zero : parseSendId (le2 (0 : Half).toNat) = .error 1 := rfl

theorem parseSendId_le2 {id : Half} (h : id ≠ 0) : parseSendId (le2 id.toNat) = .ok id := by
  have hid : num2 (le2 id.toNat) 0 = id.toNat := num2_le2 (Nat.le_of_lt_succ id.isLt)
  have hne : (id.toNat != 0) = true := bne_iff_ne.mpr fun h0 => h (BitVec.eq_of_toNat_eq h0)
  rw [parseSendId, hid, hne, BitVec.ofNat_toNat, BitVec.setWidth_eq]
  rfl

/-- Settles O40: a live entry is the one found by its send id, and its place in the queue gives its position. -/
theorem sendIdRequests : Obligations.SendIdRequests := by
  refine ⟨fun s tag id rest hp hw => ⟨?_, fun hid hn => ?_, fun p before e after hq he => ?_⟩,
    fun s tag id rest hp hw => ⟨?_, fun hid hn => ?_, fun p e he hid => ?_⟩⟩
  · rintro rfl
    exact State.execRequest_badParam hw rfl parseSendId_zero
  · exact State.execRequest_ok hw rfl (parseSendId_le2 hid) (by rw [State.findEntry_none hn]; rfl)
  · subst he
    intro position
    have hmem : e ∈ (s.port p).queue := by simp [hq]
    have hposition : (s.port p).position e = position := by
      simp only [position]
      split
      · exact (s.port p).position_sending ‹_›
      · exact Port.position_queued hq (hp.portIds p) ‹_›
    refine State.execRequest_ok hw rfl (parseSendId_le2 (hp.nonzero e (State.mem_entries.mpr ⟨p, hmem⟩))) ?_
    rw [hp.findEntry_id hmem, ← hposition]
    rfl
  · rintro rfl
    exact State.execRequest_badParam hw rfl parseSendId_zero
  · exact State.execRequest_ok hw rfl (parseSendId_le2 hid) (by rw [State.findEntry_none hn]; rfl)
  · subst hid
    have hparse := parseSendId_le2 (hp.nonzero e (State.mem_entries.mpr ⟨p, he⟩))
    refine ⟨fun hs => State.execRequest_ok hw rfl hparse ?_, fun hs => State.execRequest_ok hw rfl hparse ?_⟩
    · rw [hp.findEntry_id he]
      exact if_pos hs
    · rw [hp.findEntry_id he]
      exact if_neg (by simp [hs])

end Sys2Proof.Machine
end

