-- ==== Sys2Proof/Proofs/Drains.lean ====
section
namespace Sys2Proof.Machine

/-! ### The counts of a drain -/

/-- R133. The entries that remain are noted in the result of a drain. -/
def OpWork.drainLeft (n : Nat) (w : OpWork) : OpWork :=
  match w with
  | .drain port deadline left sent _ => .drain port deadline left sent n
  | w => w

theorem OpWork.isDrainOf_drainLeft (n : Nat) (w : OpWork) (p : PortId) : (w.drainLeft n).isDrainOf p = w.isDrainOf p := by
  cases w <;> rfl

/-- R133. The drain of a port is marked COMPLETE in the table, and the port drains no longer. -/
theorem State.completeDrain_drainLeft (s : State) (p : PortId) (status : OpStatus) (n : Nat) (byRequest : Bool) :
    s.completeDrain p status n byRequest = { s.modPort p fun q => { q with draining := false } with
      ops := (s.ops.progress (·.isDrainOf p) (OpWork.drainLeft n)).complete (·.isDrainOf p) status byRequest } := rfl

/-- R133. The one drain of a port ends where it stands in the table. -/
theorem State.completeDrain_picks {s : State} {p : PortId} {before after : List OpEntry} {e : OpEntry}
    (h : s.ops.Picks (·.isDrainOf p) before e after) (status : OpStatus) (n : Nat) (byRequest : Bool) :
    s.completeDrain p status n byRequest = { s.modPort p fun q => { q with draining := false } with
      ops := ⟨before ++ { e with work := e.work.drainLeft n, status := some status, replyPending := byRequest } :: after,
        s.ops.completed ++ [e.tag]⟩ } := by
  rw [State.completeDrain_drainLeft, h.complete_progress fun w => w.isDrainOf_drainLeft n p]

/-! ### PORT_DRAIN -/

theorem parsePortDrain_body (p : PortId) {deadline : Nat} (h : deadline ≤ 65535) :
    parsePortDrain (idByte p :: le2 deadline) = if deadline = 0 then .error 2 else .ok (p, deadline) := by
  have hparsed : parsePortDrain (idByte p :: le2 deadline)
      = (do need 2 (num2 (le2 deadline) 0 != 0); .ok (p, num2 (le2 deadline) 0)) := by
    have hport : fieldBelow 4 1 (num1 (idByte p :: le2 deadline) 0) = .ok p := fieldBelow_idByte p (by decide) 1
    rw [parsePortDrain, hport]
    rfl
  rw [hparsed, num2_le2 h]
  by_cases h0 : deadline = 0
  · rw [if_pos h0, h0]
    rfl
  · rw [if_neg h0, bne_iff_ne.mpr h0]
    rfl

/-- R163. The operation accepted last is the only one of its target. -/
theorem OpTable.picks_accept {t : OpTable} {sel : OpWork → Bool} {work : OpWork} (h : ¬ t.holds sel = true)
    (hw : sel work = true) (tag : Byte) (now : Word) :
    (t.accept tag work now).Picks sel t.entries ⟨tag, work, none, now, false, false⟩ [] := by
  refine ⟨rfl, rfl, hw, fun x hx => ?_⟩
  rw [List.append_nil] at hx
  exact eq_false_of_ne_true fun hsel => h ((t.holds_iff sel).mpr ⟨x, hx, hsel⟩)

/-- R131. A drain that is accepted, which ends at once when the queue is empty. -/
theorem State.drainAccepted_eq {s : State} {p : PortId} (h : ¬ s.ops.holds (·.isDrainOf p) = true) (tag : Byte)
    (deadline : Nat) :
    let work : OpWork := .drain p deadline (1000 * deadline) 0 0
    let t := (s.modOps fun o => o.accept tag work s.timebase).modPort p fun q => { q with draining := true }
    (if (t.port p).queue.isEmpty then t.completeDrain p .done 0 true else t) =
      if (s.port p).queue = [] then { s.modPort p fun q => { q with draining := false } with
        ops := ⟨s.ops.entries ++ [⟨tag, work, some .done, s.timebase, false, true⟩], s.ops.completed ++ [tag]⟩ }
      else { s.modPort p fun q => { q with draining := true } with ops := s.ops.accept tag work s.timebase } := by
  intro work t
  have hqueue : (t.port p).queue = (s.port p).queue := by
    simp only [t, State.port_modPort_same, State.port_modOps]
  have hpicks : t.ops.Picks (·.isDrainOf p) s.ops.entries ⟨tag, work, none, s.timebase, false, false⟩ [] :=
    OpTable.picks_accept (work := work) h (beq_self_eq_true p) tag s.timebase
  rw [hqueue]
  by_cases hq : (s.port p).queue = []
  · rw [if_pos hq, if_pos (List.isEmpty_iff.mpr hq), State.completeDrain_picks hpicks, State.modPort_modPort]
    rfl
  · rw [if_neg hq, if_neg (mt List.isEmpty_iff.mp hq)]
    rfl

/-- Settles O41: the request by the outcome of each check, and the accepted drain by whether the queue is empty. -/
theorem portDrainAccepted : Obligations.PortDrainAccepted := by
  intro s tag rest p deadline hd hw q inUse canSend
  have hin : (s.ops.holds (·.isDrainOf p) = true) = inUse := propext (s.ops.holds_iff _)
  have hcan : ((!(s.port p).canSend) = true) = ¬ canSend := by
    rw [Bool.not_eq_true', ← Bool.not_eq_true, (s.port p).canSend_iff]
  have hfull : (s.ops.full = true) = (4 ≤ s.ops.entries.length) := propext s.ops.full_iff
  have hparse (h : deadline ≠ 0) : parsePortDrain (idByte p :: le2 deadline) = .ok (p, deadline) :=
    (parsePortDrain_body p hd).trans (if_neg h)
  refine ⟨fun h => ?_, fun h hu => ?_, fun h hu hc => ?_, fun h hu hc hf => ?_, fun h hu hc hf => ?_⟩
  · exact State.execRequest_badParam hw rfl ((parsePortDrain_body p hd).trans (if_pos h))
  · exact State.execRequest_ok hw rfl (hparse h) (if_pos (hin ▸ hu))
  · exact State.execRequest_ok hw rfl (hparse h) ((if_neg (hin ▸ hu)).trans (if_pos (hcan ▸ hc)))
  · exact State.execRequest_ok hw rfl (hparse h) (((if_neg (hin ▸ hu)).trans (if_neg (hcan ▸ not_not_intro hc))).trans
      (if_pos (hfull ▸ hf)))
  · have hu : ¬ s.ops.holds (·.isDrainOf p) = true := hin ▸ hu
    have hc : ¬ (!(s.port p).canSend) = true := hcan ▸ not_not_intro hc
    have hf : ¬ s.ops.full = true := hfull ▸ hf.not_ge
    have hrun (u : State) (he : u = if q.queue = [] then _ else _) :
        exec .portDrain s = .next (u.replied .portDrain tag rest .accepted []) :=
      State.execRequest_ok hw rfl (hparse h) (((if_neg hu).trans (if_neg hc)).trans
        ((if_neg hf).trans (Prod.ext ((State.drainAccepted_eq hu tag deadline).trans he.symm) rfl)))
    refine ⟨fun hq => hrun _ (if_neg hq).symm, fun hq => ?_⟩
    rw [hrun _ (if_pos hq).symm]
    exact congrArg _ (State.replied_replyPending (s.modPort p fun q => { q with draining := false }) s.ops.entries
      ⟨tag, .drain p deadline (1000 * deadline) 0 0, some .done, s.timebase, false, false⟩ (s.ops.completed ++ [tag])
      true ..)

end Sys2Proof.Machine
end

