-- ==== Sys2Proof/Proofs/TimesRunOut.lean ====
section
namespace Sys2Proof.Machine

section
variable {s : State}

/-! ### TTL_EXPIRY -/

/-- R127. The row by what becomes of the entry with the send id. -/
theorem State.ttlExpiry_found (hr : s.pins.reset = false) (hp : s.PoolSound) {p : PortId} {e : SendEntry}
    (he : e ∈ (s.port p).queue) :
    exec (.ttlExpiry e.id) s = .next (if e.expired then s.endEntry p e .expired false true else s) := by
  simp only [exec, execTtlExpiry, State.unlessReset_running hr, hp.findEntry_id he]

theorem State.ttlExpiry_absent (hr : s.pins.reset = false) {id : Half} (h : ∀ p, ∀ e ∈ (s.port p).queue, e.id ≠ id) :
    exec (.ttlExpiry id) s = .next s := by
  simp only [exec, execTtlExpiry, State.unlessReset_running hr, State.findEntry_none h]

/-! ### DRAIN_DEADLINE -/

theorem State.drainDeadline_early (hr : s.pins.reset = false) {p : PortId} (h : ¬ s.deadlineDue p = true) :
    exec (.drainDeadline p) s = .next s := by
  simp only [exec, execDrainDeadline, State.unlessReset_running hr, if_neg h]

theorem State.drainDeadline_due (hr : s.pins.reset = false) {p : PortId} (h : s.deadlineDue p = true) :
    exec (.drainDeadline p) s = .next (s.completeDrain p .timedOut (s.port p).queue.length false) := by
  simp only [exec, execDrainDeadline, State.unlessReset_running hr, if_pos h]

end

/-- Settles O45: the send id names one entry, and the drain whose deadline is reached is the port's only one. -/
theorem timesRunOut : Obligations.TimesRunOut := by
  intro s hr hp
  refine ⟨fun p e he => ⟨fun hs ht => ?_, fun h => ?_⟩, fun id h => State.ttlExpiry_absent hr h, fun p => ?_⟩
  · rw [State.ttlExpiry_found hr hp he, if_pos (e.expired_iff.mpr ⟨hs, ht⟩)]
  · rw [State.ttlExpiry_found hr hp he, if_neg]
    rw [e.expired_iff]
    rintro ⟨hs, ht⟩
    rcases h with h | h
    · exact absurd (h.symm.trans hs) (by decide)
    · exact h ht
  · intro reached
    refine ⟨fun h => ?_, fun before e after hentries he hothers hq => ?_⟩
    · refine State.drainDeadline_early hr fun hdue => ?_
      obtain ⟨hq, e, he, hreached⟩ := (s.deadlineDue_iff p).mp hdue
      rcases h with h | h
      · exact hq h
      · exact h e he hreached
    · obtain ⟨hstatus, d, n, r, hwork⟩ := he
      have hdue : s.deadlineDue p = true :=
        (s.deadlineDue_iff p).mpr ⟨hq, e, by simp [hentries], hstatus, d, n, r, hwork⟩
      have hpicks : s.ops.Picks (·.isDrainOf p) before e after :=
        ⟨hentries, hstatus, by simp [hwork, OpWork.isDrainOf], fun x hx => eq_false_of_ne_true (hothers x hx)⟩
      rw [State.drainDeadline_due hr hdue, State.completeDrain_picks hpicks]
      rfl

end Sys2Proof.Machine
end

