-- ==== Sys2Proof/Proofs/EntryEnd.lean ====
section
namespace Sys2Proof.Machine

/-! ### The table under the end of an entry -/

/-- R133. A drain counts entries that have ended SENT. -/
def OpWork.drainSent (k : Nat) (w : OpWork) : OpWork :=
  match w with
  | .drain port deadline left sent remaining => .drain port deadline left (sent + k) remaining
  | w => w

theorem OpWork.isDrainOf_drainSent (k : Nat) (w : OpWork) (p : PortId) : (w.drainSent k).isDrainOf p = w.isDrainOf p := by
  cases w <;> rfl

theorem OpWork.drainSent_zero (w : OpWork) : w.drainSent 0 = w := by cases w <;> rfl

theorem OpTable.progress_progress (t : OpTable) {sel : OpWork → Bool} {f g : OpWork → OpWork} (h : ∀ w, sel (f w) = sel w) :
    (t.progress sel f).progress sel g = t.progress sel fun w => g (f w) := by
  simp only [OpTable.progress, List.map_map]
  congr 1
  refine List.map_congr_left fun e _ => ?_
  by_cases hc : (e.running && sel e.work) = true
  · have hf : (({ e with work := f e.work } : OpEntry).running && sel (f e.work)) = true := by rw [h]; exact hc
    rw [Function.comp_apply, if_pos hc, if_pos hc, if_pos hf]
  · rw [Function.comp_apply, if_neg hc, if_neg hc, if_neg hc]

/-- R131, R133. The table after the end of an entry of the port: its drain counts `k` more entries as SENT, and ends
when `done`. -/
def OpTable.drained (t : OpTable) (p : PortId) (k : Nat) (done byRequest : Bool) : OpTable where
  entries := t.entries.map fun x => if x.running && x.work.isDrainOf p then { x with
      work := if done then (x.work.drainSent k).drainLeft 0 else x.work.drainSent k
      status := if done then some .done else x.status
      replyPending := if done then byRequest else x.replyPending } else x
  completed := t.completed ++ if done then (t.entries.filter fun x => x.running && x.work.isDrainOf p).map (·.tag) else []

theorem OpTable.drained_running (t : OpTable) (p : PortId) (k : Nat) (byRequest : Bool) :
    t.drained p k false byRequest = t.progress (·.isDrainOf p) (OpWork.drainSent k) := by
  simp [OpTable.drained, OpTable.progress]

theorem OpTable.drained_done (t : OpTable) (p : PortId) (k : Nat) (byRequest : Bool) : t.drained p k true byRequest =
    ((t.progress (·.isDrainOf p) (OpWork.drainSent k)).progress (·.isDrainOf p) (OpWork.drainLeft 0)).complete
      (·.isDrainOf p) .done byRequest := by
  have hsel (w : OpWork) : ((w.drainSent k).drainLeft 0).isDrainOf p = w.isDrainOf p := by
    rw [OpWork.isDrainOf_drainLeft, OpWork.isDrainOf_drainSent]
  rw [OpTable.progress_progress t fun w => w.isDrainOf_drainSent k p]
  exact (congrArg₂ OpTable.mk (t.complete_progress_entries (sel := (·.isDrainOf p)) hsel .done byRequest)
    (t.complete_progress_completed (sel := (·.isDrainOf p)) hsel .done byRequest)).symm

/-- R133. What the end of an entry makes of one operation, as the drain's counts. -/
theorem OpEntry.drained_eq (x : OpEntry) (p : PortId) (k : Nat) (done byRequest : Bool) :
    (match x.status.isNone && x.work.isDrainOf p, x.work with
      | true, .drain port deadline micros n remaining => { x with
        work := .drain port deadline micros (n + k) (if done then 0 else remaining)
        status := if done then some .done else none
        replyPending := if done then byRequest else x.replyPending }
      | _, _ => x) =
    if x.running && x.work.isDrainOf p then { x with
      work := if done then (x.work.drainSent k).drainLeft 0 else x.work.drainSent k
      status := if done then some .done else x.status
      replyPending := if done then byRequest else x.replyPending } else x := by
  obtain ⟨tag, work, status, start, acceptedSent, replyPending⟩ := x
  cases status with
  | some y => rfl
  | none =>
    cases work with
    | purge | check => rfl
    | drain port deadline micros n remaining =>
      by_cases hp : port = p
      · subst hp
        cases done <;> simp [OpEntry.running, OpWork.isDrainOf, OpWork.drainSent, OpWork.drainLeft]
      · simp [OpEntry.running, OpWork.isDrainOf, hp]

/-! ### The steps of the end of an entry -/

/-- R128. One more entry of the port has ended, and is counted if it was sent. -/
def Port.sentCounted (q : Port) (status : SendStatus) : Port :=
  { q with counters := { q.counters with sent := if status = .sent then sat32 (q.counters.sent + 1) else q.counters.sent } }

/-- R128. How many entries the end with this status counts as SENT. -/
def SendStatus.sentCount (status : SendStatus) : Nat := if status = .sent then 1 else 0

/-- R128, R156. The Notice Queue after the end of an entry. -/
def NoticeQueue.entryEnded (n : NoticeQueue) (e : SendEntry) (status : SendStatus) (now : Word) : NoticeQueue :=
  if e.origin = .host ∧ e.report = true then n.raise .sendDone e.id.toNat (.sendDone status (e.tag.getD 0)) now else n

section
variable (s : State) (m : RecordMemory) (n : NoticeQueue) (o : OpTable) (p : PortId) (q : Port)

theorem State.patched_sent (status : SendStatus) :
    (if status = .sent then
      ((s.patched m n o p q).count p fun c => { c with sent := sat32 (c.sent + 1) }).countDrained p
    else s.patched m n o p q) =
      s.patched m n (o.progress (·.isDrainOf p) (OpWork.drainSent status.sentCount)) p (q.sentCounted status) := by
  by_cases h : status = .sent
  · rw [if_pos h, State.count, State.modPort_eq_patched, State.patched_patched, State.patched_port]
    simp only [Port.sentCounted, SendStatus.sentCount, if_pos h]
    rfl
  · simp only [Port.sentCounted, SendStatus.sentCount, if_neg h]
    rw [show OpWork.drainSent 0 = fun w => w from funext OpWork.drainSent_zero, OpTable.progress_id]

theorem State.patched_sendDone (e : SendEntry) (status : SendStatus) :
    (if e.origin = .host ∧ e.report = true then
      (s.patched m n o p q).raise .sendDone e.id.toNat (.sendDone status (e.tag.getD 0)) else s.patched m n o p q) =
      s.patched m (n.entryEnded e status s.timebase) o p q := by
  rw [NoticeQueue.entryEnded]
  split <;> rfl

theorem State.patched_judged (k : Nat) (byRequest : Bool) :
    let t := s.patched m n (o.progress (·.isDrainOf p) (OpWork.drainSent k)) p q
    let done : Bool := q.draining && q.queue.isEmpty
    (if done then t.completeDrain p .done 0 byRequest else t) =
      s.patched m n (o.drained p k done byRequest) p { q with draining := q.draining && !done } := by
  intro t done
  cases hdone : done with
  | true =>
    rw [if_pos rfl, State.completeDrain_eq, OpTable.drained_done, State.patched_patched, State.patched_port,
      Bool.not_true, Bool.and_false]
    rfl
  | false => rw [if_neg (by decide), OpTable.drained_running, Bool.not_false, Bool.and_true]

end

/-- R128, R131, R133. The end of an entry that judges the drain of its port, as one change. -/
theorem State.endEntry_judges (s : State) (p : PortId) (e : SendEntry) (status : SendStatus) (byRequest : Bool) :
    let q := ((s.port p).ended e).sentCounted status
    let done : Bool := q.draining && q.queue.isEmpty
    s.endEntry p e status byRequest true = s.patched (s.memory.release e.desc) (s.notices.entryEnded e status s.timebase)
      (s.ops.drained p status.sentCount done byRequest) p { q with draining := q.draining && !done } := by
  intro q done
  have hreleased : (s.modPort p fun q => { q.entryEnded e with queue := q.queue.eraseP fun x => x.id == e.id }).release
      e.desc = s.patched (s.memory.release e.desc) s.notices s.ops p ((s.port p).ended e) := rfl
  simp only [State.endEntry, hreleased, State.patched_sent, State.patched_sendDone, State.patched_port, Bool.true_and]
  exact State.patched_judged ..

/-- Settles O42: the steps of the end of an entry, each as a change of the port, the memory, the notices or the table. -/
theorem entryEnds : Obligations.EntryEnds := by
  intro s p e status byRequest q left done drain sent notices freed
  have hdraining : (((s.port p).ended e).sentCounted status).draining = q.draining := q.draining_entryEnded e
  refine (s.endEntry_judges p e status byRequest).trans ?_
  rw [hdraining]
  refine congrArg₂ (fun o x => s.patched (s.memory.release e.desc) notices o p x) ?_ ?_
  · exact congrArg (OpTable.mk · _) (List.map_congr_left fun x _ => (x.drained_eq p sent done byRequest).symm)
  · simp only [Port.sentCounted, Port.ended, Port.entryEnded, freed]
    split <;> rfl

end Sys2Proof.Machine
end

