-- ==== Sys2Proof/Proofs/EveryRow.lean ====
section
namespace Sys2Proof.Machine

/-! ### RESET holds the part -/

/-- R153. Every row but those of the pins is held while RESET is asserted. -/
theorem exec_eq_unlessReset (i : Instr) (s : State) (hpower : ∀ a b, i ≠ .powerUp a b) (hassert : i ≠ .resetAssert)
    (hrelease : i ≠ .resetRelease) (hhold : i ≠ .holdAssert) (hfree : i ≠ .holdRelease) :
    ∃ t, exec i s = s.unlessReset t := by
  cases i with
  | powerUp a b => exact absurd rfl (hpower a b)
  | resetAssert => exact absurd rfl hassert
  | resetRelease => exact absurd rfl hrelease
  | holdAssert => exact absurd rfl hhold
  | holdRelease => exact absurd rfl hfree
  | _ => exact ⟨_, rfl⟩

theorem State.unlessReset_held {s : State} (h : s.pins.reset = true) (t : State) : s.unlessReset t = .next s := by
  simp [State.unlessReset, h]

/-- Settles O4: a row that RESET holds does nothing while it is asserted. -/
theorem resetHoldsThePart : Obligations.ResetHoldsThePart := by
  intro i s hr hpower hassert hrelease hhold hfree
  obtain ⟨t, ht⟩ := exec_eq_unlessReset i s hpower hassert hrelease hhold hfree
  rw [ht, State.unlessReset_held hr]

/-- Settles O5: each of the three rows ends in the device reset's state, whose values are known. -/
theorem deviceResets : Obligations.DeviceResets := by
  refine ⟨fun rate1 rate0 s => ⟨_, rfl, State.afterReset_afterDeviceReset _ _, rfl⟩, fun _ => rfl, fun s hr => ?_,
    fun s hr => ?_, fun s m hr hx => ?_⟩
  · refine ⟨({ s with pins := { s.pins with reset := false } } : State).afterReset .resetLine, ?_,
      State.afterReset_afterDeviceReset _ _, rfl⟩
    simp only [exec, execResetRelease, if_pos hr]
  · simp [exec, execResetRelease, hr]
  · refine ⟨(s.modLink fun l => { l with htx := none }).afterReset .restart, ?_,
      State.afterReset_afterDeviceReset _ _, rfl⟩
    simp only [exec, execReplyEnd, State.unlessReset_running hr, State.endReply, hx]

/-! ### The queue of waiting commands -/

/-- The outcome is a next state with the same commands waiting. -/
def State.Continues (s : State) (o : Host.Outcome State Fault Refusal) : Prop :=
  ∃ t, o = .next t ∧ t.pending = s.pending

section
variable {s : State}

theorem State.Continues.unlessReset {t : State} (h : t.pending = s.pending) : s.Continues (s.unlessReset t) := by
  refine ⟨_, rfl, ?_⟩
  split
  · rfl
  · exact h

/-- R145. The taking and the answer of a request leave the commands as its execution does. -/
theorem State.request_pending {k : Kind} {run : Byte → List Byte → State → State × Response}
    (h : ∀ tag body, (run tag body s).1.pending = s.pending) : (s.request k run).pending = s.pending := by
  obtain hs | ⟨r, rest, -, -, -, -, hrun⟩ := s.request_cases k run
  · rw [hs]
  · rw [hrun]
    dsimp only
    split <;> simpa using h r.tag r.body

theorem State.Continues.request {α : Type} {k : Kind} {parse : List Byte → Except Nat α}
    {act : Byte → α → State → State × Response} (h : ∀ tag a, (act tag a s).1.pending = s.pending) :
    s.Continues (s.execRequest k parse act) := by
  refine .unlessReset (State.request_pending fun tag body => ?_)
  simp only [checked]
  split
  · split
    · rfl
    · exact h tag _
  · rfl

theorem State.endReply_pending (s : State) : s.endReply.pending = s.pending := by
  simp only [State.endReply]
  split
  · split <;> rfl
  · rfl

end

theorem exec_continues (i : Instr) (s : State) : s.Continues (exec i s) := by
  cases i with
  | powerUp | resetAssert | holdAssert | holdRelease => exact ⟨_, rfl, rfl⟩
  | resetRelease => exact ⟨_, rfl, by split <;> rfl⟩
  | messageArrival | badHeader | badCrc =>
    refine .unlessReset ?_
    split <;> simp
  | interByteTimeout => exact .unlessReset (by split <;> simp)
  | unknownKind | replyBegin | completionReportBegin | completionReportEnd | noticeSend => exact .unlessReset (by simp)
  | replyEnd => exact .unlessReset s.endReply_pending
  | hello | ping | restart | timeGet | timeSet | portStatus | ruleRead | chainList | storeStatus | memoryStatus
  | memoryLowSet | noticeCredit | noticeMask | opList => exact .request fun _ _ => rfl
  | ruleWrite | ruleLink | ruleUnlink | ruleFree | ruleEnable | defaultSet | templateWrite =>
    exact .request fun _ _ => (s.edit_frame _).1
  | portReset | countersClear | send => exact .request fun _ _ => by simp [State.grant]
  | portConfig | framerConfig | portStart | portPause | portResume | portStop | storeRewind | countersRead =>
    exact .request fun _ _ => by split <;> simp [State.grant, State.deny]
  | storeConfig | storeOpen | storePause | storeClose | storeRead | storeAck | storePurge | sendCancel | sendStatus
  | memoryCheck | opCancel =>
    refine .request fun _ _ => ?_
    (repeat' split) <;> simp [State.grant, State.deny]
  | portDrain =>
    refine .request fun _ _ => ?_
    split
    · rfl
    split
    · rfl
    split
    · rfl
    · dsimp only
      split <;> simp
  | characterReceived | breakDetected | breakEnd | startBit | framingErrorEnd | quietTimeExpiry =>
    exact .unlessReset (by simp)
  | purgeRemoval | framerTakeItem | sendGapExpiry | drainDeadline | classificationStart | turnaroundEnd | trailingHoldExpiry =>
    exact .unlessReset (by split <;> simp)
  | walkVisit | classificationEnd | memoryCheckExamine | ttlExpiry =>
    refine .unlessReset ?_
    (repeat' split) <;> simp
  | selection =>
    refine .unlessReset ?_
    split
    · rfl
    · dsimp only
      split <;> simp
  | characterSent =>
    refine .unlessReset ?_
    split
    · dsimp only
      (repeat' split) <;> simp
    · rfl

/-- Settles O3, row by row: what the rows do leaves the queue of commands alone. -/
theorem everyCommandAnswers : Obligations.EveryCommandAnswers := exec_continues

end Sys2Proof.Machine
end

