-- ==== Sys2Proof/Proofs/Reception.lean ====
section
namespace Sys2Proof.Machine

/-! ### What the receiver may have taken of a message -/

/-- R138, R139. These bytes are a part of a message that the receiver goes on taking: a start byte, a header that is not
bad, and fewer bytes after it than the body and the CRC have. -/
def Unfinished (taken : List Byte) : Prop :=
  ∀ x rest, taken = x :: rest →
    x = 0xC3 ∧ (5 ≤ rest.length → badHeaderBytes (rest.take 5) = false) ∧ rest.length < 7 + num2 rest 0

theorem num2_append {rest : List Byte} (h : 2 ≤ rest.length) (more : List Byte) : num2 (rest ++ more) 0 = num2 rest 0 := by
  match rest, h with
  | _ :: _ :: _, _ => rfl

theorem num2_take_five (rest : List Byte) : num2 (rest.take 5) 0 = num2 rest 0 := by
  match rest with
  | [] | [_] | _ :: _ :: _ => rfl

theorem Unfinished.of_append {taken more : List Byte} (h : Unfinished (taken ++ more)) : Unfinished taken := by
  rintro x rest rfl
  obtain ⟨hx, hbad, hlen⟩ := h x (rest ++ more) rfl
  refine ⟨hx, fun h5 => ?_, ?_⟩
  · have := hbad (by simp; omega)
    rwa [List.take_append_of_le_length h5] at this
  · by_cases h2 : 2 ≤ rest.length
    · rw [num2_append h2] at hlen
      simp only [List.length_append] at hlen
      omega
    · omega

/-- R138. The receiver that holds these bytes after a start byte. -/
def Receiver.holding (rest : List Byte) (silence : Nat) : Receiver where
  state := if rest.length < 5 then .header else if rest.length < 5 + num2 rest 0 then .body else .crc
  header := rest.take 5
  body := (rest.drop 5).take (num2 rest 0)
  crc := crc16 ((rest.drop 5).take (num2 rest 0))
  crcBytes := rest.drop (5 + num2 rest 0)
  silence := silence

theorem Receiver.holds_cons (r : Receiver) (x : Byte) (rest : List Byte) :
    r.Holds (x :: rest) ↔ r = .holding rest r.silence := by
  obtain ⟨state, header, body, crc, crcBytes, silence⟩ := r
  simp only [Receiver.Holds, Receiver.holding, Receiver.mk.injEq, and_true]

/-! ### One byte -/

section
variable {b : Byte} {rest : List Byte} {silence : Nat}

theorem Receiver.holding_header (h : rest.length < 5) :
    Receiver.holding rest silence = ⟨.header, rest, [], 0xFFFF, [], silence⟩ := by
  simp only [Receiver.holding, if_pos h, List.take_of_length_le h.le, List.drop_eq_nil_of_le h.le, List.take_nil,
    List.drop_eq_nil_of_le (show rest.length ≤ 5 + num2 rest 0 by omega)]
  rfl

theorem Receiver.holding_body (h : 5 ≤ rest.length) (hn : rest.length < 5 + num2 rest 0) :
    Receiver.holding rest silence = ⟨.body, rest.take 5, rest.drop 5, crc16 (rest.drop 5), [], silence⟩ := by
  simp only [Receiver.holding, if_neg h.not_gt, if_pos hn, List.drop_eq_nil_of_le hn.le,
    List.take_of_length_le (show (rest.drop 5).length ≤ num2 rest 0 by simp; omega)]

theorem Receiver.holding_crc (hn : 5 + num2 rest 0 ≤ rest.length) :
    Receiver.holding rest silence = ⟨.crc, rest.take 5, (rest.drop 5).take (num2 rest 0),
      crc16 ((rest.drop 5).take (num2 rest 0)), rest.drop (5 + num2 rest 0), silence⟩ := by
  simp only [Receiver.holding, if_neg (show ¬ rest.length < 5 by omega), if_neg hn.not_gt]

/-- R138, R139. HEADER takes its fifth byte and judges the header. -/
theorem Receiver.byte_check (h : rest.length = 4) : (Receiver.holding rest silence).byte b =
    if badHeaderBytes (rest ++ [b]) then (.rehunt (rest ++ [b]), .badHeader) else (.holding (rest ++ [b]) 0, .none) := by
  have h5 : (rest ++ [b]).length = 5 := by simp [h]
  rw [Receiver.holding_header (by omega)]
  simp only [Receiver.byte, if_neg (show ¬ (rest ++ [b]).length < 5 by omega)]
  congr 2
  by_cases hn : num2 (rest ++ [b]) 0 = 0
  · rw [if_pos hn, Receiver.holding_crc (by omega), hn, List.take_of_length_le h5.le, List.drop_eq_nil_of_le h5.le]
    rfl
  · rw [if_neg hn, Receiver.holding_body (by omega) (by omega), List.take_of_length_le h5.le, List.drop_eq_nil_of_le h5.le]
    rfl

theorem crc16_append (body : List Byte) (b : Byte) : crc16 (body ++ [b]) = crcByte (crc16 body) b := by
  simp [crc16]

/-- R138. BODY takes a byte, and goes on to CRC with the last one. -/
theorem Receiver.byte_body (h : 5 ≤ rest.length) (hn : rest.length < 5 + num2 rest 0) :
    (Receiver.holding rest silence).byte b = (.holding (rest ++ [b]) 0, .none) := by
  have hnum := num2_append (show 2 ≤ rest.length by omega) [b]
  have hlen : (rest ++ [b]).length = rest.length + 1 := by simp
  rw [Receiver.holding_body h hn]
  simp only [Receiver.byte, Receiver.bodyLength, num2_take_five, ← List.drop_append_of_le_length h, ← crc16_append]
  by_cases hlast : rest.length + 1 < 5 + num2 rest 0
  · rw [Receiver.holding_body (by omega) (by omega), if_pos (by simp; omega), List.take_append_of_le_length h]
  · rw [Receiver.holding_crc (by omega), if_neg (by simp; omega), List.take_append_of_le_length h, hnum,
      List.take_of_length_le (show ((rest ++ [b]).drop 5).length ≤ num2 rest 0 by simp; omega),
      List.drop_eq_nil_of_le (show (rest ++ [b]).length ≤ 5 + num2 rest 0 by omega)]

/-- R138. CRC takes the first of its two bytes. -/
theorem Receiver.byte_crc (hn : rest.length = 5 + num2 rest 0) :
    (Receiver.holding rest silence).byte b = (.holding (rest ++ [b]) 0, .none) := by
  have hnum := num2_append (show 2 ≤ rest.length by omega) [b]
  rw [Receiver.holding_crc hn.ge, Receiver.holding_crc (by simp; omega), hnum, List.take_append_of_le_length (by omega),
    List.drop_append_of_le_length (by omega), List.drop_append_of_le_length hn.ge,
    List.take_append_of_le_length (by simp; omega), List.drop_eq_nil_of_le hn.le]
  rfl

/-- R138. CRC takes its second byte: the message is complete. -/
theorem Receiver.byte_last (hn : rest.length = 6 + num2 rest 0) : (Receiver.holding rest silence).byte b =
    (.idle, .complete ⟨byteAt (rest.take 5) 3, byteAt (rest.take 5) 2, (rest.drop 5).take (num2 rest 0)⟩
      (num2 (rest.drop (5 + num2 rest 0) ++ [b]) 0 == (crc16 ((rest.drop 5).take (num2 rest 0))).toNat)) := by
  rw [Receiver.holding_crc (by omega)]
  simp only [Receiver.byte]
  rw [if_neg (by simp; omega)]

end

/-- R138. The receiver takes one more byte of a message that it goes on taking. -/
theorem Receiver.Holds.byte {r : Receiver} {taken : List Byte} {b : Byte} (h : r.Holds taken)
    (hu : Unfinished (taken ++ [b])) : r.byte b = (.holding (taken ++ [b]).tail 0, .none) := by
  cases taken with
  | nil =>
    obtain rfl := (hu b [] rfl).1
    have hstate : r.state = .hunt := h
    simp only [Receiver.byte, hstate]
    rfl
  | cons x rest =>
    obtain ⟨-, hbad, hlen⟩ := hu x (rest ++ [b]) rfl
    rw [(r.holds_cons x rest).mp h]
    simp only [List.length_append, List.length_singleton] at hbad hlen
    obtain h4 | h4 | h4 := lt_trichotomy rest.length 4
    · rw [Receiver.holding_header (by omega), List.cons_append, List.tail_cons, Receiver.holding_header (by simp; omega)]
      simp only [Receiver.byte]
      rw [if_pos (by simp; omega)]
    · rw [Receiver.byte_check h4, if_neg]
      · rfl
      · have := hbad (by omega)
        rw [List.take_of_length_le (by simp; omega)] at this
        simp [this]
    · rw [num2_append (by omega)] at hlen
      by_cases hn : rest.length < 5 + num2 rest 0
      · exact Receiver.byte_body h4 hn
      · exact Receiver.byte_crc (by omega)

theorem Receiver.holds_holding (x : Byte) (rest : List Byte) (silence : Nat) :
    (Receiver.holding rest silence).Holds (x :: rest) :=
  (Receiver.holds_cons _ x rest).mpr rfl

/-! ### Several bytes -/

/-- R138. The receiver takes a further piece of a message that it goes on taking, whatever follows. -/
theorem Receiver.Holds.feed_append {piece : List Byte} (hp : piece ≠ []) (more : List Byte) {r : Receiver}
    {taken : List Byte} (h : r.Holds taken) (hu : Unfinished (taken ++ piece)) :
    r.feed (piece ++ more) = (Receiver.holding (taken ++ piece).tail 0).feed more := by
  induction piece generalizing r taken with
  | nil => exact absurd rfl hp
  | cons b piece ih =>
    have hcons : taken ++ b :: piece = taken ++ [b] ++ piece := by simp
    rw [hcons] at hu ⊢
    have hbyte := h.byte hu.of_append
    simp only [List.cons_append, Receiver.feed, hbyte]
    cases piece with
    | nil => simp
    | cons c piece =>
      refine ih (by simp) ?_ hu
      obtain ⟨x, rest, hx⟩ := List.exists_cons_of_ne_nil (show taken ++ [b] ≠ [] by simp)
      rw [hx]
      exact Receiver.holds_holding x rest 0

theorem Receiver.Holds.feed {r : Receiver} {taken piece : List Byte} (h : r.Holds taken) (hu : Unfinished (taken ++ piece))
    (hp : piece ≠ []) : r.feed piece = some (.holding (taken ++ piece).tail 0, .none) := by
  have := h.feed_append hp [] hu
  rwa [List.append_nil] at this

/-- R138. The last byte of a piece is taken after those before it. -/
theorem Receiver.Holds.feed_last {r r' : Receiver} {taken init : List Byte} {b : Byte} {e : RxEvent} (h : r.Holds taken)
    (hu : Unfinished (taken ++ init)) (he : e ≠ .none)
    (hb : ∀ q : Receiver, q.Holds (taken ++ init) → q.byte b = (r', e)) : r.feed (init ++ [b]) = some (r', e) := by
  have last (q : Receiver) (hq : q.Holds (taken ++ init)) : q.feed [b] = some (r', e) := by
    simp only [Receiver.feed, hb q hq]
    cases e with
    | none => exact absurd rfl he
    | badHeader | complete => rfl
  cases init with
  | nil => exact last r (by simpa using h)
  | cons c init =>
    rw [h.feed_append (by simp) [b] hu]
    refine last _ ?_
    obtain ⟨x, rest, hx⟩ := List.exists_cons_of_ne_nil (show taken ++ c :: init ≠ [] by simp)
    rw [hx]
    exact Receiver.holds_holding x rest 0

/-! ### A message on the line -/

/-- R136. The first four bytes of a message's header. -/
def Message.four (m : Message) : List Byte := le2 m.body.length ++ [m.tag, m.kind]

/-- R136. What follows the start byte of a message that ends with this CRC field. -/
def Message.afterStart (m : Message) (w : Half) : List Byte :=
  (m.four ++ [headerCheck m.four]) ++ (m.body ++ le2 w.toNat)

theorem Message.bytes_eq (m : Message) : m.bytes = 0xC3 :: m.afterStart (crc16 m.body) := by
  simp [Message.bytes, Message.afterStart, Message.four]

section
variable {m : Message} {w : Half}

theorem Message.afterStart_length : (m.afterStart w).length = 7 + m.body.length := by
  simp [Message.afterStart, Message.four, le2]
  omega

theorem Message.afterStart_take : (m.afterStart w).take 5 = m.four ++ [headerCheck m.four] := List.take_left' rfl

theorem Message.afterStart_drop : (m.afterStart w).drop 5 = m.body ++ le2 w.toNat := List.drop_left' rfl

/-- R136. The header gives the length of the body. -/
theorem Message.afterStart_num2 (hm : m.body.length ≤ 1100) : num2 (m.afterStart w) 0 = m.body.length :=
  le2_number (by omega)

theorem Message.header_sound (hm : m.body.length ≤ 1100) : badHeaderBytes (m.four ++ [headerCheck m.four]) = false := by
  have hnum : num2 (m.four ++ [headerCheck m.four]) 0 = m.body.length := le2_number (by omega)
  simp only [badHeaderBytes, hnum, Bool.or_eq_false_iff, bne_eq_false_iff_eq, decide_eq_false_iff_not]
  exact ⟨rfl, by omega⟩

/-- R138. What comes before the last byte of a message is a part that the receiver goes on taking. -/
theorem Message.unfinished (hm : m.body.length ≤ 1100) {taken more : List Byte}
    (h : 0xC3 :: m.afterStart w = taken ++ more) (hmore : more ≠ []) : Unfinished taken := by
  rintro x rest rfl
  obtain ⟨rfl, hrest⟩ := List.cons.inj (h.trans (List.cons_append ..))
  have hlen := congrArg List.length hrest
  rw [Message.afterStart_length, List.length_append] at hlen
  have := List.length_pos_iff.mpr hmore
  refine ⟨rfl, fun h5 => ?_, ?_⟩
  · rw [← List.take_append_of_le_length (l₂ := more) h5, ← hrest, Message.afterStart_take]
    exact Message.header_sound hm
  · by_cases h2 : 2 ≤ rest.length
    · rw [← num2_append h2 more, ← hrest, Message.afterStart_num2 hm]
      omega
    · omega

/-- R138, R141. The last byte of a message completes it, and the CRC field is held against the body. -/
theorem Message.byte_last (hm : m.body.length ≤ 1100) {r : Receiver} {taken : List Byte} {b : Byte}
    (h : 0xC3 :: m.afterStart w = taken ++ [b]) (hr : r.Holds taken) :
    r.byte b = (.idle, .complete m (decide (w = crc16 m.body))) := by
  have hlen := congrArg List.length h
  rw [List.length_cons, Message.afterStart_length, List.length_append, List.length_singleton] at hlen
  cases taken with
  | nil => simp at hlen
  | cons x rest =>
    obtain ⟨rfl, hrest⟩ := List.cons.inj (h.trans (List.cons_append ..))
    rw [List.length_cons] at hlen
    have hnum : num2 rest 0 = m.body.length := by
      rw [← num2_append (show 2 ≤ rest.length by omega) [b], ← hrest, Message.afterStart_num2 hm]
    have hhead : rest.take 5 = m.four ++ [headerCheck m.four] := by
      rw [← List.take_append_of_le_length (l₂ := [b]) (by omega), ← hrest, Message.afterStart_take]
    have hbody : (rest.drop 5).take m.body.length = m.body := by
      rw [← List.take_append_of_le_length (l₂ := [b]) (by simp; omega), ← List.drop_append_of_le_length (by omega), ← hrest,
        Message.afterStart_drop, List.take_left]
    have hcrc : rest.drop (5 + m.body.length) ++ [b] = le2 w.toNat := by
      rw [← List.drop_append_of_le_length (by omega), ← hrest, ← List.drop_drop, Message.afterStart_drop, List.drop_left]
    have hw : (w.toNat == (crc16 m.body).toNat) = decide (w = crc16 m.body) := by
      simp [BitVec.toNat_eq, Bool.beq_eq_decide_eq]
    rw [(r.holds_cons _ rest).mp hr, Receiver.byte_last (by omega), hnum, hhead, hbody, hcrc,
      num2_le2 (by have := w.isLt; omega), hw]
    rfl

/-- R138. The rest of a message is taken: the message is complete. -/
theorem Receiver.Holds.feed_message (hm : m.body.length ≤ 1100) {r : Receiver} {taken piece : List Byte}
    (hr : r.Holds taken) (h : 0xC3 :: m.afterStart w = taken ++ piece) (hp : piece ≠ []) :
    r.feed piece = some (.idle, .complete m (decide (w = crc16 m.body))) := by
  obtain ⟨init, b, rfl⟩ := List.eq_nil_or_concat piece |>.resolve_left hp
  rw [List.concat_eq_append] at h ⊢
  rw [← List.append_assoc] at h
  exact hr.feed_last (Message.unfinished hm h (by simp)) nofun fun q hq => Message.byte_last hm h hq

end

/-! ### A bad header -/

theorem headerCheck_four (a b c d : Byte) : headerCheck [a, b, c, d] = ~~~ (a + b + c + d) := by
  simp [headerCheck]

/-- R139. What makes a header bad. -/
theorem badHeaderBytes_iff (a b c d e : Byte) : badHeaderBytes [a, b, c, d, e] = true ↔
    e ≠ ~~~ (a + b + c + d) ∨ 1100 < a.toNat + 256 * b.toNat := by
  rw [← headerCheck_four, badHeaderBytes, Bool.or_eq_true, bne_iff_ne, decide_eq_true_iff]
  rfl

/-- R138. A header that lacks its check is a part that the receiver goes on taking. -/
theorem unfinished_header {rest : List Byte} (h : rest.length < 5) : Unfinished (0xC3 :: rest) := by
  rintro x rest' hrest
  obtain ⟨rfl, rfl⟩ := List.cons.inj hrest
  exact ⟨rfl, fun h5 => absurd h (by omega), by omega⟩

/-- R138, R139. The rest of a bad header is taken. -/
theorem Receiver.Holds.feed_badHeader {r : Receiver} {taken piece header : List Byte} (hr : r.Holds taken)
    (h : 0xC3 :: header = taken ++ piece) (hl : header.length = 5) (hbad : badHeaderBytes header = true)
    (hp : piece ≠ []) : r.feed piece = some (.rehunt header, .badHeader) := by
  obtain ⟨init, b, rfl⟩ := List.eq_nil_or_concat piece |>.resolve_left hp
  rw [List.concat_eq_append] at h ⊢
  rw [← List.append_assoc] at h
  obtain ⟨x, rest, hx⟩ := List.exists_cons_of_ne_nil (show taken ++ init ≠ [] by
    rintro hnil
    rw [hnil] at h
    simp only [List.nil_append, List.cons.injEq] at h
    simp [h.2] at hl)
  rw [hx, List.cons_append] at h
  obtain ⟨rfl, rfl⟩ := List.cons.inj h
  have h4 : rest.length = 4 := by simpa using hl
  refine hr.feed_last (hx ▸ unfinished_header (by omega)) nofun fun q hq => ?_
  rw [hx] at hq
  rw [(q.holds_cons _ rest).mp hq, Receiver.byte_check h4, if_pos hbad]

/-- R139. No start byte among the bytes examined again. -/
theorem Receiver.rehunt_none {bytes : List Byte} (h : ∀ x ∈ bytes, x ≠ 0xC3) : Receiver.rehunt bytes = .idle := by
  have hdrop : bytes.dropWhile (fun b => b != 0xC3) = [] :=
    List.dropWhile_eq_nil_iff.mpr fun x hx => bne_iff_ne.mpr (h x hx)
  simp only [Receiver.rehunt, hdrop]

/-- R139. The first start byte among the bytes examined again begins a header. -/
theorem Receiver.rehunt_start {pre post : List Byte} (h : 0xC3 ∉ pre) :
    Receiver.rehunt (pre ++ 0xC3 :: post) = { Receiver.idle with state := .header, header := post } := by
  have hdrop : (pre ++ 0xC3 :: post).dropWhile (fun b => b != 0xC3) = 0xC3 :: post := by
    rw [List.dropWhile_append_of_pos fun x hx => bne_iff_ne.mpr (ne_of_mem_of_not_mem hx h)]
    rfl
  simp only [Receiver.rehunt, hdrop]

end Sys2Proof.Machine
end

