-- ==== Sys2Proof/Proofs/Arrivals.lean ====
section
namespace Sys2Proof.Machine

/-! ### The rows of the receiver -/

section
variable {s : State} {m : Message} {taken : List Byte} {items : List HrxItem}

/-- R138, R142. The bytes that complete a message bring it to the judgement at arrival. -/
theorem exec_messageArrival_whole (hr : s.pins.reset = false) (hm : m.body.length ≤ 1100)
    (h : s.link.receiver.Holds taken) (hb : m.bytes = taken ++ lineBytes items) (hp : lineBytes items ≠ []) :
    exec (.messageArrival items) s = .next ((s.setReceiver .idle).arrive m) := by
  rw [m.bytes_eq] at hb
  have hf := h.feed_message hm hb hp
  rw [decide_eq_true rfl] at hf
  simp only [exec, execMessageArrival, State.unlessReset_running hr, hrxBytes_eq, hf]

/-- R138. Bytes that complete nothing are kept by the receiver. -/
theorem exec_messageArrival_part {r : Receiver} (hr : s.pins.reset = false)
    (hf : s.link.receiver.feed (lineBytes items) = some (r, .none)) :
    exec (.messageArrival items) s = .next { s with link := { s.link with receiver := r } } := by
  simp only [exec, execMessageArrival, State.unlessReset_running hr, hrxBytes_eq, hf]
  rfl

/-- R138. In HUNT bytes that begin no message are passed over. -/
theorem Receiver.feed_hunt {r : Receiver} (h : r.state = .hunt) {bytes : List Byte} (hb : 0xC3 ∉ bytes) :
    r.feed bytes = some (r, .none) := by
  induction bytes with
  | nil => rfl
  | cons b bytes ih =>
    obtain ⟨hne, hrest⟩ : 0xC3 ≠ b ∧ 0xC3 ∉ bytes := by simpa using hb
    simp only [Receiver.feed, Receiver.byte, h, if_neg hne.symm, ih hrest]

theorem lineBytes_lowPeriods (h : ∀ x ∈ items, x = .lowPeriod) : lineBytes items = [] :=
  List.flatMap_eq_nil_iff.mpr fun x hx => by rw [h x hx]

/-- R142. A request that passes the tests joins the queue. -/
theorem State.arrive_taken (h0 : m.tag ≠ 0) (hin : m.tag ∉ s.link.outstanding) (hw : s.link.requests.length < 8) :
    s.arrive m = { s with link := { s.link with
      requests := s.link.requests ++ [m]
      outstanding := s.link.outstanding ++ [m.tag]
      counters := { s.link.counters with taken := min (s.link.counters.taken + 1) 4294967295 } } } := by
  rw [State.arrive, if_neg h0, if_neg (by simpa using hin), if_neg (by omega)]
  rfl

end

/-- Settles O7: the receiver's states are the parts of a message, so each piece leads on and the last byte completes it. -/
theorem messageRoundTrip : Obligations.MessageRoundTrip := by
  refine ⟨fun s m taken hr hm h => ⟨fun items hb hp h0 hin hw => ?_, fun items more hb hp hmore => ?_⟩,
    fun s items hr hh hb => exec_messageArrival_part hr (Receiver.feed_hunt hh hb), fun s items hl => ?_, fun m => rfl,
    headerCheck_four, fun body => rfl⟩
  · exact (exec_messageArrival_whole hr hm h hb hp).trans (congrArg _ (State.arrive_taken h0 hin hw))
  · rw [m.bytes_eq] at hb
    obtain ⟨x, rest, hx⟩ := List.exists_cons_of_ne_nil (show taken ++ lineBytes items ≠ [] by simp [hp])
    refine ⟨_, ?_, rfl, exec_messageArrival_part hr (h.feed (Message.unfinished hm hb hmore) hp)⟩
    rw [hx]
    exact Receiver.holds_holding x rest 0
  · cases hr : s.pins.reset with
    | true => exact State.unlessReset_held hr _
    | false => exact exec_messageArrival_part hr (by rw [lineBytes_lowPeriods hl]; rfl)

/-! ### Arrival refusals -/

/-- R142. The tests of an arrival in their order, for a message that fails one of them. -/
theorem State.arrive_refused (s : State) (m : Message) :
    (m.tag = 0 → s.arrive m = s.refuseArrival m.tag m.kind .badParam [0]) ∧
    (m.tag ≠ 0 → m.tag ∈ s.link.outstanding → s.arrive m = s.refuseArrival m.tag m.kind .tagInUse []) ∧
    (m.tag ≠ 0 → m.tag ∉ s.link.outstanding → 8 ≤ s.link.requests.length →
      s.arrive m = s.refuseArrival m.tag m.kind .windowFull []) := by
  refine ⟨fun h0 => ?_, fun h0 hin => ?_, fun h0 hin hw => ?_⟩
  · rw [State.arrive, if_pos h0]
  · rw [State.arrive, if_neg h0, if_pos (by simpa using hin)]
  · rw [State.arrive, if_neg h0, if_neg (by simpa using hin), if_pos hw]

/-- R142. What a message that fails a test is refused with. -/
theorem State.exists_arrive_refused {s : State} {m : Message}
    (h : m.tag = 0 ∨ m.tag ∈ s.link.outstanding ∨ 8 ≤ s.link.requests.length) :
    ∃ status fields, s.arrive m = s.refuseArrival m.tag m.kind status fields := by
  obtain ⟨hzero, hinUse, hfull⟩ := s.arrive_refused m
  by_cases h0 : m.tag = 0
  · exact ⟨_, _, hzero h0⟩
  by_cases hin : m.tag ∈ s.link.outstanding
  · exact ⟨_, _, hinUse h0 hin⟩
  · exact ⟨_, _, hfull h0 hin ((h.resolve_left h0).resolve_left hin)⟩

section
variable {s : State} (tag kind : Byte) (status : Status) (fields : List Byte)

/-- R143. A refusal joins the reply queue in a free place. -/
theorem State.refuseArrival_placed (h : s.link.replies.length + s.link.reserved < 12) :
    s.refuseArrival tag kind status fields = { s with link := { s.link with
      replies := s.link.replies ++ [⟨⟨replyKind kind, tag, status.code :: fields⟩, .refusal⟩] } } := by
  rw [State.refuseArrival, if_pos ((Link.placeFree_iff _).mpr h)]
  rfl

/-- R143. A refusal that finds no place is dropped. -/
theorem State.refuseArrival_dropped (h : 12 ≤ s.link.replies.length + s.link.reserved) :
    s.refuseArrival tag kind status fields = { s with link := { s.link with
      counters := { s.link.counters with dropped := min (s.link.counters.dropped + 1) 4294967295 } } } := by
  rw [State.refuseArrival, if_neg fun hp => absurd ((Link.placeFree_iff _).mp hp) (by omega)]
  rfl

end

/-- R141. The bytes that complete a message of bad CRC. -/
theorem exec_badCrc {s : State} {m : Message} {w : Half} {taken : List Byte} {items : List HrxItem}
    (hr : s.pins.reset = false) (hm : m.body.length ≤ 1100) (hw : w ≠ crc16 m.body) (h : s.link.receiver.Holds taken)
    (hb : 0xC3 :: m.afterStart w = taken ++ lineBytes items) (hp : lineBytes items ≠ []) :
    exec (.badCrc items) s = .next (({ s with link := { s.link with
      receiver := .idle
      counters := { s.link.counters with badCrc := min (s.link.counters.badCrc + 1) 4294967295 } } } : State).refuseArrival
        m.tag m.kind .badCrc []) := by
  have hf := h.feed_message hm hb hp
  rw [decide_eq_false hw] at hf
  simp only [exec, execBadCrc, State.unlessReset_running hr, hrxBytes_eq, hf]
  rfl

/-- Settles O8: a complete message is refused by the first test that it fails, or by its CRC. -/
theorem arrivalsRefused : Obligations.ArrivalsRefused := by
  refine ⟨?_, ?_⟩
  · intro s m taken items hr hm h hb hp refused dropped
    rw [exec_messageArrival_whole hr hm h hb hp]
    obtain ⟨hzero, hinUse, hfull⟩ := (s.setReceiver .idle).arrive_refused m
    refine ⟨fun hplace => ⟨fun h0 => ?_, fun h0 hin => ?_, fun h0 hin hw => ?_⟩, fun hplace hrefused => ?_⟩
    · exact congrArg _ ((hzero h0).trans (State.refuseArrival_placed _ _ _ _ hplace))
    · exact congrArg _ ((hinUse h0 hin).trans (State.refuseArrival_placed _ _ _ _ hplace))
    · exact congrArg _ ((hfull h0 hin hw).trans (State.refuseArrival_placed _ _ _ _ hplace))
    · obtain ⟨status, fields, harrive⟩ := State.exists_arrive_refused (s := s.setReceiver .idle) hrefused
      exact congrArg _ (harrive.trans (State.refuseArrival_dropped _ _ _ _ hplace))
  · intro s m w taken items hr hm hw h hb hp counted
    have hline : 0xC3 :: m.afterStart w = taken ++ lineBytes items := by
      rw [← hb]
      simp [Message.afterStart, Message.four]
    rw [exec_badCrc hr hm hw h hline hp]
    exact ⟨fun hplace => congrArg _ (State.refuseArrival_placed _ _ _ _ hplace),
      fun hplace => congrArg _ (State.refuseArrival_dropped _ _ _ _ hplace)⟩

/-! ### Bad headers and silence -/

/-- R139. The bytes that end a bad header. -/
theorem exec_badHeader {s : State} {header taken : List Byte} {items : List HrxItem} (hr : s.pins.reset = false)
    (h : s.link.receiver.Holds taken) (hb : 0xC3 :: header = taken ++ lineBytes items) (hp : lineBytes items ≠ [])
    (hl : header.length = 5) (hbad : badHeaderBytes header = true) :
    exec (.badHeader items) s = .next { s with link := { s.link with
      receiver := .rehunt header
      counters := { s.link.counters with badHeader := min (s.link.counters.badHeader + 1) 4294967295 } } } := by
  simp only [exec, execBadHeader, State.unlessReset_running hr, hrxBytes_eq, h.feed_badHeader hb hl hbad hp]
  rfl

/-- Settles O9, by the check of the header and by the silence inside a message. -/
theorem receptionAbandoned : Obligations.ReceptionAbandoned := by
  refine ⟨?_, fun s hr => ⟨fun hs hm => ?_, fun hn => ?_⟩⟩
  · intro s a b c d e taken items hr h hb hp hbad after
    have hx := exec_badHeader hr h hb hp rfl ((badHeaderBytes_iff a b c d e).mpr hbad)
    refine ⟨fun hnone => ?_, fun pre post hsplit hpre => ?_⟩
    · rw [hx, Receiver.rehunt_none hnone]
      rfl
    · rw [hx, hsplit, Receiver.rehunt_start hpre]
      rfl
  · simp only [exec, execInterByteTimeout, State.unlessReset_running hr]
    rw [if_pos ((Receiver.timedOut_iff _).mpr ⟨hs, hm⟩)]
    rfl
  · simp only [exec, execInterByteTimeout, State.unlessReset_running hr]
    rw [if_neg fun ht => ?_]
    obtain ⟨hs, hm⟩ := (Receiver.timedOut_iff _).mp ht
    exact hn.elim hs fun hlt => absurd hm (by omega)

end Sys2Proof.Machine
end

