-- ==== Sys2Proof/Proofs/Executor.lean ====
section
namespace Sys2Proof.Machine

/-! ### RESTART and PING -/

/-- R145. A STOPPED Executor takes no request. -/
theorem State.request_stopped {s : State} (h : s.link.executor = .stopped) (k : Kind)
    (run : Byte → List Byte → State → State × Response) : s.request k run = s := by
  simp only [State.request, h]

theorem State.unknownRequest_stopped {s : State} (h : s.link.executor = .stopped) : s.unknownRequest = s := by
  simp only [State.unknownRequest, h]

/-- Settles O12: what the answer to RESTART makes of the Executor, which then takes no request. -/
theorem restartStopsTheExecutor : Obligations.RestartStopsTheExecutor := by
  refine ⟨fun s tag rest h => ?_, fun s k hs => ⟨?_, ?_⟩⟩
  · have hrun : s.request .restart (checked .restart parseNothing fun _ _ s => (s, .restart)) =
        (s.modLink fun l => l.takeRequest ⟨Kind.code .restart, tag, []⟩ .restart rest).answer tag (Kind.code .restart) .ok []
          .restart .stopped := State.request_waiting h _
    simp only [exec, execRestart, State.execRequest, State.unlessReset_running h.running, hrun]
    rfl
  · obtain ⟨run, hrun⟩ := exec_request_kind k s
    rw [hrun, State.request_stopped hs, State.unlessReset_self]
  · simp only [exec, execUnknownKind, State.unknownRequest_stopped hs, State.unlessReset_self]

/-- Settles O13, by the length check. -/
theorem pingAnswered : Obligations.PingAnswered := fun _ _ _ _ h =>
  ⟨fun hl => State.execRequest_ok h (decide_eq_true hl) rfl rfl,
    fun hl => State.execRequest_badLength h (decide_eq_false (by omega))⟩

end Sys2Proof.Machine
end

