-- ==== Sys2Proof/Proofs/Arbiter.lean ====
section
namespace Sys2Proof.Machine

/-! ### The end of a message on HTX -/

section
variable {s : State}

theorem exec_replyEnd (hr : s.pins.reset = false) : exec .replyEnd s = .next s.endReply := State.unlessReset_running hr _

theorem exec_completionReportEnd (hr : s.pins.reset = false) : exec .completionReportEnd s = .next s.endReport :=
  State.unlessReset_running hr _

/-- R144, R146, R152. The end of a reply, by what the reply was. -/
theorem State.endReply_reply {r : Reply} (h : s.link.htx = some (.reply r)) :
    s.endReply = match r.role with
      | .refusal => { s with link := { s.link with htx := none } }
      | .ordinary => { s with link := { s.link with
          htx := none, outstanding := s.link.outstanding.filter fun t => t != r.message.tag } }
      | .accepted => { s with
          link := { s.link with htx := none }
          ops := { s.ops with entries := s.ops.entries.map fun e =>
            if e.tag = r.message.tag then { e with acceptedSent := true } else e } }
      | .restart => s.afterReset .restart := by
  simp only [State.endReply, h]
  cases r.role <;> rfl

theorem State.endReply_none (h : ∀ r, s.link.htx ≠ some (.reply r)) : s.endReply = s := by
  rw [State.endReply]
  split
  · exact absurd ‹_› (h _)
  · rfl

theorem State.endReport_report {m : Message} (h : s.link.htx = some (.report m)) :
    s.endReport = { s with
      link := { s.link with htx := none, outstanding := s.link.outstanding.filter fun t => t != m.tag }
      ops := ⟨s.ops.entries.filter fun e => e.tag != m.tag, s.ops.completed.filter fun t => t != m.tag⟩ } := by
  conv_lhs => simp only [State.endReport, h]
  rfl

theorem State.endReport_none (h : ∀ m, s.link.htx ≠ some (.report m)) : s.endReport = s := by
  rw [State.endReport]
  split
  · exact absurd ‹_› (h _)
  · rfl

end

/-! ### The beginning of a message on HTX -/

section
variable {s : State}

theorem State.mayBegin_iff (s : State) : s.mayBegin = true ↔ s.pins.hold = false ∧ s.link.htx = none := by
  simp [State.mayBegin]

/-- R147, R148. Nothing begins under HOLD or while a message is on HTX. -/
theorem State.begin_blocked (h : s.pins.hold = true ∨ ∃ o, s.link.htx = some o) {i : Instr}
    (hi : i = .replyBegin ∨ i = .completionReportBegin ∨ i = .noticeSend) : exec i s = .next s := by
  have hb : ¬ s.mayBegin = true := fun hm => by
    obtain ⟨hhold, hhtx⟩ := s.mayBegin_iff.mp hm
    simp [hhold, hhtx] at h
  rw [Bool.not_eq_true] at hb
  obtain rfl | rfl | rfl := hi
  · have hs : s.beginReply = s := by
      simp only [State.beginReply, hb]
      split <;> rfl
    rw [exec, execReplyBegin, hs, State.unlessReset_self]
  · have hs : s.beginReport = s := by
      simp only [State.beginReport, hb]
      split <;> rfl
    rw [exec, execCompletionReportBegin, hs, State.unlessReset_self]
  · have hs : s.beginNotice = s := by
      simp only [State.beginNotice, hb]
      split <;> rfl
    rw [exec, execNoticeSend, hs, State.unlessReset_self]

theorem exec_replyBegin (hr : s.pins.reset = false) : exec .replyBegin s = .next s.beginReply :=
  State.unlessReset_running hr _

theorem exec_completionReportBegin (hr : s.pins.reset = false) : exec .completionReportBegin s = .next s.beginReport :=
  State.unlessReset_running hr _

theorem exec_noticeSend (hr : s.pins.reset = false) : exec .noticeSend s = .next s.beginNotice :=
  State.unlessReset_running hr _

/-- R147. A reply that waits goes before the reports and the notices. -/
theorem State.begin_reply (hm : s.mayBegin = true) {r : Reply} {rest : List Reply} (h : s.link.replies = r :: rest) :
    s.beginReply = { s with link := { s.link with replies := rest, htx := some (.reply r) } } ∧
      s.beginReport = s ∧ s.beginNotice = s := by
  refine ⟨?_, by simp only [State.beginReport, h], by simp only [State.beginNotice, h]⟩
  conv_lhs => simp only [State.beginReply, h, if_pos hm]
  rfl

/-- R147. An eligible report goes before the notices. -/
theorem State.begin_report (hm : s.mayBegin = true) (h : s.link.replies = []) {e : OpEntry}
    (he : s.ops.nextReport = some e) :
    s.beginReport = { s with link := { s.link with htx := some (.report e.report) } } ∧
      s.beginReply = s ∧ s.beginNotice = s := by
  refine ⟨?_, by simp only [State.beginReply, h], by simp only [State.beginNotice, h, he]⟩
  conv_lhs => simp only [State.beginReport, h, he, if_pos hm]
  rfl

/-- R147. With no reply and no report only a notice may begin. -/
theorem State.begin_idle (h : s.link.replies = []) (he : s.ops.nextReport = none) :
    s.beginReply = s ∧ s.beginReport = s := by
  simp only [State.beginReply, State.beginReport, h, he, and_self]

/-- R159. A notice begins while there is credit. -/
theorem State.begin_notice (hm : s.mayBegin = true) (h : s.link.replies = []) (he : s.ops.nextReport = none) {n : Notice}
    {rest : List Notice} (hn : s.notices.entries = n :: rest) (hc : 1 ≤ s.notices.credit) :
    s.beginNotice = { s with
      link := { s.link with htx := some (.notice n.message 0) }
      notices := { s.notices with entries := rest, credit := s.notices.credit - 1 } } := by
  conv_lhs => simp only [State.beginNotice, h, he, hn, hm, hc, decide_true, Bool.and_self, if_true]
  rfl

theorem State.begin_noNotice (h : s.notices.entries = [] ∨ s.notices.credit = 0) : s.beginNotice = s := by
  simp only [State.beginNotice]
  split
  · rename_i hn
    rw [if_neg]
    obtain h | h := h <;> simp_all
  · rfl

end

/-! ### The report to be sent next -/

/-- R164. What makes the report of an entry one that may be sent. -/
theorem OpEntry.eligible_iff (e : OpEntry) :
    e.eligible = true ↔ e.status ≠ none ∧ e.acceptedSent = true ∧ e.replyPending = false := by
  simp [OpEntry.eligible, OpEntry.running, and_assoc, Option.ne_none_iff_isSome]

/-- R164. The report of an eligible entry is next when no entry that completed before it is eligible. -/
theorem OpTable.nextReport_eq_some {t : OpTable} {e : OpEntry} {before after : List Byte}
    (ht : (t.entries.map (·.tag)).Nodup)
    (he : e ∈ t.entries) (hel : e.eligible = true) (hc : t.completed = before ++ e.tag :: after)
    (hbefore : ∀ x ∈ t.entries, x.tag ∈ before → x.eligible = false) : t.nextReport = some e := by
  have hnone : before.filterMap (fun tag => t.entries.find? fun x => x.tag == tag && x.eligible) = [] := by
    simp only [List.filterMap_eq_nil_iff, List.find?_eq_none, Bool.and_eq_true, beq_iff_eq, not_and, Bool.not_eq_true]
    rintro tag htag x hx rfl
    exact hbefore x hx htag
  have hfind : t.entries.find? (fun x => x.tag == e.tag && x.eligible) = some e := by
    have hself : (e.tag == e.tag && e.eligible) = true := by rw [hel, beq_self_eq_true, Bool.and_self]
    have hsome : (t.entries.find? fun x => x.tag == e.tag && x.eligible).isSome = true := by
      rw [List.find?_isSome]
      exact ⟨e, he, hself⟩
    obtain ⟨x, hx⟩ := Option.isSome_iff_exists.mp hsome
    have htag : (x.tag == e.tag && x.eligible) = true :=
      List.find?_some (p := fun x : OpEntry => x.tag == e.tag && x.eligible) hx
    rw [Bool.and_eq_true, beq_iff_eq] at htag
    rwa [List.inj_on_of_nodup_map ht (List.mem_of_find?_eq_some hx) he htag.1] at hx
  simp only [OpTable.nextReport, hc, List.filterMap_append, hnone, List.nil_append, List.filterMap_cons, hfind,
    List.head?_cons]

theorem OpTable.nextReport_eq_none {t : OpTable} (h : ∀ e ∈ t.entries, e.eligible = false) : t.nextReport = none := by
  rw [OpTable.nextReport, List.head?_eq_none_iff, List.filterMap_eq_nil_iff]
  exact fun tag _ => List.find?_eq_none.mpr fun e he => by simp [h e he]

/-- R164. What keeps an entry's report from being sent. -/
theorem OpEntry.eligible_eq_false_iff (e : OpEntry) :
    e.eligible = false ↔ e.status = none ∨ e.acceptedSent = false ∨ e.replyPending = true := by
  rw [← Bool.not_eq_true, OpEntry.eligible_iff]
  simp only [ne_eq, not_and_or, not_not, Bool.not_eq_true, Bool.not_eq_false]

/-- Settles O49: the arbiter's order is that of its three queues, and HOLD and a busy HTX block each of them. -/
theorem arbiterBegins : Obligations.ArbiterBegins := by
  refine ⟨fun _ => rfl, fun _ => rfl, fun s i hh hi => State.begin_blocked (.inl hh) hi, ?_, fun s => ?_⟩
  · intro s hr hh result detail
    refine ⟨fun i hi o ho => State.begin_blocked (.inr ⟨o, ho⟩) hi, fun hx => ?_⟩
    have hm := s.mayBegin_iff.mpr ⟨hh, hx⟩
    rw [exec_replyBegin hr, exec_completionReportBegin hr, exec_noticeSend hr]
    refine ⟨fun r rest hq => ?_, ?_, fun hq hnone => ?_⟩
    · obtain ⟨hreply, hreport, hnotice⟩ := State.begin_reply hm hq
      exact ⟨congrArg _ hreply, congrArg _ hreport, congrArg _ hnotice⟩
    · intro e before after hq he hs hstatus haccepted hpending hcompleted hbefore
      have hnext := OpTable.nextReport_eq_some hs.tags he (e.eligible_iff.mpr ⟨hstatus, haccepted, hpending⟩) hcompleted
        fun x hxe hxb => x.eligible_eq_false_iff.mpr (.inr (hbefore x hxe hxb))
      obtain ⟨hreport, hreply, hnotice⟩ := State.begin_report hm hq hnext
      have hresult : result e.work = e.work.result := by cases e.work <;> rfl
      rw [hreport, hreply, hnotice, hresult]
      exact ⟨rfl, rfl, rfl⟩
    · have hnext := OpTable.nextReport_eq_none fun e he => e.eligible_eq_false_iff.mpr (hnone e he)
      obtain ⟨hreply, hreport⟩ := State.begin_idle hq hnext
      refine ⟨congrArg _ hreply, congrArg _ hreport, fun n rest hn hc => ?_, fun h => congrArg _ (State.begin_noNotice h)⟩
      have hdetail : detail n.detail = n.detail.bytes := by cases n.detail <;> rfl
      rw [State.begin_notice hm hq hnext hn hc, hdetail]
      rfl
  · simp [State.attn]

/-- Settles O50, by what stands on HTX. -/
theorem messagesEnd : Obligations.MessagesEnd := by
  intro s hr
  rw [exec_replyEnd hr, exec_completionReportEnd hr]
  refine ⟨fun m h => ?_, fun m h => ?_, fun m h => ?_, fun m h => ⟨?_, ?_⟩, fun h => ?_, fun h => ?_⟩
  · exact congrArg _ (State.endReply_reply h)
  · exact congrArg _ (State.endReply_reply h)
  · exact congrArg _ (State.endReply_reply h)
  · rw [State.endReport_report h]
  · rw [State.endReply_none (by simp [h])]
  · rw [State.endReply_none h]
  · rw [State.endReport_none h]

end Sys2Proof.Machine
end

