-- ==== Sys2Proof/Proofs/BodyForms.lean ====
section
namespace Sys2Proof.Machine

/-! ### Kinds and lengths -/

theorem isRequestKind_eq_false {b : Byte} (h : ∀ k : Kind, k.code ≠ b) : isRequestKind b = false :=
  List.any_eq_false.mpr fun k _ hk => h k (beq_iff_eq.mp hk)

/-- R145. A message of no request kind is answered with kind 0xFF. -/
theorem replyKind_unknown {b : Byte} (h : ∀ k : Kind, k.code ≠ b) : replyKind b = 0xFF := by
  rw [replyKind, isRequestKind_eq_false h]
  rfl

/-- R174. The lengths of a RULE_WRITE body: a key and a mask of up to 8 bytes each. -/
theorem lengthAllowed_ruleWrite (n : Nat) : lengthAllowed .ruleWrite n = true ↔ ∃ k, k ≤ 8 ∧ n = 17 + 2 * k := by
  simp only [lengthAllowed, Bool.and_eq_true, decide_eq_true_eq, beq_iff_eq]
  constructor
  · rintro ⟨⟨hlo, hhi⟩, hodd⟩
    exact ⟨(n - 17) / 2, by omega, by omega⟩
  · rintro ⟨k, hk, rfl⟩
    exact ⟨⟨by omega, by omega⟩, by omega⟩

/-- R173. The bytes of a fixed-width field that are not used are 0. -/
theorem padTo_eq {n : Nat} {bs : List Byte} (h : bs.length ≤ n) : padTo n bs = bs ++ List.replicate (n - bs.length) 0 := by
  rw [padTo, List.take_append, List.take_of_length_le h, List.take_replicate, Nat.min_eq_left (Nat.sub_le ..)]

/-- Settles O11: the body lengths as the length check has them, and the forms and codes as tables. -/
theorem allowedBodyLengths : Obligations.AllowedBodyLengths := by
  refine ⟨fun n => decide_eq_true_iff, fun n => by simp [lengthAllowed], lengthAllowed_ruleWrite,
    fun n => by simp [lengthAllowed], ?_, fun n => ⟨rfl, rfl, rfl⟩, rfl, rfl, by decide, fun w => rfl, fun n bs => padTo_eq,
    rfl, rfl, rfl, rfl, rfl, rfl, rfl, replyKind_code, fun b => replyKind_unknown, rfl, rfl, rfl, rfl, rfl, rfl, rfl, rfl,
    rfl, rfl, rfl, rfl, fun i p c t ttl => ⟨rfl, rfl⟩, rfl, fun i => rfl, rfl, rfl, rfl, rfl, rfl, rfl,
    fun i p a b c d e => ⟨rfl, rfl, rfl, fun j => ?_, fun j => ?_⟩, rfl, rfl⟩
  · simp [lengthAllowed]
  · simp [OpWork.isPurgeOf, Bool.beq_eq_decide_eq]
  · simp [OpWork.isDrainOf, Bool.beq_eq_decide_eq]

end Sys2Proof.Machine
end

