-- ==== Sys2Proof/Proofs/FieldChecks.lean ====
section
namespace Sys2Proof.Machine

/-! ### What it is to check the fields of a body -/

/-- R145. A check of these tests, in their order: it names a field of the first test that fails, and
succeeds when none does. -/
def Checks {α : Type} (x : Except Nat α) : List (List Nat × Bool) → Prop
  | [] => ∃ a, x = .ok a
  | (is, ok) :: rest => (ok = false → ∃ i ∈ is, x = .error i) ∧ (ok = true → Checks x rest)

section
variable {α β : Type} {x : Except Nat α} {f : α → Except Nat β} {tests rest : List (List Nat × Bool)}
  {i : Nat} {ok : Bool}

theorem Checks.names (h : Checks x tests) {before after : List (List Nat × Bool)} {is : List Nat}
    (ht : tests = before ++ (is, false) :: after) (hb : ∀ t ∈ before, t.2 = true) : ∃ i ∈ is, x = .error i := by
  subst ht
  induction before with
  | nil => exact h.1 rfl
  | cons t before ih => exact ih (fun u hu => hb u (List.mem_cons_of_mem t hu)) (h.2 (hb t List.mem_cons_self))

theorem Checks.pure (a : α) : Checks (.ok a : Except Nat α) [] := ⟨a, rfl⟩

/-- A test that does not fail. -/
theorem Checks.passed {is : List Nat} (h : Checks x rest) : Checks x ((is, true) :: rest) := ⟨nofun, fun _ => h⟩

/-- A check that has failed, and names a field of the test. -/
theorem Checks.failed {is : List Nat} (i : Nat) (hi : i ∈ is) (hx : x = .error i) (h : ok = true → Checks x rest) :
    Checks x ((is, ok) :: rest) := ⟨fun _ => ⟨i, hi, hx⟩, h⟩

/-- One field. -/
theorem Checks.field (ht : ok = true → ∃ a, x = .ok a) (hf : ok = false → x = .error i) : Checks x [([i], ok)] :=
  ⟨fun h => ⟨i, List.mem_singleton_self i, hf h⟩, ht⟩

/-- One field of those that a test may name. -/
theorem Checks.among {is : List Nat} (h : Checks x [([i], ok)]) (hi : i ∈ is) : Checks x [(is, ok)] := by
  refine ⟨fun hok => ?_, h.2⟩
  obtain ⟨j, hj, hx⟩ := h.1 hok
  exact ⟨i, hi, List.mem_singleton.mp hj ▸ hx⟩

/-- The fields of a part of the body, then those of the rest. -/
theorem Checks.append (hx : Checks x tests) (h : ∀ a, x = .ok a → Checks (f a) rest) : Checks (x >>= f) (tests ++ rest) := by
  induction tests with
  | nil =>
    obtain ⟨a, rfl⟩ := hx
    exact h a rfl
  | cons t tests ih =>
    obtain ⟨hf, ht⟩ := hx
    refine ⟨fun hok => ?_, fun hok => ih (ht hok)⟩
    obtain ⟨i, hi, rfl⟩ := hf hok
    exact ⟨i, hi, rfl⟩

theorem Checks.cons {t : List Nat × Bool} (hx : Checks x [t]) (h : ∀ a, x = .ok a → Checks (f a) rest) :
    Checks (x >>= f) (t :: rest) := hx.append h

/-! ### Single fields -/

theorem need_checks {c : Bool} (h : c = ok) : Checks (need i c) [([i], ok)] := by
  subst h
  exact .field (fun hc => ⟨(), by rw [hc]; rfl⟩) fun hc => by rw [hc]; rfl

theorem fieldBelow_checks {n v : Nat} : Checks (fieldBelow (n + 1) i v) [([i], decide (v ≤ n))] := by
  refine .field (fun h => ?_) fun h => ?_
  · have hv : v < n + 1 := Nat.lt_succ_of_le (of_decide_eq_true h)
    exact ⟨⟨v, hv⟩, dif_pos hv⟩
  · exact dif_neg (by have := of_decide_eq_false h; omega)

theorem fieldYesNo_checks {v : Byte} : Checks (fieldYesNo i v) [([i], isYesNo v)] := by
  refine .field (fun h => ?_) fun h => ?_
  · simp only [isYesNo, Bool.or_eq_true, beq_iff_eq] at h
    obtain rfl | rfl := h
    · exact ⟨false, rfl⟩
    · exact ⟨true, rfl⟩
  · simp only [isYesNo, Bool.or_eq_false_iff, beq_eq_false_iff_ne] at h
    rw [fieldYesNo, if_neg h.1, if_neg h.2]

theorem fieldCode_checks {values : List α} {v n : Nat} (hn : values.length = n + 1) :
    Checks (fieldCode values i v) [([i], decide (v ≤ n))] := by
  refine .field (fun h => ?_) fun h => ?_
  · have hv : v < values.length := by have := of_decide_eq_true h; omega
    exact ⟨values[v], by simp only [fieldCode, List.getElem?_eq_getElem hv]⟩
  · have hv : values.length ≤ v := by have := of_decide_eq_false h; omega
    simp only [fieldCode, List.getElem?_eq_none hv]

theorem fieldYesNo_eq_ok {v : Byte} {a : Bool} (h : fieldYesNo i v = .ok a) : v = yesNo a := by
  simp only [fieldYesNo] at h
  split at h
  · cases h; assumption
  split at h
  · cases h; assumption
  · cases h

end

/-! ### The bodies -/

section
variable (b : List Byte)

theorem decide_one_le (n : Nat) : decide (1 ≤ n) = (n != 0) := by
  cases n <;> simp

theorem parsePort_checks : Checks (parsePort b) [([1], decide (num1 b 0 ≤ 3))] := fieldBelow_checks

theorem parseStore_checks : Checks (parseStore b) [([1], decide (num1 b 0 ≤ 7))] := fieldBelow_checks

theorem parseRule_checks : Checks (parseRule b) [([1], decide (num1 b 0 ≤ 127))] := fieldBelow_checks

theorem parsePortConfig_checks : Checks (parsePortConfig b) (Kind.fieldTests .portConfig b) := by
  refine .cons fieldBelow_checks fun p _ => ?_
  refine .cons (need_checks (Bool.decide_and _ _).symm) fun _ _ => ?_
  refine .cons (need_checks rfl) fun _ _ => ?_
  refine .cons (fieldCode_checks rfl) fun parity _ => ?_
  refine .cons (need_checks rfl) fun _ _ => ?_
  refine .cons (fieldCode_checks rfl) fun duplex _ => ?_
  refine .cons (need_checks (decide_one_le _)) fun _ _ => .pure _

/-- R76. The field offset and width: each in its range, and the field inside the longest frame. -/
theorem offsetWidth_checks (maxLength offset width : Nat) :
    let wide : Bool := width == 1 || width == 2
    let fits : Bool := decide (offset + width ≤ maxLength)
    Checks ((offsetWidthField maxLength offset width).elim (.ok ()) .error)
      [([18], decide (offset ≤ 15)), ([18], !wide || fits), ([19], wide || !fits), ([18, 19], wide)] := by
  intro wide fits
  have hw : wide = true ↔ width = 1 ∨ width = 2 := by simp [wide]
  have hf : fits = true ↔ offset + width ≤ maxLength := decide_eq_true_iff
  refine ⟨fun h => ?_, fun h15 => ?_⟩
  · have := of_decide_eq_false h
    exact ⟨18, by simp, by rw [offsetWidthField, if_pos (by omega)]; rfl⟩
  rw [offsetWidthField, if_neg (by have := of_decide_eq_true h15; omega)]
  cases hwide : wide with
  | true =>
    rw [if_pos (hw.mp hwide)]
    refine ⟨fun h => ⟨18, by simp, ?_⟩, fun h => ?_⟩
    · rw [if_pos (by have := mt hf.mpr (by simpa using h); omega)]
      rfl
    · rw [if_neg (by have := hf.mp (by simpa using h); omega)]
      exact ⟨nofun, fun _ => ⟨nofun, fun _ => ⟨(), rfl⟩⟩⟩
  | false =>
    rw [if_neg (mt hw.mpr (by simp [hwide]))]
    refine ⟨nofun, fun _ => ⟨fun h => ⟨19, by simp, ?_⟩, fun _ => ⟨fun _ => ?_, nofun⟩⟩⟩
    · rw [if_neg (by have := hf.mp (by simpa using h); omega)]
      rfl
    · split
      · exact ⟨18, by simp, rfl⟩
      · exact ⟨19, by simp, rfl⟩

/-- A check that names a field, or none, and the checks after it. -/
theorem Checks.optional {α : Type} {o : Option Nat} {x : Except Nat α} {tests rest : List (List Nat × Bool)}
    (ho : Checks (o.elim (.ok ()) .error) tests) (h : o = none → Checks x rest) :
    Checks (match o with | some i => .error i | none => x) (tests ++ rest) := by
  cases o with
  | none => exact ho.append (f := fun _ => x) fun _ _ => h rfl
  | some i => exact ho.append (f := fun _ => x) nofun

theorem parseFramerConfig_checks : Checks (parseFramerConfig b) (Kind.fieldTests .framerConfig b) := by
  refine .cons fieldBelow_checks fun p _ => ?_
  refine .cons (fieldCode_checks rfl) fun mode _ => ?_
  refine .cons (need_checks (Bool.decide_and _ _).symm) fun _ _ => ?_
  refine .cons (fieldCode_checks rfl) fun tooLong _ => ?_
  refine .cons (fieldCode_checks rfl) fun incomplete _ => ?_
  refine .cons (fieldCode_checks rfl) fun charError _ => ?_
  refine .cons (need_checks rfl) fun _ _ => ?_
  refine .cons (need_checks rfl) fun _ _ => ?_
  refine .cons (need_checks (Bool.decide_and _ _).symm) fun _ _ => ?_
  refine .cons fieldYesNo_checks fun keepDelimiters _ => ?_
  refine .cons fieldYesNo_checks fun escapePresent hescape => ?_
  refine .cons (need_checks ?_) fun _ _ => ?_
  · rw [fieldYesNo_eq_ok hescape]
    cases escapePresent <;> rfl
  refine .cons fieldYesNo_checks fun keepEscape _ => ?_
  refine .cons fieldYesNo_checks fun syncPresent _ => ?_
  refine .optional (offsetWidth_checks _ _ _) fun _ => ?_
  refine .cons (fieldCode_checks rfl) fun order _ => ?_
  refine .cons (need_checks (Bool.decide_and _ _).symm) fun _ _ => ?_
  exact .cons (need_checks rfl) fun _ _ => .pure _

/-- R3. The length minimum and maximum. -/
theorem lengthRange_checks (low high : Nat) : Checks ((lengthRangeField low high).elim (.ok ()) .error)
    [([6], low != 0), ([7], decide (1024 < low ∨ high ≤ 1024)), ([6, 7], decide (low ≤ high ∧ high ≤ 1024))] := by
  refine ⟨fun h => ⟨6, by simp, ?_⟩, fun h0 => ⟨fun h => ⟨7, by simp, ?_⟩, fun h7 => ⟨fun h => ?_, fun h => ?_⟩⟩⟩
  · rw [lengthRangeField, if_pos (by simpa using h)]
    rfl
  · have := of_decide_eq_false h
    rw [lengthRangeField, if_neg (by simpa using h0), if_pos (by omega)]
    rfl
  · have h7 := of_decide_eq_true h7
    have := of_decide_eq_false h
    rw [lengthRangeField, if_neg (by simpa using h0), if_neg (by omega), if_neg (by omega)]
    split
    · exact ⟨7, by simp, rfl⟩
    · exact ⟨6, by simp, rfl⟩
  · have := of_decide_eq_true h
    rw [lengthRangeField, if_neg (by simpa using h0), if_neg (by omega), if_pos (by omega)]
    exact ⟨(), rfl⟩

/-- R1. The action of a rule, whose target and class are checked where the kind has them. -/
theorem parseAction_checks (kind target cls ttl : Nat) : Checks (parseAction kind target cls ttl)
    [([9], decide (kind ≤ 4)),
      ([10], match kind with
        | 1 => decide (target ≤ 7)
        | 2 => decide (target ≤ 3)
        | 3 => decide (target ≤ 15)
        | _ => true),
      ([11], match kind with
        | 2 => decide (cls ≤ 3)
        | 3 => decide (cls ≤ 3)
        | _ => true)] := by
  match kind with
  | 0 | 4 => exact .passed (.passed (.passed (.pure _)))
  | 1 => exact .passed (.cons fieldBelow_checks fun i _ => .passed (.pure _))
  | 2 => exact .passed (.cons fieldBelow_checks fun p _ => .cons fieldBelow_checks fun c _ => .pure _)
  | 3 => exact .passed (.cons fieldBelow_checks fun t _ => .cons fieldBelow_checks fun c _ => .pure _)
  | n + 5 => exact ⟨fun _ => ⟨9, by simp, rfl⟩, fun h => absurd (of_decide_eq_true h) (by omega)⟩

theorem parseRuleWrite_checks (hl : lengthAllowed .ruleWrite b.length = true) :
    Checks (parseRuleWrite b) (Kind.fieldTests .ruleWrite b) := by
  obtain ⟨n, -, hn⟩ := (lengthAllowed_ruleWrite _).mp hl
  refine .cons fieldBelow_checks fun r _ => ?_
  refine .cons fieldYesNo_checks fun enabled _ => ?_
  refine .cons fieldYesNo_checks fun oneShot _ => ?_
  refine .cons fieldYesNo_checks fun goOn _ => ?_
  refine .cons (need_checks rfl) fun _ _ => ?_
  refine .optional (lengthRange_checks _ _) fun _ => ?_
  refine .cons (fieldCode_checks rfl) fun filter _ => ?_
  refine .append (parseAction_checks _ _ _ _) fun action _ => ?_
  refine .cons (need_checks ?_) fun _ _ => .pure _
  rw [Bool.beq_eq_decide_eq, decide_eq_decide]
  omega

theorem parseRuleLink_checks : Checks (parseRuleLink b) (Kind.fieldTests .ruleLink b) := by
  refine .cons fieldBelow_checks fun r _ => ?_
  refine .cons fieldBelow_checks fun p _ => ?_
  split
  · rename_i h
    exact ⟨fun hf => absurd hf (by simp [h]), fun _ => .pure _⟩
  · rename_i h
    have htest : (decide (num1 b 2 ≤ 127) || num1 b 2 == 255) = decide (num1 b 2 ≤ 127) := by simp [h]
    rw [htest]
    exact .cons fieldBelow_checks fun a _ => .pure _

theorem parseRuleEnable_checks : Checks (parseRuleEnable b) (Kind.fieldTests .ruleEnable b) :=
  .cons fieldBelow_checks fun _ _ => .cons fieldYesNo_checks fun _ _ => .pure _

theorem parseDefaultSet_checks : Checks (parseDefaultSet b) (Kind.fieldTests .defaultSet b) := by
  refine .cons fieldBelow_checks fun p _ => ?_
  split
  · rename_i h
    simp only [h]
    exact ⟨nofun, fun _ => ⟨nofun, fun _ => .pure _⟩⟩
  · rename_i h
    simp only [h]
    exact ⟨nofun, fun _ => .cons fieldBelow_checks fun i _ => .pure _⟩
  · rename_i h0 h1
    refine .failed 2 (by simp) rfl fun h => ?_
    have hle : num1 b 1 ≤ 1 := of_decide_eq_true h
    obtain hlt | heq := Nat.lt_or_eq_of_le hle
    · exact absurd (Nat.lt_one_iff.mp hlt) h0
    · exact absurd heq h1

theorem parseStoreConfig_checks : Checks (parseStoreConfig b) (Kind.fieldTests .storeConfig b) := by
  refine .cons fieldBelow_checks fun i _ => ?_
  refine .cons (need_checks (decide_one_le _)) fun _ _ => ?_
  refine .cons (need_checks rfl) fun _ _ => ?_
  refine .cons (fieldCode_checks rfl) fun policy _ => ?_
  refine .cons (need_checks (Bool.decide_and _ _).symm) fun _ _ => ?_
  exact .cons (need_checks rfl) fun _ _ => .pure _

theorem parseStoreRead_checks : Checks (parseStoreRead b) (Kind.fieldTests .storeRead b) := by
  refine .cons fieldBelow_checks fun i _ => ?_
  refine .cons (fieldCode_checks rfl) fun take _ => ?_
  refine .cons (need_checks (Bool.decide_and _ _).symm) fun _ _ => ?_
  exact .cons (need_checks (Bool.decide_and _ _).symm) fun _ _ => .pure _

theorem parseStoreAck_checks : Checks (parseStoreAck b) (Kind.fieldTests .storeAck b) :=
  .cons fieldBelow_checks fun _ _ => .pure _

theorem parseSend_checks : Checks (parseSend b) (Kind.fieldTests .send b) :=
  .cons fieldBelow_checks fun _ _ => .cons fieldBelow_checks fun _ _ => .cons fieldYesNo_checks fun _ _ => .pure _

theorem parseSendId_checks : Checks (parseSendId b) [([1], num2 b 0 != 0)] := .cons (need_checks rfl) fun _ _ => .pure _

theorem parsePortDrain_checks : Checks (parsePortDrain b) (Kind.fieldTests .portDrain b) :=
  .cons fieldBelow_checks fun _ _ => .cons (need_checks rfl) fun _ _ => .pure _

theorem parseMemoryLowSet_checks : Checks (parseMemoryLowSet b) (Kind.fieldTests .memoryLowSet b) :=
  .cons (need_checks rfl) fun _ _ => .pure _

theorem parseNoticeCredit_checks : Checks (parseNoticeCredit b) (Kind.fieldTests .noticeCredit b) :=
  .cons (need_checks rfl) fun _ _ => .pure _

theorem parseNoticeMask_checks : Checks (parseNoticeMask b) (Kind.fieldTests .noticeMask b) :=
  .cons (need_checks (decide_eq_decide.mpr Nat.lt_succ_iff)) fun _ _ => .pure _

theorem parseOpCancel_checks : Checks (parseOpCancel b) (Kind.fieldTests .opCancel b) := by
  refine .cons (need_checks ?_) fun _ _ => .pure _
  simp [num1, bne, Bool.beq_eq_decide_eq, BitVec.toNat_eq]

/-- R169. A counter group. -/
theorem parseGroup_checks : Checks (parseGroup (num1 b 0) (num1 b 1)) (Kind.fieldTests.groupTests b) := by
  rw [Kind.fieldTests.groupTests]
  generalize num1 b 0 = group
  match group with
  | 0 => exact ⟨nofun, fun _ => .cons fieldBelow_checks fun _ _ => .pure _⟩
  | 1 => exact ⟨nofun, fun _ => .cons fieldBelow_checks fun _ _ => .pure _⟩
  | 2 => exact ⟨nofun, fun _ => .cons fieldBelow_checks fun _ _ => .pure _⟩
  | 3 => exact ⟨nofun, fun _ => .cons (need_checks rfl) fun _ _ => .pure _⟩
  | 4 => exact ⟨nofun, fun _ => .cons (need_checks rfl) fun _ _ => .pure _⟩
  | n + 5 => exact ⟨fun _ => ⟨1, by simp, rfl⟩, fun h => absurd (of_decide_eq_true h) (by omega)⟩

theorem parseCountersRead_checks : Checks (parseCountersRead b) (Kind.fieldTests .countersRead b) :=
  .append (parseGroup_checks b) fun _ _ => .cons fieldYesNo_checks fun _ _ => .pure _

theorem parseTemplateWrite_checks (hl : lengthAllowed .templateWrite b.length = true) :
    Checks (parseTemplateWrite b) (Kind.fieldTests .templateWrite b) := by
  have hlen : 7 ≤ b.length := by
    simp only [lengthAllowed, Bool.and_eq_true, decide_eq_true_eq] at hl
    exact hl.1
  have hcount : decide (7 + num1 b 6 = b.length) = (num1 b 6 == b.length - 7) := by
    rw [Bool.beq_eq_decide_eq, decide_eq_decide]
    omega
  refine .cons fieldBelow_checks fun t _ => ?_
  refine .cons fieldYesNo_checks fun echo hecho => ?_
  have he : (byteAt b 1 == 1) = echo := by
    rw [fieldYesNo_eq_ok hecho]
    cases echo <;> rfl
  simp only [he, hcount]
  cases hhollow : echo && num1 b 6 == 0 with
  | false =>
    rw [Bool.false_and, Bool.not_false, need_true, except_bind_ok]
    refine .passed (.passed (.passed (.passed ?_)))
    refine .cons (need_checks rfl) fun _ _ => ?_
    refine .cons (need_checks rfl) fun _ _ => ?_
    refine .cons (need_checks (by rw [Bool.decide_and])) fun _ _ => ?_
    exact .cons (need_checks (by simp)) fun _ _ => .pure _
  | true =>
    cases Config.emptyEchoNamesPresence with
    | true => exact .failed 2 (by simp) rfl fun _ => .failed 2 (by simp) rfl fun _ => .failed 2 (by simp) rfl fun _ =>
        .failed 2 (by simp) rfl nofun
    | false =>
      rw [Bool.and_false, Bool.not_false, need_true, except_bind_ok]
      refine .cons (.among (need_checks rfl) (by simp)) fun _ _ => ?_
      refine .cons (.among (need_checks rfl) (by simp)) fun _ _ => ?_
      refine .cons (.among (need_checks (by rw [Bool.decide_and]; rfl)) (by simp)) fun _ _ => ?_
      refine .failed 6 (by simp) ?_ nofun
      rw [Bool.not_true, Bool.and_false]
      rfl

end

/-! ### The checks of the Executor -/

/-- R145, R174. Each request row checks the length and the fields of its kind. -/
theorem exec_instr_checks (k : Kind) (s : State) :
    ∃ (α : Type) (parse : List Byte → Except Nat α) (act : Byte → α → State → State × Response),
      exec k.instr s = s.execRequest k parse act ∧
      ∀ body, lengthAllowed k body.length = true → Checks (parse body) (k.fieldTests body) := by
  cases k with
  | hello | ping | restart | timeGet | timeSet | memoryStatus | memoryCheck | opList =>
    exact ⟨_, _, _, rfl, fun _ _ => .pure _⟩
  | portStart | portPause | portResume | portStop | portReset | portStatus | chainList =>
    exact ⟨_, _, _, rfl, fun b _ => parsePort_checks b⟩
  | storeOpen | storePause | storeClose | storeRewind | storeStatus | storePurge =>
    exact ⟨_, _, _, rfl, fun b _ => parseStore_checks b⟩
  | storeAck => exact ⟨_, _, _, rfl, fun b _ => parseStoreAck_checks b⟩
  | ruleUnlink | ruleFree | ruleRead => exact ⟨_, _, _, rfl, fun b _ => parseRule_checks b⟩
  | sendCancel | sendStatus => exact ⟨_, _, _, rfl, fun b _ => parseSendId_checks b⟩
  | opCancel => exact ⟨_, _, _, rfl, fun b _ => parseOpCancel_checks b⟩
  | memoryLowSet => exact ⟨_, _, _, rfl, fun b _ => parseMemoryLowSet_checks b⟩
  | noticeCredit => exact ⟨_, _, _, rfl, fun b _ => parseNoticeCredit_checks b⟩
  | noticeMask => exact ⟨_, _, _, rfl, fun b _ => parseNoticeMask_checks b⟩
  | portConfig => exact ⟨_, _, _, rfl, fun b _ => parsePortConfig_checks b⟩
  | framerConfig => exact ⟨_, _, _, rfl, fun b _ => parseFramerConfig_checks b⟩
  | ruleWrite => exact ⟨_, _, _, rfl, fun b hl => parseRuleWrite_checks b hl⟩
  | ruleLink => exact ⟨_, _, _, rfl, fun b _ => parseRuleLink_checks b⟩
  | ruleEnable => exact ⟨_, _, _, rfl, fun b _ => parseRuleEnable_checks b⟩
  | defaultSet => exact ⟨_, _, _, rfl, fun b _ => parseDefaultSet_checks b⟩
  | templateWrite => exact ⟨_, _, _, rfl, fun b hl => parseTemplateWrite_checks b hl⟩
  | storeConfig => exact ⟨_, _, _, rfl, fun b _ => parseStoreConfig_checks b⟩
  | storeRead => exact ⟨_, _, _, rfl, fun b _ => parseStoreRead_checks b⟩
  | send => exact ⟨_, _, _, rfl, fun b _ => parseSend_checks b⟩
  | portDrain => exact ⟨_, _, _, rfl, fun b _ => parsePortDrain_checks b⟩
  | countersRead => exact ⟨_, _, _, rfl, fun b _ => parseCountersRead_checks b⟩
  | countersClear => exact ⟨_, _, _, rfl, fun b _ => parseGroup_checks b⟩

/-- R145. A request of no request kind is answered and has no other effect. -/
theorem State.unknownRequest_taken {s : State} {m : Message} {rest : List Message} (hidle : s.link.executor = .idle)
    (hplace : s.link.replies.length + s.link.reserved < 12) (hhead : s.link.requests = m :: rest)
    (hk : ∀ k : Kind, k.code ≠ m.kind) : s.unknownRequest = { s with
      link := { s.link with requests := rest, replies := s.link.replies ++ [⟨⟨0xFF, m.tag, [4]⟩, .ordinary⟩] }
      ops := { s.ops with entries := s.ops.entries.map fun e => { e with replyPending := false } } } := by
  conv_lhs => simp only [State.unknownRequest, hidle, hhead, isRequestKind_eq_false hk, (Link.placeFree_iff _).mpr hplace,
    Bool.not_false, Bool.and_self, if_true, State.answer, State.modLink, Nat.add_sub_cancel, replyKind_unknown hk]
  rw [← hidle]
  rfl

/-- Settles O10: what a row checks of its bodies is the length and the tests of its kind, in their order. -/
theorem executorChecks : Obligations.ExecutorChecks := by
  refine ⟨fun s m rest hr hidle hplace hhead hk => ?_, fun s k tag body rest hw hl => ?_,
    fun s k tag body rest hw hl before is after ht hb => ?_⟩
  · exact (State.unlessReset_running hr _).trans (congrArg _ (State.unknownRequest_taken hidle hplace hhead hk))
  · obtain ⟨α, parse, act, hx, -⟩ := exec_instr_checks k s
    rw [hx, State.execRequest_badLength hw hl]
  · obtain ⟨α, parse, act, hx, hchecks⟩ := exec_instr_checks k s
    obtain ⟨i, hi, hparse⟩ := (hchecks body hl).names ht hb
    exact ⟨i, hi, hx.trans (State.execRequest_badParam hw hl hparse)⟩

end Sys2Proof.Machine
end

