-- ==== Sys2Proof/Proofs/NoticeRules.lean ====
section
namespace Sys2Proof.Machine

/-! ### A change of the one element that a test picks -/

section
variable {α : Type} (test : α → Bool) {before after : List α} {a : α}

theorem map_picked (ha : test a = true) (hothers : ∀ x ∈ before ++ after, test x = false) (g : α → α) :
    ((before ++ a :: after).map fun x => if test x then g x else x) = before ++ g a :: after := by
  have keep : ∀ l : List α, (∀ x ∈ l, test x = false) → (l.map fun x => if test x then g x else x) = l :=
    fun l hl => (List.map_congr_left fun x hx => by simp [hl x hx]).trans (List.map_id l)
  rw [List.map_append, List.map_cons, if_pos ha, keep before fun x hx => hothers x (List.mem_append_left _ hx),
    keep after fun x hx => hothers x (List.mem_append_right _ hx)]

end

/-! ### R157. The four tests of a notice raised -/

/-- R157, R158. The entry with one more notice counted in it, not above 65,535. -/
def Notice.gathered (n : Notice) (now : Word) (detail : Detail) : Notice :=
  { n with count := min (n.count + 1) 65535, last := now, detail := detail }

section
variable {q : NoticeQueue} {k : NoticeKind} {subject : Nat} {before after : List Notice} {n : Notice}

theorem Notice.same_eq_false (h : ¬ (n.kind = k ∧ n.subject = subject)) : n.same k subject = false :=
  Bool.eq_false_iff.mpr fun hs => h (Prod.mk.inj ((n.same_iff k subject).mp hs))

theorem NoticeQueue.raise_masked (h : q.masked k = true) (detail : Detail) (now : Word) :
    q.raise k subject detail now = q := if_pos h

theorem NoticeQueue.raise_gathered (hm : ¬ q.masked k = true) (he : q.entries = before ++ n :: after)
    (hn : n.same k subject = true) (hothers : ∀ x ∈ before ++ after, x.same k subject = false) (detail : Detail)
    (now : Word) :
    q.raise k subject detail now = { q with entries := before ++ n.gathered now detail :: after } := by
  have hany : (q.entries.any fun x => x.same k subject) = true := List.any_eq_true.mpr ⟨n, by simp [he], hn⟩
  rw [NoticeQueue.raise, if_neg hm, if_pos hany, he]
  exact congrArg (NoticeQueue.mk · _ _)
    (map_picked (fun x : Notice => x.same k subject) hn hothers (·.gathered now detail))

theorem NoticeQueue.raise_new (hm : ¬ q.masked k = true) (hnew : ∀ x ∈ q.entries, x.same k subject = false)
    (detail : Detail) (now : Word) : q.raise k subject detail now =
      if q.ordinary < 15 then { q with entries := q.entries ++ [⟨k, subject, 1, now, now, detail⟩] }
      else q.lose now := by
  have hany : ¬ (q.entries.any fun x => x.same k subject) = true := by simpa using hnew
  rw [NoticeQueue.raise, if_neg hm, if_neg hany]

/-! ### R158. A notice lost -/

theorem NoticeQueue.lose_first (h : ∀ x ∈ q.entries, x.kind ≠ .noticeOverflow) (now : Word) :
    q.lose now = { q with entries := q.entries ++ [⟨.noticeOverflow, 0, 1, now, now, .lost 1⟩] } := by
  have hany : ¬ (q.entries.any fun x => x.kind == .noticeOverflow) = true := by simpa using h
  rw [NoticeQueue.lose, if_neg hany]

theorem NoticeQueue.lose_counted (he : q.entries = before ++ n :: after) (hn : n.kind = .noticeOverflow)
    (hothers : ∀ x ∈ before ++ after, x.kind ≠ .noticeOverflow) (now : Word) : q.lose now =
      { q with entries := before ++ n.gathered now (.lost (min (n.count + 1) 65535)) :: after } := by
  have hpick : (n.kind == .noticeOverflow) = true := beq_iff_eq.mpr hn
  have hany : (q.entries.any fun x => x.kind == .noticeOverflow) = true :=
    List.any_eq_true.mpr ⟨n, by simp [he], hpick⟩
  rw [NoticeQueue.lose, if_pos hany, he]
  exact congrArg (NoticeQueue.mk · _ _) (map_picked (fun x : Notice => x.kind == .noticeOverflow) hpick
    (fun x hx => beq_eq_false_iff_ne.mpr (hothers x hx)) fun x => x.gathered now (.lost (min (x.count + 1) 65535)))

end

/-- Settles O48: a notice raised changes the Notice Queue alone, and the queue by the first test that decides. -/
theorem noticeRaised : Obligations.NoticeRaised := by
  intro s k subject detail _ q queued ordinary masked gather
  have raised {next : NoticeQueue} (h : q.raise k subject detail s.timebase = next) :
      s.raise k subject detail = { s with notices := next } :=
    (s.raise_eq k subject detail).trans (congrArg (fun x => { s with notices := x }) h)
  refine ⟨raised rfl, fun hm => raised (NoticeQueue.raise_masked hm detail s.timebase),
    fun hm before n after he hk hs hothers => ?_, fun hm hnew => ?_⟩
  · have hn := (n.same_iff k subject).mpr (Prod.ext hk hs)
    have hfalse := fun x hx => Notice.same_eq_false (hothers x hx)
    exact raised (NoticeQueue.raise_gathered hm he hn hfalse detail s.timebase)
  · have hraise := NoticeQueue.raise_new hm (fun x hx => Notice.same_eq_false (hnew x hx)) detail s.timebase
    have lost (h : 15 ≤ ordinary) : q.raise k subject detail s.timebase = q.lose s.timebase :=
      hraise.trans (if_neg (Nat.not_lt.mpr h))
    refine ⟨fun h => raised (hraise.trans (if_pos h)), fun h hnone => ?_, fun before n after h he hn hothers => ?_⟩
    · exact raised ((lost h).trans (NoticeQueue.lose_first hnone s.timebase))
    · exact raised ((lost h).trans (NoticeQueue.lose_counted he hn hothers s.timebase))

end Sys2Proof.Machine
end

