-- ==== Sys2Proof/Proofs/FrontCommand.lean ====
section
namespace Sys2Proof.Machine

/-- A waiting command goes before every timed event: what is due is not looked at. -/
theorem step_of_pending {s : State} {c : Instr} {rest : List Instr} (h : s.pending = c :: rest) :
    step s = exec c { s with pending := rest } := by
  simp only [step, h]

/-- Settles O1: the command is taken off the queue, of which the state then holds the rest. -/
theorem stepRunsFrontCommand : Obligations.StepRunsFrontCommand := fun _ _ _ =>
  step_of_pending rfl

end Sys2Proof.Machine
end
